-- ==== Sys2Proof/Word.lean ====
section
/-! DEFINITION. The words of the core: 32-bit bus and command words, 8-bit symbols. -/

namespace Sys2Proof

/-- A bus data word, a command word, a counter, a token word (20_memory.md R61, R72). -/
abbrev Word := BitVec 32

/-- A symbol: an unsigned 8-bit value (00_scope.md R7 `SYMW`, R15). -/
abbrev Byte := BitVec 8

end Sys2Proof
end

