-- ==== Sys2Proof/Syntax.lean ====
section
/-! DEFINITION. The commands: one constructor per row of spec/opcode_table.json (30_encoding.md R96). -/

namespace Sys2Proof

/-- The window-select operand: 0 is HWIN, 1 is LWIN (30_encoding.md R92, R95). -/
inductive WinSel where
  | hwin
  | lwin
deriving DecidableEq, Repr

/-- A command with its operands (30_encoding.md R95): `sym` is an 8-bit symbol, `bit` one bit, `sel` a window,
and the 12-bit immediate a natural whose range `Instr.wellFormed` checks. -/
inductive Instr where
  | nop
  | frqClear
  | frqCount
  | frqInc (sym : Byte)
  | hufBuild
  | hufEncode
  | hufPutsym (sym : Byte)
  | hufDecode
  | hufDecbit (bit : Bool)
  | hufDecend
  | winInit (sel : WinSel) (cap : Nat)
  | winPush (sel : WinSel) (sym : Byte)
  | winPushn (sel : WinSel)
  | winEvict (sel : WinSel) (cnt : Nat)
  | winRead (sel : WinSel) (idx : Nat)
  | lzEncode
  | lzEncstep
  | lzDecode
  | lzDectok
deriving DecidableEq, Repr

end Sys2Proof
end

