-- ==== Sys2Proof/WellFormed.lean ====
section
/-! DEFINITION. Which commands have a word: the immediate fits its field (30_encoding.md R94, R95, R100). -/

namespace Sys2Proof

/-- The range of the 12-bit immediate, 0..4095 (30_encoding.md R95). -/
def immFits (n : Nat) : Bool := decide (n < 4096)

/-- "An operand out of its field's range is an assembly error, not a word" (30_encoding.md R100). The symbol, bit
and window operands are in range by their types. -/
def Instr.wellFormed : Instr → Bool
  | .nop => true
  | .frqClear => true
  | .frqCount => true
  | .frqInc _ => true
  | .hufBuild => true
  | .hufEncode => true
  | .hufPutsym _ => true
  | .hufDecode => true
  | .hufDecbit _ => true
  | .hufDecend => true
  | .winInit _ cap => immFits cap
  | .winPush _ _ => true
  | .winPushn _ => true
  | .winEvict _ cnt => immFits cnt
  | .winRead _ idx => immFits idx
  | .lzEncode => true
  | .lzEncstep => true
  | .lzDecode => true
  | .lzDectok => true

end Sys2Proof
end

