-- ==== Sys2Proof/Decode.lean ====
section
/-! DEFINITION. Command words: the opcode map, the decoder (total on all words, rejecting by name), the encoder. -/

namespace Sys2Proof

/-- Why a word is no command (30_encoding.md R98). -/
inductive Illegal where
  /-- (a) bits [7:0] are none of the 19 opcodes -/
  | unassignedOp (op : BitVec 8)
  /-- (b) the opcode is assigned but a reserved bit of its format is 1 -/
  | reservedBit (op : BitVec 8)
deriving DecidableEq, Repr

/-- Bits [7:0]: the opcode (30_encoding.md R88). -/
def opField (w : Word) : BitVec 8 := w.extractLsb' 0 8

/-- Bits [15:8] of format S: the symbol (30_encoding.md R90). -/
def symFieldS (w : Word) : Byte := w.extractLsb' 8 8

/-- Bit [8] of format B: the bit (30_encoding.md R91). -/
def bitField (w : Word) : Bool := w.getLsbD 8

/-- Bit [8] of formats WN, WS and WI: the window select, 0 = HWIN, 1 = LWIN (30_encoding.md R92). -/
def selField (w : Word) : WinSel := if w.getLsbD 8 then .lwin else .hwin

/-- Bits [23:16] of format WS: the symbol (30_encoding.md R93). -/
def symFieldWS (w : Word) : Byte := w.extractLsb' 16 8

/-- Bits [27:16] of format WI: the 12-bit immediate, zero-extended to a natural (30_encoding.md R94, R95). -/
def immField (w : Word) : Nat := (w.extractLsb' 16 12).toNat

/-- One row of the opcode map (30_encoding.md R96). -/
structure OpRow where
  mask : Word
  pattern : Word
  build : Word → Instr

/-- The mask of each format (30_encoding.md R89 to R94). -/
abbrev maskN : Word := 0xFFFFFFFF#32
abbrev maskS : Word := 0xFFFF00FF#32
abbrev maskB : Word := 0xFFFFFEFF#32
abbrev maskWN : Word := 0xFFFFFEFF#32
abbrev maskWS : Word := 0xFF00FEFF#32
abbrev maskWI : Word := 0xF000FEFF#32

/-- The opcode map, row by row in the table's order (30_encoding.md R96, opcode_table.json). -/
def opcodeMap : List OpRow := [
  ⟨maskN, 0x00000000#32, fun _ => .nop⟩,
  ⟨maskN, 0x00000010#32, fun _ => .frqClear⟩,
  ⟨maskN, 0x00000011#32, fun _ => .frqCount⟩,
  ⟨maskS, 0x00000012#32, fun w => .frqInc (symFieldS w)⟩,
  ⟨maskN, 0x00000020#32, fun _ => .hufBuild⟩,
  ⟨maskN, 0x00000030#32, fun _ => .hufEncode⟩,
  ⟨maskS, 0x00000031#32, fun w => .hufPutsym (symFieldS w)⟩,
  ⟨maskN, 0x00000038#32, fun _ => .hufDecode⟩,
  ⟨maskB, 0x00000039#32, fun w => .hufDecbit (bitField w)⟩,
  ⟨maskN, 0x0000003A#32, fun _ => .hufDecend⟩,
  ⟨maskWI, 0x00000040#32, fun w => .winInit (selField w) (immField w)⟩,
  ⟨maskWS, 0x00000041#32, fun w => .winPush (selField w) (symFieldWS w)⟩,
  ⟨maskWN, 0x00000042#32, fun w => .winPushn (selField w)⟩,
  ⟨maskWI, 0x00000043#32, fun w => .winEvict (selField w) (immField w)⟩,
  ⟨maskWI, 0x00000044#32, fun w => .winRead (selField w) (immField w)⟩,
  ⟨maskN, 0x00000050#32, fun _ => .lzEncode⟩,
  ⟨maskN, 0x00000051#32, fun _ => .lzEncstep⟩,
  ⟨maskN, 0x00000058#32, fun _ => .lzDecode⟩,
  ⟨maskN, 0x00000059#32, fun _ => .lzDectok⟩]

/-- "A word selects a command exactly when `(word & mask) == match`" (30_encoding.md R96). -/
def OpRow.selects (r : OpRow) (w : Word) : Bool := (w &&& r.mask) == r.pattern

/-- Whether bits [7:0] are an assigned opcode (30_encoding.md R98). -/
def opAssigned (op : BitVec 8) : Bool := opcodeMap.any fun r => opField r.pattern == op

/-- `Decode(w)`, total on all words (30_encoding.md R97): the first row that selects the word, else Illegal, named
by which of the two kinds of R98 the word is. -/
def decode (w : Word) : Except Illegal Instr :=
  match opcodeMap.find? fun r => r.selects w with
  | some r => .ok (r.build w)
  | none =>
    if opAssigned (opField w) then .error (.reservedBit (opField w)) else .error (.unassignedOp (opField w))

/-- The window-select bit as a word (30_encoding.md R95). -/
def selBit : WinSel → Word
  | .hwin => 0#32
  | .lwin => 1#32

/-- Format S: `op | sym << 8` (30_encoding.md R90, R100). -/
def formatS (op : Word) (sym : Byte) : Word := op ||| (sym.setWidth 32 <<< 8)

/-- Format B: `op | bit << 8` (30_encoding.md R91, R100). -/
def formatB (op : Word) (bit : Bool) : Word := op ||| ((if bit then 1#32 else 0#32) <<< 8)

/-- Format WN: `op | sel << 8` (30_encoding.md R92, R100). -/
def formatWN (op : Word) (sel : WinSel) : Word := op ||| (selBit sel <<< 8)

/-- Format WS: `op | sel << 8 | sym << 16` (30_encoding.md R93, R100). -/
def formatWS (op : Word) (sel : WinSel) (sym : Byte) : Word :=
  op ||| (selBit sel <<< 8) ||| (sym.setWidth 32 <<< 16)

/-- Format WI: `op | sel << 8 | imm << 16` (30_encoding.md R94, R100). -/
def formatWI (op : Word) (sel : WinSel) (imm : Nat) : Word :=
  op ||| (selBit sel <<< 8) ||| (BitVec.ofNat 32 imm <<< 16)

/-- The word of a well-formed command (30_encoding.md R96, R100). -/
def encode : Instr → Word
  | .nop => 0x00000000#32
  | .frqClear => 0x00000010#32
  | .frqCount => 0x00000011#32
  | .frqInc sym => formatS 0x00000012#32 sym
  | .hufBuild => 0x00000020#32
  | .hufEncode => 0x00000030#32
  | .hufPutsym sym => formatS 0x00000031#32 sym
  | .hufDecode => 0x00000038#32
  | .hufDecbit bit => formatB 0x00000039#32 bit
  | .hufDecend => 0x0000003A#32
  | .winInit sel cap => formatWI 0x00000040#32 sel cap
  | .winPush sel sym => formatWS 0x00000041#32 sel sym
  | .winPushn sel => formatWN 0x00000042#32 sel
  | .winEvict sel cnt => formatWI 0x00000043#32 sel cnt
  | .winRead sel idx => formatWI 0x00000044#32 sel idx
  | .lzEncode => 0x00000050#32
  | .lzEncstep => 0x00000051#32
  | .lzDecode => 0x00000058#32
  | .lzDectok => 0x00000059#32

/-- "An operand out of its field's range is an assembly error, not a word" (30_encoding.md R100). -/
def assemble (i : Instr) : Option Word := if i.wellFormed then some (encode i) else none

/-- The command word of a table row: its low `nbits` bits, the bits above them 0. A command is one 32-bit word taken
from the CMD write, so there is no byte order to choose (30_encoding.md R88, 20_memory.md R72). -/
def tableWord (nbits w : Nat) : Word := BitVec.ofNat 32 (w % 2 ^ nbits)

/-- The instruction the decoder reads from a word numbered as spec/opcode_table.json numbers its bits. -/
def decodeTableWord (nbits w : Nat) : Option Instr :=
  match decode (tableWord nbits w) with
  | .ok i => some i
  | .error _ => none

end Sys2Proof
end

