-- ==== Sys2Proof/Config.lean ====
section
/-! DEFINITION. What the implementation fixes (00_scope.md R7) and the one free value of the spec. -/

namespace Sys2Proof.Config

/-- `K`: the size of the alphabet, 2^SYMW (00_scope.md R7). -/
abbrev alphabet : Nat := 256

/-- `NMAX`: symbols that IN and OUT hold (00_scope.md R7). -/
abbrev nMax : Nat := 4096

/-- `NTOKMAX`: tokens that TOKBUF holds (00_scope.md R7). -/
abbrev nTokMax : Nat := 4096

/-- `NBITMAX`: bits that BITBUF holds (00_scope.md R7). -/
abbrev nBitMax : Nat := 1048576

/-- `WMAX`: the largest window size, the capacity of HWIN's store (00_scope.md R7). -/
abbrev wMax : Nat := 4095

/-- `BMAX`: the largest lookahead size, the capacity of LWIN's store (00_scope.md R7). -/
abbrev bMax : Nat := 255

/-- `NODEMAX`: entries of the tree arena (00_scope.md R7). -/
abbrev nodeMax : Nat := 511

/-- `MAXCL`: bits of the longest code (00_scope.md R7). -/
abbrev maxCodeLen : Nat := 255

/-- `NONE`: the null node index (00_scope.md R7). -/
abbrev noNode : BitVec 9 := 0x1FF#9

/-- The constant of the ID register (00_scope.md R2, 10_state.md R21). -/
abbrev idValue : Word := 0x484C5A01#32

/-- Bytes of the register window; BASE is a multiple of it (00_scope.md R8, 20_memory.md R63). -/
abbrev windowBytes : Nat := 0x80000

/-- What the n-th read of a register or aperture word returns while the core is busy: `any`, a 32-bit draw with
no law (00_scope.md R12, 20_memory.md R76). It has no body, so nothing can be proved of its values (log entry 6). -/
opaque busyRead : Nat → Word

end Sys2Proof.Config
end

