-- ==== Sys2Proof/Machine/State.lean ====
section
/-! DEFINITION. The state of the core (10_state.md R16), the host and platform around it, and the state after reset. -/

namespace Sys2Proof.Machine

/-- The host-writable internal memories FREQ, IN, OUT, TOKBUF and BITBUF, as the bytes of their host words at the
byte offsets of 20_memory.md R63 (byte lane b of a word at offset +b, R72). Sorted by offset, no byte 0 listed: an
unlisted byte reads 0, the reset contents (70_reset_and_hazards.md R172). -/
abbrev Memory := List Host.Cell

/-- One record of the tree arena NODE (10_state.md R53). -/
structure Node where
  weight : BitVec 40
  left : BitVec 9
  right : BitVec 9
  sym : Byte
  minsym : Byte
  leaf : Bool
deriving DecidableEq, Repr

/-- One entry of the encoding table LUT: bit j of `code` is the j-th bit emitted (10_state.md R54). -/
structure LutEntry where
  len : BitVec 9
  code : BitVec 255
deriving DecidableEq, Repr

/-- A window `(cap, seq)`, element 0 the oldest; `cap = 0` means not constructed (10_state.md R55). -/
structure Window where
  cap : Nat
  seq : List Byte
deriving DecidableEq, Repr

/-- The pending-operation state (10_state.md R58). -/
inductive Pending where
  | idle
  | cmd (w : Word)
  | init
deriving DecidableEq, Repr

/-- The stored fields of the control and status registers (10_state.md R20 to R46). BUSY, ERR, DEC_MID, HWIN_STAT
and LWIN_STAT are views of other state (R24, R26, R29, R47), ID is a constant (R21) and SRST reads 0 (R22). -/
structure Csr where
  irqEn : Bool
  done : Bool
  stickyErr : Bool
  overrun : Bool
  treeValid : Bool
  irqPend : Bool
  errcode : BitVec 4
  cmd : Word
  arg0 : Word
  result0 : Word
  errPos : BitVec 21
  cfgW : BitVec 12
  cfgB : BitVec 8
  inLen : BitVec 16
  outLen : BitVec 16
  bitLen : BitVec 21
  tokLen : BitVec 16
  lzPos : BitVec 16
  nsym : BitVec 9
  nodeCnt : BitVec 10
  root : BitVec 9
  decNode : BitVec 9
  decLen : BitVec 9
deriving DecidableEq, Repr

/-- Read or write (20_memory.md R61). -/
inductive AccessKind where
  | read
  | write
deriving DecidableEq, Repr

/-- The size of a host access: 1, 2 or 4 bytes (20_memory.md R61). -/
inductive AccessSize where
  | one
  | two
  | four
deriving DecidableEq, Repr

/-- One transaction on the host bus, at a byte address of the bus (20_memory.md R61; `offset = addr - BASE`). -/
structure Access where
  kind : AccessKind
  addr : Nat
  size : AccessSize
  wdata : Word
deriving DecidableEq, Repr

/-- What the core answers to a transaction, `(rdata, err)` (20_memory.md R61): data of a read, the acknowledgement of
a write, or the bus error response, which returns no data (60_exceptions.md R159). -/
inductive BusResp where
  | data (w : Word)
  | written
  | error
deriving DecidableEq, Repr

/-- What happens next: a host access, the core's turn, or the assertion of the reset input
(60_exceptions.md R160, 70_reset_and_hazards.md R172). -/
inductive Event where
  | bus (a : Access)
  | core
  | hardReset
deriving DecidableEq, Repr

/-- An event of the optional trace port (60_exceptions.md R169). -/
inductive TraceEvent where
  | hufCode (i : Nat) (sym : Byte) (len : Nat)
  | hufSym (i : Nat) (sym : Byte)
  | lzTok (i : Nat) (tok : Word)
deriving DecidableEq, Repr

/-- What a model takes as arguments (00_scope.md R8, 10_state.md R16): the window's base address, whether the trace port
is fitted, and whether the platform ignores bus errors (60_exceptions.md R159). No step changes them. -/
structure Params where
  base : Nat
  traceEn : Bool
  ignoreBusErr : Bool
deriving DecidableEq, Repr

/-- The core's architectural state (10_state.md R16), and after it the model's own fields: the parameters, what happens
next, the last bus answer, the counter of free values, the fault set of R159 and the trace log of R169. -/
structure State where
  csr : Csr
  mem : Memory
  node : List Node
  lut : List (Nat × LutEntry)
  hwin : Window
  lwin : Window
  pending : Pending
  params : Params
  agenda : List Event
  resp : Option BusResp
  draws : Nat
  busErrs : List Access
  trace : List TraceEvent
deriving DecidableEq, Repr

/-- Why the machine stops. -/
inductive Fault where
  /-- Raised by `step` for a host access of size 1 or 2, a misaligned one, or one to a reserved offset, where the platform
  does not ignore bus errors (60_exceptions.md R159, 20_memory.md R62, R64). Safe: the run has no valid observation. -/
  | busError (a : Access)
deriving DecidableEq, Repr

/-- Why an instruction has no meaning. -/
inductive Refusal where
  /-- Raised by an arm of `exec` that has no meaning yet; no arm is left that raises it. Safe: the run stops. -/
  | notModelled (mnemonic : String)
deriving DecidableEq, Repr

/-- Every CSR field at its reset value (10_state.md R20, R60). -/
def Csr.reset : Csr where
  irqEn := false
  done := false
  stickyErr := false
  overrun := false
  treeValid := false
  irqPend := false
  errcode := 0
  cmd := 0
  arg0 := 0
  result0 := 0
  errPos := 0
  cfgW := 0
  cfgB := 0
  inLen := 0
  outLen := 0
  bitLen := 0
  tokLen := 0
  lzPos := 0
  nsym := 0
  nodeCnt := 0
  root := Config.noNode
  decNode := Config.noNode
  decLen := 0

/-- An unconstructed window (10_state.md R55, R60). -/
def Window.empty : Window := ⟨0, []⟩

/-- DESIGN CHOICE: the parameters in the reset state are BASE = 0, no trace port, bus errors stop the run
(log entry 8). -/
def Params.plain : Params := ⟨0, false, false⟩

/-- The machine right after reset entry: every CSR field at its reset value, BUSY = 1 because the initialisation is
pending, memories and windows empty (10_state.md R60, 70_reset_and_hazards.md R172). The model's own fields start empty
(DESIGN CHOICE, log entry 12). -/
def State.reset : State where
  csr := Csr.reset
  mem := []
  node := []
  lut := []
  hwin := Window.empty
  lwin := Window.empty
  pending := .init
  params := Params.plain
  agenda := []
  resp := none
  draws := 0
  busErrs := []
  trace := []

end Sys2Proof.Machine
end

