-- ==== Sys2Proof/Machine/Ops.lean ====
section
/-! DEFINITION. The shared operations over memories and registers: cells, tree validity, issue, completion (the core's
form of taking an exception) with acknowledgement beside it, reset. -/

namespace Sys2Proof.Machine

/-! ### Sparse tables in one canonical form -/

/-- The value at key `a`; `d` where the key is not listed. -/
def sparseGet {α : Type} (d : α) : List (Nat × α) → Nat → α
  | [], _ => d
  | (k, v) :: t, a => if k = a then v else sparseGet d t a

/-- `x` at key `a`: keeps the keys rising, and lists no `d`. -/
def sparseSet {α : Type} [DecidableEq α] (d : α) : List (Nat × α) → Nat → α → List (Nat × α)
  | [], a, x => if x = d then [] else [(a, x)]
  | (k, v) :: t, a, x =>
    if a < k then (if x = d then (k, v) :: t else (a, x) :: (k, v) :: t)
    else if a = k then (if x = d then t else (a, x) :: t)
    else (k, v) :: sparseSet d t a x

/-- The canonical form: keys strictly rising, no entry equal to what an unlisted key reads as. -/
abbrev sparseWf {α : Type} (d : α) (l : List (Nat × α)) : Prop :=
  l.Pairwise (fun x y => x.1 < y.1) ∧ ∀ c ∈ l, c.2 ≠ d

/-! ### The byte memory (20_memory.md R63, R72) -/

/-- What a byte that nothing has written reads as: the reset contents (70_reset_and_hazards.md R172). -/
abbrev Memory.unlisted : Byte := 0#8

/-- One byte. -/
def Memory.get (m : Memory) (a : Nat) : Byte := sparseGet Memory.unlisted m a

/-- One byte stored. -/
def Memory.set (m : Memory) (a : Nat) (b : Byte) : Memory := sparseSet Memory.unlisted m a b

/-- The canonical form of the memory. -/
abbrev Memory.wf (m : Memory) : Prop := sparseWf Memory.unlisted m

/-- A host word: lane b, at byte offset +b, carries bits [8b+7:8b] (20_memory.md R72). -/
def Memory.readWord (m : Memory) (a : Nat) : Word :=
  (Memory.get m (a + 3) ++ Memory.get m (a + 2) ++ Memory.get m (a + 1) ++ Memory.get m a : BitVec 32)

/-- All four lanes of a host word stored (20_memory.md R72, R73). -/
def Memory.writeWord (m : Memory) (a : Nat) (w : Word) : Memory :=
  let m1 := Memory.set m a (w.extractLsb' 0 8)
  let m2 := Memory.set m1 (a + 1) (w.extractLsb' 8 8)
  let m3 := Memory.set m2 (a + 2) (w.extractLsb' 16 8)
  Memory.set m3 (a + 3) (w.extractLsb' 24 8)

/-- Every byte of [lo, lo + n) set to 0. -/
def Memory.clearRange (m : Memory) (lo n : Nat) : Memory := m.filter fun c => !(decide (lo ≤ c.1) && decide (c.1 < lo + n))

/-! ### Cells of the memories, by index (20_memory.md R63, R66 to R69, R79) -/

abbrev freqBase : Nat := 0x01000
abbrev inBase : Nat := 0x10000
abbrev outBase : Nat := 0x14000
abbrev tokBase : Nat := 0x20000
abbrev bitBase : Nat := 0x40000

/-- The byte offset of FREQ[s] (20_memory.md R66). -/
def freqAddr (i : Nat) : Nat := freqBase + 4 * i

/-- The byte offset of IN[i] (20_memory.md R67). -/
def inAddr (i : Nat) : Nat := inBase + 4 * i

/-- The byte offset of OUT[i] (20_memory.md R67). -/
def outAddr (i : Nat) : Nat := outBase + 4 * i

/-- The byte offset of TOKBUF[i] (20_memory.md R68). -/
def tokAddr (i : Nat) : Nat := tokBase + 4 * i

/-- The byte offset of BITBUF[w] (20_memory.md R69). -/
def bitAddr (i : Nat) : Nat := bitBase + 4 * i

/-- FREQ[i] (10_state.md R48). -/
def State.freq (s : State) (i : Nat) : Word := Memory.readWord s.mem (freqAddr i)

/-- IN[i] (10_state.md R49). -/
def State.inSym (s : State) (i : Nat) : Byte := Memory.get s.mem (inAddr i)

/-- OUT[i] (10_state.md R50). -/
def State.outSym (s : State) (i : Nat) : Byte := Memory.get s.mem (outAddr i)

/-- TOKBUF[i] (10_state.md R51). -/
def State.tok (s : State) (i : Nat) : Word := Memory.readWord s.mem (tokAddr i)

/-- BITBUF[w] (10_state.md R52). -/
def State.bitWord (s : State) (i : Nat) : Word := Memory.readWord s.mem (bitAddr i)

/-- The state with another memory. -/
def State.withMem (s : State) (m : Memory) : State := { s with mem := m }

/-- `FREQ[i] <- w`, the counter alone. -/
def State.setFreq (s : State) (i : Nat) (w : Word) : State := s.withMem (Memory.writeWord s.mem (freqAddr i) w)

/-- `IN[i] <- b`. -/
def State.setIn (s : State) (i : Nat) (b : Byte) : State := s.withMem (Memory.set s.mem (inAddr i) b)

/-- `OUT[i] <- b`. -/
def State.setOut (s : State) (i : Nat) (b : Byte) : State := s.withMem (Memory.set s.mem (outAddr i) b)

/-- `TOKBUF[i] <- w`. -/
def State.setTok (s : State) (i : Nat) (w : Word) : State := s.withMem (Memory.writeWord s.mem (tokAddr i) w)

/-- `BITBUF[i] <- w`. -/
def State.setBitWord (s : State) (i : Nat) (w : Word) : State := s.withMem (Memory.writeWord s.mem (bitAddr i) w)

/-- `for s in 0..255: FREQ[s] <- 0` (41_frequency.md R112, R113). -/
def State.clearFreq (s : State) : State := s.withMem (Memory.clearRange s.mem freqBase (4 * Config.alphabet))

/-! ### NODE and LUT (10_state.md R53, R54) -/

/-- The record that a NODE entry outside the arena holds: `NODE[i] <- 0` (70_reset_and_hazards.md R172). -/
def Node.zero : Node := ⟨0, 0, 0, 0, 0, false⟩

/-- The entry of a symbol without a code (10_state.md R54). -/
def LutEntry.none : LutEntry := ⟨0, 0⟩

/-- NODE[i]. -/
def State.nodeAt (s : State) (i : BitVec 9) : Node := s.node.getD i.toNat Node.zero

/-- LUT[sym]. -/
def State.lutAt (s : State) (sym : Byte) : LutEntry := sparseGet LutEntry.none s.lut sym.toNat

/-- `InvalidateTree()` (10_state.md R59). -/
def State.invalidateTree (s : State) : State :=
  { s with csr := { s.csr with treeValid := false, nsym := 0, nodeCnt := 0, root := Config.noNode,
                               decNode := Config.noNode, decLen := 0 } }

/-! ### Errors, issue and completion -/

/-- The error kinds (60_exceptions.md R156). -/
inductive ErrCode where
  | corruptStream
  | invalidConfiguration
  | unknownSymbol
  | capacityExceeded
  | illegalCommand
  | notReady
  | badIndex
deriving DecidableEq, Repr

/-- The number of an error kind in STATUS.ERRCODE (60_exceptions.md R156). -/
def ErrCode.num : ErrCode → BitVec 4
  | .corruptStream => 1
  | .invalidConfiguration => 2
  | .unknownSymbol => 3
  | .capacityExceeded => 4
  | .illegalCommand => 5
  | .notReady => 6
  | .badIndex => 7

/-- `raise Err(code, pos)` (00_scope.md R12, 60_exceptions.md R157). -/
structure Err where
  code : ErrCode
  pos : Nat
deriving DecidableEq, Repr

/-- What `Exec(c)` leaves: the state it wrote before it returned or raised, and its result or error
(40_control.md R104, R105). -/
structure ExecResult where
  st : State
  res : Except Err Nat

/-- A pre-check that raises leaves all state unchanged (40_control.md R105). -/
def raise (code : ErrCode) (pos : Nat) (s : State) : ExecResult := ⟨s, .error ⟨code, pos⟩⟩

/-- The element loop of a sequence command: in order, stopping at the first element that raises, with the effects of the
elements before it kept and none of its own (40_control.md R105). -/
def forElems (f : Nat → State → Except Err State) : List Nat → State → State × Option Err
  | [], s => (s, none)
  | i :: is, s =>
    match f i s with
    | .ok s' => forElems f is s'
    | .error e => (s, some e)

/-- `Issue(w)` (40_control.md R103). -/
def issue (w : Word) (s : State) : State :=
  { s with csr := { s.csr with cmd := w, done := false, errcode := 0 }, pending := .cmd w }

/-- The completion record of a success (40_control.md R104). -/
def completeOk (res : Nat) (s : State) : State :=
  { s with csr := { s.csr with result0 := BitVec.ofNat 32 res, errPos := 0, errcode := 0, done := true, irqPend := true },
           pending := .idle }

/-- The completion record of an error, the core's form of taking an exception: cause, position, sticky bit
(40_control.md R104, 60_exceptions.md R157, R161). -/
def completeErr (e : Err) (s : State) : State :=
  { s with csr := { s.csr with result0 := 0, errPos := BitVec.ofNat 21 e.pos, errcode := e.code.num, stickyErr := true,
                               done := true, irqPend := true },
           pending := .idle }

/-- `Complete`: the completion record after `Exec` (40_control.md R104). -/
def complete (r : ExecResult) : State :=
  match r.res with
  | .ok v => completeOk v r.st
  | .error e => completeErr e r.st

/-- Acknowledgement, the core's form of a return from an exception: each RW1C bit of STATUS written as 1 is cleared
(10_state.md R23, 60_exceptions.md R162). -/
def acknowledge (w : Word) (s : State) : State :=
  { s with csr := { s.csr with done := s.csr.done && !w.getLsbD 1, stickyErr := s.csr.stickyErr && !w.getLsbD 3,
                               overrun := s.csr.overrun && !w.getLsbD 4, irqPend := s.csr.irqPend && !w.getLsbD 7 } }

/-! ### Reset (70_reset_and_hazards.md R172, R173) -/

/-- `ResetEntry()`: every CSR field at its reset value, any pending command discarded (70_reset_and_hazards.md R172). -/
def resetEntry (s : State) : State := { s with csr := Csr.reset, pending := .init }

/-- `InitStep()`: every memory and window zeroed, BUSY cleared, no CSR but BUSY changed
(70_reset_and_hazards.md R172). -/
def initStep (s : State) : State :=
  { s with mem := [], node := [], lut := [], hwin := Window.empty, lwin := Window.empty, pending := .idle }

end Sys2Proof.Machine
end

