-- ==== Sys2Proof/Machine/Flags.lean ====
section
/-! DEFINITION. The computed flags and the register views made of stored fields (10_state.md R23 to R30, R47). -/

namespace Sys2Proof.Machine

/-- One flag as a bit of a register, at bit `i`. -/
def flagAt (b : Bool) (i : Nat) : Word := (if b then 1#32 else 0#32) <<< i

/-- STATUS.BUSY: 1 exactly when the pending state is not Idle (10_state.md R24, R58). -/
def State.busy (s : State) : Bool := s.pending != .idle

/-- STATUS.ERR always equals `(ERRCODE != 0)` (10_state.md R26). -/
def State.err (s : State) : Bool := s.csr.errcode != 0

/-- STATUS.DEC_MID always equals `(DEC_LEN != 0)` (10_state.md R29). -/
def State.decMid (s : State) : Bool := s.csr.decLen != 0

/-- The interrupt output: `irq = IRQ_EN AND IRQ_PEND` (60_exceptions.md R163). -/
def State.irq (s : State) : Bool := s.csr.irqEn && s.csr.irqPend

/-- The STATUS register (10_state.md R23). -/
def State.statusWord (s : State) : Word :=
  flagAt s.busy 0 ||| flagAt s.csr.done 1 ||| flagAt s.err 2 ||| flagAt s.csr.stickyErr 3 ||| flagAt s.csr.overrun 4 |||
    flagAt s.csr.treeValid 5 ||| flagAt s.decMid 6 ||| flagAt s.csr.irqPend 7 ||| (s.csr.errcode.setWidth 32 <<< 8)

/-- The CTRL register: IRQ_EN in bit 0, SRST reads 0 (10_state.md R22). -/
def State.ctrlWord (s : State) : Word := flagAt s.csr.irqEn 0

/-- HWIN_STAT and LWIN_STAT: count in [11:0], capacity in [27:16] (10_state.md R47). -/
def Window.statWord (x : Window) : Word :=
  (BitVec.ofNat 12 x.seq.length).setWidth 32 ||| ((BitVec.ofNat 12 x.cap).setWidth 32 <<< 16)

end Sys2Proof.Machine
end

