-- ==== Sys2Proof/Machine/Operands.lean ====
section
/-! DEFINITION. The operand forms: windows by select, slices of the buffers, token fields, CSRs and cells by offset. -/

namespace Sys2Proof.Machine

/-! ### Window operand (44_window.md section 2) -/

/-- The selected window (30_encoding.md R95). -/
def State.win (s : State) : WinSel → Window
  | .hwin => s.hwin
  | .lwin => s.lwin

/-- The selected window replaced. -/
def State.setWin (s : State) : WinSel → Window → State
  | .hwin, x => { s with hwin := x }
  | .lwin, x => { s with lwin := x }

/-- `capmax(sel)` (44_window.md R140). -/
def capMax : WinSel → Nat
  | .hwin => Config.wMax
  | .lwin => Config.bMax

/-! ### Slices (00_scope.md R11) -/

/-- The indices of the half-open slice [a, b). -/
def slice (a b : Nat) : List Nat := List.range' a (b - a)

/-- `IN[a..b)`. -/
def State.inSlice (s : State) (a b : Nat) : List Byte := (slice a b).map s.inSym

/-- `OUT[a..b)`. -/
def State.outSlice (s : State) (a b : Nat) : List Byte := (slice a b).map s.outSym

/-! ### Token words (45_lzss.md R147) -/

/-- nextChar, bits [7:0]. -/
def tokNext (w : Word) : Byte := w.extractLsb' 0 8

/-- length, bits [15:8]. -/
def tokLength (w : Word) : Nat := (w.extractLsb' 8 8).toNat

/-- distance, bits [27:16]. -/
def tokDist (w : Word) : Nat := (w.extractLsb' 16 12).toNat

/-- the reserved bits [31:28]. -/
def tokReserved (w : Word) : BitVec 4 := w.extractLsb' 28 4

/-- `TokWord(d, l, c) = d << 16 | l << 8 | c` (45_lzss.md R147). -/
def tokWord (d l : Nat) (c : Byte) : Word :=
  (BitVec.ofNat 32 d <<< 16) ||| (BitVec.ofNat 32 l <<< 8) ||| c.setWidth 32

/-! ### Registers and cells by offset (10_state.md R20, 20_memory.md R63) -/

/-- The 21 registers, by name (10_state.md R20). -/
inductive CsrName where
  | id | ctrl | status | cmd | arg0 | result0 | errPos | cfgW | cfgB | inLen | outLen | bitLen | tokLen | lzPos
  | nsym | nodeCnt | root | decNode | decLen | hwinStat | lwinStat
deriving DecidableEq, Repr

/-- What a word-aligned offset of the window reaches (20_memory.md R63). -/
inductive Target where
  | csr (r : CsrName)
  | freq (i : Nat)
  | node (i k : Nat)
  | lut (sym k : Nat)
  | inCell (i : Nat)
  | outCell (i : Nat)
  | tok (i : Nat)
  | bits (i : Nat)
  | reserved
deriving DecidableEq, Repr

/-- The registers in the order of their offsets, one word each from 0x000 (10_state.md R20). -/
def csrMap : List CsrName :=
  [.id, .ctrl, .status, .cmd, .arg0, .result0, .errPos, .cfgW, .cfgB, .inLen, .outLen, .bitLen, .tokLen, .lzPos,
   .nsym, .nodeCnt, .root, .decNode, .decLen, .hwinStat, .lwinStat]

/-- The address map, by word-aligned byte offset from BASE (20_memory.md R63, R66 to R71). -/
def target (off : Nat) : Target :=
  if off < 0x00054 then (match csrMap[off / 4]? with | some r => .csr r | none => .reserved)
  else if off < 0x01000 then .reserved
  else if off < 0x01400 then .freq ((off - 0x01000) / 4)
  else if off < 0x02000 then .reserved
  else if off < 0x04000 then .node ((off - 0x02000) / 16) ((off - 0x02000) % 16 / 4)
  else if off < 0x08000 then .lut ((off - 0x04000) / 64) ((off - 0x04000) % 64 / 4)
  else if off < 0x10000 then .reserved
  else if off < 0x14000 then .inCell ((off - 0x10000) / 4)
  else if off < 0x18000 then .outCell ((off - 0x14000) / 4)
  else if off < 0x20000 then .reserved
  else if off < 0x24000 then .tok ((off - 0x20000) / 4)
  else if off < 0x40000 then .reserved
  else if off < 0x60000 then .bits ((off - 0x40000) / 4)
  else .reserved

/-- The value of a register (10_state.md R20 to R47). -/
def State.readCsr (s : State) : CsrName → Word
  | .id => Config.idValue
  | .ctrl => s.ctrlWord
  | .status => s.statusWord
  | .cmd => s.csr.cmd
  | .arg0 => s.csr.arg0
  | .result0 => s.csr.result0
  | .errPos => s.csr.errPos.setWidth 32
  | .cfgW => s.csr.cfgW.setWidth 32
  | .cfgB => s.csr.cfgB.setWidth 32
  | .inLen => s.csr.inLen.setWidth 32
  | .outLen => s.csr.outLen.setWidth 32
  | .bitLen => s.csr.bitLen.setWidth 32
  | .tokLen => s.csr.tokLen.setWidth 32
  | .lzPos => s.csr.lzPos.setWidth 32
  | .nsym => s.csr.nsym.setWidth 32
  | .nodeCnt => s.csr.nodeCnt.setWidth 32
  | .root => s.csr.root.setWidth 32
  | .decNode => s.csr.decNode.setWidth 32
  | .decLen => s.csr.decLen.setWidth 32
  | .hwinStat => s.hwin.statWord
  | .lwinStat => s.lwin.statWord

/-- The four words of a NODE record (20_memory.md R70). -/
def Node.word (n : Node) : Nat → Word
  | 0 => n.weight.setWidth 32
  | 1 => (n.weight.extractLsb' 32 8).setWidth 32
  | 2 => n.left.setWidth 32 ||| (n.right.setWidth 32 <<< 16)
  | _ => n.sym.setWidth 32 ||| (n.minsym.setWidth 32 <<< 8) ||| flagAt n.leaf 16

/-- The NODE aperture: 0 while no tree is valid and at or beyond NODE_CNT (20_memory.md R70). -/
def State.nodeWord (s : State) (i k : Nat) : Word :=
  if s.csr.treeValid && decide (i < s.csr.nodeCnt.toNat) then (s.node.getD i Node.zero).word k else 0

/-- The 16 words of a LUT entry: len, eight words of code, the rest 0 (20_memory.md R71). -/
def LutEntry.word (e : LutEntry) : Nat → Word
  | 0 => e.len.setWidth 32
  | k + 1 => if k < 8 then e.code.extractLsb' (32 * k) 32 else 0

/-- The LUT aperture: 0 while no tree is valid (20_memory.md R71). -/
def State.lutWord (s : State) (sym k : Nat) : Word :=
  if s.csr.treeValid then (sparseGet LutEntry.none s.lut sym).word k else 0

/-- What a read of a target returns while the core is idle (10_state.md R20, 20_memory.md R66 to R71). -/
def State.readTarget (s : State) : Target → Word
  | .csr r => s.readCsr r
  | .freq i => s.freq i
  | .node i k => s.nodeWord i k
  | .lut sym k => s.lutWord sym k
  | .inCell i => (s.inSym i).setWidth 32
  | .outCell i => (s.outSym i).setWidth 32
  | .tok i => s.tok i
  | .bits i => s.bitWord i
  | .reserved => 0

/-- A register write while idle: an RW field keeps only its own bits, an RO register ignores the write, STATUS clears
RW1C bits, CMD issues (10_state.md R19 to R47; the SRST action of CTRL is taken before this, R22). -/
def State.writeCsr (s : State) (w : Word) : CsrName → State
  | .id => s
  | .ctrl => { s with csr := { s.csr with irqEn := w.getLsbD 0 } }
  | .status => acknowledge w s
  | .cmd => issue w s
  | .arg0 => { s with csr := { s.csr with arg0 := w } }
  | .result0 => s
  | .errPos => s
  | .cfgW => { s with csr := { s.csr with cfgW := w.setWidth 12 } }
  | .cfgB => { s with csr := { s.csr with cfgB := w.setWidth 8 } }
  | .inLen => { s with csr := { s.csr with inLen := w.setWidth 16 } }
  | .outLen => { s with csr := { s.csr with outLen := w.setWidth 16 } }
  | .bitLen => { s with csr := { s.csr with bitLen := w.setWidth 21 } }
  | .tokLen => { s with csr := { s.csr with tokLen := w.setWidth 16 } }
  | .lzPos => { s with csr := { s.csr with lzPos := w.setWidth 16 } }
  | .nsym => s
  | .nodeCnt => s
  | .root => s
  | .decNode => s
  | .decLen => s
  | .hwinStat => s
  | .lwinStat => s

/-- A write while idle: FREQ invalidates the tree, IN and OUT store the low byte, NODE and LUT ignore it
(20_memory.md R65 to R69). -/
def State.writeTarget (s : State) (w : Word) : Target → State
  | .csr r => s.writeCsr w r
  | .freq i => (s.setFreq i w).invalidateTree
  | .node _ _ => s
  | .lut _ _ => s
  | .inCell i => s.setIn i (w.setWidth 8)
  | .outCell i => s.setOut i (w.setWidth 8)
  | .tok i => s.setTok i w
  | .bits i => s.setBitWord i w
  | .reserved => s

end Sys2Proof.Machine
end

