-- ==== Sys2Proof/Machine/Trace.lean ====
section
/-! DEFINITION. The optional trace port: the events of one completion, as an observation-only log (60_exceptions.md R169). -/

namespace Sys2Proof.Machine

/-- Events leave on the port only where it is fitted; nothing reads the log (60_exceptions.md R169). -/
def emit (evs : List TraceEvent) (s : State) : State :=
  if s.params.traceEn then { s with trace := s.trace ++ evs } else s

/-- The elements a sequence command has processed: all of them, or those before the failing one (40_control.md R105). -/
def processed (total : Nat) (r : ExecResult) : Nat :=
  match r.res with
  | .ok _ => total
  | .error e => e.pos

/-- HUF_ENCODE: `(HufCode, i, sym, len)` for each symbol written. -/
def traceHufEncode (r : ExecResult) : List TraceEvent :=
  (List.range (processed r.st.csr.inLen.toNat r)).map fun i =>
    .hufCode i (r.st.inSym i) (r.st.lutAt (r.st.inSym i)).len.toNat

/-- HUF_PUTSYM: the one symbol written; the one element of the command has index 0 (DEDUCED, log entry 9). -/
def traceHufPutsym (sym : Byte) (r : ExecResult) : List TraceEvent :=
  match r.res with
  | .ok len => [.hufCode 0 sym len]
  | .error _ => []

/-- HUF_DECODE: `(HufSym, i, sym)` for each symbol emitted, i its index in the output (DEDUCED, log entry 9); none where
the pre-check on BIT_LEN raised. -/
def traceHufDecode (s : State) (r : ExecResult) : List TraceEvent :=
  if Config.nBitMax < s.csr.bitLen.toNat then []
  else (List.range r.st.csr.outLen.toNat).map fun i => .hufSym i (r.st.outSym i)

/-- HUF_DECBIT: the symbol this bit completed, if it did (DEDUCED index 0, log entry 9). -/
def traceHufDecbit (r : ExecResult) : List TraceEvent :=
  match r.res with
  | .ok v => if 0x100 ≤ v then [.hufSym 0 (BitVec.ofNat 8 v)] else []
  | .error _ => []

/-- LZ_ENCODE: `(LzTok, i, tokenword)` for each token written. -/
def traceLzEncode (r : ExecResult) : List TraceEvent :=
  (List.range (processed r.st.csr.tokLen.toNat r)).map fun i => .lzTok i (r.st.tok i)

/-- LZ_ENCSTEP: the token written (DEDUCED index 0, log entry 9). -/
def traceLzEncstep (r : ExecResult) : List TraceEvent :=
  match r.res with
  | .ok v => [.lzTok 0 (BitVec.ofNat 32 v)]
  | .error _ => []

/-- LZ_DECODE: `(LzTok, i, tokenword)` for each token replayed. -/
def traceLzDecode (r : ExecResult) : List TraceEvent :=
  (List.range (processed r.st.csr.tokLen.toNat r)).map fun i => .lzTok i (r.st.tok i)

/-- LZ_DECTOK: the token replayed (DEDUCED index 0, log entry 9). -/
def traceLzDectok (s : State) (r : ExecResult) : List TraceEvent :=
  match r.res with
  | .ok _ => [.lzTok 0 s.csr.arg0]
  | .error _ => []

end Sys2Proof.Machine
end

