-- ==== Sys2Proof/Machine/Control.lean ====
section
/-! DEFINITION. Command completion as a step, and NOP (40_control.md). -/

namespace Sys2Proof.Machine

/-- One core step: `Exec`, the completion record, and the events on the trace port (40_control.md R104,
60_exceptions.md R169). -/
def finish (evs : List TraceEvent) (r : ExecResult) : Host.Outcome State Fault Refusal := .next (emit evs (complete r))

/-- A word that `Decode` maps to Illegal completes with IllegalCommand and changes nothing else (30_encoding.md R98). -/
def execIllegal (s : State) : Host.Outcome State Fault Refusal := .next (complete (raise .illegalCommand 0 s))

/-- `Exec(NOP): return 0` (40_control.md R110). -/
def runNop (s : State) : ExecResult := ⟨s, .ok 0⟩

/-- NOP (40_control.md R110). -/
def execNop (s : State) : Host.Outcome State Fault Refusal := .next (complete (runNop s))

end Sys2Proof.Machine
end

