-- ==== Sys2Proof/Machine/Frequency.lean ====
section
/-! DEFINITION. Frequency analysis: the histogram and FRQ_CLEAR, FRQ_COUNT, FRQ_INC (41_frequency.md). -/

namespace Sys2Proof.Machine

/-- The present symbols in ascending order: those whose counter is not 0 (10_state.md R48). -/
def presentSyms (f : Nat → Word) : List Nat := (List.range Config.alphabet).filter fun i => f i != 0

/-- `FREQ[sym] <- FREQ[sym] + 1`, on naturals (41_frequency.md R111, R112). -/
def State.bumpFreq (s : State) (sym : Nat) : State := s.setFreq sym (BitVec.ofNat 32 ((s.freq sym).toNat + 1))

/-- `Histogram(n)` over IN[0..n), without its result (41_frequency.md R112). -/
def histogram (n : Nat) (s : State) : State :=
  ((List.range n).foldl (fun t i => t.bumpFreq (t.inSym i).toNat) s.clearFreq).invalidateTree

/-- `Exec(FRQ_CLEAR)` (41_frequency.md R113). -/
def runFrqClear (s : State) : ExecResult := ⟨s.clearFreq.invalidateTree, .ok 0⟩

/-- FRQ_CLEAR (41_frequency.md R113). -/
def execFrqClear (s : State) : Host.Outcome State Fault Refusal := .next (complete (runFrqClear s))

/-- `Exec(FRQ_COUNT)` (41_frequency.md R114). -/
def runFrqCount (s : State) : ExecResult :=
  if Config.nMax < s.csr.inLen.toNat then raise .capacityExceeded 0 s
  else
    let t := histogram s.csr.inLen.toNat s
    ⟨t, .ok (presentSyms t.freq).length⟩

/-- FRQ_COUNT (41_frequency.md R114). -/
def execFrqCount (s : State) : Host.Outcome State Fault Refusal := .next (complete (runFrqCount s))

/-- `Exec(FRQ_INC sym)` (41_frequency.md R115). -/
def runFrqInc (sym : Byte) (s : State) : ExecResult :=
  if s.freq sym.toNat = 0xFFFFFFFF#32 then raise .capacityExceeded 0 s
  else
    let t := (s.bumpFreq sym.toNat).invalidateTree
    ⟨t, .ok (t.freq sym.toNat).toNat⟩

/-- FRQ_INC (41_frequency.md R115). -/
def execFrqInc (sym : Byte) (s : State) : Host.Outcome State Fault Refusal := .next (complete (runFrqInc sym s))

end Sys2Proof.Machine
end

