-- ==== Sys2Proof/Machine/HuffTree.lean ====
section
/-! DEFINITION. The Huffman tree builder and HUF_BUILD (42_huffman_tree.md). -/

namespace Sys2Proof.Machine

/-- `key(a) < key(b)`: lexicographic on (weight, minsym), both ascending (42_huffman_tree.md R118). -/
def keyLt (a b : Node) : Bool :=
  decide (a.weight.toNat < b.weight.toNat) || (a.weight == b.weight && decide (a.minsym.toNat < b.minsym.toNat))

/-- A leaf record (42_huffman_tree.md R120). -/
def leafNode (f : Nat → Word) (sym : Nat) : Node :=
  { weight := (f sym).setWidth 40, left := Config.noNode, right := Config.noNode,
    sym := BitVec.ofNat 8 sym, minsym := BitVec.ofNat 8 sym, leaf := true }

/-- An entry of the arena under construction. -/
def arenaAt (ar : List Node) (i : Nat) : Node := ar.getD i Node.zero

/-- The smaller of two symbols. -/
def minSym (a b : Byte) : Byte := if a.toNat ≤ b.toNat then a else b

/-- The record of one merge: the first extracted node is the left child (42_huffman_tree.md R121). -/
def mergeNode (ar : List Node) (a b : Nat) : Node :=
  { weight := BitVec.ofNat 40 ((arenaAt ar a).weight.toNat + (arenaAt ar b).weight.toNat),
    left := BitVec.ofNat 9 a, right := BitVec.ofNat 9 b, sym := 0,
    minsym := minSym (arenaAt ar a).minsym (arenaAt ar b).minsym, leaf := false }

/-- "the i in H with the least key(i)" (42_huffman_tree.md R122, R123). -/
def leastKey (ar : List Node) : List Nat → Option Nat
  | [] => none
  | i :: t =>
    match leastKey ar t with
    | none => some i
    | some j => if keyLt (arenaAt ar j) (arenaAt ar i) then some j else some i

/-- The merge loop: while the heap holds two nodes, merge the two of least key. The first argument bounds the loop, as
max(k - 1, 0) bounds it in 42_huffman_tree.md R122. -/
def mergeLoop : Nat → List Node → List Nat → List Node
  | 0, ar, _ => ar
  | n + 1, ar, h =>
    match leastKey ar h with
    | none => ar
    | some a =>
      match leastKey ar (h.erase a) with
      | none => ar
      | some b => mergeLoop n (ar ++ [mergeNode ar a b]) ((h.erase a).erase b ++ [ar.length])

/-- The arena that `BuildTree` leaves, a function of FREQ alone (42_huffman_tree.md R119, R120, R122). -/
def buildArena (f : Nat → Word) : List Node :=
  let leaves := (presentSyms f).map (leafNode f)
  mergeLoop (leaves.length - 1) leaves (List.range leaves.length)

/-- A path as a stored code: bit j of the path at `code[j]` (10_state.md R54, 42_huffman_tree.md R126). -/
def packCode : List Bool → BitVec 255
  | [] => 0
  | b :: t => (packCode t <<< 1) ||| (if b then 1#255 else 0#255)

/-- The LUT entry of a path (42_huffman_tree.md R126). -/
def LutEntry.ofPath (p : List Bool) : LutEntry := ⟨BitVec.ofNat 9 p.length, packCode p⟩

/-- The traversal of `DeriveCodes` with its explicit stack of (node, path) entries. The first argument bounds the loop: each
arena node is visited once (42_huffman_tree.md R126, 70_reset_and_hazards.md R175). -/
def deriveLoop (ar : List Node) : Nat → List (Nat × List Bool) → List (Nat × LutEntry) → List (Nat × LutEntry)
  | 0, _, lut => lut
  | _ + 1, [], lut => lut
  | n + 1, (i, p) :: stack, lut =>
    if (arenaAt ar i).leaf then
      deriveLoop ar n stack (sparseSet LutEntry.none lut (arenaAt ar i).sym.toNat (LutEntry.ofPath p))
    else
      deriveLoop ar n (((arenaAt ar i).left.toNat, p ++ [false]) :: ((arenaAt ar i).right.toNat, p ++ [true]) :: stack) lut

/-- `DeriveCodes()` on an arena with k leaves: the single-symbol tree is the special case with code "0"
(42_huffman_tree.md R125, R126). -/
def deriveCodes (ar : List Node) (k : Nat) : List (Nat × LutEntry) :=
  if k = 0 then []
  else if k = 1 then sparseSet LutEntry.none [] (arenaAt ar 0).sym.toNat (LutEntry.ofPath [false])
  else deriveLoop ar ar.length [(ar.length - 1, [])] []

/-- ROOT: the last arena entry, NONE for the empty tree (42_huffman_tree.md R122, R124). -/
def rootOf (ar : List Node) : BitVec 9 := if ar = [] then Config.noNode else BitVec.ofNat 9 (ar.length - 1)

/-- The number k of leaves of the tree of FREQ (42_huffman_tree.md R122). -/
def State.symCount (s : State) : Nat := (presentSyms s.freq).length

/-- `BuildTree()`: NODE, LUT, NSYM, NODE_CNT, ROOT, TREE_VALID, and the walker at the root (42_huffman_tree.md R122). -/
def buildTree (s : State) : State :=
  let ar := buildArena s.freq
  let k := s.symCount
  { s with node := ar, lut := deriveCodes ar k,
           csr := { s.csr with nsym := BitVec.ofNat 9 k, nodeCnt := BitVec.ofNat 10 ar.length, root := rootOf ar,
                               treeValid := true, decNode := rootOf ar, decLen := 0 } }

/-- `Exec(HUF_BUILD)` (42_huffman_tree.md R128). -/
def runHufBuild (s : State) : ExecResult := ⟨buildTree s, .ok s.symCount⟩

/-- HUF_BUILD (42_huffman_tree.md R128). -/
def execHufBuild (s : State) : Host.Outcome State Fault Refusal := .next (complete (runHufBuild s))

end Sys2Proof.Machine
end

