-- ==== Sys2Proof/Machine/HuffCodec.lean ====
section
/-! DEFINITION. The bit-stream writer and reader, the tree walker, and the five codec commands (43_huffman_codec.md). -/

namespace Sys2Proof.Machine

/-- `BitRead(i)` (43_huffman_codec.md R129). -/
def bitRead (s : State) (i : Nat) : Bool := (s.bitWord (i / 32)).getLsbD (i % 32)

/-- One bit of the sequence stored, every other bit of its word kept (43_huffman_codec.md R130). -/
def putBit (i : Nat) (b : Bool) (s : State) : State :=
  s.setBitWord (i / 32)
    ((s.bitWord (i / 32) &&& ~~~(1#32 <<< (i % 32))) ||| ((if b then 1#32 else 0#32) <<< (i % 32)))

/-- `BitWrite(pos, code, len)` (43_huffman_codec.md R130). -/
def bitWrite (pos : Nat) (code : BitVec 255) (len : Nat) (s : State) : State :=
  (List.range len).foldl (fun t j => putBit (pos + j) (code.getLsbD j) t) s

/-- `BIT_LEN <- n`. -/
def State.setBitLen (s : State) (n : Nat) : State := { s with csr := { s.csr with bitLen := BitVec.ofNat 21 n } }

/-- `OUT_LEN <- n`. -/
def State.setOutLen (s : State) (n : Nat) : State := { s with csr := { s.csr with outLen := BitVec.ofNat 16 n } }

/-- The walker placed at a node with a depth (10_state.md R57). -/
def State.setWalker (s : State) (node : BitVec 9) (len : Nat) : State :=
  { s with csr := { s.csr with decNode := node, decLen := BitVec.ofNat 9 len } }

/-- The walker back at the root, its buffer empty (43_huffman_codec.md R131, R132). -/
def State.walkerToRoot (s : State) : State := s.setWalker s.csr.root 0

/-- A code appended at BIT_LEN, or CapacityExceeded where it would pass NBITMAX (43_huffman_codec.md R133, R134). -/
def appendCode (e : LutEntry) (pos : Nat) (s : State) : Except Err State :=
  if Config.nBitMax < s.csr.bitLen.toNat + e.len.toNat then .error ⟨.capacityExceeded, pos⟩
  else .ok ((bitWrite s.csr.bitLen.toNat e.code e.len.toNat s).setBitLen (s.csr.bitLen.toNat + e.len.toNat))

/-- `Emit(s, pos)`: the symbol to OUT, the buffer reset (43_huffman_codec.md R131). -/
def emitSym (sym : Byte) (pos : Nat) (s : State) : Except Err (State × Nat) :=
  if Config.nMax ≤ s.csr.outLen.toNat then .error ⟨.capacityExceeded, pos⟩
  else .ok (((s.setOut s.csr.outLen.toNat sym).setOutLen (s.csr.outLen.toNat + 1)).walkerToRoot, 0x100 ||| sym.toNat)

/-- The child a bit leads to: 0 left, 1 right (42_huffman_tree.md R121, 43_huffman_codec.md R131). -/
def childOf (n : Node) (b : Bool) : BitVec 9 := if b then n.right else n.left

/-- `DecStep(b, pos)`: one bit fed to the walker; its value is 0, or 0x100 | symbol (43_huffman_codec.md R131). -/
def decStep (b : Bool) (pos : Nat) (s : State) : Except Err (State × Nat) :=
  if s.csr.nsym = 0 then .error ⟨.corruptStream, pos⟩
  else if s.csr.nsym = 1 then
    if b then .error ⟨.corruptStream, pos⟩ else emitSym (s.nodeAt s.csr.root).sym pos s
  else
    let c := childOf (s.nodeAt s.csr.decNode) b
    if (s.nodeAt c).leaf then emitSym (s.nodeAt c).sym pos s
    else .ok (s.setWalker c (s.csr.decLen.toNat + 1), 0)

/-- `EndCheck(pos)`, then the result `v`: the walker is reset in both cases (43_huffman_codec.md R132). -/
def endCheck (pos v : Nat) (s : State) : ExecResult :=
  if s.csr.decLen = 0 then ⟨s.walkerToRoot, .ok v⟩ else ⟨s.walkerToRoot, .error ⟨.corruptStream, pos⟩⟩

/-- Element i of HUF_ENCODE: the code of IN[i] (43_huffman_codec.md R133). -/
def encodeElem (i : Nat) (s : State) : Except Err State := appendCode (s.lutAt (s.inSym i)) i s

/-- `Exec(HUF_ENCODE)` (43_huffman_codec.md R133). -/
def runHufEncode (s : State) : ExecResult :=
  if Config.nMax < s.csr.inLen.toNat then raise .capacityExceeded 0 s
  else
    match forElems encodeElem (List.range s.csr.inLen.toNat) ((buildTree (histogram s.csr.inLen.toNat s)).setBitLen 0) with
    | (t, none) => ⟨t, .ok t.csr.bitLen.toNat⟩
    | (t, some e) => ⟨t, .error e⟩

/-- HUF_ENCODE (43_huffman_codec.md R133). -/
def execHufEncode (s : State) : Host.Outcome State Fault Refusal := finish (traceHufEncode (runHufEncode s)) (runHufEncode s)

/-- `Exec(HUF_PUTSYM sym)` (43_huffman_codec.md R134). -/
def runHufPutsym (sym : Byte) (s : State) : ExecResult :=
  if s.csr.treeValid = false then raise .notReady 0 s
  else if (s.lutAt sym).len = 0 then raise .unknownSymbol 0 s
  else
    match appendCode (s.lutAt sym) 0 s with
    | .ok t => ⟨t, .ok (s.lutAt sym).len.toNat⟩
    | .error e => ⟨s, .error e⟩

/-- HUF_PUTSYM (43_huffman_codec.md R134). -/
def execHufPutsym (sym : Byte) (s : State) : Host.Outcome State Fault Refusal :=
  finish (traceHufPutsym sym (runHufPutsym sym s)) (runHufPutsym sym s)

/-- Element i of HUF_DECODE: bit i fed to the walker (43_huffman_codec.md R135). -/
def decodeElem (i : Nat) (s : State) : Except Err State :=
  match decStep (bitRead s i) i s with
  | .ok (t, _) => .ok t
  | .error e => .error e

/-- `Exec(HUF_DECODE)` (43_huffman_codec.md R135). -/
def runHufDecode (s : State) : ExecResult :=
  if Config.nBitMax < s.csr.bitLen.toNat then raise .capacityExceeded 0 s
  else
    match forElems decodeElem (List.range s.csr.bitLen.toNat) ((buildTree s).setOutLen 0) with
    | (t, none) => endCheck s.csr.bitLen.toNat t.csr.outLen.toNat t
    | (t, some e) => ⟨t, .error e⟩

/-- HUF_DECODE (43_huffman_codec.md R135). -/
def execHufDecode (s : State) : Host.Outcome State Fault Refusal :=
  finish (traceHufDecode s (runHufDecode s)) (runHufDecode s)

/-- `Exec(HUF_DECBIT bit)` (43_huffman_codec.md R136). -/
def runHufDecbit (bit : Bool) (s : State) : ExecResult :=
  if s.csr.treeValid = false then raise .notReady 0 s
  else
    match decStep bit 0 s with
    | .ok (t, v) => ⟨t, .ok v⟩
    | .error e => ⟨s, .error e⟩

/-- HUF_DECBIT (43_huffman_codec.md R136). -/
def execHufDecbit (bit : Bool) (s : State) : Host.Outcome State Fault Refusal :=
  finish (traceHufDecbit (runHufDecbit bit s)) (runHufDecbit bit s)

/-- `Exec(HUF_DECEND)` (43_huffman_codec.md R137). -/
def runHufDecend (s : State) : ExecResult :=
  if s.csr.treeValid = false then raise .notReady 0 s else endCheck s.csr.decLen.toNat 0 s

/-- HUF_DECEND (43_huffman_codec.md R137). -/
def execHufDecend (s : State) : Host.Outcome State Fault Refusal := .next (complete (runHufDecend s))

end Sys2Proof.Machine
end

