-- ==== Sys2Proof/Machine/Windows.lean ====
section
/-! DEFINITION. The sliding windows: the primitives and the five window commands (44_window.md). -/

namespace Sys2Proof.Machine

/-- `Construct(X, c)` (44_window.md R141). -/
def Window.construct (c : Nat) : Window := ⟨c, []⟩

/-- `Push(X, s)`: the window, whether an element was evicted (0 or 1), and which (0 when none) (44_window.md R141). -/
def Window.push (x : Window) (b : Byte) : Window × Nat × Byte :=
  if x.cap < (x.seq ++ [b]).length then (⟨x.cap, (x.seq ++ [b]).drop 1⟩, 1, (x.seq ++ [b]).headD 0)
  else (⟨x.cap, x.seq ++ [b]⟩, 0, 0)

/-- `PushMany(X, xs)`: the window and the number of elements evicted (44_window.md R141). -/
def Window.pushMany (x : Window) : List Byte → Window × Nat
  | [] => (x, 0)
  | b :: t =>
    let p := x.push b
    let q := p.1.pushMany t
    (q.1, p.2.1 + q.2)

/-- `Evict(X, c)`: the window and the number removed (44_window.md R141). -/
def Window.evict (x : Window) (c : Nat) : Window × Nat :=
  (⟨x.cap, x.seq.drop (min c x.seq.length)⟩, min c x.seq.length)

/-- `Exec(WIN_INIT sel, c)` (44_window.md R142). -/
def runWinInit (sel : WinSel) (c : Nat) (s : State) : ExecResult :=
  if c = 0 ∨ capMax sel < c then raise .invalidConfiguration 0 s
  else ⟨s.setWin sel (Window.construct c), .ok c⟩

/-- WIN_INIT (44_window.md R142). -/
def execWinInit (sel : WinSel) (cap : Nat) (s : State) : Host.Outcome State Fault Refusal :=
  .next (complete (runWinInit sel cap s))

/-- `Exec(WIN_PUSH sel, sym)` (44_window.md R143). -/
def runWinPush (sel : WinSel) (sym : Byte) (s : State) : ExecResult :=
  if (s.win sel).cap = 0 then raise .notReady 0 s
  else
    let p := (s.win sel).push sym
    ⟨s.setWin sel p.1, .ok ((p.2.1 <<< 8) ||| p.2.2.toNat)⟩

/-- WIN_PUSH (44_window.md R143). -/
def execWinPush (sel : WinSel) (sym : Byte) (s : State) : Host.Outcome State Fault Refusal :=
  .next (complete (runWinPush sel sym s))

/-- `Exec(WIN_PUSHN sel)` (44_window.md R144). -/
def runWinPushn (sel : WinSel) (s : State) : ExecResult :=
  if (s.win sel).cap = 0 then raise .notReady 0 s
  else if Config.nMax < s.csr.inLen.toNat then raise .capacityExceeded 0 s
  else
    let p := (s.win sel).pushMany (s.inSlice 0 s.csr.inLen.toNat)
    ⟨s.setWin sel p.1, .ok p.2⟩

/-- WIN_PUSHN (44_window.md R144). -/
def execWinPushn (sel : WinSel) (s : State) : Host.Outcome State Fault Refusal := .next (complete (runWinPushn sel s))

/-- `Exec(WIN_EVICT sel, c)` (44_window.md R145). -/
def runWinEvict (sel : WinSel) (c : Nat) (s : State) : ExecResult :=
  if (s.win sel).cap = 0 then raise .notReady 0 s
  else
    let p := (s.win sel).evict c
    ⟨s.setWin sel p.1, .ok p.2⟩

/-- WIN_EVICT (44_window.md R145). -/
def execWinEvict (sel : WinSel) (cnt : Nat) (s : State) : Host.Outcome State Fault Refusal :=
  .next (complete (runWinEvict sel cnt s))

/-- `Exec(WIN_READ sel, i)` (44_window.md R146). -/
def runWinRead (sel : WinSel) (i : Nat) (s : State) : ExecResult :=
  if (s.win sel).cap = 0 then raise .notReady 0 s
  else
    match (s.win sel).seq[i]? with
    | none => raise .badIndex i s
    | some b => ⟨s, .ok b.toNat⟩

/-- WIN_READ (44_window.md R146). -/
def execWinRead (sel : WinSel) (idx : Nat) (s : State) : Host.Outcome State Fault Refusal :=
  .next (complete (runWinRead sel idx s))

end Sys2Proof.Machine
end

