-- ==== Sys2Proof/Machine/Lzss.lean ====
section
/-! DEFINITION. The LZSS matcher, the token codec, and the four LZSS commands (45_lzss.md). -/

namespace Sys2Proof.Machine

/-- A token `(distance, length, nextChar)` (45_lzss.md R147). -/
structure Token where
  dist : Nat
  len : Nat
  next : Byte
deriving DecidableEq, Repr

/-- The word of a token (45_lzss.md R147). -/
def Token.word (t : Token) : Word := tokWord t.dist t.len t.next

/-- `while L < maxL and IN[o + L] == IN[p + L]`, from length `l` with `left` symbols to go (45_lzss.md R149). -/
def extendMatch (f : Nat → Byte) (o p : Nat) : (left l : Nat) → Nat
  | 0, l => l
  | left + 1, l => if f (o + l) = f (p + l) then extendMatch f o p left (l + 1) else l

/-- The scan over the offsets: strictly longer only, so the smallest offset of the longest match wins
(45_lzss.md R149). The answer is (bestL, bestO). -/
def scanOffsets (f : Nat → Byte) (p maxL : Nat) : List Nat → Nat × Nat → Nat × Nat
  | [], best => best
  | o :: t, best =>
    let l := extendMatch f o p maxL 0
    scanOffsets f p maxL t (if best.1 < l then (l, o) else best)

/-- `Match(p)`, a function of IN, n, W, B and p alone (45_lzss.md R149). -/
def findMatch (f : Nat → Byte) (n w b p : Nat) : Token :=
  let best := scanOffsets f p (min b (n - p - 1)) (slice (p - w) p) (0, 0)
  if 0 < best.1 then ⟨p - best.2, best.1, f (p + best.1)⟩ else ⟨0, 0, f p⟩

/-- `LoadWindows(p)`: both windows as views of IN at the cursor (45_lzss.md R150). -/
def loadWindows (p : Nat) (s : State) : State :=
  let w := s.csr.cfgW.toNat
  let b := s.csr.cfgB.toNat
  { s with hwin := ((Window.construct w).pushMany (s.inSlice (p - w) p)).1,
           lwin := ((Window.construct b).pushMany (s.inSlice p (min s.csr.inLen.toNat (p + b)))).1 }

/-- `TOK_LEN <- n`. -/
def State.setTokLen (s : State) (n : Nat) : State := { s with csr := { s.csr with tokLen := BitVec.ofNat 16 n } }

/-- `LZ_POS <- n`. -/
def State.setLzPos (s : State) (n : Nat) : State := { s with csr := { s.csr with lzPos := BitVec.ofNat 16 n } }

/-- The token at the cursor (45_lzss.md R149, R150). -/
def State.tokenAtCursor (s : State) : Token :=
  findMatch s.inSym s.csr.inLen.toNat s.csr.cfgW.toNat s.csr.cfgB.toNat s.csr.lzPos.toNat

/-- `LzStep()`: one token out, the cursor on, the consumed symbols from LWIN into HWIN (45_lzss.md R150). -/
def lzStep (s : State) : State :=
  let n := s.csr.inLen.toNat
  let b := s.csr.cfgB.toNat
  let p := s.csr.lzPos.toNat
  let t := s.tokenAtCursor
  let p' := p + t.len + 1
  let s1 := (s.setTok s.csr.tokLen.toNat t.word).setTokLen (s.csr.tokLen.toNat + 1)
  let h := (s1.hwin.pushMany (s1.inSlice p p')).1
  let l1 := (s1.lwin.evict (min (t.len + 1) s1.lwin.seq.length)).1
  let l2 := (l1.pushMany (s1.inSlice (max p' (min n (p + b))) (min n (p' + b)))).1
  ({ s1 with hwin := h, lwin := l2 }).setLzPos p'

/-- The loop of LZ_ENCODE: while LZ_POS < n. Each step consumes a symbol, so n bounds it (45_lzss.md R151,
70_reset_and_hazards.md R175). -/
def lzLoop : Nat → State → State × Option Err
  | 0, s => (s, none)
  | k + 1, s =>
    if s.csr.lzPos.toNat < s.csr.inLen.toNat then
      if Config.nTokMax ≤ s.csr.tokLen.toNat then (s, some ⟨.capacityExceeded, s.csr.tokLen.toNat⟩)
      else lzLoop k (lzStep s)
    else (s, none)

/-- `Exec(LZ_ENCODE)` (45_lzss.md R151). -/
def runLzEncode (s : State) : ExecResult :=
  if s.csr.cfgW = 0 ∨ s.csr.cfgB = 0 then raise .invalidConfiguration 0 s
  else if Config.nMax < s.csr.inLen.toNat then raise .capacityExceeded 0 s
  else
    match lzLoop s.csr.inLen.toNat (loadWindows 0 ((s.setTokLen 0).setLzPos 0)) with
    | (t, none) => ⟨t, .ok t.csr.tokLen.toNat⟩
    | (t, some e) => ⟨t, .error e⟩

/-- LZ_ENCODE (45_lzss.md R151). -/
def execLzEncode (s : State) : Host.Outcome State Fault Refusal := finish (traceLzEncode (runLzEncode s)) (runLzEncode s)

/-- `Exec(LZ_ENCSTEP)` (45_lzss.md R152). -/
def runLzEncstep (s : State) : ExecResult :=
  if s.csr.cfgW = 0 ∨ s.csr.cfgB = 0 then raise .invalidConfiguration 0 s
  else if Config.nMax < s.csr.inLen.toNat then raise .capacityExceeded 0 s
  else if Config.nTokMax ≤ s.csr.tokLen.toNat then raise .capacityExceeded 0 s
  else if s.csr.inLen.toNat ≤ s.csr.lzPos.toNat then raise .badIndex s.csr.lzPos.toNat s
  else
    let t := loadWindows s.csr.lzPos.toNat s
    ⟨lzStep t, .ok t.tokenAtCursor.word.toNat⟩

/-- LZ_ENCSTEP (45_lzss.md R152). -/
def execLzEncstep (s : State) : Host.Outcome State Fault Refusal :=
  finish (traceLzEncstep (runLzEncstep s)) (runLzEncstep s)

/-- The sequential copy: one symbol at a time, reading the growing output (45_lzss.md R148,
70_reset_and_hazards.md R182). -/
def copySymbols (m d : Nat) (js : List Nat) (s : State) : State :=
  js.foldl (fun t j => t.setOut (m + j) (t.outSym (m + j - d))) s

/-- A token that passed the checks of `DecodeToken`, replayed: the copy, nextChar, OUT_LEN, and HWIN rebuilt from OUT
(45_lzss.md R148). -/
def replayToken (wd : Word) (s : State) : State :=
  let m := s.csr.outLen.toNat
  let l := tokLength wd
  let w := s.csr.cfgW.toNat
  let t := ((copySymbols m (tokDist wd) (List.range l) s).setOut (m + l) (tokNext wd)).setOutLen (m + l + 1)
  { t with hwin := ((Window.construct w).pushMany (t.outSlice (m + l + 1 - w) (m + l + 1))).1 }

/-- `DecodeToken(wd, pos)`: the checks in their order, then the replay (45_lzss.md R148). -/
def decodeToken (wd : Word) (pos : Nat) (s : State) : Except Err State :=
  if tokReserved wd ≠ 0 then .error ⟨.corruptStream, pos⟩
  else if tokDist wd = 0 ∧ tokLength wd ≠ 0 then .error ⟨.corruptStream, pos⟩
  else if s.csr.cfgW.toNat < tokDist wd then .error ⟨.corruptStream, pos⟩
  else if s.csr.outLen.toNat < tokDist wd then .error ⟨.corruptStream, pos⟩
  else if Config.nMax < s.csr.outLen.toNat + tokLength wd + 1 then .error ⟨.capacityExceeded, pos⟩
  else .ok (replayToken wd s)

/-- `Exec(LZ_DECODE)` (45_lzss.md R153). -/
def runLzDecode (s : State) : ExecResult :=
  if s.csr.cfgW = 0 then raise .invalidConfiguration 0 s
  else if Config.nTokMax < s.csr.tokLen.toNat then raise .capacityExceeded 0 s
  else
    match forElems (fun i t => decodeToken (t.tok i) i t) (List.range s.csr.tokLen.toNat)
        ((s.setOutLen 0).setWin .hwin (Window.construct s.csr.cfgW.toNat)) with
    | (t, none) => ⟨t, .ok t.csr.outLen.toNat⟩
    | (t, some e) => ⟨t, .error e⟩

/-- LZ_DECODE (45_lzss.md R153). -/
def execLzDecode (s : State) : Host.Outcome State Fault Refusal := finish (traceLzDecode (runLzDecode s)) (runLzDecode s)

/-- `Exec(LZ_DECTOK)` (45_lzss.md R154). -/
def runLzDectok (s : State) : ExecResult :=
  if s.csr.cfgW = 0 then raise .invalidConfiguration 0 s
  else
    match decodeToken s.csr.arg0 0 s with
    | .ok t => ⟨t, .ok (tokLength s.csr.arg0 + 1)⟩
    | .error e => ⟨s, .error e⟩

/-- LZ_DECTOK (45_lzss.md R154). -/
def execLzDectok (s : State) : Host.Outcome State Fault Refusal :=
  finish (traceLzDectok s (runLzDectok s)) (runLzDectok s)

end Sys2Proof.Machine
end

