-- ==== Sys2Proof/Machine/Bus.lean ====
section
/-! DEFINITION. The host bus: accepted and rejected accesses, reads and writes while idle and while busy, soft reset
(20_memory.md R61 to R77, 60_exceptions.md R159). -/

namespace Sys2Proof.Machine

/-- The offset of a bus address in the core's window; none where the address is not in it, and the transaction is not the
core's (20_memory.md R61, R63; log entry 14). -/
def Params.offset (p : Params) (addr : Nat) : Option Nat :=
  if p.base ≤ addr ∧ addr < p.base + Config.windowBytes then some (addr - p.base) else none

/-- The accesses that are not bus errors: 4 bytes, aligned, not reserved (20_memory.md R62, R64). -/
def accepted (a : Access) (off : Nat) : Bool :=
  decide (a.size = .four) && decide (off % 4 = 0) && decide (target off ≠ .reserved)

/-- The registers that keep their value while the core is busy (20_memory.md R76). -/
def readableBusy : Target → Bool
  | .csr .id => true
  | .csr .ctrl => true
  | .csr .status => true
  | .csr .cmd => true
  | _ => false

/-- An accepted read: the value while idle, and of four registers while busy; any other read while busy returns a free
draw (20_memory.md R74, R76). Only the model's own fields change. -/
def busRead (t : Target) (s : State) : State :=
  if s.busy && !readableBusy t then { s with resp := some (.data (Config.busyRead s.draws)), draws := s.draws + 1 }
  else { s with resp := some (.data (s.readTarget t)) }

/-- Whether a write is the SRST action: CTRL with bit 1 set (10_state.md R22). -/
def isSoftReset (t : Target) (w : Word) : Bool := decide (t = .csr .ctrl) && w.getLsbD 1

/-- An accepted write: SRST at any time; while busy every other write is dropped and sets OVERRUN; while idle the
target's rule (20_memory.md R65 to R69, R75, R77, 70_reset_and_hazards.md R173). -/
def busWrite (t : Target) (w : Word) (s : State) : State :=
  let u :=
    if isSoftReset t w then resetEntry s
    else if s.busy then { s with csr := { s.csr with overrun := true } }
    else s.writeTarget w t
  { u with resp := some .written }

/-- `fault BusError`: no core state changes; the run stops with the fault, or, on a platform that ignores bus errors,
goes on with the error in the model's fault set (60_exceptions.md R159; log entry 7). -/
def busError (a : Access) (s : State) : Host.Outcome State Fault Refusal :=
  if s.params.ignoreBusErr then .next { s with busErrs := s.busErrs ++ [a], resp := some .error } else .fault (.busError a)

/-- One host transaction (20_memory.md R61). -/
def busAccess (a : Access) (s : State) : Host.Outcome State Fault Refusal :=
  match s.params.offset a.addr with
  | none => .next { s with resp := none }
  | some off =>
    if accepted a off then
      match a.kind with
      | .read => .next (busRead (target off) s)
      | .write => .next (busWrite (target off) a.wdata s)
    else busError a s

end Sys2Proof.Machine
end

