-- ==== Sys2Proof/Machine/Asm.lean ====
section
/-! DEFINITION. The assembler syntax of commands and host programs, as text and as agenda events (30_encoding.md R100 to
R102). -/

namespace Sys2Proof.Machine

/-- `<w>`: `h` or `l` (30_encoding.md R100). -/
def selText : WinSel → String
  | .hwin => "h"
  | .lwin => "l"

/-- The assembler line of a command, operands in decimal (30_encoding.md R100). -/
def asmText : Instr → String
  | .nop => "nop"
  | .frqClear => "frq.clear"
  | .frqCount => "frq.count"
  | .frqInc sym => "frq.inc " ++ toString sym.toNat
  | .hufBuild => "huf.build"
  | .hufEncode => "huf.encode"
  | .hufPutsym sym => "huf.putsym " ++ toString sym.toNat
  | .hufDecode => "huf.decode"
  | .hufDecbit bit => "huf.decbit " ++ (if bit then "1" else "0")
  | .hufDecend => "huf.decend"
  | .winInit sel cap => "win.init " ++ selText sel ++ ", " ++ toString cap
  | .winPush sel sym => "win.push " ++ selText sel ++ ", " ++ toString sym.toNat
  | .winPushn sel => "win.pushn " ++ selText sel
  | .winEvict sel cnt => "win.evict " ++ selText sel ++ ", " ++ toString cnt
  | .winRead sel idx => "win.read " ++ selText sel ++ ", " ++ toString idx
  | .lzEncode => "lz.encode"
  | .lzEncstep => "lz.encstep"
  | .lzDecode => "lz.decode"
  | .lzDectok => "lz.dectok"

/-- The byte offset of a target (20_memory.md R63, R66 to R71; 30_encoding.md R101). -/
def offsetOf : Target → Nat
  | .csr r => 4 * csrMap.idxOf r
  | .freq i => freqAddr i
  | .node i k => 0x02000 + 16 * i + 4 * k
  | .lut sym k => 0x04000 + 64 * sym + 4 * k
  | .inCell i => inAddr i
  | .outCell i => outAddr i
  | .tok i => tokAddr i
  | .bits i => bitAddr i
  | .reserved => 0x00054

/-- `wr <target>, <value>` (30_encoding.md R101). -/
def hostWrite (p : Params) (t : Target) (v : Word) : Event := .bus ⟨.write, p.base + offsetOf t, .four, v⟩

/-- `rd <target>` (30_encoding.md R101). -/
def hostRead (p : Params) (t : Target) : Event := .bus ⟨.read, p.base + offsetOf t, .four, 0⟩

/-- `issue <command>`: `wr CMD, <encoding of command>` (30_encoding.md R102). -/
def hostIssue (p : Params) (i : Instr) : Event := hostWrite p (.csr .cmd) (encode i)

/-- `wait`: the polls of STATUS before the core's turn change nothing, so one turn of the core and the last poll stand for
the loop (30_encoding.md R102, 20_memory.md R74; log entry 21). -/
def hostWait (p : Params) : List Event := [.core, hostRead p (.csr .status)]

/-- `run <command>`: `issue`, then `wait` (30_encoding.md R102). -/
def hostRun (p : Params) (i : Instr) : List Event := hostIssue p i :: hostWait p

/-- `ack`: W1C of DONE and IRQ_PEND (30_encoding.md R102). -/
def hostAck (p : Params) : Event := hostWrite p (.csr .status) 0x00000082#32

/-- `clrerr`: W1C of STICKY_ERR and OVERRUN (30_encoding.md R102). -/
def hostClrerr (p : Params) : Event := hostWrite p (.csr .status) 0x00000018#32

/-- `srst` (30_encoding.md R102). -/
def hostSrst (p : Params) : List Event := hostWrite p (.csr .ctrl) 0x00000002#32 :: hostWait p

/-- `wr IN[i], <symbol i>` from index `i` on. -/
def hostLoadCells (p : Params) : Nat → List Byte → List Event
  | _, [] => []
  | i, b :: t => hostWrite p (.inCell i) (b.setWidth 32) :: hostLoadCells p (i + 1) t

/-- `load IN, "<string>"` (30_encoding.md R102). -/
def hostLoadIn (p : Params) (xs : List Byte) : List Event :=
  hostLoadCells p 0 xs ++ [hostWrite p (.csr .inLen) (BitVec.ofNat 32 xs.length)]

end Sys2Proof.Machine
end

