-- ==== Sys2Proof/Machine/Dispatch.lean ====
section
/-! DEFINITION. One arm per command: the completion of a pending command (40_control.md R104). -/

namespace Sys2Proof.Machine

def exec (i : Instr) (s : State) : Host.Outcome State Fault Refusal :=
  match i with
  | .nop => Sys2Proof.Machine.execNop s
  | .frqClear => Sys2Proof.Machine.execFrqClear s
  | .frqCount => Sys2Proof.Machine.execFrqCount s
  | .frqInc sym => Sys2Proof.Machine.execFrqInc sym s
  | .hufBuild => Sys2Proof.Machine.execHufBuild s
  | .hufEncode => Sys2Proof.Machine.execHufEncode s
  | .hufPutsym sym => Sys2Proof.Machine.execHufPutsym sym s
  | .hufDecode => Sys2Proof.Machine.execHufDecode s
  | .hufDecbit bit => Sys2Proof.Machine.execHufDecbit bit s
  | .hufDecend => Sys2Proof.Machine.execHufDecend s
  | .winInit sel cap => Sys2Proof.Machine.execWinInit sel cap s
  | .winPush sel sym => Sys2Proof.Machine.execWinPush sel sym s
  | .winPushn sel => Sys2Proof.Machine.execWinPushn sel s
  | .winEvict sel cnt => Sys2Proof.Machine.execWinEvict sel cnt s
  | .winRead sel idx => Sys2Proof.Machine.execWinRead sel idx s
  | .lzEncode => Sys2Proof.Machine.execLzEncode s
  | .lzEncstep => Sys2Proof.Machine.execLzEncstep s
  | .lzDecode => Sys2Proof.Machine.execLzDecode s
  | .lzDectok => Sys2Proof.Machine.execLzDectok s

end Sys2Proof.Machine
end

