-- ==== Sys2Proof/Machine/Step.lean ====
section
/-! DEFINITION. One step: the next event of the agenda, and the core's own turn (60_exceptions.md R160). -/

namespace Sys2Proof.Machine

/-- The core's turn: nothing while Idle, the initialisation, or the completion of the pending command
(40_control.md R104, 70_reset_and_hazards.md R172, 60_exceptions.md R171). -/
def coreTurn (s : State) : Host.Outcome State Fault Refusal :=
  match s.pending with
  | .idle => .next s
  | .init => .next (initStep s)
  | .cmd w =>
    match decode w with
    | .ok i => exec i s
    | .error _ => execIllegal s

/-- One step: a host access, a reset, or the core's turn, as the agenda says; with nothing left on it, the core's turn
(70_reset_and_hazards.md R175: a core step that stays enabled is eventually taken; log entry 5). -/
def step (s : State) : Host.Outcome State Fault Refusal :=
  match s.agenda with
  | [] => coreTurn s
  | .core :: rest => coreTurn { s with agenda := rest }
  | .hardReset :: rest => .next (resetEntry { s with agenda := rest })
  | .bus a :: rest => busAccess a { s with agenda := rest }

/-- The word issued as a command and the core given the next turn: the core fetches nothing, a command word is taken from
the CMD write (20_memory.md R85, 40_control.md R103; log entry 11). -/
def State.withFetchWord (s : State) (nbits w : Nat) : State :=
  issue (tableWord nbits w) { s with agenda := .core :: s.agenda }

end Sys2Proof.Machine
end

