-- ==== Sys2Proof/Safety.lean ====
section
/-! DEFINITION. What counts as a good state and an observable run, in the terms the claims use. -/

namespace Sys2Proof.Machine

/-- The byte offsets at which a host-writable memory keeps bits: all four lanes of a FREQ, TOKBUF or BITBUF word, lane 0 of
an IN or OUT word (20_memory.md R63, R66 to R69). -/
def isCellByte (a : Nat) : Bool :=
  decide (0x01000 ≤ a ∧ a < 0x01400) || decide (0x10000 ≤ a ∧ a < 0x18000 ∧ a % 4 = 0) ||
    decide (0x20000 ≤ a ∧ a < 0x24000) || decide (0x40000 ≤ a ∧ a < 0x60000)

/-- The memory is canonical and holds nothing outside the cells of the address map (20_memory.md R63, R78). -/
def State.memOk (s : State) : Prop := Memory.wf s.mem ∧ ∀ c ∈ s.mem, isCellByte c.1 = true

/-- The window invariant (44_window.md R140). -/
def Window.ok (sel : WinSel) (x : Window) : Prop := x.seq.length ≤ x.cap ∧ x.cap ≤ capMax sel

/-- Memory, windows and error code have the shape the spec gives them (20_memory.md R78, 44_window.md R140,
60_exceptions.md R156: "A model may assume ERRCODE ≤ 7"). -/
def State.shapeOk (s : State) : Prop :=
  s.memOk ∧ Window.ok .hwin s.hwin ∧ Window.ok .lwin s.lwin ∧ s.csr.errcode.toNat ≤ 7

/-- What the pending state says of the registers: a pending command is the word in CMD, with DONE and ERRCODE cleared by its
issue; a pending initialisation leaves every register but OVERRUN at its reset value (40_control.md R103,
70_reset_and_hazards.md R172). -/
def State.pendingOk (s : State) : Prop :=
  match s.pending with
  | .idle => True
  | .cmd w => s.csr.cmd = w ∧ s.csr.done = false ∧ s.csr.errcode = 0
  | .init => s.csr = { Csr.reset with overrun := s.csr.overrun }

/-- The tree registers, the arena and the code table describe the tree built from the current FREQ, or no tree is valid and
they are cleared (10_state.md R23, R28, R59). -/
def State.treeOk (s : State) : Prop :=
  if s.csr.treeValid then
    s.node = buildArena s.freq ∧ s.lut = deriveCodes (buildArena s.freq) s.symCount ∧
      s.csr.nsym = BitVec.ofNat 9 s.symCount ∧ s.csr.nodeCnt = BitVec.ofNat 10 (buildArena s.freq).length ∧
      s.csr.root = rootOf (buildArena s.freq)
  else s.csr.nsym = 0 ∧ s.csr.nodeCnt = 0 ∧ s.csr.root = Config.noNode ∧ s.csr.decNode = Config.noNode ∧ s.csr.decLen = 0

/-- The node a path of bits leads to, 0 left and 1 right; no path goes on past a leaf (42_huffman_tree.md R126). -/
def walk (ar : List Node) : BitVec 9 → List Bool → Option (BitVec 9)
  | i, [] => some i
  | i, b :: p =>
    if (ar.getD i.toNat Node.zero).leaf then none else walk ar (childOf (ar.getD i.toNat Node.zero) b) p

/-- The walker: at the root with an empty buffer, or, in a tree of two symbols or more, at the internal node that a path of
DEC_LEN bits leads to (10_state.md R57). -/
def State.walkerOk (s : State) : Prop :=
  s.csr.treeValid = true →
    (s.csr.decLen = 0 ∧ s.csr.decNode = s.csr.root) ∨
      (2 ≤ s.csr.nsym.toNat ∧ (s.nodeAt s.csr.decNode).leaf = false ∧
        ∃ p : List Bool, p.length = s.csr.decLen.toNat ∧ walk s.node s.csr.root p = some s.csr.decNode)

/-- The end of a run with a valid observation: the host is done, the core Idle, no bus error recorded
(70_reset_and_hazards.md R176). -/
def State.observable (s : State) : Prop := s.agenda = [] ∧ s.pending = .idle ∧ s.busErrs = []

end Sys2Proof.Machine
end

