-- ==== Sys2Proof/Certificates/Slice0/Obligations.lean ====
section
/-! DEFINITION. The statements for the provers, from the numbered rules of spec/. -/

namespace Sys2Proof.Machine

/-! ### The words the statements are written in -/

/-- `s` with the fields of a completion record as `t` has them (40_control.md R104). -/
def recorded (s t : State) : State :=
  { s with pending := t.pending,
           csr := { s.csr with result0 := t.csr.result0, errPos := t.csr.errPos, errcode := t.csr.errcode,
                               stickyErr := t.csr.stickyErr, done := t.csr.done, irqPend := t.csr.irqPend } }

/-- `s` with the tree, the code table and the tree and walker registers as `t` has them (42_huffman_tree.md R122). -/
def withTree (s t : State) : State :=
  { s with node := t.node, lut := t.lut,
           csr := { s.csr with treeValid := t.csr.treeValid, nsym := t.csr.nsym, nodeCnt := t.csr.nodeCnt,
                               root := t.csr.root, decNode := t.csr.decNode, decLen := t.csr.decLen } }

/-- `s` with OUT_LEN and the walker registers as `t` has them. -/
def withWalker (s t : State) : State :=
  { s with csr := { s.csr with outLen := t.csr.outLen, decNode := t.csr.decNode, decLen := t.csr.decLen } }

/-- The completion record of a command that succeeded with result `v` (40_control.md R104). -/
def succeeded (s t : State) (v : Nat) : Prop :=
  t.pending = .idle ∧ t.csr.done = true ∧ t.csr.irqPend = true ∧ t.csr.errcode = 0 ∧ t.csr.errPos = 0 ∧
    t.csr.stickyErr = s.csr.stickyErr ∧ t.csr.result0.toNat = v

/-- The completion record of a command that failed with error number `e` at position `pos` (40_control.md R104). -/
def failed (t : State) (e pos : Nat) : Prop :=
  t.pending = .idle ∧ t.csr.done = true ∧ t.csr.irqPend = true ∧ t.csr.errcode.toNat = e ∧ t.csr.errPos.toNat = pos ∧
    t.csr.stickyErr = true ∧ t.csr.result0 = 0

/-- The command `i` fails with number `e` at `pos` and changes nothing but the completion record. -/
def failsAlone (i : Instr) (s : State) (e pos : Nat) : Prop :=
  ∃ t, exec i s = .next t ∧ failed t e pos ∧ t = recorded s t

/-- The tree registers after `InvalidateTree` (10_state.md R59). -/
def treeCleared (t : State) : Prop :=
  t.csr.treeValid = false ∧ t.csr.nsym = 0 ∧ t.csr.nodeCnt = 0 ∧ t.csr.root = Config.noNode ∧
    t.csr.decNode = Config.noNode ∧ t.csr.decLen = 0

/-- The number k of symbols with a counter other than 0. -/
def distinctCount (s : State) : Nat := ((List.range 256).filter fun v => decide (s.freq v ≠ 0)).length

/-- The input sequence IN[0..IN_LEN). -/
def input (s : State) : List Byte := s.inSlice 0 s.csr.inLen.toNat

/-- Every byte of memory outside [lo, hi) reads in `t` as in `s`. -/
def sameOutside (lo hi : Nat) (s t : State) : Prop :=
  ∀ a, (a < lo ∨ hi ≤ a) → Memory.get t.mem a = Memory.get s.mem a

/-- The code of a LUT entry as a bit string, first bit first (10_state.md R54). -/
def codeBits (e : LutEntry) : List Bool := (List.range e.len.toNat).map e.code.getLsbD

/-- The first `n` bits of the bit sequence in BITBUF (20_memory.md R69). -/
def bitsOf (s : State) (n : Nat) : List Bool := (List.range n).map (bitRead s)

/-- The bytes of BITBUF. -/
abbrev bitBufLo : Nat := 0x40000
abbrev bitBufHi : Nat := 0x60000

/-- A host write of the word `w` at offset `off` of the window, as the next event (20_memory.md R61). -/
def hostWriteAt (s : State) (off : Nat) (w : Word) : Host.Outcome State Fault Refusal :=
  step { s with agenda := .bus ⟨.write, s.params.base + off, .four, w⟩ :: s.agenda }

/-- A host read of the word at offset `off` of the window, as the next event (20_memory.md R61). -/
def hostReadAt (s : State) (off : Nat) : Host.Outcome State Fault Refusal :=
  step { s with agenda := .bus ⟨.read, s.params.base + off, .four, 0⟩ :: s.agenda }

/-- The offsets marked reserved in the table of 20_memory.md R63. -/
def reservedOffset (off : Nat) : Prop :=
  (0x00054 ≤ off ∧ off ≤ 0x00FFF) ∨ (0x01400 ≤ off ∧ off ≤ 0x01FFF) ∨ (0x08000 ≤ off ∧ off ≤ 0x0FFFF) ∨
    (0x18000 ≤ off ∧ off ≤ 0x1FFFF) ∨ (0x24000 ≤ off ∧ off ≤ 0x3FFFF) ∨ (0x60000 ≤ off ∧ off ≤ 0x7FFFF)

/-- The bits a RW register keeps of a written word (10_state.md R20); none for the others. -/
def rwMask : CsrName → Option Word
  | .arg0 => some 0xFFFFFFFF#32
  | .cfgW => some 0x00000FFF#32
  | .cfgB => some 0x000000FF#32
  | .inLen => some 0x0000FFFF#32
  | .outLen => some 0x0000FFFF#32
  | .bitLen => some 0x001FFFFF#32
  | .tokLen => some 0x0000FFFF#32
  | .lzPos => some 0x0000FFFF#32
  | _ => none

/-- The RO registers (10_state.md R20). -/
def readOnlyCsr : CsrName → Bool
  | .id => true
  | .result0 => true
  | .errPos => true
  | .nsym => true
  | .nodeCnt => true
  | .root => true
  | .decNode => true
  | .decLen => true
  | .hwinStat => true
  | .lwinStat => true
  | _ => false

/-- The decode algorithm of AXC on a buffer of bits: "accumulating bits into a buffer; whenever the buffer matches a known
code, emit the corresponding symbol and reset the buffer" (10_state.md R57); the emitted symbols and the buffer left. -/
def bufferDecode (code : Nat → List Bool) : List Bool → List Bool → List Byte × List Bool
  | buf, [] => ([], buf)
  | buf, b :: bs =>
    match (List.range 256).find? fun v => decide (code v = buf ++ [b]) with
    | some v => (BitVec.ofNat 8 v :: (bufferDecode code [] bs).1, (bufferDecode code [] bs).2)
    | none => bufferDecode code (buf ++ [b]) bs

/-- The code of symbol `v` in the table derived from FREQ (42_huffman_tree.md R126). -/
def freqCode (s : State) (v : Nat) : List Bool :=
  codeBits (sparseGet LutEntry.none (deriveCodes (buildArena s.freq) s.symCount) v)

/-- The tokens of LZSS encoding from cursor `p` on, one `Match` after the other (45_lzss.md R149 to R151). -/
def tokensFrom (f : Nat → Byte) (n w b : Nat) : (fuel p : Nat) → List Token
  | 0, _ => []
  | fuel + 1, p =>
    if p < n then findMatch f n w b p :: tokensFrom f n w b fuel (p + (findMatch f n w b p).len + 1) else []

/-- `l` symbols copied one at a time, each the one `d` places back in the growing output (45_lzss.md R148). -/
def copyBack (d : Nat) : Nat → List Byte → List Byte
  | 0, out => out
  | l + 1, out => copyBack d l (out ++ [out.getD (out.length - d) 0])

/-- The error of a token word against the output so far, by number, 0 for none (45_lzss.md R148). -/
def tokenError (w : Nat) (out : List Byte) (wd : Word) : Nat :=
  if tokReserved wd ≠ 0 ∨ (tokDist wd = 0 ∧ tokLength wd ≠ 0) ∨ w < tokDist wd ∨ out.length < tokDist wd then 1
  else if 4096 < out.length + tokLength wd + 1 then 4
  else 0

/-- Token words replayed in order from index `i` on, stopping at the first error: the output, and the error number and index
of that token (45_lzss.md R148, R153). -/
def replayWords (w : Nat) : (i : Nat) → List Byte → List Word → List Byte × Option (Nat × Nat)
  | _, out, [] => (out, none)
  | i, out, wd :: t =>
    if tokenError w out wd = 0 then
      replayWords w (i + 1) (copyBack (tokDist wd) (tokLength wd) out ++ [tokNext wd]) t
    else (out, some (tokenError w out wd, i))

/-- Commands completed one after the other. -/
def runCommands : List Instr → State → Host.Outcome State Fault Refusal
  | [], s => .next s
  | i :: is, s =>
    match exec i s with
    | .next t => runCommands is t
    | .fault r => .fault r
    | .refused r => .refused r

/-- Commands completed one after the other, up to the first that completes with an error. -/
def runUntilError : List Instr → State → Host.Outcome State Fault Refusal
  | [], s => .next s
  | i :: is, s =>
    match exec i s with
    | .next t => if t.csr.errcode = 0 then runUntilError is t else .next t
    | .fault r => .fault r
    | .refused r => .refused r

end Sys2Proof.Machine

open Sys2Proof Sys2Proof.Machine

/-! ### Encoding (30_encoding.md) -/

/-- Decoding the word of a well-formed command gives it back, with every operand at every value; and a word that decodes to a
command is the word of that command, which is well-formed. -/
def Obligations.DecodeAndEncodeAgree : Prop :=
  (∀ i : Instr, i.wellFormed = true → decode (encode i) = .ok i) ∧
    ∀ (w : Word) (i : Instr), decode w = .ok i → i.wellFormed = true ∧ encode i = w

/-- A word decodes to the command of a row that selects it, and at most one row does. -/
def Obligations.AtMostOneRowSelectsAWord : Prop :=
  ∀ w : Word, (opcodeMap.filter fun r => r.selects w).length ≤ 1 ∧
    ∀ i, decode w = .ok i ↔ ∃ r ∈ opcodeMap, r.selects w = true ∧ r.build w = i

/-- R98: which words are Illegal, and that such a word is issued like any other, and completes with IllegalCommand and changes
nothing else. -/
def Obligations.IllegalWordCompletesWithIllegalCommand : Prop :=
  (∀ w : Word, (∃ e, decode w = .error e) ↔
    ((∀ r ∈ opcodeMap, opField r.pattern ≠ opField w) ∨
      ∃ r ∈ opcodeMap, opField r.pattern = opField w ∧ w &&& r.mask ≠ r.pattern)) ∧
  (∀ (s : State) (w : Word) (e : Illegal), s.pending = .idle → decode w = .error e →
    ∃ t, hostWriteAt s 0x00C w = .next t ∧ t.pending = .cmd w) ∧
  ∀ (s : State) (w : Word) (e : Illegal), s.pending = .cmd w → decode w = .error e →
    ∃ t, step { s with agenda := .core :: s.agenda } = .next t ∧ failed t 5 0 ∧ t = recorded s t

/-- Words written out from the encodings of the spec decode to the commands they stand for (95_test_vectors.md 2.1). -/
def Obligations.SpecWordsDecode : Prop :=
  decode 0x00000000#32 = .ok .nop ∧ decode 0x00006112#32 = .ok (.frqInc 0x61#8) ∧
    decode 0x00000020#32 = .ok .hufBuild ∧ decode 0x00006231#32 = .ok (.hufPutsym 0x62#8) ∧
    decode 0x00000139#32 = .ok (.hufDecbit true) ∧ decode 0x00030140#32 = .ok (.winInit .lwin 3) ∧
    decode 0x00610141#32 = .ok (.winPush .lwin 0x61#8) ∧ decode 0x00000042#32 = .ok (.winPushn .hwin) ∧
    decode 0x00020143#32 = .ok (.winEvict .lwin 2) ∧ decode 0x00030044#32 = .ok (.winRead .hwin 3) ∧
    decode 0x00000059#32 = .ok .lzDectok ∧ decode 0x00000100#32 = .error (.reservedBit 0x00#8) ∧
    decode 0x00000013#32 = .error (.unassignedOp 0x13#8)

/-! ### Steps, reset and the host bus -/

/-- When the core has the turn and the pending word decodes to a command, a step is `exec` of that command; with nothing
left on the agenda the core has the turn (the agenda is the model's, log entry 5). -/
def Obligations.StepRunsThePendingCommand : Prop :=
  ∀ (s : State) (w : Word) (i : Instr), s.pending = .cmd w → decode w = .ok i →
    step { s with agenda := .core :: s.agenda } = exec i s ∧ (s.agenda = [] → step s = exec i s)

/-- Every command completes, whatever the state; its record is that of a success or of one of the seven errors; the
interrupt output is IRQ_EN either way; and no command writes IRQ_EN, ARG0, CMD, CFG_W, CFG_B,
IN_LEN, OVERRUN or IN. -/
def Obligations.EveryCommandCompletes : Prop :=
  ∀ (i : Instr) (s : State), ∃ t, exec i s = .next t ∧
    (succeeded s t t.csr.result0.toNat ∨
      ∃ e pos, 1 ≤ e ∧ e ≤ 7 ∧ failed t e pos) ∧
    t.irq = s.csr.irqEn ∧
    t.csr.irqEn = s.csr.irqEn ∧ t.csr.overrun = s.csr.overrun ∧ t.csr.cmd = s.csr.cmd ∧ t.csr.arg0 = s.csr.arg0 ∧
    t.csr.cfgW = s.csr.cfgW ∧ t.csr.cfgB = s.csr.cfgB ∧ t.csr.inLen = s.csr.inLen ∧
    t.params = s.params ∧ t.agenda = s.agenda ∧ t.resp = s.resp ∧ t.draws = s.draws ∧ t.busErrs = s.busErrs ∧
    ∀ a, inBase ≤ a → a < outBase → Memory.get t.mem a = Memory.get s.mem a

/-- One turn of the core ends what is pending: a command by its completion, a reset by its initialisation. -/
def Obligations.CoreTurnEndsWhatIsPending : Prop :=
  ∀ s : State, s.agenda = [] → ∃ t, step s = .next t ∧ t.pending = .idle ∧ t.agenda = []

/-- R58: the pending state changes only at an issue, a completion, a reset, or the end of the initialisation; BUSY is 1, in
bit 0 of STATUS, exactly when it is not Idle. -/
def Obligations.PendingChangesOnlyAtTheFourEvents : Prop :=
  (∀ s : State, s.statusWord.getLsbD 0 = true ↔ s.pending ≠ .idle) ∧
  ∀ s t : State, step s = .next t → t.pending = s.pending ∨
    (s.pending ≠ .idle ∧ t.pending = .idle ∧ (s.agenda = [] ∨ ∃ rest, s.agenda = .core :: rest)) ∨
    (∃ rest, s.agenda = .hardReset :: rest ∧ t.pending = .init) ∨
    (∃ w rest, s.agenda = .bus ⟨.write, s.params.base + 0x004, .four, w⟩ :: rest ∧ w.getLsbD 1 = true ∧ t.pending = .init) ∨
    (∃ w rest, s.agenda = .bus ⟨.write, s.params.base + 0x00C, .four, w⟩ :: rest ∧ s.pending = .idle ∧ t.pending = .cmd w)

/-- A host access that is not 4 bytes, not aligned or reserved changes nothing of the core: it is the fault BusError, or, on
a platform that ignores bus errors, it is recorded in the model's fault set and the core goes on (log entry 7). -/
def Obligations.BusErrorLeavesTheCoreUnchanged : Prop :=
  ∀ (s : State) (a : Access) (off : Nat), off < 0x80000 → a.addr = s.params.base + off →
    (a.size ≠ .four ∨ off % 4 ≠ 0 ∨ reservedOffset off) →
    (s.params.ignoreBusErr = false → step { s with agenda := .bus a :: s.agenda } = .fault (.busError a)) ∧
    (s.params.ignoreBusErr = true → step { s with agenda := .bus a :: s.agenda } =
      .next { s with busErrs := s.busErrs ++ [a], resp := some .error })

/-- An accepted read changes no state of the core, idle or busy. It returns the value of what it reaches, except that while the
core is busy every word but ID, CTRL, STATUS and CMD returns a free draw (the model's free value: log entry 6). -/
def Obligations.ReadsHaveNoSideEffect : Prop :=
  ∀ (s : State) (off : Nat), off < 0x80000 → off % 4 = 0 → ¬ reservedOffset off →
    ((s.pending = .idle ∨ off < 0x010 → ∃ v, hostReadAt s off = .next { s with resp := some (.data v) } ∧
        v = s.readTarget (target off)) ∧
     (s.pending ≠ .idle → 0x010 ≤ off →
        hostReadAt s off = .next { s with resp := some (.data (Config.busyRead s.draws)), draws := s.draws + 1 }))

/-- While busy, SRST resets, every other accepted write is dropped and sets OVERRUN, and a write to a reserved offset is a bus
error that does not set OVERRUN (a bus error is a fault, or recorded by a platform that ignores it: log entry 7). -/
def Obligations.BusyWritesAreDropped : Prop :=
  ∀ (s : State) (off : Nat) (w : Word), off < 0x80000 → off % 4 = 0 → s.pending ≠ .idle →
    (¬ reservedOffset off → ¬ (off = 0x004 ∧ w.getLsbD 1 = true) →
      hostWriteAt s off w = .next { s with csr := { s.csr with overrun := true }, resp := some .written }) ∧
    (off = 0x004 → w.getLsbD 1 = true →
      hostWriteAt s off w = .next { s with csr := Csr.reset, pending := .init, resp := some .written }) ∧
    (reservedOffset off →
      (s.params.ignoreBusErr = false →
        hostWriteAt s off w = .fault (.busError ⟨.write, s.params.base + off, .four, w⟩)) ∧
      (s.params.ignoreBusErr = true → ∃ t, hostWriteAt s off w = .next t ∧ t.csr = s.csr ∧ t.pending = s.pending ∧
        t = { s with busErrs := t.busErrs, resp := some .error }))

/-- R173: a write to CTRL with bit 1 set resets the core in every state, idle, busy or initialising; IRQ_EN is 0 afterwards;
after the core's next turn every register has its reset value and every memory is zero. -/
def Obligations.SoftResetAtAnyTime : Prop :=
  ∀ (s : State) (w : Word), w.getLsbD 1 = true → ∃ t u, hostWriteAt s 0x004 w = .next t ∧
    t.csr = Csr.reset ∧ t.pending = .init ∧ t.csr.irqEn = false ∧
    step { t with agenda := .core :: t.agenda } = .next u ∧ u.csr = Csr.reset ∧ u.pending = .idle ∧
    (∀ a, Memory.get u.mem a = 0) ∧ u.hwin = ⟨0, []⟩ ∧ u.lwin = ⟨0, []⟩ ∧ u.node = [] ∧ u.lut = [] ∧ u.trace = s.trace

/-- R60: a reset, by the reset input or by SRST, leaves the initialisation pending and STATUS at 1; a write during it sets
OVERRUN; and what every register and memory reads as once it has completed, OVERRUN kept. -/
def Obligations.ValuesAfterReset : Prop :=
  (State.reset.pending = .init ∧ State.reset.csr = Csr.reset) ∧
  (∀ s u : State, (step { s with agenda := .hardReset :: s.agenda } = .next u ∨
      ∃ w : Word, w.getLsbD 1 = true ∧ hostWriteAt s 0x004 w = .next u) →
    u.pending = .init ∧ u.csr = Csr.reset ∧ u.statusWord = 1) ∧
  ∀ (s : State) (b : Bool), s.pending = .init → s.csr = { Csr.reset with overrun := b } →
    (∀ v : Word, hostWriteAt s 0x01C v = .next { s with csr := { Csr.reset with overrun := true }, resp := some .written }) ∧
    ∃ t, step { s with agenda := .core :: s.agenda } = .next t ∧ t.pending = .idle ∧ t.irq = false ∧
      (∀ r : CsrName, t.readCsr r =
        if r = .id then 0x484C5A01#32 else if r = .root ∨ r = .decNode then 0x1FF#32
        else if r = .status then (if b then 0x10#32 else 0) else 0) ∧
      (∀ i, t.freq i = 0 ∧ t.inSym i = 0 ∧ t.outSym i = 0 ∧ t.tok i = 0 ∧ t.bitWord i = 0) ∧
      (∀ i k, t.nodeWord i k = 0 ∧ t.lutWord i k = 0) ∧ t.hwin = ⟨0, []⟩ ∧ t.lwin = ⟨0, []⟩

/-- R103: a write to CMD while idle issues the word, and changes nothing else; a write to CMD while busy is not an issue. -/
def Obligations.CmdWriteIssuesTheWord : Prop :=
  ∀ (s : State) (w : Word),
    (s.pending = .idle → ∃ t, hostWriteAt s 0x00C w = .next t ∧
      t = { s with csr := { s.csr with cmd := w, done := false, errcode := 0 }, pending := .cmd w, resp := some .written } ∧
      t.busy = true ∧ t.err = false) ∧
    (s.pending ≠ .idle → ∃ t, hostWriteAt s 0x00C w = .next t ∧ t.csr.cmd = s.csr.cmd ∧ t.pending = s.pending ∧
      t.csr.overrun = true)

/-- A write to a RW register while idle keeps the register's own bits, and changes no other register and no memory. -/
def Obligations.RegisterWritesKeepTheirOwnBits : Prop :=
  ∀ (s : State) (r : CsrName) (m w : Word), s.pending = .idle → rwMask r = some m →
    ∃ t, hostWriteAt s (offsetOf (.csr r)) w = .next t ∧ t.readCsr r = w &&& m ∧
      (∀ r', r' ≠ r → t.readCsr r' = s.readCsr r') ∧
      { t with csr := s.csr } = { s with resp := some .written }

/-- R65: a write to a read-only register or to the NODE or LUT aperture while idle changes no state of the core. -/
def Obligations.ReadOnlyWritesAreIgnored : Prop :=
  ∀ (s : State) (off : Nat) (w : Word), s.pending = .idle → off % 4 = 0 →
    ((∃ r, readOnlyCsr r = true ∧ off = offsetOf (.csr r)) ∨ (0x02000 ≤ off ∧ off ≤ 0x07FFF)) →
    hostWriteAt s off w = .next { s with resp := some .written }

/-- A CTRL write without SRST stores IRQ_EN alone; a STATUS write clears the RW1C bits written as 1 and nothing else, so
that `irq` falls with bit 7. -/
def Obligations.InterruptEnableAndAcknowledge : Prop :=
  ∀ (s : State) (w : Word), s.pending = .idle →
    (w.getLsbD 1 = false → hostWriteAt s 0x004 w =
      .next { s with csr := { s.csr with irqEn := w.getLsbD 0 }, resp := some .written }) ∧
    (∃ t, hostWriteAt s 0x008 w = .next t ∧
      t = { s with csr := { s.csr with done := t.csr.done, stickyErr := t.csr.stickyErr, overrun := t.csr.overrun,
                                       irqPend := t.csr.irqPend }, resp := some .written } ∧
      (t.csr.done = true ↔ s.csr.done = true ∧ w.getLsbD 1 = false) ∧
      (t.csr.stickyErr = true ↔ s.csr.stickyErr = true ∧ w.getLsbD 3 = false) ∧
      (t.csr.overrun = true ↔ s.csr.overrun = true ∧ w.getLsbD 4 = false) ∧
      (t.csr.irqPend = true ↔ s.csr.irqPend = true ∧ w.getLsbD 7 = false) ∧
      (w.getLsbD 7 = true → t.irq = false))

/-- R66: a FREQ write while idle stores the counter and invalidates the tree, also when the value is unchanged; every other
byte and register stays. A read while idle returns the counter. -/
def Obligations.FreqWriteInvalidatesTheTree : Prop :=
  ∀ (s : State) (v : Nat) (w : Word), v < 256 → Memory.wf s.mem → s.pending = .idle →
    (∃ t, hostWriteAt s (0x01000 + 4 * v) w = .next t ∧ t.freq v = w ∧ treeCleared t ∧ t.node = s.node ∧ t.lut = s.lut ∧
      t = { withTree s t with mem := t.mem, resp := some .written } ∧
      sameOutside (0x01000 + 4 * v) (0x01000 + 4 * v + 4) s t) ∧
    hostReadAt s (0x01000 + 4 * v) = .next { s with resp := some (.data (s.freq v)) }

/-- R67 and R68: a write to IN or OUT while idle stores the low 8 bits in one cell, a write to TOKBUF the whole word in one
cell (and a write to BITBUF likewise); no register and no other byte changes; a read returns the cell. -/
def Obligations.ApertureWritesStoreOneCell : Prop :=
  ∀ (s : State) (i : Nat) (w : Word), Memory.wf s.mem → s.pending = .idle →
    (i < 4096 → ∃ t, hostWriteAt s (0x10000 + 4 * i) w = .next t ∧ t.inSym i = w.setWidth 8 ∧
      t = { s with mem := t.mem, resp := some .written } ∧ sameOutside (0x10000 + 4 * i) (0x10000 + 4 * i + 1) s t ∧
      hostReadAt s (0x10000 + 4 * i) = .next { s with resp := some (.data ((s.inSym i).setWidth 32)) }) ∧
    (i < 4096 → ∃ t, hostWriteAt s (0x14000 + 4 * i) w = .next t ∧ t.outSym i = w.setWidth 8 ∧
      t = { s with mem := t.mem, resp := some .written } ∧ sameOutside (0x14000 + 4 * i) (0x14000 + 4 * i + 1) s t ∧
      hostReadAt s (0x14000 + 4 * i) = .next { s with resp := some (.data ((s.outSym i).setWidth 32)) }) ∧
    (i < 4096 → ∃ t, hostWriteAt s (0x20000 + 4 * i) w = .next t ∧ t.tok i = w ∧
      t = { s with mem := t.mem, resp := some .written } ∧ sameOutside (0x20000 + 4 * i) (0x20000 + 4 * i + 4) s t ∧
      hostReadAt s (0x20000 + 4 * i) = .next { s with resp := some (.data (s.tok i)) }) ∧
    (i < 32768 → ∃ t, hostWriteAt s (0x40000 + 4 * i) w = .next t ∧ t.bitWord i = w ∧
      t = { s with mem := t.mem, resp := some .written } ∧ sameOutside (0x40000 + 4 * i) (0x40000 + 4 * i + 4) s t ∧
      hostReadAt s (0x40000 + 4 * i) = .next { s with resp := some (.data (s.bitWord i)) })

/-- Every word-aligned offset of the window reaches one thing, reserved exactly where the map says so, and no two offsets
reach the same cell or register. -/
def Obligations.AddressMapIsOneToOne : Prop :=
  ∀ off, off < 0x80000 → off % 4 = 0 →
    (target off = .reserved ↔ reservedOffset off) ∧ (target off ≠ .reserved → offsetOf (target off) = off)

/-- A write that races a completion has two outcomes, one for each order of the two events: dropped with OVERRUN set, or
stored after the completion (here a write to CFG_W against a NOP; both agendas are allowed, log entry 5). -/
def Obligations.RacingWriteHasTwoOutcomes : Prop :=
  ∀ (s : State) (v : Word), s.pending = .cmd 0x00000000#32 →
    (∃ t u, hostWriteAt { s with agenda := .core :: s.agenda } 0x01C v = .next t ∧ step t = .next u ∧
      u.csr.cfgW = s.csr.cfgW ∧ u.csr.overrun = true ∧ u.pending = .idle) ∧
    (∃ t u, step { s with agenda := .core :: s.agenda } = .next t ∧ hostWriteAt t 0x01C v = .next u ∧
      u.csr.cfgW = v.setWidth 12 ∧ u.csr.overrun = s.csr.overrun ∧ u.pending = .idle)

/-- The trace port has no effect on any result: with and without it a command leaves the same state but for the trace log. -/
def Obligations.TracePortHasNoEffect : Prop :=
  ∀ (i : Instr) (s : State) (b : Bool), ∃ t u, exec i s = .next t ∧
    exec i { s with params := { s.params with traceEn := b } } = .next u ∧
    { u with params := t.params, trace := t.trace } = t ∧ (s.params.traceEn = false → t.trace = s.trace)

/-! ### NOP and frequency analysis -/

/-- R110: NOP succeeds with result 0 and changes nothing but the completion fields, so that STATUS is 0x82 where no tree, no
earlier error and no overrun shows in it; the word with a reserved bit set is Illegal. -/
def Obligations.NopOnlyCompletes : Prop :=
  decode 0x00000000#32 = .ok .nop ∧ (∃ e, decode 0x00000100#32 = .error e) ∧
  ∀ s : State, ∃ t, exec .nop s = .next t ∧ succeeded s t 0 ∧ t = recorded s t ∧
    (s.csr.treeValid = false → s.csr.decLen = 0 → s.csr.stickyErr = false → s.csr.overrun = false →
      t.statusWord = 0x00000082#32)

/-- R113: FRQ_CLEAR clears every counter, invalidates the tree, and leaves everything else. -/
def Obligations.FrqClearEmptiesTheTable : Prop :=
  ∀ s : State, ∃ t, exec .frqClear s = .next t ∧ succeeded s t 0 ∧ (∀ v, v < 256 → t.freq v = 0) ∧ treeCleared t ∧
    t.node = s.node ∧ t.lut = s.lut ∧ t = { withTree (recorded s t) t with mem := t.mem } ∧ sameOutside 0x01000 0x01400 s t

/-- R114: FRQ_COUNT leaves in FREQ the number of occurrences of every symbol in IN[0..IN_LEN), invalidates the tree, and
answers the number of distinct symbols; with IN_LEN over 4096 it fails and FREQ is unchanged. -/
def Obligations.FrqCountCountsTheInput : Prop :=
  ∀ s : State, Memory.wf s.mem →
    (s.csr.inLen.toNat ≤ 4096 → ∃ t, exec .frqCount s = .next t ∧ succeeded s t (input s).toFinset.card ∧
      (∀ v, v < 256 → (t.freq v).toNat = (input s).count (BitVec.ofNat 8 v)) ∧ treeCleared t ∧ t.node = s.node ∧
      t.lut = s.lut ∧ t = { withTree (recorded s t) t with mem := t.mem } ∧ sameOutside 0x01000 0x01400 s t) ∧
    (4096 < s.csr.inLen.toNat → failsAlone .frqCount s 4 0)

/-- R115: FRQ_INC adds one to one counter, invalidates the tree and answers the new count; at 2^32 - 1 it fails, and neither
the counter nor the tree changes. -/
def Obligations.FrqIncCountsOneSymbol : Prop :=
  ∀ (s : State) (sym : Byte), Memory.wf s.mem →
    ((s.freq sym.toNat).toNat ≠ 2 ^ 32 - 1 → ∃ t, exec (.frqInc sym) s = .next t ∧
      succeeded s t ((s.freq sym.toNat).toNat + 1) ∧ (t.freq sym.toNat).toNat = (s.freq sym.toNat).toNat + 1 ∧
      treeCleared t ∧ t.node = s.node ∧ t.lut = s.lut ∧ t = { withTree (recorded s t) t with mem := t.mem } ∧
      sameOutside (0x01000 + 4 * sym.toNat) (0x01000 + 4 * sym.toNat + 4) s t) ∧
    ((s.freq sym.toNat).toNat = 2 ^ 32 - 1 → failsAlone (.frqInc sym) s 4 0)

/-- FRQ_CLEAR and then FRQ_INC of each symbol of IN leaves the same FREQ as FRQ_COUNT, whose counters sum to IN_LEN. -/
def Obligations.StepwiseCountingEqualsFrqCount : Prop :=
  ∀ s : State, Memory.wf s.mem → s.csr.inLen.toNat ≤ 4096 → ∃ t u, exec .frqCount s = .next t ∧
    runCommands (.frqClear :: (input s).map .frqInc) s = .next u ∧ (∀ v, v < 256 → u.freq v = t.freq v) ∧
    ((List.range 256).map fun v => (t.freq v).toNat).sum = s.csr.inLen.toNat

/-! ### The tree builder -/

/-- HUF_BUILD succeeds with the number k of present symbols, sets NSYM, NODE_CNT, ROOT and TREE_VALID for a tree of k leaves,
puts the walker at the root, and leaves every memory and every other register. -/
def Obligations.HufBuildSetsTheTreeRegisters : Prop :=
  ∀ s : State, ∃ t, exec .hufBuild s = .next t ∧ succeeded s t (distinctCount s) ∧ t.csr.treeValid = true ∧
    t.csr.nsym.toNat = distinctCount s ∧ t.csr.nodeCnt.toNat = 2 * distinctCount s - 1 ∧
    t.node.length = 2 * distinctCount s - 1 ∧
    t.csr.root = (if distinctCount s = 0 then 0x1FF#9 else BitVec.ofNat 9 (2 * distinctCount s - 2)) ∧
    t.csr.decNode = t.csr.root ∧ t.csr.decLen = 0 ∧ t = withTree (recorded s t) t

/-- The same FREQ always yields the same NODE, LUT, NSYM, NODE_CNT and ROOT. -/
def Obligations.TreeDependsOnFreqAlone : Prop :=
  ∀ s u : State, (∀ v, v < 256 → s.freq v = u.freq v) → ∃ t w, exec .hufBuild s = .next t ∧ exec .hufBuild u = .next w ∧
    t.node = w.node ∧ t.lut = w.lut ∧ t.csr.nsym = w.csr.nsym ∧ t.csr.nodeCnt = w.csr.nodeCnt ∧ t.csr.root = w.csr.root ∧
    t.csr.result0 = w.csr.result0

/-- The leaves stand first, in ascending order of their symbols, with their counts as weights; every other node has two
different children with smaller indices, no symbol, the exact sum of their weights and the smaller of their minsyms; every
node but the root is the child of exactly one node. -/
def Obligations.TreeIsStrictlyBinary : Prop :=
  ∀ s t : State, exec .hufBuild s = .next t →
    (∀ i v : Nat, ((List.range 256).filter fun v => decide (s.freq v ≠ 0))[i]? = some v →
      t.node[i]? = some (Node.mk ((s.freq v).setWidth 40) 0x1FF#9 0x1FF#9 (BitVec.ofNat 8 v) (BitVec.ofNat 8 v) true)) ∧
    (∀ j n, distinctCount s ≤ j → t.node[j]? = some n → n.leaf = false ∧ n.sym = 0 ∧ n.left ≠ n.right ∧
      n.left.toNat < j ∧ n.right.toNat < j ∧
      n.weight.toNat = (t.nodeAt n.left).weight.toNat + (t.nodeAt n.right).weight.toNat ∧
      n.minsym.toNat = min (t.nodeAt n.left).minsym.toNat (t.nodeAt n.right).minsym.toNat) ∧
    (∀ i, i + 1 < t.node.length →
      ∃! j, ∃ n, distinctCount s ≤ j ∧ t.node[j]? = some n ∧ (n.left.toNat = i ∨ n.right.toNat = i))

/-- Every merge takes the two nodes of least key (weight, minsym) among those without a parent yet, the least one as the left
child. -/
def Obligations.EachMergeTakesTheTwoLeastKeys : Prop :=
  ∀ (s t : State) (j : Nat) (n : Node), exec .hufBuild s = .next t → distinctCount s ≤ j → t.node[j]? = some n →
    keyLt (t.nodeAt n.left) (t.nodeAt n.right) = true ∧
      ∀ (i : Nat) (m : Node), i < j → t.node[i]? = some m →
        (∀ (q : Nat) (r : Node), distinctCount s ≤ q → q ≤ j → t.node[q]? = some r → r.left.toNat ≠ i ∧ r.right.toNat ≠ i) →
        keyLt (t.nodeAt n.right) m = true

/-- R124 and R125: the empty table has an empty tree in which any bit is CorruptStream; one present symbol has a tree of one
leaf and the code "0". -/
def Obligations.EmptyAndSingleSymbolTrees : Prop :=
  ∀ s t : State, exec .hufBuild s = .next t →
    (distinctCount s = 0 → t.csr.nsym = 0 ∧ t.csr.nodeCnt = 0 ∧ t.csr.root = 0x1FF#9 ∧ t.csr.treeValid = true ∧
      (∀ v, (t.lutAt v).len = 0) ∧ ∀ b, failsAlone (.hufDecbit b) t 1 0) ∧
    (∀ sym : Byte, distinctCount s = 1 → s.freq sym.toNat ≠ 0 → t.csr.nsym = 1 ∧ t.csr.nodeCnt = 1 ∧ t.csr.root = 0 ∧
      (t.nodeAt t.csr.root).leaf = true ∧ (t.nodeAt t.csr.root).sym = sym ∧ codeBits (t.lutAt sym) = [false])

/-- Every present symbol has a code of 1 to 255 bits, every absent one none; the code of a symbol is the root-to-leaf path of
its leaf, 0 left and 1 right; and no code is a prefix of another. -/
def Obligations.CodesArePrefixFreePaths : Prop :=
  ∀ s t : State, exec .hufBuild s = .next t →
    (∀ sym : Byte, s.freq sym.toNat = 0 → t.lutAt sym = ⟨0, 0⟩) ∧
    (∀ sym : Byte, s.freq sym.toNat ≠ 0 → 1 ≤ (t.lutAt sym).len.toNat ∧ (t.lutAt sym).len.toNat ≤ 255 ∧
      (2 ≤ distinctCount s → ∃ i, walk t.node t.csr.root (codeBits (t.lutAt sym)) = some i ∧
        (t.nodeAt i).leaf = true ∧ (t.nodeAt i).sym = sym)) ∧
    (∀ a b : Byte, s.freq a.toNat ≠ 0 → s.freq b.toNat ≠ 0 → a ≠ b →
      ¬ codeBits (t.lutAt a) <+: codeBits (t.lutAt b))

/-- The Kraft equality: the sum of 2^-len over the present symbols is 1 for two symbols or more, and 1/2 for one (here in
units of 2^-255). -/
def Obligations.KraftEquality : Prop :=
  ∀ s t : State, exec .hufBuild s = .next t →
    (2 ≤ distinctCount s → (((List.range 256).filter fun v => decide (s.freq v ≠ 0)).map fun v =>
      2 ^ (255 - (t.lutAt (BitVec.ofNat 8 v)).len.toNat)).sum = 2 ^ 255) ∧
    (distinctCount s = 1 → (((List.range 256).filter fun v => decide (s.freq v ≠ 0)).map fun v =>
      2 ^ (255 - (t.lutAt (BitVec.ofNat 8 v)).len.toNat)).sum = 2 ^ 254)

/-! ### The Huffman codec -/

/-- HUF_ENCODE leaves the histogram of IN in FREQ, the tree of that FREQ, and in BITBUF the codes of IN one after the
other; BIT_LEN, the result, is the sum of count times code length; bits at and beyond BIT_LEN keep their values. With IN_LEN
over 4096 it fails and nothing changes. -/
def Obligations.HufEncodeWritesTheCodesOfTheInput : Prop :=
  ∀ s : State, Memory.wf s.mem →
    (s.csr.inLen.toNat ≤ 4096 → ∃ t, exec .hufEncode s = .next t ∧ succeeded s t t.csr.bitLen.toNat ∧
      (∀ v, v < 256 → (t.freq v).toNat = (input s).count (BitVec.ofNat 8 v)) ∧
      t.csr.treeValid = true ∧ t.treeOk ∧ t.csr.decNode = t.csr.root ∧ t.csr.decLen = 0 ∧
      bitsOf t t.csr.bitLen.toNat = (input s).flatMap (fun b => codeBits (t.lutAt b)) ∧
      t.csr.bitLen.toNat =
        ((List.range 256).map fun v => (t.freq v).toNat * (t.lutAt (BitVec.ofNat 8 v)).len.toNat).sum ∧
      (∀ i, t.csr.bitLen.toNat ≤ i → bitRead t i = bitRead s i) ∧
      t = { withTree (recorded s t) t with
            mem := t.mem, trace := t.trace,
            csr := { (withTree (recorded s t) t).csr with bitLen := t.csr.bitLen } } ∧
      ∀ a, (a < 0x01000 ∨ 0x01400 ≤ a) → (a < bitBufLo ∨ bitBufHi ≤ a) → Memory.get t.mem a = Memory.get s.mem a) ∧
    (4096 < s.csr.inLen.toNat → failsAlone .hufEncode s 4 0)

/-- R134: HUF_PUTSYM fails, in this order, without a tree, for a symbol without a code, and where the code would pass the
buffer, changing nothing; otherwise it appends the code's bits at BIT_LEN, keeps every other bit, and answers the length. -/
def Obligations.HufPutsymAppendsOneCode : Prop :=
  ∀ (s : State) (sym : Byte), Memory.wf s.mem →
    (s.csr.treeValid = false → failsAlone (.hufPutsym sym) s 6 0) ∧
    (s.csr.treeValid = true → (s.lutAt sym).len = 0 → failsAlone (.hufPutsym sym) s 3 0) ∧
    (s.csr.treeValid = true → (s.lutAt sym).len ≠ 0 → 2 ^ 20 < s.csr.bitLen.toNat + (s.lutAt sym).len.toNat →
      failsAlone (.hufPutsym sym) s 4 0) ∧
    (s.csr.treeValid = true → (s.lutAt sym).len ≠ 0 → s.csr.bitLen.toNat + (s.lutAt sym).len.toNat ≤ 2 ^ 20 →
      ∃ t, exec (.hufPutsym sym) s = .next t ∧ succeeded s t (s.lutAt sym).len.toNat ∧
        t.csr.bitLen.toNat = s.csr.bitLen.toNat + (s.lutAt sym).len.toNat ∧
        (∀ j, j < (s.lutAt sym).len.toNat → bitRead t (s.csr.bitLen.toNat + j) = (s.lutAt sym).code.getLsbD j) ∧
        (∀ i, (i < s.csr.bitLen.toNat ∨ t.csr.bitLen.toNat ≤ i) → bitRead t i = bitRead s i) ∧
        t = { recorded s t with mem := t.mem, trace := t.trace,
                                csr := { (recorded s t).csr with bitLen := t.csr.bitLen } } ∧
        sameOutside bitBufLo bitBufHi s t)

/-- With two present symbols or more, HUF_DECODE emits what the buffer algorithm of AXC emits for the table derived from FREQ:
all its symbols into OUT where they fit, success where no bits are left over, CorruptStream at BIT_LEN otherwise;
CapacityExceeded at the bit that completes symbol number 4097. -/
def Obligations.HufDecodeIsTheBufferAlgorithm : Prop :=
  ∀ s : State, Memory.wf s.mem → s.csr.bitLen.toNat ≤ 2 ^ 20 → 2 ≤ distinctCount s →
    ∃ t, exec .hufDecode s = .next t ∧ t.csr.treeValid = true ∧ t.treeOk ∧
      t = { withTree (withWalker (recorded s t) t) t with mem := t.mem, trace := t.trace } ∧
      sameOutside (outAddr 0) (outAddr t.csr.outLen.toNat) s t ∧
      ((bufferDecode (freqCode s) [] (bitsOf s s.csr.bitLen.toNat)).1.length ≤ 4096 →
        t.outSlice 0 t.csr.outLen.toNat = (bufferDecode (freqCode s) [] (bitsOf s s.csr.bitLen.toNat)).1 ∧
        t.csr.decNode = t.csr.root ∧ t.csr.decLen = 0 ∧
        ((bufferDecode (freqCode s) [] (bitsOf s s.csr.bitLen.toNat)).2 = [] → succeeded s t t.csr.outLen.toNat) ∧
        ((bufferDecode (freqCode s) [] (bitsOf s s.csr.bitLen.toNat)).2 ≠ [] → failed t 1 s.csr.bitLen.toNat)) ∧
      (4096 < (bufferDecode (freqCode s) [] (bitsOf s s.csr.bitLen.toNat)).1.length →
        ∃ i, i < s.csr.bitLen.toNat ∧ failed t 4 i ∧
          (bufferDecode (freqCode s) [] (bitsOf s i)).1.length = 4096 ∧
          (bufferDecode (freqCode s) [] (bitsOf s (i + 1))).1.length = 4097 ∧
          t.outSlice 0 t.csr.outLen.toNat = (bufferDecode (freqCode s) [] (bitsOf s i)).1)

/-- HUF_DECODE with BIT_LEN over the buffer changes nothing. Otherwise, for every table, it leaves a valid tree of FREQ and
writes OUT, OUT_LEN and the tree and walker registers alone. Without symbols the first bit is CorruptStream; with one symbol
each 0 bit is that symbol, the first 1 bit is CorruptStream, and 4097 zero bits are one symbol too many. -/
def Obligations.HufDecodeOfDegenerateTables : Prop :=
  ∀ s : State, Memory.wf s.mem →
    (2 ^ 20 < s.csr.bitLen.toNat → failsAlone .hufDecode s 4 0) ∧
    (s.csr.bitLen.toNat ≤ 2 ^ 20 → ∃ t, exec .hufDecode s = .next t ∧ t.csr.treeValid = true ∧ t.treeOk ∧
      t = { withTree (withWalker (recorded s t) t) t with mem := t.mem, trace := t.trace } ∧
      sameOutside (outAddr 0) (outAddr t.csr.outLen.toNat) s t ∧
      (distinctCount s = 0 → t.csr.outLen = 0 ∧ (s.csr.bitLen.toNat = 0 → succeeded s t 0) ∧
        (s.csr.bitLen.toNat ≠ 0 → failed t 1 0)) ∧
      ∀ sym : Byte, distinctCount s = 1 → s.freq sym.toNat ≠ 0 →
        (s.csr.bitLen.toNat ≤ 4096 → (∀ i, i < s.csr.bitLen.toNat → bitRead s i = false) →
          succeeded s t s.csr.bitLen.toNat ∧ t.outSlice 0 t.csr.outLen.toNat = List.replicate s.csr.bitLen.toNat sym) ∧
        (∀ i, i < s.csr.bitLen.toNat → i ≤ 4096 → bitRead s i = true → (∀ j, j < i → bitRead s j = false) →
          failed t 1 i ∧ t.outSlice 0 t.csr.outLen.toNat = List.replicate i sym) ∧
        (4096 < s.csr.bitLen.toNat → (∀ j, j ≤ 4096 → bitRead s j = false) →
          failed t 4 4096 ∧ t.outSlice 0 t.csr.outLen.toNat = List.replicate 4096 sym))

/-- R136: HUF_DECBIT fails without a tree, on a dead-path bit, and where a symbol completes with OUT full, changing nothing;
otherwise the bit leads to a leaf, whose symbol is appended to OUT with the walker back at the root, or one node down. -/
def Obligations.HufDecbitStepsTheWalker : Prop :=
  ∀ (s : State) (b : Bool), Memory.wf s.mem →
    (s.csr.treeValid = false → failsAlone (.hufDecbit b) s 6 0) ∧
    (s.csr.treeValid = true → (s.csr.nsym = 0 ∨ (s.csr.nsym = 1 ∧ b = true)) → failsAlone (.hufDecbit b) s 1 0) ∧
    (s.csr.treeValid = true → s.csr.nsym ≠ 0 → s.csr.nsym ≠ 1 →
      (s.nodeAt (childOf (s.nodeAt s.csr.decNode) b)).leaf = false →
      ∃ t, exec (.hufDecbit b) s = .next t ∧ succeeded s t 0 ∧ t.csr.decNode = childOf (s.nodeAt s.csr.decNode) b ∧
        t.csr.decLen = s.csr.decLen + 1 ∧ t.csr.outLen = s.csr.outLen ∧ t = withWalker (recorded s t) t) ∧
    (∀ sym : Byte, s.csr.treeValid = true →
      ((s.csr.nsym = 1 ∧ b = false ∧ (s.nodeAt s.csr.root).sym = sym) ∨
        (s.csr.nsym ≠ 0 ∧ s.csr.nsym ≠ 1 ∧ (s.nodeAt (childOf (s.nodeAt s.csr.decNode) b)).leaf = true ∧
          (s.nodeAt (childOf (s.nodeAt s.csr.decNode) b)).sym = sym)) →
      (4096 ≤ s.csr.outLen.toNat → failsAlone (.hufDecbit b) s 4 0) ∧
      (s.csr.outLen.toNat < 4096 → ∃ t, exec (.hufDecbit b) s = .next t ∧ succeeded s t (0x100 + sym.toNat) ∧
        t.outSym s.csr.outLen.toNat = sym ∧ t.csr.outLen.toNat = s.csr.outLen.toNat + 1 ∧ t.csr.decNode = s.csr.root ∧
        t.csr.decLen = 0 ∧ t = { withWalker (recorded s t) t with mem := t.mem, trace := t.trace } ∧
        sameOutside (outAddr s.csr.outLen.toNat) (outAddr s.csr.outLen.toNat + 1) s t))

/-- R137: HUF_DECEND fails without a tree; mid-code it reports CorruptStream with the number of trailing bits; it succeeds at
the root; with a tree the walker is at the root afterwards in both cases, and nothing else changes. -/
def Obligations.HufDecendChecksTheEnd : Prop :=
  ∀ s : State,
    (s.csr.treeValid = false → failsAlone .hufDecend s 6 0) ∧
    (s.csr.treeValid = true → ∃ t, exec .hufDecend s = .next t ∧ t.csr.decNode = s.csr.root ∧ t.csr.decLen = 0 ∧
      t.csr.outLen = s.csr.outLen ∧ t = withWalker (recorded s t) t ∧
      (s.csr.decLen = 0 → succeeded s t 0) ∧ (s.csr.decLen ≠ 0 → failed t 1 s.csr.decLen.toNat))

/-- HUF_ENCODE and then HUF_DECODE gives the input back; the empty input gives no bits, and the only symbol of an input
gets the code "0". -/
def Obligations.HuffmanRoundTrip : Prop :=
  ∀ s : State, Memory.wf s.mem → s.csr.inLen.toNat ≤ 4096 → ∃ t u, exec .hufEncode s = .next t ∧
    exec .hufDecode t = .next u ∧ succeeded t u s.csr.inLen.toNat ∧ u.csr.outLen.toNat = s.csr.inLen.toNat ∧
    (∀ i, i < s.csr.inLen.toNat → u.outSym i = s.inSym i) ∧ (s.csr.inLen = 0 → t.csr.bitLen = 0) ∧
    ((input s).toFinset.card = 1 → ∀ b ∈ input s, codeBits (t.lutAt b) = [false])

/-- Counting, building and putting the symbols one by one from BIT_LEN = 0 leaves the same FREQ, tree, code bits and BIT_LEN
as HUF_ENCODE. -/
def Obligations.StepwiseEncodingEqualsHufEncode : Prop :=
  ∀ s : State, Memory.wf s.mem → s.csr.inLen.toNat ≤ 4096 → ∃ t a u, exec .hufEncode s = .next t ∧
    runCommands [.frqCount, .hufBuild] s = .next a ∧
    runCommands ((input s).map .hufPutsym) { a with csr := { a.csr with bitLen := 0 } } = .next u ∧
    (∀ v, v < 256 → u.freq v = t.freq v) ∧ u.node = t.node ∧ u.lut = t.lut ∧ u.csr.root = t.csr.root ∧
    u.csr.bitLen = t.csr.bitLen ∧ bitsOf u u.csr.bitLen.toNat = bitsOf t t.csr.bitLen.toNat

/-- Building the tree, feeding the bits of BITBUF one by one from OUT_LEN = 0, and checking the end, up to the first error,
leaves the same OUT, OUT_LEN, tree and walker as HUF_DECODE and the same error number. -/
def Obligations.StepwiseDecodingEqualsHufDecode : Prop :=
  ∀ s : State, Memory.wf s.mem → s.csr.bitLen.toNat ≤ 2 ^ 20 → ∃ t a u, exec .hufDecode s = .next t ∧
    exec .hufBuild s = .next a ∧
    runUntilError ((bitsOf s s.csr.bitLen.toNat).map .hufDecbit ++ [.hufDecend])
      { a with csr := { a.csr with outLen := 0 } } = .next u ∧
    (∀ i, i < 4096 → u.outSym i = t.outSym i) ∧ u.csr.outLen = t.csr.outLen ∧ u.csr.treeValid = t.csr.treeValid ∧
    u.node = t.node ∧ u.lut = t.lut ∧ u.csr.root = t.csr.root ∧ u.csr.decNode = t.csr.decNode ∧
    u.csr.decLen = t.csr.decLen ∧ u.csr.errcode = t.csr.errcode

/-! ### Windows -/

/-- R142: WIN_INIT constructs the selected window with a capacity in range, and fails on 0 or on one above the store. -/
def Obligations.WinInitConstructs : Prop :=
  ∀ (s : State) (sel : WinSel) (c : Nat),
    (1 ≤ c → c ≤ (match sel with | .hwin => 4095 | .lwin => 255) → ∃ t, exec (.winInit sel c) s = .next t ∧
      succeeded s t c ∧ t.win sel = ⟨c, []⟩ ∧ t = (recorded s t).setWin sel (t.win sel)) ∧
    (c = 0 ∨ (match sel with | .hwin => 4095 | .lwin => 255) < c → failsAlone (.winInit sel c) s 2 0)

/-- R143: WIN_PUSH appends to a window with room, evicts the oldest symbol of a full one and answers it, and fails on an
unconstructed one. -/
def Obligations.WinPushAppendsOrEvicts : Prop :=
  ∀ (s : State) (sel : WinSel) (sym : Byte),
    ((s.win sel).cap = 0 → failsAlone (.winPush sel sym) s 6 0) ∧
    ((s.win sel).seq.length < (s.win sel).cap → ∃ t, exec (.winPush sel sym) s = .next t ∧ succeeded s t 0 ∧
      t.win sel = ⟨(s.win sel).cap, (s.win sel).seq ++ [sym]⟩ ∧ t = (recorded s t).setWin sel (t.win sel)) ∧
    (∀ b rest, (s.win sel).seq = b :: rest → (s.win sel).seq.length = (s.win sel).cap →
      ∃ t, exec (.winPush sel sym) s = .next t ∧ succeeded s t (0x100 + b.toNat) ∧
        t.win sel = ⟨(s.win sel).cap, rest ++ [sym]⟩ ∧ t = (recorded s t).setWin sel (t.win sel))

/-- WIN_PUSHN leaves the last symbols of the old sequence and the input, as many as fit, and answers the number
evicted. -/
def Obligations.WinPushnKeepsTheLastSymbols : Prop :=
  ∀ (s : State) (sel : WinSel), (s.win sel).seq.length ≤ (s.win sel).cap →
    ((s.win sel).cap = 0 → failsAlone (.winPushn sel) s 6 0) ∧
    ((s.win sel).cap ≠ 0 → 4096 < s.csr.inLen.toNat → failsAlone (.winPushn sel) s 4 0) ∧
    ((s.win sel).cap ≠ 0 → s.csr.inLen.toNat ≤ 4096 → ∃ t, exec (.winPushn sel) s = .next t ∧
      succeeded s t ((s.win sel).seq.length + s.csr.inLen.toNat - (s.win sel).cap) ∧ (t.win sel).cap = (s.win sel).cap ∧
      (t.win sel).seq <:+ (s.win sel).seq ++ input s ∧
      (t.win sel).seq.length = min (s.win sel).cap ((s.win sel).seq.length + s.csr.inLen.toNat) ∧
      t = (recorded s t).setWin sel (t.win sel))

/-- R145: WIN_EVICT removes up to `cnt` oldest symbols and answers how many. -/
def Obligations.WinEvictRemovesTheOldest : Prop :=
  ∀ (s : State) (sel : WinSel) (cnt : Nat), (s.win sel).seq.length < 2 ^ 32 →
    ((s.win sel).cap = 0 → failsAlone (.winEvict sel cnt) s 6 0) ∧
    ((s.win sel).cap ≠ 0 → ∃ t, exec (.winEvict sel cnt) s = .next t ∧ succeeded s t (min cnt (s.win sel).seq.length) ∧
      (t.win sel).cap = (s.win sel).cap ∧ (s.win sel).seq = (s.win sel).seq.take cnt ++ (t.win sel).seq ∧
      t = (recorded s t).setWin sel (t.win sel))

/-- R146: WIN_READ answers the symbol at an index, oldest first, and fails with BadIndex at the index beyond the count; it
writes nothing. -/
def Obligations.WinReadAnswersTheSymbol : Prop :=
  ∀ (s : State) (sel : WinSel) (idx : Nat), idx < 4096 →
    ((s.win sel).cap = 0 → failsAlone (.winRead sel idx) s 6 0) ∧
    ((s.win sel).cap ≠ 0 → (s.win sel).seq.length ≤ idx → failsAlone (.winRead sel idx) s 7 idx) ∧
    (∀ b, (s.win sel).cap ≠ 0 → (s.win sel).seq[idx]? = some b → ∃ t, exec (.winRead sel idx) s = .next t ∧
      succeeded s t b.toNat ∧ t = recorded s t)

/-! ### LZSS -/

/-- The matcher's token is a longest match of the bounded history within the length cap, at the smallest such offset,
with the symbol after it; a literal where no offset matches. -/
def Obligations.MatchIsTheLongestAtTheSmallestOffset : Prop :=
  ∀ (f : Nat → Byte) (n w b p : Nat), p < n →
    ((findMatch f n w b p).len = 0 → findMatch f n w b p = ⟨0, 0, f p⟩ ∧
      (min b (n - p - 1) = 0 ∨ ∀ o, p - w ≤ o → o < p → f o ≠ f p)) ∧
    (0 < (findMatch f n w b p).len →
      1 ≤ (findMatch f n w b p).dist ∧ (findMatch f n w b p).dist ≤ min w p ∧
      (findMatch f n w b p).len ≤ min b (n - p - 1) ∧ (findMatch f n w b p).next = f (p + (findMatch f n w b p).len) ∧
      (∀ j, j < (findMatch f n w b p).len → f (p + j) = f (p - (findMatch f n w b p).dist + j)) ∧
      ∀ o l, p - w ≤ o → o < p → l ≤ min b (n - p - 1) → (∀ j, j < l → f (o + j) = f (p + j)) →
        l ≤ (findMatch f n w b p).len ∧ (l = (findMatch f n w b p).len → p - (findMatch f n w b p).dist ≤ o))

/-- R152: LZ_ENCSTEP fails in its order of checks, changing nothing; otherwise it writes the token of the match at LZ_POS,
advances TOK_LEN and LZ_POS, and leaves the windows as views of IN at the new cursor. -/
def Obligations.LzEncstepEmitsOneToken : Prop :=
  ∀ s : State, Memory.wf s.mem →
    ((s.csr.cfgW = 0 ∨ s.csr.cfgB = 0) → failsAlone .lzEncstep s 2 0) ∧
    (s.csr.cfgW ≠ 0 → s.csr.cfgB ≠ 0 → (4096 < s.csr.inLen.toNat ∨ 4096 ≤ s.csr.tokLen.toNat) →
      failsAlone .lzEncstep s 4 0) ∧
    (s.csr.cfgW ≠ 0 → s.csr.cfgB ≠ 0 → s.csr.inLen.toNat ≤ 4096 → s.csr.tokLen.toNat < 4096 →
      s.csr.inLen.toNat ≤ s.csr.lzPos.toNat → failsAlone .lzEncstep s 7 s.csr.lzPos.toNat) ∧
    (∀ tk, s.csr.cfgW ≠ 0 → s.csr.cfgB ≠ 0 → s.csr.inLen.toNat ≤ 4096 → s.csr.tokLen.toNat < 4096 →
      s.csr.lzPos.toNat < s.csr.inLen.toNat →
      tk = findMatch s.inSym s.csr.inLen.toNat s.csr.cfgW.toNat s.csr.cfgB.toNat s.csr.lzPos.toNat →
      ∃ t, exec .lzEncstep s = .next t ∧ succeeded s t tk.word.toNat ∧ t.tok s.csr.tokLen.toNat = tk.word ∧
        t.csr.tokLen.toNat = s.csr.tokLen.toNat + 1 ∧ t.csr.lzPos.toNat = s.csr.lzPos.toNat + tk.len + 1 ∧
        t.hwin = ⟨s.csr.cfgW.toNat, s.inSlice (t.csr.lzPos.toNat - s.csr.cfgW.toNat) t.csr.lzPos.toNat⟩ ∧
        t.lwin = ⟨s.csr.cfgB.toNat,
          s.inSlice t.csr.lzPos.toNat (min s.csr.inLen.toNat (t.csr.lzPos.toNat + s.csr.cfgB.toNat))⟩ ∧
        t = { recorded s t with mem := t.mem, hwin := t.hwin, lwin := t.lwin, trace := t.trace,
                                csr := { (recorded s t).csr with tokLen := t.csr.tokLen, lzPos := t.csr.lzPos } } ∧
        sameOutside (tokAddr s.csr.tokLen.toNat) (tokAddr s.csr.tokLen.toNat + 4) s t)

/-- LZ_ENCODE fails in its order of checks, changing nothing; otherwise TOKBUF holds the tokens of the successive
matches from cursor 0 to the end of the input, LZ_POS is the input length, the result is the number of tokens, HWIN holds the
end of the input and LWIN is empty. -/
def Obligations.LzEncodeWritesTheTokens : Prop :=
  ∀ s : State, Memory.wf s.mem →
    ((s.csr.cfgW = 0 ∨ s.csr.cfgB = 0) → failsAlone .lzEncode s 2 0) ∧
    (s.csr.cfgW ≠ 0 → s.csr.cfgB ≠ 0 → 4096 < s.csr.inLen.toNat → failsAlone .lzEncode s 4 0) ∧
    (s.csr.cfgW ≠ 0 → s.csr.cfgB ≠ 0 → s.csr.inLen.toNat ≤ 4096 →
      ∃ t, exec .lzEncode s = .next t ∧ succeeded s t t.csr.tokLen.toNat ∧
        (List.range t.csr.tokLen.toNat).map t.tok =
          (tokensFrom s.inSym s.csr.inLen.toNat s.csr.cfgW.toNat s.csr.cfgB.toNat s.csr.inLen.toNat 0).map Token.word ∧
        t.csr.lzPos = s.csr.inLen ∧
        t.hwin = ⟨s.csr.cfgW.toNat, s.inSlice (s.csr.inLen.toNat - s.csr.cfgW.toNat) s.csr.inLen.toNat⟩ ∧
        t.lwin = ⟨s.csr.cfgB.toNat, []⟩ ∧
        t = { recorded s t with mem := t.mem, hwin := t.hwin, lwin := t.lwin, trace := t.trace,
                                csr := { (recorded s t).csr with tokLen := t.csr.tokLen, lzPos := t.csr.lzPos } } ∧
        sameOutside (tokAddr 0) (tokAddr t.csr.tokLen.toNat) s t)

/-- R154: LZ_DECTOK fails with CFG_W = 0, on a token that is malformed or reaches back too far, and where OUT would overflow,
changing nothing; otherwise it appends the copied symbols, each equal to the one `d` places before it, and nextChar, and HWIN
holds the last symbols of OUT. -/
def Obligations.LzDectokReplaysOneToken : Prop :=
  ∀ s : State, Memory.wf s.mem →
    (s.csr.cfgW = 0 → failsAlone .lzDectok s 2 0) ∧
    (s.csr.cfgW ≠ 0 →
      (tokReserved s.csr.arg0 ≠ 0 ∨ (tokDist s.csr.arg0 = 0 ∧ tokLength s.csr.arg0 ≠ 0) ∨
        s.csr.cfgW.toNat < tokDist s.csr.arg0 ∨ s.csr.outLen.toNat < tokDist s.csr.arg0) →
      failsAlone .lzDectok s 1 0) ∧
    (s.csr.cfgW ≠ 0 → tokReserved s.csr.arg0 = 0 → (tokDist s.csr.arg0 = 0 → tokLength s.csr.arg0 = 0) →
      tokDist s.csr.arg0 ≤ s.csr.cfgW.toNat → tokDist s.csr.arg0 ≤ s.csr.outLen.toNat →
      (4096 < s.csr.outLen.toNat + tokLength s.csr.arg0 + 1 → failsAlone .lzDectok s 4 0) ∧
      (s.csr.outLen.toNat + tokLength s.csr.arg0 + 1 ≤ 4096 → ∃ t, exec .lzDectok s = .next t ∧
        succeeded s t (tokLength s.csr.arg0 + 1) ∧
        t.csr.outLen.toNat = s.csr.outLen.toNat + tokLength s.csr.arg0 + 1 ∧
        (∀ j, j < tokLength s.csr.arg0 →
          t.outSym (s.csr.outLen.toNat + j) = t.outSym (s.csr.outLen.toNat + j - tokDist s.csr.arg0)) ∧
        t.outSym (s.csr.outLen.toNat + tokLength s.csr.arg0) = tokNext s.csr.arg0 ∧
        t.hwin = ⟨s.csr.cfgW.toNat, t.outSlice (t.csr.outLen.toNat - s.csr.cfgW.toNat) t.csr.outLen.toNat⟩ ∧
        t = { recorded s t with mem := t.mem, hwin := t.hwin, trace := t.trace,
                                csr := { (recorded s t).csr with outLen := t.csr.outLen } } ∧
        sameOutside (outAddr s.csr.outLen.toNat) (outAddr t.csr.outLen.toNat) s t))

/-- R153: LZ_DECODE fails with CFG_W = 0 or TOK_LEN over the buffer, changing nothing; otherwise OUT holds what replaying the
token words in order on a growing list gives, up to the first bad token, whose error and index are reported. -/
def Obligations.LzDecodeReplaysTheTokens : Prop :=
  ∀ s : State, Memory.wf s.mem →
    (s.csr.cfgW = 0 → failsAlone .lzDecode s 2 0) ∧
    (s.csr.cfgW ≠ 0 → 4096 < s.csr.tokLen.toNat → failsAlone .lzDecode s 4 0) ∧
    (∀ out err, s.csr.cfgW ≠ 0 → s.csr.tokLen.toNat ≤ 4096 →
      (out, err) = replayWords s.csr.cfgW.toNat 0 [] ((List.range s.csr.tokLen.toNat).map s.tok) →
      ∃ t, exec .lzDecode s = .next t ∧ t.csr.outLen.toNat = out.length ∧ t.outSlice 0 out.length = out ∧
        (err = none → succeeded s t out.length) ∧ (∀ e i, err = some (e, i) → failed t e i) ∧
        t.hwin = ⟨s.csr.cfgW.toNat, out.drop (out.length - s.csr.cfgW.toNat)⟩ ∧
        t = { recorded s t with mem := t.mem, hwin := t.hwin, trace := t.trace,
                                csr := { (recorded s t).csr with outLen := t.csr.outLen } } ∧
        sameOutside (outAddr 0) (outAddr out.length) s t)

/-- LZ_ENCODE and then LZ_DECODE gives the input back, for every window and lookahead size. -/
def Obligations.LzssRoundTrip : Prop :=
  ∀ s : State, Memory.wf s.mem → s.csr.inLen.toNat ≤ 4096 → s.csr.cfgW ≠ 0 → s.csr.cfgB ≠ 0 →
    ∃ t u, exec .lzEncode s = .next t ∧ exec .lzDecode t = .next u ∧ succeeded t u s.csr.inLen.toNat ∧
      u.csr.outLen.toNat = s.csr.inLen.toNat ∧ ∀ i, i < s.csr.inLen.toNat → u.outSym i = s.inSym i

/-! ### Whole-machine rules -/

/-- Every invariant below holds of the state after reset. -/
def Obligations.InvariantsHoldAfterReset : Prop :=
  State.reset.shapeOk ∧ State.reset.pendingOk ∧ State.reset.treeOk ∧ State.reset.walkerOk

/-- Every step keeps the memory canonical and inside the cells of the address map, the windows within their capacities, and
ERRCODE a defined code. -/
def Obligations.EveryStepKeepsTheShape : Prop := ∀ s t : State, s.shapeOk → step s = .next t → t.shapeOk

/-- Every step keeps: a pending command is the word in CMD with DONE and ERRCODE clear; a pending initialisation has every
register but OVERRUN at its reset value. -/
def Obligations.EveryStepKeepsThePendingRule : Prop := ∀ s t : State, s.pendingOk → step s = .next t → t.pendingOk

/-- Every step keeps: a valid tree is the one built from the current FREQ, and the walker stands at the node its bits lead
to. The premise `pendingOk` is the invariant of the statement before. -/
def Obligations.EveryStepKeepsTreeAndWalker : Prop :=
  ∀ s t : State, s.pendingOk → s.treeOk → s.walkerOk → step s = .next t → t.treeOk ∧ t.walkerOk

/-- The full Huffman commands depend only on their declared inputs, whatever else the state holds. -/
def Obligations.HuffmanCommandsDependOnDeclaredInputs : Prop :=
  (∀ s u : State, Memory.wf s.mem → Memory.wf u.mem → s.csr.inLen = u.csr.inLen → input s = input u →
    ∃ t v, exec .hufEncode s = .next t ∧ exec .hufEncode u = .next v ∧ t.csr.errcode = v.csr.errcode ∧
      t.csr.errPos = v.csr.errPos ∧ t.csr.result0 = v.csr.result0 ∧
      (t.csr.errcode = 0 → (∀ i, i < 256 → t.freq i = v.freq i) ∧ t.node = v.node ∧ t.lut = v.lut ∧
        t.csr.bitLen = v.csr.bitLen ∧ bitsOf t t.csr.bitLen.toNat = bitsOf v v.csr.bitLen.toNat)) ∧
  (∀ s u : State, Memory.wf s.mem → Memory.wf u.mem → s.csr.bitLen = u.csr.bitLen → (∀ i, i < 256 → s.freq i = u.freq i) →
    bitsOf s s.csr.bitLen.toNat = bitsOf u u.csr.bitLen.toNat →
    ∃ t v, exec .hufDecode s = .next t ∧ exec .hufDecode u = .next v ∧ t.csr.errcode = v.csr.errcode ∧
      t.csr.errPos = v.csr.errPos ∧ t.csr.result0 = v.csr.result0 ∧
      (t.csr.errcode = 0 → t.csr.outLen = v.csr.outLen ∧
        t.outSlice 0 t.csr.outLen.toNat = v.outSlice 0 v.csr.outLen.toNat ∧ t.node = v.node ∧ t.lut = v.lut))

/-- The full LZSS commands depend only on their declared inputs, whatever else the state holds. -/
def Obligations.LzssCommandsDependOnDeclaredInputs : Prop :=
  (∀ s u : State, Memory.wf s.mem → Memory.wf u.mem → s.csr.inLen = u.csr.inLen → input s = input u →
    s.csr.cfgW = u.csr.cfgW → s.csr.cfgB = u.csr.cfgB →
    ∃ t v, exec .lzEncode s = .next t ∧ exec .lzEncode u = .next v ∧ t.csr.errcode = v.csr.errcode ∧
      t.csr.errPos = v.csr.errPos ∧ t.csr.result0 = v.csr.result0 ∧
      (t.csr.errcode = 0 → t.csr.tokLen = v.csr.tokLen ∧
        (List.range t.csr.tokLen.toNat).map t.tok = (List.range v.csr.tokLen.toNat).map v.tok ∧
        t.csr.lzPos = v.csr.lzPos ∧ t.hwin = v.hwin ∧ t.lwin = v.lwin)) ∧
  (∀ s u : State, Memory.wf s.mem → Memory.wf u.mem → s.csr.tokLen = u.csr.tokLen → s.csr.cfgW = u.csr.cfgW →
    (List.range s.csr.tokLen.toNat).map s.tok = (List.range u.csr.tokLen.toNat).map u.tok →
    ∃ t v, exec .lzDecode s = .next t ∧ exec .lzDecode u = .next v ∧ t.csr.errcode = v.csr.errcode ∧
      t.csr.errPos = v.csr.errPos ∧ t.csr.result0 = v.csr.result0 ∧
      (t.csr.errcode = 0 → t.csr.outLen = v.csr.outLen ∧
        t.outSlice 0 t.csr.outLen.toNat = v.outSlice 0 v.csr.outLen.toNat ∧ t.hwin = v.hwin))
end

