-- ==== Sys2Proof/Laws/Sparse.lean ====
section
/-! SUPPORT. The laws of sparse tables: read after write, and that a write keeps the canonical form. -/

namespace Sys2Proof.Machine

section
variable {α : Type} {d : α} {l : List (Nat × α)}

@[simp] theorem sparseGet_nil (a : Nat) : sparseGet d [] a = d := rfl

theorem sparseGet_cons (c : Nat × α) (a : Nat) :
    sparseGet d (c :: l) a = if c.1 = a then c.2 else sparseGet d l a := rfl

/-- A key that no entry has reads as the default. -/
theorem sparseGet_of_absent {a : Nat} (h : ∀ c ∈ l, c.1 ≠ a) : sparseGet d l a = d := by
  induction l with
  | nil => rfl
  | cons c t ih =>
    rw [sparseGet_cons, if_neg (h c (by simp))]
    exact ih fun e he => h e (List.mem_cons_of_mem _ he)

/-- A table with keys above `a` only reads as the default at `a`. -/
theorem sparseGet_of_lt {a : Nat} (h : ∀ c ∈ l, a < c.1) : sparseGet d l a = d :=
  sparseGet_of_absent fun c hc => Nat.ne_of_gt (h c hc)

theorem sparseWf_nil : sparseWf d ([] : List (Nat × α)) := ⟨List.Pairwise.nil, by simp⟩

theorem sparseWf_cons {c : Nat × α} :
    sparseWf d (c :: l) ↔ (∀ e ∈ l, c.1 < e.1) ∧ c.2 ≠ d ∧ sparseWf d l := by
  simp only [sparseWf, List.pairwise_cons, List.mem_cons, forall_eq_or_imp]
  tauto

theorem sparseWf_filter (p : Nat × α → Bool) (h : sparseWf d l) : sparseWf d (l.filter p) :=
  ⟨h.1.filter p, fun c hc => h.2 c (List.mem_filter.1 hc).1⟩

/-- In a canonical table an entry is what its key reads as. -/
theorem sparseGet_of_mem (h : sparseWf d l) {c : Nat × α} (hc : c ∈ l) : sparseGet d l c.1 = c.2 := by
  induction l with
  | nil => cases hc
  | cons e t ih =>
    obtain ⟨h1, -, h3⟩ := sparseWf_cons.1 h
    rcases List.mem_cons.1 hc with rfl | hc
    · simp [sparseGet_cons]
    · rw [sparseGet_cons, if_neg (Nat.ne_of_lt (h1 c hc)), ih h3 hc]

theorem sparseGet_filter (p : Nat × α → Bool) (q : Nat → Bool) (hp : ∀ c, p c = q c.1) (a : Nat) :
    sparseGet d (l.filter p) a = if q a then sparseGet d l a else d := by
  induction l with
  | nil => simp
  | cons c t ih =>
    by_cases hc : p c = true
    · rw [List.filter_cons_of_pos hc, sparseGet_cons, sparseGet_cons, ih]
      by_cases e : c.1 = a
      · have : q a = true := by rw [← e, ← hp]; exact hc
        simp [e, this]
      · simp [e]
    · rw [List.filter_cons_of_neg hc, ih, sparseGet_cons]
      by_cases e : c.1 = a
      · have : ¬ q a = true := by rw [← e, ← hp]; exact hc
        simp [this]
      · simp [e]

variable [DecidableEq α]

/-- Every entry of a table after a write is an old entry or the written one. -/
theorem mem_sparseSet {a : Nat} {x : α} {c : Nat × α} (h : c ∈ sparseSet d l a x) : c ∈ l ∨ (c = (a, x) ∧ x ≠ d) := by
  induction l with
  | nil =>
    simp only [sparseSet] at h
    split at h <;> simp_all
  | cons e t ih =>
    obtain ⟨k, v⟩ := e
    simp only [sparseSet] at h
    split at h
    · split at h
      · exact .inl h
      · rcases List.mem_cons.1 h with h | h
        · exact .inr ⟨h, by assumption⟩
        · exact .inl h
    · split at h
      · split at h
        · exact .inl (List.mem_cons_of_mem _ h)
        · rcases List.mem_cons.1 h with h | h
          · exact .inr ⟨h, by assumption⟩
          · exact .inl (List.mem_cons_of_mem _ h)
      · rcases List.mem_cons.1 h with h | h
        · simp [h]
        · rcases ih h with h | h
          · exact .inl (List.mem_cons_of_mem _ h)
          · exact .inr h

theorem sparseSet_wf (h : sparseWf d l) (a : Nat) (x : α) : sparseWf d (sparseSet d l a x) := by
  induction l with
  | nil =>
    simp only [sparseSet]
    split
    · exact h
    · exact sparseWf_cons.2 ⟨by simp, by assumption, h⟩
  | cons e t ih =>
    obtain ⟨k, v⟩ := e
    obtain ⟨h1, h2, h3⟩ := sparseWf_cons.1 h
    simp only [sparseSet]
    split
    · split
      · exact h
      · rename_i hk hx
        refine sparseWf_cons.2 ⟨fun e he => ?_, hx, h⟩
        rcases List.mem_cons.1 he with rfl | he
        · exact hk
        · exact Nat.lt_trans hk (h1 e he)
    · split
      · split
        · exact h3
        · rename_i hk hx
          exact sparseWf_cons.2 ⟨fun e he => hk ▸ h1 e he, hx, h3⟩
      · rename_i hk hne
        refine sparseWf_cons.2 ⟨fun e he => ?_, h2, ih h3⟩
        rcases mem_sparseSet he with he | ⟨rfl, -⟩
        · exact h1 e he
        · simp only; omega

/-- Read after write, at the written key. -/
theorem sparseGet_set_self (h : sparseWf d l) (a : Nat) (x : α) : sparseGet d (sparseSet d l a x) a = x := by
  induction l with
  | nil =>
    simp only [sparseSet]
    split <;> simp_all [sparseGet_cons]
  | cons e t ih =>
    obtain ⟨k, v⟩ := e
    obtain ⟨h1, h2, h3⟩ := sparseWf_cons.1 h
    simp only [sparseSet]
    split
    · rename_i hk
      split
      · rename_i hx
        rw [hx]
        refine sparseGet_of_lt fun c hc => ?_
        rcases List.mem_cons.1 hc with rfl | hc
        · exact hk
        · exact Nat.lt_trans hk (h1 c hc)
      · simp [sparseGet_cons]
    · split
      · rename_i hk
        split
        · rename_i hx
          rw [hx]
          exact sparseGet_of_lt fun c hc => hk ▸ h1 c hc
        · simp [sparseGet_cons]
      · rename_i hk hne
        rw [sparseGet_cons, if_neg (by simp only; omega), ih h3]

/-- Read after write, at every other key. -/
theorem sparseGet_set_of_ne {a b : Nat} (hab : a ≠ b) (x : α) : sparseGet d (sparseSet d l a x) b = sparseGet d l b := by
  induction l with
  | nil =>
    simp only [sparseSet]
    split <;> simp [sparseGet_cons, hab]
  | cons e t ih =>
    obtain ⟨k, v⟩ := e
    simp only [sparseSet]
    split
    · split
      · rfl
      · rw [sparseGet_cons, if_neg hab]
    · split
      · rename_i hk
        split
        · rw [sparseGet_cons, if_neg (by simp only; omega)]
        · rw [sparseGet_cons, sparseGet_cons, if_neg hab, if_neg (by simp only; omega)]
      · rw [sparseGet_cons, sparseGet_cons, ih]

end

/-- Canonical tables that read alike are equal. -/
theorem sparse_ext {α : Type} {d : α} {l m : List (Nat × α)} (hl : sparseWf d l) (hm : sparseWf d m)
    (h : ∀ a, sparseGet d l a = sparseGet d m a) : l = m := by
  induction l generalizing m with
  | nil =>
    cases m with
    | nil => rfl
    | cons c t =>
      obtain ⟨-, h2, -⟩ := sparseWf_cons.1 hm
      exact absurd (by simpa [sparseGet_cons] using (h c.1).symm) h2
  | cons c t ih =>
    obtain ⟨h1, h2, h3⟩ := sparseWf_cons.1 hl
    cases m with
    | nil => exact absurd (by simpa [sparseGet_cons] using h c.1) h2
    | cons e u =>
      obtain ⟨g1, g2, g3⟩ := sparseWf_cons.1 hm
      have key : c.1 = e.1 := by
        rcases Nat.lt_trichotomy c.1 e.1 with hlt | heq | hgt
        · refine absurd ?_ h2
          have := h c.1
          rw [sparseGet_cons, if_pos rfl] at this
          rw [this]
          refine sparseGet_of_lt fun x hx => ?_
          rcases List.mem_cons.1 hx with rfl | hx
          · exact hlt
          · exact Nat.lt_trans hlt (g1 x hx)
        · exact heq
        · refine absurd ?_ g2
          have := h e.1
          rw [sparseGet_cons (l := u), if_pos rfl] at this
          rw [← this]
          refine sparseGet_of_lt fun x hx => ?_
          rcases List.mem_cons.1 hx with rfl | hx
          · exact hgt
          · exact Nat.lt_trans hgt (h1 x hx)
      have val : c.2 = e.2 := by simpa [sparseGet_cons, key] using h c.1
      have hce : c = e := Prod.ext key val
      subst hce
      rw [ih h3 g3 fun a => ?_]
      by_cases ha : c.1 = a
      · rw [sparseGet_of_lt fun x hx => ha ▸ h1 x hx, sparseGet_of_lt fun x hx => ha ▸ g1 x hx]
      · simpa [sparseGet_cons, ha] using h a

end Sys2Proof.Machine
end

