-- ==== Sys2Proof/Laws/Memory.lean ====
section
/-! SUPPORT. The laws of the byte memory and of its words: read after write, disjointness, the canonical form. -/

namespace Sys2Proof.Machine

section
variable {m : Memory}

@[simp] theorem Memory.get_nil (a : Nat) : Memory.get [] a = 0 := rfl

theorem Memory.set_wf (h : Memory.wf m) (a : Nat) (b : Byte) : Memory.wf (Memory.set m a b) := sparseSet_wf h a b

theorem Memory.get_set_self (h : Memory.wf m) (a : Nat) (b : Byte) : Memory.get (Memory.set m a b) a = b :=
  sparseGet_set_self h a b

theorem Memory.get_set_of_ne {a c : Nat} (hac : a ≠ c) (b : Byte) : Memory.get (Memory.set m a b) c = Memory.get m c :=
  sparseGet_set_of_ne hac b

theorem Memory.get_set (h : Memory.wf m) (a c : Nat) (b : Byte) :
    Memory.get (Memory.set m a b) c = if a = c then b else Memory.get m c := by
  split
  · subst a; exact Memory.get_set_self h c b
  · exact Memory.get_set_of_ne (by assumption) b

theorem Memory.writeWord_wf (h : Memory.wf m) (a : Nat) (w : Word) : Memory.wf (Memory.writeWord m a w) := by
  unfold Memory.writeWord
  exact Memory.set_wf (Memory.set_wf (Memory.set_wf (Memory.set_wf h _ _) _ _) _ _) _ _

/-- A word write stores exactly the four bytes from its address on. -/
theorem Memory.get_writeWord_of_ne {a c : Nat} (hc : c < a ∨ a + 4 ≤ c) (w : Word) :
    Memory.get (Memory.writeWord m a w) c = Memory.get m c := by
  unfold Memory.writeWord
  rw [Memory.get_set_of_ne (by omega), Memory.get_set_of_ne (by omega), Memory.get_set_of_ne (by omega),
    Memory.get_set_of_ne (by omega)]

/-- Lane `k` of a written word (20_memory.md R72). -/
theorem Memory.get_writeWord (h : Memory.wf m) (a k : Nat) (w : Word) (hk : k < 4) :
    Memory.get (Memory.writeWord m a w) (a + k) = w.extractLsb' (8 * k) 8 := by
  have h1 := Memory.set_wf h a (w.extractLsb' 0 8)
  have h2 := Memory.set_wf h1 (a + 1) (w.extractLsb' 8 8)
  have h3 := Memory.set_wf h2 (a + 2) (w.extractLsb' 16 8)
  unfold Memory.writeWord
  simp only [Memory.get_set h3, Memory.get_set h2, Memory.get_set h1, Memory.get_set h]
  match k, hk with
  | 0, _ => simp
  | 1, _ => simp
  | 2, _ => simp
  | 3, _ => simp

theorem word_of_lanes (w : Word) :
    (w.extractLsb' 24 8 ++ w.extractLsb' 16 8 ++ w.extractLsb' 8 8 ++ w.extractLsb' 0 8 : BitVec 32) = w := by
  apply BitVec.eq_of_getLsbD_eq
  intro i hi
  simp only [BitVec.getLsbD_append, BitVec.getLsbD_extractLsb']
  split
  · simp [*]
  · split
    · rw [show 8 + (i - 8) = i by omega]; simp; omega
    · split
      · rw [show 16 + (i - 8 - 8) = i by omega]; simp; omega
      · rw [show 24 + (i - 8 - 8 - 8) = i by omega]; simp; omega

/-- Read after write of a word. -/
theorem Memory.readWord_writeWord (h : Memory.wf m) (a : Nat) (w : Word) :
    Memory.readWord (Memory.writeWord m a w) a = w := by
  have g := Memory.get_writeWord h a
  unfold Memory.readWord
  rw [g 3 w (by omega), g 2 w (by omega), g 1 w (by omega), show Memory.get (Memory.writeWord m a w) a = _ from g 0 w (by omega)]
  exact word_of_lanes w

/-- A word read depends on its four bytes alone. -/
theorem Memory.readWord_congr {m m' : Memory} {a : Nat} (h : ∀ k, k < 4 → Memory.get m' (a + k) = Memory.get m (a + k)) :
    Memory.readWord m' a = Memory.readWord m a := by
  unfold Memory.readWord
  rw [h 3 (by omega), h 2 (by omega), h 1 (by omega), show Memory.get m' a = Memory.get m a from h 0 (by omega)]

theorem Memory.readWord_writeWord_of_ne {a b : Nat} (hab : b + 4 ≤ a ∨ a + 4 ≤ b) (w : Word) :
    Memory.readWord (Memory.writeWord m a w) b = Memory.readWord m b :=
  Memory.readWord_congr fun k hk => Memory.get_writeWord_of_ne (by omega) w

theorem Memory.readWord_set_of_ne {a b : Nat} (hab : a < b ∨ b + 4 ≤ a) (x : Byte) :
    Memory.readWord (Memory.set m a x) b = Memory.readWord m b :=
  Memory.readWord_congr fun k hk => Memory.get_set_of_ne (by omega) x

theorem Memory.clearRange_wf (h : Memory.wf m) (lo n : Nat) : Memory.wf (Memory.clearRange m lo n) :=
  sparseWf_filter _ h

/-- A cleared range reads 0, and every other byte as before. -/
theorem Memory.get_clearRange (lo n a : Nat) :
    Memory.get (Memory.clearRange m lo n) a = if lo ≤ a ∧ a < lo + n then 0 else Memory.get m a := by
  unfold Memory.get Memory.clearRange
  rw [sparseGet_filter _ (fun a => !(decide (lo ≤ a) && decide (a < lo + n))) fun c => rfl]
  by_cases h : lo ≤ a ∧ a < lo + n <;> simp [h]

theorem Memory.readWord_zero {a : Nat} (h : ∀ k, k < 4 → Memory.get m (a + k) = 0) : Memory.readWord m a = 0 := by
  unfold Memory.readWord
  rw [h 3 (by omega), h 2 (by omega), h 1 (by omega), show Memory.get m a = 0 from h 0 (by omega)]
  rfl

/-- Equal memories are equal data: canonical memories that read alike are equal. -/
theorem Memory.ext_get {m m' : Memory} (h : Memory.wf m) (h' : Memory.wf m') (e : ∀ a, Memory.get m a = Memory.get m' a) :
    m = m' := sparse_ext h h' e

theorem Memory.mem_set {a : Nat} {b : Byte} {c : Host.Cell} (h : c ∈ Memory.set m a b) : c ∈ m ∨ c.1 = a := by
  rcases mem_sparseSet h with h | ⟨rfl, -⟩
  · exact .inl h
  · exact .inr rfl

theorem Memory.mem_writeWord {a : Nat} {w : Word} {c : Host.Cell} (h : c ∈ Memory.writeWord m a w) :
    c ∈ m ∨ (a ≤ c.1 ∧ c.1 < a + 4) := by
  unfold Memory.writeWord at h
  rcases Memory.mem_set h with h | h
  · rcases Memory.mem_set h with h | h
    · rcases Memory.mem_set h with h | h
      · rcases Memory.mem_set h with h | h
        · exact .inl h
        · exact .inr (by omega)
      · exact .inr (by omega)
    · exact .inr (by omega)
  · exact .inr (by omega)

end

end Sys2Proof.Machine
end

