-- ==== Sys2Proof/Laws/State.lean ====
section
/-! SUPPORT. One lemma per field and update of the state: what each shared update leaves in each field. -/

namespace Sys2Proof.Machine

/-! `withMem` -/

@[simp] theorem State.withMem_csr (s : State) (m : Memory) : (s.withMem m).csr = s.csr := rfl
@[simp] theorem State.withMem_mem (s : State) (m : Memory) : (s.withMem m).mem = m := rfl
@[simp] theorem State.withMem_node (s : State) (m : Memory) : (s.withMem m).node = s.node := rfl
@[simp] theorem State.withMem_lut (s : State) (m : Memory) : (s.withMem m).lut = s.lut := rfl
@[simp] theorem State.withMem_hwin (s : State) (m : Memory) : (s.withMem m).hwin = s.hwin := rfl
@[simp] theorem State.withMem_lwin (s : State) (m : Memory) : (s.withMem m).lwin = s.lwin := rfl
@[simp] theorem State.withMem_pending (s : State) (m : Memory) : (s.withMem m).pending = s.pending := rfl
@[simp] theorem State.withMem_params (s : State) (m : Memory) : (s.withMem m).params = s.params := rfl
@[simp] theorem State.withMem_agenda (s : State) (m : Memory) : (s.withMem m).agenda = s.agenda := rfl
@[simp] theorem State.withMem_resp (s : State) (m : Memory) : (s.withMem m).resp = s.resp := rfl
@[simp] theorem State.withMem_draws (s : State) (m : Memory) : (s.withMem m).draws = s.draws := rfl
@[simp] theorem State.withMem_busErrs (s : State) (m : Memory) : (s.withMem m).busErrs = s.busErrs := rfl
@[simp] theorem State.withMem_trace (s : State) (m : Memory) : (s.withMem m).trace = s.trace := rfl

/-! `setFreq` -/

@[simp] theorem State.setFreq_csr (s : State) (i : Nat) (w : Word) : (s.setFreq i w).csr = s.csr := rfl
@[simp] theorem State.setFreq_node (s : State) (i : Nat) (w : Word) : (s.setFreq i w).node = s.node := rfl
@[simp] theorem State.setFreq_lut (s : State) (i : Nat) (w : Word) : (s.setFreq i w).lut = s.lut := rfl
@[simp] theorem State.setFreq_hwin (s : State) (i : Nat) (w : Word) : (s.setFreq i w).hwin = s.hwin := rfl
@[simp] theorem State.setFreq_lwin (s : State) (i : Nat) (w : Word) : (s.setFreq i w).lwin = s.lwin := rfl
@[simp] theorem State.setFreq_pending (s : State) (i : Nat) (w : Word) : (s.setFreq i w).pending = s.pending := rfl
@[simp] theorem State.setFreq_params (s : State) (i : Nat) (w : Word) : (s.setFreq i w).params = s.params := rfl
@[simp] theorem State.setFreq_agenda (s : State) (i : Nat) (w : Word) : (s.setFreq i w).agenda = s.agenda := rfl
@[simp] theorem State.setFreq_resp (s : State) (i : Nat) (w : Word) : (s.setFreq i w).resp = s.resp := rfl
@[simp] theorem State.setFreq_draws (s : State) (i : Nat) (w : Word) : (s.setFreq i w).draws = s.draws := rfl
@[simp] theorem State.setFreq_busErrs (s : State) (i : Nat) (w : Word) : (s.setFreq i w).busErrs = s.busErrs := rfl
@[simp] theorem State.setFreq_trace (s : State) (i : Nat) (w : Word) : (s.setFreq i w).trace = s.trace := rfl
theorem State.setFreq_mem (s : State) (i : Nat) (w : Word) :
    (s.setFreq i w).mem = Memory.writeWord s.mem (freqAddr i) w := rfl

/-! `setIn` -/

@[simp] theorem State.setIn_csr (s : State) (i : Nat) (w : Byte) : (s.setIn i w).csr = s.csr := rfl
@[simp] theorem State.setIn_node (s : State) (i : Nat) (w : Byte) : (s.setIn i w).node = s.node := rfl
@[simp] theorem State.setIn_lut (s : State) (i : Nat) (w : Byte) : (s.setIn i w).lut = s.lut := rfl
@[simp] theorem State.setIn_hwin (s : State) (i : Nat) (w : Byte) : (s.setIn i w).hwin = s.hwin := rfl
@[simp] theorem State.setIn_lwin (s : State) (i : Nat) (w : Byte) : (s.setIn i w).lwin = s.lwin := rfl
@[simp] theorem State.setIn_pending (s : State) (i : Nat) (w : Byte) : (s.setIn i w).pending = s.pending := rfl
@[simp] theorem State.setIn_params (s : State) (i : Nat) (w : Byte) : (s.setIn i w).params = s.params := rfl
@[simp] theorem State.setIn_agenda (s : State) (i : Nat) (w : Byte) : (s.setIn i w).agenda = s.agenda := rfl
@[simp] theorem State.setIn_resp (s : State) (i : Nat) (w : Byte) : (s.setIn i w).resp = s.resp := rfl
@[simp] theorem State.setIn_draws (s : State) (i : Nat) (w : Byte) : (s.setIn i w).draws = s.draws := rfl
@[simp] theorem State.setIn_busErrs (s : State) (i : Nat) (w : Byte) : (s.setIn i w).busErrs = s.busErrs := rfl
@[simp] theorem State.setIn_trace (s : State) (i : Nat) (w : Byte) : (s.setIn i w).trace = s.trace := rfl
theorem State.setIn_mem (s : State) (i : Nat) (w : Byte) : (s.setIn i w).mem = Memory.set s.mem (inAddr i) w := rfl

/-! `setOut` -/

@[simp] theorem State.setOut_csr (s : State) (i : Nat) (w : Byte) : (s.setOut i w).csr = s.csr := rfl
@[simp] theorem State.setOut_node (s : State) (i : Nat) (w : Byte) : (s.setOut i w).node = s.node := rfl
@[simp] theorem State.setOut_lut (s : State) (i : Nat) (w : Byte) : (s.setOut i w).lut = s.lut := rfl
@[simp] theorem State.setOut_hwin (s : State) (i : Nat) (w : Byte) : (s.setOut i w).hwin = s.hwin := rfl
@[simp] theorem State.setOut_lwin (s : State) (i : Nat) (w : Byte) : (s.setOut i w).lwin = s.lwin := rfl
@[simp] theorem State.setOut_pending (s : State) (i : Nat) (w : Byte) : (s.setOut i w).pending = s.pending := rfl
@[simp] theorem State.setOut_params (s : State) (i : Nat) (w : Byte) : (s.setOut i w).params = s.params := rfl
@[simp] theorem State.setOut_agenda (s : State) (i : Nat) (w : Byte) : (s.setOut i w).agenda = s.agenda := rfl
@[simp] theorem State.setOut_resp (s : State) (i : Nat) (w : Byte) : (s.setOut i w).resp = s.resp := rfl
@[simp] theorem State.setOut_draws (s : State) (i : Nat) (w : Byte) : (s.setOut i w).draws = s.draws := rfl
@[simp] theorem State.setOut_busErrs (s : State) (i : Nat) (w : Byte) : (s.setOut i w).busErrs = s.busErrs := rfl
@[simp] theorem State.setOut_trace (s : State) (i : Nat) (w : Byte) : (s.setOut i w).trace = s.trace := rfl
theorem State.setOut_mem (s : State) (i : Nat) (w : Byte) : (s.setOut i w).mem = Memory.set s.mem (outAddr i) w := rfl

/-! `setTok` -/

@[simp] theorem State.setTok_csr (s : State) (i : Nat) (w : Word) : (s.setTok i w).csr = s.csr := rfl
@[simp] theorem State.setTok_node (s : State) (i : Nat) (w : Word) : (s.setTok i w).node = s.node := rfl
@[simp] theorem State.setTok_lut (s : State) (i : Nat) (w : Word) : (s.setTok i w).lut = s.lut := rfl
@[simp] theorem State.setTok_hwin (s : State) (i : Nat) (w : Word) : (s.setTok i w).hwin = s.hwin := rfl
@[simp] theorem State.setTok_lwin (s : State) (i : Nat) (w : Word) : (s.setTok i w).lwin = s.lwin := rfl
@[simp] theorem State.setTok_pending (s : State) (i : Nat) (w : Word) : (s.setTok i w).pending = s.pending := rfl
@[simp] theorem State.setTok_params (s : State) (i : Nat) (w : Word) : (s.setTok i w).params = s.params := rfl
@[simp] theorem State.setTok_agenda (s : State) (i : Nat) (w : Word) : (s.setTok i w).agenda = s.agenda := rfl
@[simp] theorem State.setTok_resp (s : State) (i : Nat) (w : Word) : (s.setTok i w).resp = s.resp := rfl
@[simp] theorem State.setTok_draws (s : State) (i : Nat) (w : Word) : (s.setTok i w).draws = s.draws := rfl
@[simp] theorem State.setTok_busErrs (s : State) (i : Nat) (w : Word) : (s.setTok i w).busErrs = s.busErrs := rfl
@[simp] theorem State.setTok_trace (s : State) (i : Nat) (w : Word) : (s.setTok i w).trace = s.trace := rfl
theorem State.setTok_mem (s : State) (i : Nat) (w : Word) : (s.setTok i w).mem = Memory.writeWord s.mem (tokAddr i) w := rfl

/-! `setBitWord` -/

@[simp] theorem State.setBitWord_csr (s : State) (i : Nat) (w : Word) : (s.setBitWord i w).csr = s.csr := rfl
@[simp] theorem State.setBitWord_node (s : State) (i : Nat) (w : Word) : (s.setBitWord i w).node = s.node := rfl
@[simp] theorem State.setBitWord_lut (s : State) (i : Nat) (w : Word) : (s.setBitWord i w).lut = s.lut := rfl
@[simp] theorem State.setBitWord_hwin (s : State) (i : Nat) (w : Word) : (s.setBitWord i w).hwin = s.hwin := rfl
@[simp] theorem State.setBitWord_lwin (s : State) (i : Nat) (w : Word) : (s.setBitWord i w).lwin = s.lwin := rfl
@[simp] theorem State.setBitWord_pending (s : State) (i : Nat) (w : Word) : (s.setBitWord i w).pending = s.pending := rfl
@[simp] theorem State.setBitWord_params (s : State) (i : Nat) (w : Word) : (s.setBitWord i w).params = s.params := rfl
@[simp] theorem State.setBitWord_agenda (s : State) (i : Nat) (w : Word) : (s.setBitWord i w).agenda = s.agenda := rfl
@[simp] theorem State.setBitWord_resp (s : State) (i : Nat) (w : Word) : (s.setBitWord i w).resp = s.resp := rfl
@[simp] theorem State.setBitWord_draws (s : State) (i : Nat) (w : Word) : (s.setBitWord i w).draws = s.draws := rfl
@[simp] theorem State.setBitWord_busErrs (s : State) (i : Nat) (w : Word) : (s.setBitWord i w).busErrs = s.busErrs := rfl
@[simp] theorem State.setBitWord_trace (s : State) (i : Nat) (w : Word) : (s.setBitWord i w).trace = s.trace := rfl
theorem State.setBitWord_mem (s : State) (i : Nat) (w : Word) :
    (s.setBitWord i w).mem = Memory.writeWord s.mem (bitAddr i) w := rfl

/-! `clearFreq` -/

@[simp] theorem State.clearFreq_csr (s : State) : (s.clearFreq).csr = s.csr := rfl
@[simp] theorem State.clearFreq_node (s : State) : (s.clearFreq).node = s.node := rfl
@[simp] theorem State.clearFreq_lut (s : State) : (s.clearFreq).lut = s.lut := rfl
@[simp] theorem State.clearFreq_hwin (s : State) : (s.clearFreq).hwin = s.hwin := rfl
@[simp] theorem State.clearFreq_lwin (s : State) : (s.clearFreq).lwin = s.lwin := rfl
@[simp] theorem State.clearFreq_pending (s : State) : (s.clearFreq).pending = s.pending := rfl
@[simp] theorem State.clearFreq_params (s : State) : (s.clearFreq).params = s.params := rfl
@[simp] theorem State.clearFreq_agenda (s : State) : (s.clearFreq).agenda = s.agenda := rfl
@[simp] theorem State.clearFreq_resp (s : State) : (s.clearFreq).resp = s.resp := rfl
@[simp] theorem State.clearFreq_draws (s : State) : (s.clearFreq).draws = s.draws := rfl
@[simp] theorem State.clearFreq_busErrs (s : State) : (s.clearFreq).busErrs = s.busErrs := rfl
@[simp] theorem State.clearFreq_trace (s : State) : (s.clearFreq).trace = s.trace := rfl
theorem State.clearFreq_mem (s : State) : s.clearFreq.mem = Memory.clearRange s.mem freqBase (4 * Config.alphabet) := rfl

/-! `invalidateTree` -/

@[simp] theorem State.invalidateTree_csr (s : State) :
    (s.invalidateTree).csr = { s.csr with
      treeValid := false, nsym := 0, nodeCnt := 0, root := Config.noNode, decNode := Config.noNode, decLen := 0 } := rfl
@[simp] theorem State.invalidateTree_mem (s : State) : (s.invalidateTree).mem = s.mem := rfl
@[simp] theorem State.invalidateTree_node (s : State) : (s.invalidateTree).node = s.node := rfl
@[simp] theorem State.invalidateTree_lut (s : State) : (s.invalidateTree).lut = s.lut := rfl
@[simp] theorem State.invalidateTree_hwin (s : State) : (s.invalidateTree).hwin = s.hwin := rfl
@[simp] theorem State.invalidateTree_lwin (s : State) : (s.invalidateTree).lwin = s.lwin := rfl
@[simp] theorem State.invalidateTree_pending (s : State) : (s.invalidateTree).pending = s.pending := rfl
@[simp] theorem State.invalidateTree_params (s : State) : (s.invalidateTree).params = s.params := rfl
@[simp] theorem State.invalidateTree_agenda (s : State) : (s.invalidateTree).agenda = s.agenda := rfl
@[simp] theorem State.invalidateTree_resp (s : State) : (s.invalidateTree).resp = s.resp := rfl
@[simp] theorem State.invalidateTree_draws (s : State) : (s.invalidateTree).draws = s.draws := rfl
@[simp] theorem State.invalidateTree_busErrs (s : State) : (s.invalidateTree).busErrs = s.busErrs := rfl
@[simp] theorem State.invalidateTree_trace (s : State) : (s.invalidateTree).trace = s.trace := rfl

/-! `issue` -/

@[simp] theorem issue_csr (w : Word) (s : State) :
    (issue w s).csr = { s.csr with cmd := w, done := false, errcode := 0 } := rfl
@[simp] theorem issue_mem (w : Word) (s : State) : (issue w s).mem = s.mem := rfl
@[simp] theorem issue_node (w : Word) (s : State) : (issue w s).node = s.node := rfl
@[simp] theorem issue_lut (w : Word) (s : State) : (issue w s).lut = s.lut := rfl
@[simp] theorem issue_hwin (w : Word) (s : State) : (issue w s).hwin = s.hwin := rfl
@[simp] theorem issue_lwin (w : Word) (s : State) : (issue w s).lwin = s.lwin := rfl
@[simp] theorem issue_pending (w : Word) (s : State) : (issue w s).pending = .cmd w := rfl
@[simp] theorem issue_params (w : Word) (s : State) : (issue w s).params = s.params := rfl
@[simp] theorem issue_agenda (w : Word) (s : State) : (issue w s).agenda = s.agenda := rfl
@[simp] theorem issue_resp (w : Word) (s : State) : (issue w s).resp = s.resp := rfl
@[simp] theorem issue_draws (w : Word) (s : State) : (issue w s).draws = s.draws := rfl
@[simp] theorem issue_busErrs (w : Word) (s : State) : (issue w s).busErrs = s.busErrs := rfl
@[simp] theorem issue_trace (w : Word) (s : State) : (issue w s).trace = s.trace := rfl

/-! `completeOk` -/

@[simp] theorem completeOk_csr (v : Nat) (s : State) :
    (completeOk v s).csr = { s.csr with
      result0 := BitVec.ofNat 32 v, errPos := 0, errcode := 0, done := true, irqPend := true } := rfl
@[simp] theorem completeOk_mem (v : Nat) (s : State) : (completeOk v s).mem = s.mem := rfl
@[simp] theorem completeOk_node (v : Nat) (s : State) : (completeOk v s).node = s.node := rfl
@[simp] theorem completeOk_lut (v : Nat) (s : State) : (completeOk v s).lut = s.lut := rfl
@[simp] theorem completeOk_hwin (v : Nat) (s : State) : (completeOk v s).hwin = s.hwin := rfl
@[simp] theorem completeOk_lwin (v : Nat) (s : State) : (completeOk v s).lwin = s.lwin := rfl
@[simp] theorem completeOk_pending (v : Nat) (s : State) : (completeOk v s).pending = .idle := rfl
@[simp] theorem completeOk_params (v : Nat) (s : State) : (completeOk v s).params = s.params := rfl
@[simp] theorem completeOk_agenda (v : Nat) (s : State) : (completeOk v s).agenda = s.agenda := rfl
@[simp] theorem completeOk_resp (v : Nat) (s : State) : (completeOk v s).resp = s.resp := rfl
@[simp] theorem completeOk_draws (v : Nat) (s : State) : (completeOk v s).draws = s.draws := rfl
@[simp] theorem completeOk_busErrs (v : Nat) (s : State) : (completeOk v s).busErrs = s.busErrs := rfl
@[simp] theorem completeOk_trace (v : Nat) (s : State) : (completeOk v s).trace = s.trace := rfl

/-! `completeErr` -/

@[simp] theorem completeErr_csr (e : Err) (s : State) :
    (completeErr e s).csr = { s.csr with
      result0 := 0, errPos := BitVec.ofNat 21 e.pos, errcode := e.code.num, stickyErr := true, done := true,
      irqPend := true } := rfl
@[simp] theorem completeErr_mem (e : Err) (s : State) : (completeErr e s).mem = s.mem := rfl
@[simp] theorem completeErr_node (e : Err) (s : State) : (completeErr e s).node = s.node := rfl
@[simp] theorem completeErr_lut (e : Err) (s : State) : (completeErr e s).lut = s.lut := rfl
@[simp] theorem completeErr_hwin (e : Err) (s : State) : (completeErr e s).hwin = s.hwin := rfl
@[simp] theorem completeErr_lwin (e : Err) (s : State) : (completeErr e s).lwin = s.lwin := rfl
@[simp] theorem completeErr_pending (e : Err) (s : State) : (completeErr e s).pending = .idle := rfl
@[simp] theorem completeErr_params (e : Err) (s : State) : (completeErr e s).params = s.params := rfl
@[simp] theorem completeErr_agenda (e : Err) (s : State) : (completeErr e s).agenda = s.agenda := rfl
@[simp] theorem completeErr_resp (e : Err) (s : State) : (completeErr e s).resp = s.resp := rfl
@[simp] theorem completeErr_draws (e : Err) (s : State) : (completeErr e s).draws = s.draws := rfl
@[simp] theorem completeErr_busErrs (e : Err) (s : State) : (completeErr e s).busErrs = s.busErrs := rfl
@[simp] theorem completeErr_trace (e : Err) (s : State) : (completeErr e s).trace = s.trace := rfl

/-! `acknowledge` -/

@[simp] theorem acknowledge_csr (w : Word) (s : State) :
    (acknowledge w s).csr = { s.csr with
      done := s.csr.done && !w.getLsbD 1, stickyErr := s.csr.stickyErr && !w.getLsbD 3,
      overrun := s.csr.overrun && !w.getLsbD 4, irqPend := s.csr.irqPend && !w.getLsbD 7 } := rfl
@[simp] theorem acknowledge_mem (w : Word) (s : State) : (acknowledge w s).mem = s.mem := rfl
@[simp] theorem acknowledge_node (w : Word) (s : State) : (acknowledge w s).node = s.node := rfl
@[simp] theorem acknowledge_lut (w : Word) (s : State) : (acknowledge w s).lut = s.lut := rfl
@[simp] theorem acknowledge_hwin (w : Word) (s : State) : (acknowledge w s).hwin = s.hwin := rfl
@[simp] theorem acknowledge_lwin (w : Word) (s : State) : (acknowledge w s).lwin = s.lwin := rfl
@[simp] theorem acknowledge_pending (w : Word) (s : State) : (acknowledge w s).pending = s.pending := rfl
@[simp] theorem acknowledge_params (w : Word) (s : State) : (acknowledge w s).params = s.params := rfl
@[simp] theorem acknowledge_agenda (w : Word) (s : State) : (acknowledge w s).agenda = s.agenda := rfl
@[simp] theorem acknowledge_resp (w : Word) (s : State) : (acknowledge w s).resp = s.resp := rfl
@[simp] theorem acknowledge_draws (w : Word) (s : State) : (acknowledge w s).draws = s.draws := rfl
@[simp] theorem acknowledge_busErrs (w : Word) (s : State) : (acknowledge w s).busErrs = s.busErrs := rfl
@[simp] theorem acknowledge_trace (w : Word) (s : State) : (acknowledge w s).trace = s.trace := rfl

/-! `resetEntry` -/

@[simp] theorem resetEntry_csr (s : State) : (resetEntry s).csr = Csr.reset := rfl
@[simp] theorem resetEntry_mem (s : State) : (resetEntry s).mem = s.mem := rfl
@[simp] theorem resetEntry_node (s : State) : (resetEntry s).node = s.node := rfl
@[simp] theorem resetEntry_lut (s : State) : (resetEntry s).lut = s.lut := rfl
@[simp] theorem resetEntry_hwin (s : State) : (resetEntry s).hwin = s.hwin := rfl
@[simp] theorem resetEntry_lwin (s : State) : (resetEntry s).lwin = s.lwin := rfl
@[simp] theorem resetEntry_pending (s : State) : (resetEntry s).pending = .init := rfl
@[simp] theorem resetEntry_params (s : State) : (resetEntry s).params = s.params := rfl
@[simp] theorem resetEntry_agenda (s : State) : (resetEntry s).agenda = s.agenda := rfl
@[simp] theorem resetEntry_resp (s : State) : (resetEntry s).resp = s.resp := rfl
@[simp] theorem resetEntry_draws (s : State) : (resetEntry s).draws = s.draws := rfl
@[simp] theorem resetEntry_busErrs (s : State) : (resetEntry s).busErrs = s.busErrs := rfl
@[simp] theorem resetEntry_trace (s : State) : (resetEntry s).trace = s.trace := rfl

/-! `initStep` -/

@[simp] theorem initStep_csr (s : State) : (initStep s).csr = s.csr := rfl
@[simp] theorem initStep_mem (s : State) : (initStep s).mem = [] := rfl
@[simp] theorem initStep_node (s : State) : (initStep s).node = [] := rfl
@[simp] theorem initStep_lut (s : State) : (initStep s).lut = [] := rfl
@[simp] theorem initStep_hwin (s : State) : (initStep s).hwin = Window.empty := rfl
@[simp] theorem initStep_lwin (s : State) : (initStep s).lwin = Window.empty := rfl
@[simp] theorem initStep_pending (s : State) : (initStep s).pending = .idle := rfl
@[simp] theorem initStep_params (s : State) : (initStep s).params = s.params := rfl
@[simp] theorem initStep_agenda (s : State) : (initStep s).agenda = s.agenda := rfl
@[simp] theorem initStep_resp (s : State) : (initStep s).resp = s.resp := rfl
@[simp] theorem initStep_draws (s : State) : (initStep s).draws = s.draws := rfl
@[simp] theorem initStep_busErrs (s : State) : (initStep s).busErrs = s.busErrs := rfl
@[simp] theorem initStep_trace (s : State) : (initStep s).trace = s.trace := rfl

/-! `setBitLen` -/

@[simp] theorem State.setBitLen_csr (s : State) (n : Nat) :
    (s.setBitLen n).csr = { s.csr with bitLen := BitVec.ofNat 21 n } := rfl
@[simp] theorem State.setBitLen_mem (s : State) (n : Nat) : (s.setBitLen n).mem = s.mem := rfl
@[simp] theorem State.setBitLen_node (s : State) (n : Nat) : (s.setBitLen n).node = s.node := rfl
@[simp] theorem State.setBitLen_lut (s : State) (n : Nat) : (s.setBitLen n).lut = s.lut := rfl
@[simp] theorem State.setBitLen_hwin (s : State) (n : Nat) : (s.setBitLen n).hwin = s.hwin := rfl
@[simp] theorem State.setBitLen_lwin (s : State) (n : Nat) : (s.setBitLen n).lwin = s.lwin := rfl
@[simp] theorem State.setBitLen_pending (s : State) (n : Nat) : (s.setBitLen n).pending = s.pending := rfl
@[simp] theorem State.setBitLen_params (s : State) (n : Nat) : (s.setBitLen n).params = s.params := rfl
@[simp] theorem State.setBitLen_agenda (s : State) (n : Nat) : (s.setBitLen n).agenda = s.agenda := rfl
@[simp] theorem State.setBitLen_resp (s : State) (n : Nat) : (s.setBitLen n).resp = s.resp := rfl
@[simp] theorem State.setBitLen_draws (s : State) (n : Nat) : (s.setBitLen n).draws = s.draws := rfl
@[simp] theorem State.setBitLen_busErrs (s : State) (n : Nat) : (s.setBitLen n).busErrs = s.busErrs := rfl
@[simp] theorem State.setBitLen_trace (s : State) (n : Nat) : (s.setBitLen n).trace = s.trace := rfl

/-! `setOutLen` -/

@[simp] theorem State.setOutLen_csr (s : State) (n : Nat) :
    (s.setOutLen n).csr = { s.csr with outLen := BitVec.ofNat 16 n } := rfl
@[simp] theorem State.setOutLen_mem (s : State) (n : Nat) : (s.setOutLen n).mem = s.mem := rfl
@[simp] theorem State.setOutLen_node (s : State) (n : Nat) : (s.setOutLen n).node = s.node := rfl
@[simp] theorem State.setOutLen_lut (s : State) (n : Nat) : (s.setOutLen n).lut = s.lut := rfl
@[simp] theorem State.setOutLen_hwin (s : State) (n : Nat) : (s.setOutLen n).hwin = s.hwin := rfl
@[simp] theorem State.setOutLen_lwin (s : State) (n : Nat) : (s.setOutLen n).lwin = s.lwin := rfl
@[simp] theorem State.setOutLen_pending (s : State) (n : Nat) : (s.setOutLen n).pending = s.pending := rfl
@[simp] theorem State.setOutLen_params (s : State) (n : Nat) : (s.setOutLen n).params = s.params := rfl
@[simp] theorem State.setOutLen_agenda (s : State) (n : Nat) : (s.setOutLen n).agenda = s.agenda := rfl
@[simp] theorem State.setOutLen_resp (s : State) (n : Nat) : (s.setOutLen n).resp = s.resp := rfl
@[simp] theorem State.setOutLen_draws (s : State) (n : Nat) : (s.setOutLen n).draws = s.draws := rfl
@[simp] theorem State.setOutLen_busErrs (s : State) (n : Nat) : (s.setOutLen n).busErrs = s.busErrs := rfl
@[simp] theorem State.setOutLen_trace (s : State) (n : Nat) : (s.setOutLen n).trace = s.trace := rfl

/-! `setTokLen` -/

@[simp] theorem State.setTokLen_csr (s : State) (n : Nat) :
    (s.setTokLen n).csr = { s.csr with tokLen := BitVec.ofNat 16 n } := rfl
@[simp] theorem State.setTokLen_mem (s : State) (n : Nat) : (s.setTokLen n).mem = s.mem := rfl
@[simp] theorem State.setTokLen_node (s : State) (n : Nat) : (s.setTokLen n).node = s.node := rfl
@[simp] theorem State.setTokLen_lut (s : State) (n : Nat) : (s.setTokLen n).lut = s.lut := rfl
@[simp] theorem State.setTokLen_hwin (s : State) (n : Nat) : (s.setTokLen n).hwin = s.hwin := rfl
@[simp] theorem State.setTokLen_lwin (s : State) (n : Nat) : (s.setTokLen n).lwin = s.lwin := rfl
@[simp] theorem State.setTokLen_pending (s : State) (n : Nat) : (s.setTokLen n).pending = s.pending := rfl
@[simp] theorem State.setTokLen_params (s : State) (n : Nat) : (s.setTokLen n).params = s.params := rfl
@[simp] theorem State.setTokLen_agenda (s : State) (n : Nat) : (s.setTokLen n).agenda = s.agenda := rfl
@[simp] theorem State.setTokLen_resp (s : State) (n : Nat) : (s.setTokLen n).resp = s.resp := rfl
@[simp] theorem State.setTokLen_draws (s : State) (n : Nat) : (s.setTokLen n).draws = s.draws := rfl
@[simp] theorem State.setTokLen_busErrs (s : State) (n : Nat) : (s.setTokLen n).busErrs = s.busErrs := rfl
@[simp] theorem State.setTokLen_trace (s : State) (n : Nat) : (s.setTokLen n).trace = s.trace := rfl

/-! `setLzPos` -/

@[simp] theorem State.setLzPos_csr (s : State) (n : Nat) :
    (s.setLzPos n).csr = { s.csr with lzPos := BitVec.ofNat 16 n } := rfl
@[simp] theorem State.setLzPos_mem (s : State) (n : Nat) : (s.setLzPos n).mem = s.mem := rfl
@[simp] theorem State.setLzPos_node (s : State) (n : Nat) : (s.setLzPos n).node = s.node := rfl
@[simp] theorem State.setLzPos_lut (s : State) (n : Nat) : (s.setLzPos n).lut = s.lut := rfl
@[simp] theorem State.setLzPos_hwin (s : State) (n : Nat) : (s.setLzPos n).hwin = s.hwin := rfl
@[simp] theorem State.setLzPos_lwin (s : State) (n : Nat) : (s.setLzPos n).lwin = s.lwin := rfl
@[simp] theorem State.setLzPos_pending (s : State) (n : Nat) : (s.setLzPos n).pending = s.pending := rfl
@[simp] theorem State.setLzPos_params (s : State) (n : Nat) : (s.setLzPos n).params = s.params := rfl
@[simp] theorem State.setLzPos_agenda (s : State) (n : Nat) : (s.setLzPos n).agenda = s.agenda := rfl
@[simp] theorem State.setLzPos_resp (s : State) (n : Nat) : (s.setLzPos n).resp = s.resp := rfl
@[simp] theorem State.setLzPos_draws (s : State) (n : Nat) : (s.setLzPos n).draws = s.draws := rfl
@[simp] theorem State.setLzPos_busErrs (s : State) (n : Nat) : (s.setLzPos n).busErrs = s.busErrs := rfl
@[simp] theorem State.setLzPos_trace (s : State) (n : Nat) : (s.setLzPos n).trace = s.trace := rfl

/-! `setWalker` -/

@[simp] theorem State.setWalker_csr (s : State) (x : BitVec 9) (n : Nat) :
    (s.setWalker x n).csr = { s.csr with decNode := x, decLen := BitVec.ofNat 9 n } := rfl
@[simp] theorem State.setWalker_mem (s : State) (x : BitVec 9) (n : Nat) : (s.setWalker x n).mem = s.mem := rfl
@[simp] theorem State.setWalker_node (s : State) (x : BitVec 9) (n : Nat) : (s.setWalker x n).node = s.node := rfl
@[simp] theorem State.setWalker_lut (s : State) (x : BitVec 9) (n : Nat) : (s.setWalker x n).lut = s.lut := rfl
@[simp] theorem State.setWalker_hwin (s : State) (x : BitVec 9) (n : Nat) : (s.setWalker x n).hwin = s.hwin := rfl
@[simp] theorem State.setWalker_lwin (s : State) (x : BitVec 9) (n : Nat) : (s.setWalker x n).lwin = s.lwin := rfl
@[simp] theorem State.setWalker_pending (s : State) (x : BitVec 9) (n : Nat) : (s.setWalker x n).pending = s.pending := rfl
@[simp] theorem State.setWalker_params (s : State) (x : BitVec 9) (n : Nat) : (s.setWalker x n).params = s.params := rfl
@[simp] theorem State.setWalker_agenda (s : State) (x : BitVec 9) (n : Nat) : (s.setWalker x n).agenda = s.agenda := rfl
@[simp] theorem State.setWalker_resp (s : State) (x : BitVec 9) (n : Nat) : (s.setWalker x n).resp = s.resp := rfl
@[simp] theorem State.setWalker_draws (s : State) (x : BitVec 9) (n : Nat) : (s.setWalker x n).draws = s.draws := rfl
@[simp] theorem State.setWalker_busErrs (s : State) (x : BitVec 9) (n : Nat) : (s.setWalker x n).busErrs = s.busErrs := rfl
@[simp] theorem State.setWalker_trace (s : State) (x : BitVec 9) (n : Nat) : (s.setWalker x n).trace = s.trace := rfl

/-! `walkerToRoot` -/

@[simp] theorem State.walkerToRoot_csr (s : State) :
    (s.walkerToRoot).csr = { s.csr with decNode := s.csr.root, decLen := 0 } := rfl
@[simp] theorem State.walkerToRoot_mem (s : State) : (s.walkerToRoot).mem = s.mem := rfl
@[simp] theorem State.walkerToRoot_node (s : State) : (s.walkerToRoot).node = s.node := rfl
@[simp] theorem State.walkerToRoot_lut (s : State) : (s.walkerToRoot).lut = s.lut := rfl
@[simp] theorem State.walkerToRoot_hwin (s : State) : (s.walkerToRoot).hwin = s.hwin := rfl
@[simp] theorem State.walkerToRoot_lwin (s : State) : (s.walkerToRoot).lwin = s.lwin := rfl
@[simp] theorem State.walkerToRoot_pending (s : State) : (s.walkerToRoot).pending = s.pending := rfl
@[simp] theorem State.walkerToRoot_params (s : State) : (s.walkerToRoot).params = s.params := rfl
@[simp] theorem State.walkerToRoot_agenda (s : State) : (s.walkerToRoot).agenda = s.agenda := rfl
@[simp] theorem State.walkerToRoot_resp (s : State) : (s.walkerToRoot).resp = s.resp := rfl
@[simp] theorem State.walkerToRoot_draws (s : State) : (s.walkerToRoot).draws = s.draws := rfl
@[simp] theorem State.walkerToRoot_busErrs (s : State) : (s.walkerToRoot).busErrs = s.busErrs := rfl
@[simp] theorem State.walkerToRoot_trace (s : State) : (s.walkerToRoot).trace = s.trace := rfl

/-! `buildTree` -/

@[simp] theorem buildTree_csr (s : State) :
    (buildTree s).csr = { s.csr with
      nsym := BitVec.ofNat 9 s.symCount, nodeCnt := BitVec.ofNat 10 (buildArena s.freq).length,
      root := rootOf (buildArena s.freq), treeValid := true, decNode := rootOf (buildArena s.freq), decLen := 0 } := rfl
@[simp] theorem buildTree_mem (s : State) : (buildTree s).mem = s.mem := rfl
@[simp] theorem buildTree_node (s : State) : (buildTree s).node = buildArena s.freq := rfl
@[simp] theorem buildTree_lut (s : State) : (buildTree s).lut = deriveCodes (buildArena s.freq) s.symCount := rfl
@[simp] theorem buildTree_hwin (s : State) : (buildTree s).hwin = s.hwin := rfl
@[simp] theorem buildTree_lwin (s : State) : (buildTree s).lwin = s.lwin := rfl
@[simp] theorem buildTree_pending (s : State) : (buildTree s).pending = s.pending := rfl
@[simp] theorem buildTree_params (s : State) : (buildTree s).params = s.params := rfl
@[simp] theorem buildTree_agenda (s : State) : (buildTree s).agenda = s.agenda := rfl
@[simp] theorem buildTree_resp (s : State) : (buildTree s).resp = s.resp := rfl
@[simp] theorem buildTree_draws (s : State) : (buildTree s).draws = s.draws := rfl
@[simp] theorem buildTree_busErrs (s : State) : (buildTree s).busErrs = s.busErrs := rfl
@[simp] theorem buildTree_trace (s : State) : (buildTree s).trace = s.trace := rfl

/-! `loadWindows` -/

@[simp] theorem loadWindows_csr (p : Nat) (s : State) : (loadWindows p s).csr = s.csr := rfl
@[simp] theorem loadWindows_mem (p : Nat) (s : State) : (loadWindows p s).mem = s.mem := rfl
@[simp] theorem loadWindows_node (p : Nat) (s : State) : (loadWindows p s).node = s.node := rfl
@[simp] theorem loadWindows_lut (p : Nat) (s : State) : (loadWindows p s).lut = s.lut := rfl
@[simp] theorem loadWindows_pending (p : Nat) (s : State) : (loadWindows p s).pending = s.pending := rfl
@[simp] theorem loadWindows_params (p : Nat) (s : State) : (loadWindows p s).params = s.params := rfl
@[simp] theorem loadWindows_agenda (p : Nat) (s : State) : (loadWindows p s).agenda = s.agenda := rfl
@[simp] theorem loadWindows_resp (p : Nat) (s : State) : (loadWindows p s).resp = s.resp := rfl
@[simp] theorem loadWindows_draws (p : Nat) (s : State) : (loadWindows p s).draws = s.draws := rfl
@[simp] theorem loadWindows_busErrs (p : Nat) (s : State) : (loadWindows p s).busErrs = s.busErrs := rfl
@[simp] theorem loadWindows_trace (p : Nat) (s : State) : (loadWindows p s).trace = s.trace := rfl

/-! `setWin` and `emit`, by the window and by the port -/

@[simp] theorem State.setWin_csr (s : State) (sel : WinSel) (x : Window) : (s.setWin sel x).csr = s.csr := by
  cases sel <;> rfl
@[simp] theorem State.setWin_mem (s : State) (sel : WinSel) (x : Window) : (s.setWin sel x).mem = s.mem := by
  cases sel <;> rfl
@[simp] theorem State.setWin_node (s : State) (sel : WinSel) (x : Window) : (s.setWin sel x).node = s.node := by
  cases sel <;> rfl
@[simp] theorem State.setWin_lut (s : State) (sel : WinSel) (x : Window) : (s.setWin sel x).lut = s.lut := by
  cases sel <;> rfl
@[simp] theorem State.setWin_pending (s : State) (sel : WinSel) (x : Window) : (s.setWin sel x).pending = s.pending := by
  cases sel <;> rfl
@[simp] theorem State.setWin_params (s : State) (sel : WinSel) (x : Window) : (s.setWin sel x).params = s.params := by
  cases sel <;> rfl
@[simp] theorem State.setWin_agenda (s : State) (sel : WinSel) (x : Window) : (s.setWin sel x).agenda = s.agenda := by
  cases sel <;> rfl
@[simp] theorem State.setWin_resp (s : State) (sel : WinSel) (x : Window) : (s.setWin sel x).resp = s.resp := by
  cases sel <;> rfl
@[simp] theorem State.setWin_draws (s : State) (sel : WinSel) (x : Window) : (s.setWin sel x).draws = s.draws := by
  cases sel <;> rfl
@[simp] theorem State.setWin_busErrs (s : State) (sel : WinSel) (x : Window) : (s.setWin sel x).busErrs = s.busErrs := by
  cases sel <;> rfl
@[simp] theorem State.setWin_trace (s : State) (sel : WinSel) (x : Window) : (s.setWin sel x).trace = s.trace := by
  cases sel <;> rfl
@[simp] theorem emit_csr (evs : List TraceEvent) (s : State) : (emit evs s).csr = s.csr := by unfold emit; split <;> rfl
@[simp] theorem emit_mem (evs : List TraceEvent) (s : State) : (emit evs s).mem = s.mem := by unfold emit; split <;> rfl
@[simp] theorem emit_node (evs : List TraceEvent) (s : State) : (emit evs s).node = s.node := by unfold emit; split <;> rfl
@[simp] theorem emit_lut (evs : List TraceEvent) (s : State) : (emit evs s).lut = s.lut := by unfold emit; split <;> rfl
@[simp] theorem emit_hwin (evs : List TraceEvent) (s : State) : (emit evs s).hwin = s.hwin := by unfold emit; split <;> rfl
@[simp] theorem emit_lwin (evs : List TraceEvent) (s : State) : (emit evs s).lwin = s.lwin := by unfold emit; split <;> rfl
@[simp] theorem emit_pending (evs : List TraceEvent) (s : State) :
    (emit evs s).pending = s.pending := by unfold emit; split <;> rfl
@[simp] theorem emit_params (evs : List TraceEvent) (s : State) :
    (emit evs s).params = s.params := by unfold emit; split <;> rfl
@[simp] theorem emit_agenda (evs : List TraceEvent) (s : State) :
    (emit evs s).agenda = s.agenda := by unfold emit; split <;> rfl
@[simp] theorem emit_resp (evs : List TraceEvent) (s : State) : (emit evs s).resp = s.resp := by unfold emit; split <;> rfl
@[simp] theorem emit_draws (evs : List TraceEvent) (s : State) :
    (emit evs s).draws = s.draws := by unfold emit; split <;> rfl
@[simp] theorem emit_busErrs (evs : List TraceEvent) (s : State) :
    (emit evs s).busErrs = s.busErrs := by unfold emit; split <;> rfl

@[simp] theorem State.win_setWin_self (s : State) (sel : WinSel) (x : Window) : (s.setWin sel x).win sel = x := by
  cases sel <;> rfl

theorem State.win_setWin_of_ne (s : State) {sel sel' : WinSel} (h : sel ≠ sel') (x : Window) :
    (s.setWin sel x).win sel' = s.win sel' := by
  cases sel <;> cases sel' <;> first | exact absurd rfl h | rfl

/-- What the port emits where it is fitted (60_exceptions.md R169). -/
theorem emit_trace (evs : List TraceEvent) (s : State) :
    (emit evs s).trace = if s.params.traceEn then s.trace ++ evs else s.trace := by
  unfold emit; split <;> rfl

end Sys2Proof.Machine
end

