-- ==== Sys2Proof/Laws/Cells.lean ====
section
/-! SUPPORT. The laws of the memory cells: read after write in one memory, and that the five memories do not overlap
(20_memory.md R63). -/

namespace Sys2Proof.Machine

/-- Read after write in FREQ. -/
theorem State.freq_setFreq {s : State} (h : Memory.wf s.mem) (i j : Nat) (x : Word) :
    (s.setFreq i x).freq j = if i = j then x else s.freq j := by
  unfold State.freq
  rw [State.setFreq_mem]
  split
  · subst j; exact Memory.readWord_writeWord h _ _
  · exact Memory.readWord_writeWord_of_ne (by simp only [freqAddr, freqBase]; omega) _

theorem State.setFreq_wf {s : State} (h : Memory.wf s.mem) (i : Nat) (x : Word) : Memory.wf (s.setFreq i x).mem :=
  Memory.writeWord_wf h _ _

/-- Read after write in IN. -/
theorem State.inSym_setIn {s : State} (h : Memory.wf s.mem) (i j : Nat) (x : Byte) :
    (s.setIn i x).inSym j = if i = j then x else s.inSym j := by
  unfold State.inSym
  rw [State.setIn_mem, Memory.get_set h]
  simp only [inAddr, inBase, Nat.add_left_cancel_iff, show ∀ a b : Nat, 4 * a = 4 * b ↔ a = b by omega]

theorem State.setIn_wf {s : State} (h : Memory.wf s.mem) (i : Nat) (x : Byte) : Memory.wf (s.setIn i x).mem :=
  Memory.set_wf h _ _

/-- Read after write in OUT. -/
theorem State.outSym_setOut {s : State} (h : Memory.wf s.mem) (i j : Nat) (x : Byte) :
    (s.setOut i x).outSym j = if i = j then x else s.outSym j := by
  unfold State.outSym
  rw [State.setOut_mem, Memory.get_set h]
  simp only [outAddr, outBase, Nat.add_left_cancel_iff, show ∀ a b : Nat, 4 * a = 4 * b ↔ a = b by omega]

theorem State.setOut_wf {s : State} (h : Memory.wf s.mem) (i : Nat) (x : Byte) : Memory.wf (s.setOut i x).mem :=
  Memory.set_wf h _ _

/-- Read after write in TOKBUF. -/
theorem State.tok_setTok {s : State} (h : Memory.wf s.mem) (i j : Nat) (x : Word) :
    (s.setTok i x).tok j = if i = j then x else s.tok j := by
  unfold State.tok
  rw [State.setTok_mem]
  split
  · subst j; exact Memory.readWord_writeWord h _ _
  · exact Memory.readWord_writeWord_of_ne (by simp only [tokAddr, tokBase]; omega) _

theorem State.setTok_wf {s : State} (h : Memory.wf s.mem) (i : Nat) (x : Word) : Memory.wf (s.setTok i x).mem :=
  Memory.writeWord_wf h _ _

/-- Read after write in BITBUF. -/
theorem State.bitWord_setBitWord {s : State} (h : Memory.wf s.mem) (i j : Nat) (x : Word) :
    (s.setBitWord i x).bitWord j = if i = j then x else s.bitWord j := by
  unfold State.bitWord
  rw [State.setBitWord_mem]
  split
  · subst j; exact Memory.readWord_writeWord h _ _
  · exact Memory.readWord_writeWord_of_ne (by simp only [bitAddr, bitBase]; omega) _

theorem State.setBitWord_wf {s : State} (h : Memory.wf s.mem) (i : Nat) (x : Word) : Memory.wf (s.setBitWord i x).mem :=
  Memory.writeWord_wf h _ _

/-- FREQ and IN do not overlap. -/
theorem State.freq_setIn (s : State) {j : Nat} (hj : j < 256) (i : Nat) (x : Byte) :
    (s.setIn i x).freq j = s.freq j := by
  unfold State.freq
  rw [State.setIn_mem]
  exact Memory.readWord_set_of_ne (by simp only [freqAddr, freqBase, inAddr, inBase]; omega) _

/-- FREQ and OUT do not overlap. -/
theorem State.freq_setOut (s : State) {j : Nat} (hj : j < 256) (i : Nat) (x : Byte) :
    (s.setOut i x).freq j = s.freq j := by
  unfold State.freq
  rw [State.setOut_mem]
  exact Memory.readWord_set_of_ne (by simp only [freqAddr, freqBase, outAddr, outBase]; omega) _

/-- FREQ and TOKBUF do not overlap. -/
theorem State.freq_setTok (s : State) {j : Nat} (hj : j < 256) (i : Nat) (x : Word) :
    (s.setTok i x).freq j = s.freq j := by
  unfold State.freq
  rw [State.setTok_mem]
  exact Memory.readWord_writeWord_of_ne (by simp only [freqAddr, freqBase, tokAddr, tokBase]; omega) _

/-- FREQ and BITBUF do not overlap. -/
theorem State.freq_setBitWord (s : State) {j : Nat} (hj : j < 256) (i : Nat) (x : Word) :
    (s.setBitWord i x).freq j = s.freq j := by
  unfold State.freq
  rw [State.setBitWord_mem]
  exact Memory.readWord_writeWord_of_ne (by simp only [freqAddr, freqBase, bitAddr, bitBase]; omega) _

/-- IN and FREQ do not overlap. -/
theorem State.inSym_setFreq (s : State) {i : Nat} (hi : i < 256) (j : Nat) (x : Word) :
    (s.setFreq i x).inSym j = s.inSym j := by
  unfold State.inSym
  rw [State.setFreq_mem]
  exact Memory.get_writeWord_of_ne (by simp only [inAddr, inBase, freqAddr, freqBase]; omega) _

/-- IN and OUT do not overlap. -/
theorem State.inSym_setOut (s : State) {j : Nat} (hj : j < 4096) (i : Nat) (x : Byte) :
    (s.setOut i x).inSym j = s.inSym j := by
  unfold State.inSym
  rw [State.setOut_mem]
  exact Memory.get_set_of_ne (by simp only [inAddr, inBase, outAddr, outBase]; omega) _

/-- IN and TOKBUF do not overlap. -/
theorem State.inSym_setTok (s : State) {j : Nat} (hj : j < 4096) (i : Nat) (x : Word) :
    (s.setTok i x).inSym j = s.inSym j := by
  unfold State.inSym
  rw [State.setTok_mem]
  exact Memory.get_writeWord_of_ne (by simp only [inAddr, inBase, tokAddr, tokBase]; omega) _

/-- IN and BITBUF do not overlap. -/
theorem State.inSym_setBitWord (s : State) {j : Nat} (hj : j < 4096) (i : Nat) (x : Word) :
    (s.setBitWord i x).inSym j = s.inSym j := by
  unfold State.inSym
  rw [State.setBitWord_mem]
  exact Memory.get_writeWord_of_ne (by simp only [inAddr, inBase, bitAddr, bitBase]; omega) _

/-- OUT and FREQ do not overlap. -/
theorem State.outSym_setFreq (s : State) {i : Nat} (hi : i < 256) (j : Nat) (x : Word) :
    (s.setFreq i x).outSym j = s.outSym j := by
  unfold State.outSym
  rw [State.setFreq_mem]
  exact Memory.get_writeWord_of_ne (by simp only [outAddr, outBase, freqAddr, freqBase]; omega) _

/-- OUT and IN do not overlap. -/
theorem State.outSym_setIn (s : State) {i : Nat} (hi : i < 4096) (j : Nat) (x : Byte) :
    (s.setIn i x).outSym j = s.outSym j := by
  unfold State.outSym
  rw [State.setIn_mem]
  exact Memory.get_set_of_ne (by simp only [outAddr, outBase, inAddr, inBase]; omega) _

/-- OUT and TOKBUF do not overlap. -/
theorem State.outSym_setTok (s : State) {j : Nat} (hj : j < 4096) (i : Nat) (x : Word) :
    (s.setTok i x).outSym j = s.outSym j := by
  unfold State.outSym
  rw [State.setTok_mem]
  exact Memory.get_writeWord_of_ne (by simp only [outAddr, outBase, tokAddr, tokBase]; omega) _

/-- OUT and BITBUF do not overlap. -/
theorem State.outSym_setBitWord (s : State) {j : Nat} (hj : j < 4096) (i : Nat) (x : Word) :
    (s.setBitWord i x).outSym j = s.outSym j := by
  unfold State.outSym
  rw [State.setBitWord_mem]
  exact Memory.get_writeWord_of_ne (by simp only [outAddr, outBase, bitAddr, bitBase]; omega) _

/-- TOKBUF and FREQ do not overlap. -/
theorem State.tok_setFreq (s : State) {i : Nat} (hi : i < 256) (j : Nat) (x : Word) :
    (s.setFreq i x).tok j = s.tok j := by
  unfold State.tok
  rw [State.setFreq_mem]
  exact Memory.readWord_writeWord_of_ne (by simp only [tokAddr, tokBase, freqAddr, freqBase]; omega) _

/-- TOKBUF and IN do not overlap. -/
theorem State.tok_setIn (s : State) {i : Nat} (hi : i < 4096) (j : Nat) (x : Byte) :
    (s.setIn i x).tok j = s.tok j := by
  unfold State.tok
  rw [State.setIn_mem]
  exact Memory.readWord_set_of_ne (by simp only [tokAddr, tokBase, inAddr, inBase]; omega) _

/-- TOKBUF and OUT do not overlap. -/
theorem State.tok_setOut (s : State) {i : Nat} (hi : i < 4096) (j : Nat) (x : Byte) :
    (s.setOut i x).tok j = s.tok j := by
  unfold State.tok
  rw [State.setOut_mem]
  exact Memory.readWord_set_of_ne (by simp only [tokAddr, tokBase, outAddr, outBase]; omega) _

/-- TOKBUF and BITBUF do not overlap. -/
theorem State.tok_setBitWord (s : State) {j : Nat} (hj : j < 4096) (i : Nat) (x : Word) :
    (s.setBitWord i x).tok j = s.tok j := by
  unfold State.tok
  rw [State.setBitWord_mem]
  exact Memory.readWord_writeWord_of_ne (by simp only [tokAddr, tokBase, bitAddr, bitBase]; omega) _

/-- BITBUF and FREQ do not overlap. -/
theorem State.bitWord_setFreq (s : State) {i : Nat} (hi : i < 256) (j : Nat) (x : Word) :
    (s.setFreq i x).bitWord j = s.bitWord j := by
  unfold State.bitWord
  rw [State.setFreq_mem]
  exact Memory.readWord_writeWord_of_ne (by simp only [bitAddr, bitBase, freqAddr, freqBase]; omega) _

/-- BITBUF and IN do not overlap. -/
theorem State.bitWord_setIn (s : State) {i : Nat} (hi : i < 4096) (j : Nat) (x : Byte) :
    (s.setIn i x).bitWord j = s.bitWord j := by
  unfold State.bitWord
  rw [State.setIn_mem]
  exact Memory.readWord_set_of_ne (by simp only [bitAddr, bitBase, inAddr, inBase]; omega) _

/-- BITBUF and OUT do not overlap. -/
theorem State.bitWord_setOut (s : State) {i : Nat} (hi : i < 4096) (j : Nat) (x : Byte) :
    (s.setOut i x).bitWord j = s.bitWord j := by
  unfold State.bitWord
  rw [State.setOut_mem]
  exact Memory.readWord_set_of_ne (by simp only [bitAddr, bitBase, outAddr, outBase]; omega) _

/-- BITBUF and TOKBUF do not overlap. -/
theorem State.bitWord_setTok (s : State) {i : Nat} (hi : i < 4096) (j : Nat) (x : Word) :
    (s.setTok i x).bitWord j = s.bitWord j := by
  unfold State.bitWord
  rw [State.setTok_mem]
  exact Memory.readWord_writeWord_of_ne (by simp only [bitAddr, bitBase, tokAddr, tokBase]; omega) _

/-- `FREQ[s] <- 0` for every s. -/
theorem State.freq_clearFreq (s : State) {j : Nat} (hj : j < 256) : s.clearFreq.freq j = 0 :=
  Memory.readWord_zero fun k hk => by
    rw [State.clearFreq_mem, Memory.get_clearRange, if_pos (by simp only [freqAddr, freqBase, Config.alphabet]; omega)]

theorem State.clearFreq_wf {s : State} (h : Memory.wf s.mem) : Memory.wf s.clearFreq.mem := Memory.clearRange_wf h _ _

/-- Clearing FREQ leaves every byte outside it. -/
theorem State.get_clearFreq (s : State) {a : Nat} (ha : a < 0x1000 ∨ 0x1400 ≤ a) :
    Memory.get s.clearFreq.mem a = Memory.get s.mem a := by
  rw [State.clearFreq_mem, Memory.get_clearRange, if_neg (by simp only [freqBase, Config.alphabet]; omega)]

/-- Every cell outside FREQ reads as before when every byte outside FREQ does. -/
theorem State.cells_of_get {s t : State} (h : ∀ a, 0x1400 ≤ a → Memory.get t.mem a = Memory.get s.mem a) (i : Nat) :
    t.inSym i = s.inSym i ∧ t.outSym i = s.outSym i ∧ t.tok i = s.tok i ∧ t.bitWord i = s.bitWord i :=
  ⟨h _ (by simp only [inAddr, inBase]; omega), h _ (by simp only [outAddr, outBase]; omega),
    Memory.readWord_congr fun k _ => h _ (by simp only [tokAddr, tokBase]; omega),
    Memory.readWord_congr fun k _ => h _ (by simp only [bitAddr, bitBase]; omega)⟩

end Sys2Proof.Machine
end

