-- ==== Sys2Proof/Laws/Bits.lean ====
section
/-! SUPPORT. What the bit-stream writer does to the bit sequence and to everything else (43_huffman_codec.md R129, R130). -/

namespace Sys2Proof.Machine

/-- One bit replaced in a word. -/
theorem getLsbD_replaceBit (w : Word) (b : Bool) {k j : Nat} (hk : k < 32) :
    ((w &&& ~~~(1#32 <<< k)) ||| ((if b then 1#32 else 0#32) <<< k)).getLsbD j = if k = j then b else w.getLsbD j := by
  rw [BitVec.getLsbD_or, BitVec.getLsbD_and, BitVec.getLsbD_not, BitVec.getLsbD_shiftLeft, BitVec.getLsbD_shiftLeft]
  by_cases hj : j < 32
  · by_cases e : k = j
    · subst e; cases b <;> simp [hk]
    · rw [if_neg e]
      rcases Nat.lt_or_gt_of_ne e with h | h
      · have h1 : (1#32).getLsbD (j - k) = false := by
          rw [BitVec.getLsbD_one]; simp; omega
        have h2 : (if b then 1#32 else 0#32).getLsbD (j - k) = false := by cases b <;> simp [h1]
        simp [hj, h1, h2]
      · simp [hj, h]
  · have e : k ≠ j := by omega
    rw [if_neg e, BitVec.getLsbD_of_ge w j (by omega)]
    simp [hj]

theorem putBit_wf {s : State} (h : Memory.wf s.mem) (i : Nat) (b : Bool) : Memory.wf (putBit i b s).mem :=
  State.setBitWord_wf h _ _

/-- Read after write of one bit. -/
theorem bitRead_putBit {s : State} (h : Memory.wf s.mem) (i j : Nat) (b : Bool) :
    bitRead (putBit i b s) j = if i = j then b else bitRead s j := by
  unfold bitRead putBit
  rw [State.bitWord_setBitWord h]
  by_cases hw : i / 32 = j / 32
  · rw [if_pos hw, getLsbD_replaceBit _ _ (Nat.mod_lt _ (by omega)), hw]
    by_cases e : i = j
    · simp [e]
    · rw [if_neg e, if_neg (by omega)]
  · rw [if_neg hw, if_neg (by rintro rfl; exact hw rfl)]

theorem bitWrite_succ (pos : Nat) (code : BitVec 255) (n : Nat) (s : State) :
    bitWrite pos code (n + 1) s = putBit (pos + n) (code.getLsbD n) (bitWrite pos code n s) := by
  simp [bitWrite, List.range_succ]

theorem bitWrite_wf {s : State} (h : Memory.wf s.mem) (pos : Nat) (code : BitVec 255) (n : Nat) :
    Memory.wf (bitWrite pos code n s).mem := by
  induction n with
  | zero => exact h
  | succ n ih => rw [bitWrite_succ]; exact putBit_wf ih _ _

/-- The writer stores the code bits at [pos, pos + len) and leaves every other bit (43_huffman_codec.md R130). -/
theorem bitRead_bitWrite {s : State} (h : Memory.wf s.mem) (pos : Nat) (code : BitVec 255) (n j : Nat) :
    bitRead (bitWrite pos code n s) j = if pos ≤ j ∧ j < pos + n then code.getLsbD (j - pos) else bitRead s j := by
  induction n with
  | zero =>
    rw [if_neg (by omega)]; rfl
  | succ n ih =>
    rw [bitWrite_succ, bitRead_putBit (bitWrite_wf h _ _ _), ih]
    by_cases e : pos + n = j
    · rw [if_pos e, if_pos (by omega), show j - pos = n by omega]
    · rw [if_neg e]
      by_cases c : pos ≤ j ∧ j < pos + n
      · rw [if_pos c, if_pos (by omega)]
      · rw [if_neg c, if_neg (by omega)]

/-- The writer changes BITBUF alone: every other field, and every byte below BITBUF. -/
theorem bitWrite_frame (pos : Nat) (code : BitVec 255) (n : Nat) (s : State) :
    (bitWrite pos code n s).withMem s.mem = s ∧
      ∀ a, a < bitBase → Memory.get (bitWrite pos code n s).mem a = Memory.get s.mem a := by
  induction n with
  | zero => exact ⟨rfl, fun _ _ => rfl⟩
  | succ n ih =>
    rw [bitWrite_succ]
    refine ⟨ih.1, fun a ha => ?_⟩
    rw [← ih.2 a ha]
    exact Memory.get_writeWord_of_ne (by simp only [bitAddr, bitBase] at *; omega) _

end Sys2Proof.Machine
end

