-- ==== Sys2Proof/Laws/Bus.lean ====
section
/-! SUPPORT. What a step can do: the core's turn, an accepted or rejected host access, a reset. -/

namespace Sys2Proof.Machine

variable {s : State} {off : Nat}

theorem Params.offset_base (p : Params) (h : off < Config.windowBytes) : p.offset (p.base + off) = some off := by
  unfold Params.offset
  rw [if_pos ⟨Nat.le_add_right _ _, Nat.add_lt_add_left h _⟩, Nat.add_sub_cancel_left]

theorem accepted_iff {a : Access} : accepted a off = true ↔ a.size = .four ∧ off % 4 = 0 ∧ target off ≠ .reserved := by
  simp [accepted, and_assoc]

/-- The core's turn, by what is pending. -/
theorem coreTurn_cases (s : State) :
    (s.pending = .idle ∧ coreTurn s = .next s) ∨ (s.pending = .init ∧ coreTurn s = .next (initStep s)) ∨
      (∃ w i, s.pending = .cmd w ∧ decode w = .ok i ∧ coreTurn s = exec i s) ∨
      ∃ w e, s.pending = .cmd w ∧ decode w = .error e ∧ coreTurn s = execIllegal s := by
  unfold coreTurn
  cases h : s.pending with
  | idle => exact .inl ⟨rfl, rfl⟩
  | init => exact .inr (.inl ⟨rfl, rfl⟩)
  | cmd w =>
    cases d : decode w with
    | ok i => exact .inr (.inr (.inl ⟨w, i, rfl, d, by simp [d]⟩))
    | error e => exact .inr (.inr (.inr ⟨w, e, rfl, d, by simp [d]⟩))

/-- One step, by the next event. -/
theorem step_cases (s : State) :
    (s.agenda = [] ∧ step s = coreTurn s) ∨
      (∃ rest, s.agenda = .core :: rest ∧ step s = coreTurn { s with agenda := rest }) ∨
      (∃ rest, s.agenda = .hardReset :: rest ∧ step s = .next (resetEntry { s with agenda := rest })) ∨
      ∃ a rest, s.agenda = .bus a :: rest ∧ step s = busAccess a { s with agenda := rest } := by
  unfold step
  cases h : s.agenda with
  | nil => exact .inl ⟨rfl, rfl⟩
  | cons e rest =>
    cases e with
    | core => exact .inr (.inl ⟨rest, rfl, rfl⟩)
    | hardReset => exact .inr (.inr (.inl ⟨rest, rfl, rfl⟩))
    | bus a => exact .inr (.inr (.inr ⟨a, rest, rfl, rfl⟩))

/-- One transaction: not the core's, read, written, or a bus error. -/
theorem busAccess_cases (a : Access) (s : State) :
    (s.params.offset a.addr = none ∧ busAccess a s = .next { s with resp := none }) ∨
      ∃ off, s.params.offset a.addr = some off ∧
        ((accepted a off = true ∧ a.kind = .read ∧ busAccess a s = .next (busRead (target off) s)) ∨
          (accepted a off = true ∧ a.kind = .write ∧ busAccess a s = .next (busWrite (target off) a.wdata s)) ∨
          (accepted a off = false ∧ busAccess a s = busError a s)) := by
  unfold busAccess
  cases h : s.params.offset a.addr with
  | none => exact .inl ⟨rfl, rfl⟩
  | some off =>
    refine .inr ⟨off, rfl, ?_⟩
    cases hacc : accepted a off with
    | false => exact .inr (.inr ⟨rfl, by simp [hacc]⟩)
    | true =>
      cases hk : a.kind with
      | read => exact .inl ⟨rfl, rfl, by simp [hacc]⟩
      | write => exact .inr (.inl ⟨rfl, rfl, by simp [hacc]⟩)

/-- An accepted write: SRST, dropped while busy, or the target's rule while idle. -/
theorem busWrite_cases (t : Target) (w : Word) (s : State) :
    (isSoftReset t w = true ∧ busWrite t w s = { resetEntry s with resp := some .written }) ∨
      (isSoftReset t w = false ∧ s.pending ≠ .idle ∧
        busWrite t w s = { s with csr := { s.csr with overrun := true }, resp := some .written }) ∨
      (isSoftReset t w = false ∧ s.pending = .idle ∧
        busWrite t w s = { s.writeTarget w t with resp := some .written }) := by
  unfold busWrite
  cases h : isSoftReset t w with
  | true => exact .inl ⟨rfl, rfl⟩
  | false =>
    by_cases hp : s.pending = .idle
    · exact .inr (.inr ⟨rfl, hp, by simp [State.busy, hp]⟩)
    · exact .inr (.inl ⟨rfl, hp, by simp [State.busy, hp]⟩)

/-- An accepted read: the value, or a free draw while busy. -/
theorem busRead_cases (t : Target) (s : State) :
    busRead t s = { s with resp := some (.data (s.readTarget t)) } ∨
      (s.pending ≠ .idle ∧ readableBusy t = false ∧
        busRead t s = { s with resp := some (.data (Config.busyRead s.draws)), draws := s.draws + 1 }) := by
  unfold busRead
  split
  · rename_i h
    simp only [State.busy, Bool.and_eq_true, bne_iff_ne, ne_eq, Bool.not_eq_true'] at h
    exact .inr ⟨h.1, h.2, rfl⟩
  · exact .inl rfl

end Sys2Proof.Machine
end

