-- ==== Sys2Proof/Laws/Loops.lean ====
section
/-! SUPPORT. What the element loop and the completion record can do, said once. -/

namespace Sys2Proof.Machine

section
variable {f : Nat → State → Except Err State}

@[simp] theorem forElems_nil (s : State) : forElems f [] s = (s, none) := rfl

theorem forElems_cons (i : Nat) (is : List Nat) (s : State) :
    forElems f (i :: is) s = match f i s with | .ok s' => forElems f is s' | .error e => (s, some e) := rfl

/-- What every element keeps, the loop keeps, whether it ends early or not (40_control.md R105). -/
theorem forElems_keeps {P : State → Prop} {is : List Nat} {s : State}
    (step : ∀ i ∈ is, ∀ s s', P s → f i s = .ok s' → P s') (h : P s) : P (forElems f is s).1 := by
  induction is generalizing s with
  | nil => exact h
  | cons i is ih =>
    rw [forElems_cons]
    split
    · rename_i s' he
      exact ih (fun j hj => step j (List.mem_cons_of_mem _ hj)) (step i (by simp) s s' h he)
    · exact h

/-- A loop that ends early stopped at one of its elements, in the state the elements before it left (40_control.md R105). -/
theorem forElems_error {is : List Nat} {s t : State} {e : Err} (h : forElems f is s = (t, some e)) :
    ∃ pre i post, is = pre ++ i :: post ∧ forElems f pre s = (t, none) ∧ f i t = .error e := by
  induction is generalizing s with
  | nil => simp at h
  | cons i is ih =>
    rw [forElems_cons] at h
    split at h
    · rename_i s' he
      obtain ⟨pre, j, post, rfl, h1, h2⟩ := ih h
      exact ⟨i :: pre, j, post, rfl, by rw [forElems_cons, he]; exact h1, h2⟩
    · rename_i e' he
      obtain ⟨rfl, he2⟩ := Prod.mk.inj h
      obtain rfl := Option.some.inj he2
      exact ⟨[], i, is, rfl, rfl, he⟩

/-- A loop over `pre` and then `post` runs `post` where `pre` ended without an error. -/
theorem forElems_append {pre post : List Nat} {s t : State} (h : forElems f pre s = (t, none)) :
    forElems f (pre ++ post) s = forElems f post t := by
  induction pre generalizing s with
  | nil => obtain ⟨rfl, -⟩ := Prod.mk.inj h; rfl
  | cons i is ih =>
    rw [forElems_cons] at h
    rw [List.cons_append, forElems_cons]
    split at h
    · rename_i s' he
      exact ih h
    · simp at h

/-- A loop none of whose elements can raise, from the states it reaches, ends without an error. -/
theorem forElems_ok {P : State → Prop} {is : List Nat} {s : State}
    (step : ∀ i ∈ is, ∀ s, P s → ∃ s', f i s = .ok s' ∧ P s') (h : P s) :
    ∃ t, forElems f is s = (t, none) ∧ P t := by
  induction is generalizing s with
  | nil => exact ⟨s, rfl, h⟩
  | cons i is ih =>
    obtain ⟨s', he, hp⟩ := step i (by simp) s h
    obtain ⟨t, ht, hpt⟩ := ih (fun j hj => step j (List.mem_cons_of_mem _ hj)) hp
    exact ⟨t, by rw [forElems_cons, he]; exact ht, hpt⟩

end

theorem complete_ok {s : State} {v : Nat} : complete ⟨s, .ok v⟩ = completeOk v s := rfl

theorem complete_error {s : State} {e : Err} : complete ⟨s, .error e⟩ = completeErr e s := rfl

/-- Every field that the completion record does not write is what `Exec` left there (40_control.md R104). -/
theorem complete_frame (r : ExecResult) :
    (complete r).mem = r.st.mem ∧ (complete r).node = r.st.node ∧ (complete r).lut = r.st.lut ∧
      (complete r).hwin = r.st.hwin ∧ (complete r).lwin = r.st.lwin ∧ (complete r).pending = .idle ∧
      (complete r).params = r.st.params ∧ (complete r).agenda = r.st.agenda ∧ (complete r).resp = r.st.resp ∧
      (complete r).draws = r.st.draws ∧ (complete r).busErrs = r.st.busErrs ∧ (complete r).trace = r.st.trace := by
  obtain ⟨s, res⟩ := r
  cases res <;> exact ⟨rfl, rfl, rfl, rfl, rfl, rfl, rfl, rfl, rfl, rfl, rfl, rfl⟩

/-- The number of an error kind is 1 to 7 (60_exceptions.md R156). -/
theorem ErrCode.num_range (c : ErrCode) : 1 ≤ c.num.toNat ∧ c.num.toNat ≤ 7 := by cases c <;> decide

end Sys2Proof.Machine
end

