-- ==== Sys2Proof/Laws/Windows.lean ====
section
/-! SUPPORT. What the window primitives can do (44_window.md R140, R141). -/

namespace Sys2Proof.Machine

section
variable {x : Window}

@[simp] theorem Window.push_cap (b : Byte) : (x.push b).1.cap = x.cap := by unfold Window.push; split <;> rfl

@[simp] theorem Window.pushMany_nil : x.pushMany [] = (x, 0) := rfl

@[simp] theorem Window.pushMany_cap (xs : List Byte) : (x.pushMany xs).1.cap = x.cap := by
  induction xs generalizing x with
  | nil => rfl
  | cons b t ih => simp only [Window.pushMany, ih, Window.push_cap]

@[simp] theorem Window.evict_cap (c : Nat) : (x.evict c).1.cap = x.cap := rfl

/-- A push keeps the last `cap` symbols of the sequence with the new one appended. -/
theorem Window.push_seq (h : x.seq.length ≤ x.cap) (b : Byte) :
    (x.push b).1.seq = (x.seq ++ [b]).drop ((x.seq ++ [b]).length - x.cap) := by
  unfold Window.push
  split
  · rename_i hc
    rw [show (x.seq ++ [b]).length - x.cap = 1 by simp at hc ⊢; omega]
  · rename_i hc
    rw [Nat.sub_eq_zero_of_le (Nat.le_of_not_lt hc), List.drop_zero]

/-- Pushing many keeps the last `cap` symbols of the old sequence and the new ones (44_window.md R144). -/
theorem Window.pushMany_seq (h : x.seq.length ≤ x.cap) (xs : List Byte) :
    (x.pushMany xs).1.seq = (x.seq ++ xs).drop ((x.seq ++ xs).length - x.cap) := by
  induction xs generalizing x with
  | nil => simp [Nat.sub_eq_zero_of_le h]
  | cons b t ih =>
    have hp : (x.push b).1.seq.length ≤ (x.push b).1.cap := by
      rw [Window.push_seq h, Window.push_cap, List.length_drop]; omega
    rw [Window.pushMany, ih hp, Window.push_cap, Window.push_seq h]
    generalize hk : (x.seq ++ [b]).length - x.cap = k
    have hkl : k ≤ (x.seq ++ [b]).length := by omega
    rw [← List.drop_append_of_le_length hkl, List.drop_drop, List.append_assoc, List.singleton_append]
    congr 1
    simp at hk ⊢
    omega

/-- The number evicted by pushing many (44_window.md R144). -/
theorem Window.pushMany_count (h : x.seq.length ≤ x.cap) (xs : List Byte) :
    (x.pushMany xs).2 = x.seq.length + xs.length - x.cap := by
  induction xs generalizing x with
  | nil => simp [Nat.sub_eq_zero_of_le h]
  | cons b t ih =>
    have hp : (x.push b).1.seq.length ≤ (x.push b).1.cap := by
      rw [Window.push_seq h, Window.push_cap, List.length_drop]; omega
    have hc : (x.push b).2.1 = x.seq.length + 1 - x.cap := by
      unfold Window.push
      split <;> rename_i hc <;> simp at hc ⊢ <;> omega
    rw [Window.pushMany]
    simp only
    rw [ih hp, Window.push_cap, Window.push_seq h, hc]
    simp
    omega

/-- Every primitive keeps the window invariant (44_window.md R140). -/
theorem Window.pushMany_le (h : x.seq.length ≤ x.cap) (xs : List Byte) :
    (x.pushMany xs).1.seq.length ≤ (x.pushMany xs).1.cap := by
  rw [Window.pushMany_seq h, Window.pushMany_cap, List.length_drop]; omega

theorem Window.evict_le (h : x.seq.length ≤ x.cap) (c : Nat) : (x.evict c).1.seq.length ≤ (x.evict c).1.cap := by
  simp only [Window.evict, List.length_drop]; omega

/-- A window constructed and filled holds the last `c` symbols pushed. -/
theorem Window.construct_pushMany (c : Nat) (xs : List Byte) :
    ((Window.construct c).pushMany xs).1 = ⟨c, xs.drop (xs.length - c)⟩ := by
  have h := Window.pushMany_seq (x := Window.construct c) (by simp [Window.construct]) xs
  have hc : ((Window.construct c).pushMany xs).1.cap = c := Window.pushMany_cap xs
  generalize ((Window.construct c).pushMany xs).1 = y at h hc
  obtain ⟨cap, seq⟩ := y
  simp only [Window.construct, List.nil_append] at h hc
  rw [h, hc]

end

theorem slice_length (a b : Nat) : (slice a b).length = b - a := by simp [slice]

theorem State.inSlice_length (s : State) (a b : Nat) : (s.inSlice a b).length = b - a := by
  simp [State.inSlice, slice_length]

theorem State.outSlice_length (s : State) (a b : Nat) : (s.outSlice a b).length = b - a := by
  simp [State.outSlice, slice_length]

end Sys2Proof.Machine
end

