-- ==== Sys2Proof/Laws/Lzss.lean ====
section
/-! SUPPORT. What the matcher, the copy loop and the token replay can do (45_lzss.md R148, R149). -/

namespace Sys2Proof.Machine

/-- The extension stops at its bound or at the first difference (45_lzss.md R149). -/
theorem extendMatch_spec (f : Nat → Byte) (o p left l : Nat) :
    l ≤ extendMatch f o p left l ∧ extendMatch f o p left l ≤ l + left ∧
      (∀ j, l ≤ j → j < extendMatch f o p left l → f (o + j) = f (p + j)) ∧
      (extendMatch f o p left l < l + left →
        f (o + extendMatch f o p left l) ≠ f (p + extendMatch f o p left l)) := by
  induction left generalizing l with
  | zero => exact ⟨le_refl _, le_refl _, fun j h1 h2 => absurd h2 (by simp [extendMatch]; omega), fun h => absurd h (by simp [extendMatch])⟩
  | succ left ih =>
    unfold extendMatch
    split
    · rename_i he
      obtain ⟨h1, h2, h3, h4⟩ := ih (l + 1)
      refine ⟨by omega, by omega, fun j hj hlt => ?_, fun hlt => h4 (by omega)⟩
      rcases Nat.eq_or_lt_of_le hj with rfl | hj
      · exact he
      · exact h3 j hj hlt
    · rename_i he
      exact ⟨le_refl _, by omega, fun j h1 h2 => by omega, fun _ => he⟩

/-- The scan keeps its best so far unless an offset gives a strictly longer match; of the offsets it then names the first
that reaches the longest match (45_lzss.md R149). -/
theorem scanOffsets_spec (f : Nat → Byte) (p maxL : Nat) (os : List Nat) (best : Nat × Nat) :
    best.1 ≤ (scanOffsets f p maxL os best).1 ∧
      (∀ o ∈ os, extendMatch f o p maxL 0 ≤ (scanOffsets f p maxL os best).1) ∧
      (scanOffsets f p maxL os best = best ∨
        ∃ pre o post, os = pre ++ o :: post ∧ scanOffsets f p maxL os best = (extendMatch f o p maxL 0, o) ∧
          best.1 < extendMatch f o p maxL 0 ∧ ∀ o' ∈ pre, extendMatch f o' p maxL 0 < extendMatch f o p maxL 0) := by
  induction os generalizing best with
  | nil => exact ⟨le_refl _, by simp, .inl rfl⟩
  | cons o t ih =>
    simp only [scanOffsets]
    split
    · rename_i hlt
      obtain ⟨h1, h2, h3⟩ := ih (extendMatch f o p maxL 0, o)
      refine ⟨by omega, ?_, .inr ?_⟩
      · intro o' ho'
        rcases List.mem_cons.1 ho' with rfl | ho'
        · exact h1
        · exact h2 o' ho'
      · rcases h3 with h3 | ⟨pre, o', post, rfl, h4, h5, h6⟩
        · exact ⟨[], o, t, rfl, h3, hlt, by simp⟩
        · refine ⟨o :: pre, o', post, rfl, h4, Nat.lt_trans hlt h5, fun x hx => ?_⟩
          rcases List.mem_cons.1 hx with rfl | hx
          · exact h5
          · exact h6 x hx
    · rename_i hlt
      obtain ⟨h1, h2, h3⟩ := ih best
      refine ⟨h1, ?_, ?_⟩
      · intro o' ho'
        rcases List.mem_cons.1 ho' with rfl | ho'
        · omega
        · exact h2 o' ho'
      · rcases h3 with h3 | ⟨pre, o', post, rfl, h4, h5, h6⟩
        · exact .inl h3
        · refine .inr ⟨o :: pre, o', post, rfl, h4, h5, fun x hx => ?_⟩
          rcases List.mem_cons.1 hx with rfl | hx
          · omega
          · exact h6 x hx

/-- The fields of a token word (45_lzss.md R147). -/
theorem tokWord_fields {d l : Nat} (c : Byte) (hd : d < 4096) (hl : l < 256) :
    tokDist (tokWord d l c) = d ∧ tokLength (tokWord d l c) = l ∧ tokNext (tokWord d l c) = c ∧
      tokReserved (tokWord d l c) = 0 := by
  have bd : ∀ i, 12 ≤ i → (BitVec.ofNat 32 d).getLsbD i = false := fun i hi => by
    rw [BitVec.getLsbD_ofNat, Nat.testBit_lt_two_pow (Nat.lt_of_lt_of_le hd (Nat.pow_le_pow_right (n := 2) (by omega) hi))]; simp
  have bl : ∀ i, 8 ≤ i → (BitVec.ofNat 32 l).getLsbD i = false := fun i hi => by
    rw [BitVec.getLsbD_ofNat, Nat.testBit_lt_two_pow (Nat.lt_of_lt_of_le hl (Nat.pow_le_pow_right (n := 2) (by omega) hi))]; simp
  have bc : ∀ i, 8 ≤ i → c.getLsbD i = false := fun i hi => BitVec.getLsbD_of_ge c i hi
  have hD : (tokWord d l c).extractLsb' 16 12 = BitVec.ofNat 12 d := by
    apply BitVec.eq_of_getLsbD_eq
    intro i hi
    simp only [tokWord, BitVec.getLsbD_extractLsb', BitVec.getLsbD_or, BitVec.getLsbD_shiftLeft, BitVec.getLsbD_setWidth]
    rw [bl (16 + i - 8) (by omega), bc (16 + i) (by omega), show 16 + i - 16 = i by omega, BitVec.getLsbD_ofNat,
      BitVec.getLsbD_ofNat]
    simp [hi, show 16 + i < 32 by omega, show i < 32 by omega, show ¬ 16 + i < 16 by omega]
  have hL : (tokWord d l c).extractLsb' 8 8 = BitVec.ofNat 8 l := by
    apply BitVec.eq_of_getLsbD_eq
    intro i hi
    simp only [tokWord, BitVec.getLsbD_extractLsb', BitVec.getLsbD_or, BitVec.getLsbD_shiftLeft, BitVec.getLsbD_setWidth]
    rw [bc (8 + i) (by omega), show 8 + i - 8 = i by omega]
    simp only [BitVec.getLsbD_ofNat, hi, show 8 + i < 32 by omega, show i < 32 by omega, show 8 + i < 16 by omega, show ¬ 8 + i < 8 by omega, decide_true, decide_false, Bool.not_true,
      Bool.not_false, Bool.and_false, Bool.false_and, Bool.true_and, Bool.false_or, Bool.or_false]
  refine ⟨?_, ?_, ?_, ?_⟩
  · unfold tokDist; rw [hD, BitVec.toNat_ofNat]; omega
  · unfold tokLength; rw [hL, BitVec.toNat_ofNat]; omega
  · apply BitVec.eq_of_getLsbD_eq
    intro i hi
    simp only [tokNext, tokWord, BitVec.getLsbD_extractLsb', BitVec.getLsbD_or, BitVec.getLsbD_shiftLeft,
      BitVec.getLsbD_setWidth]
    simp [hi, show i < 32 by omega, show i < 16 by omega]
  · apply BitVec.eq_of_getLsbD_eq
    intro i hi
    simp only [tokReserved, tokWord, BitVec.getLsbD_extractLsb', BitVec.getLsbD_or, BitVec.getLsbD_shiftLeft,
      BitVec.getLsbD_setWidth]
    rw [bd (28 + i - 16) (by omega), bl (28 + i - 8) (by omega), bc (28 + i) (by omega)]
    simp

theorem copySymbols_succ (m d n : Nat) (s : State) :
    copySymbols m d (List.range (n + 1)) s =
      (copySymbols m d (List.range n) s).setOut (m + n) ((copySymbols m d (List.range n) s).outSym (m + n - d)) := by
  simp [copySymbols, List.range_succ]

/-- The copy changes OUT alone: every other field, and every byte outside OUT[m .. m + n). -/
theorem copySymbols_frame (m d n : Nat) (s : State) :
    (copySymbols m d (List.range n) s).withMem s.mem = s ∧
      ∀ a, (∀ j, j < n → a ≠ outAddr (m + j)) → Memory.get (copySymbols m d (List.range n) s).mem a = Memory.get s.mem a := by
  induction n with
  | zero => exact ⟨rfl, fun _ _ => rfl⟩
  | succ n ih =>
    rw [copySymbols_succ]
    refine ⟨ih.1, fun a ha => ?_⟩
    rw [← ih.2 a fun j hj => ha j (by omega)]
    exact Memory.get_set_of_ne (ha n (by omega)).symm _

theorem copySymbols_wf {s : State} (h : Memory.wf s.mem) (m d n : Nat) :
    Memory.wf (copySymbols m d (List.range n) s).mem := by
  induction n with
  | zero => exact h
  | succ n ih => rw [copySymbols_succ]; exact State.setOut_wf ih _ _

/-- The sequential copy: each new symbol is the one `d` places before it in the growing output, old symbols stay
(45_lzss.md R148, 70_reset_and_hazards.md R182). -/
theorem outSym_copySymbols {s : State} (h : Memory.wf s.mem) {m d : Nat} (n : Nat) (hd : 1 ≤ d) (hm : d ≤ m) :
    (∀ i, i < m → (copySymbols m d (List.range n) s).outSym i = s.outSym i) ∧
      ∀ j, j < n → (copySymbols m d (List.range n) s).outSym (m + j) =
        (copySymbols m d (List.range n) s).outSym (m + j - d) := by
  induction n with
  | zero => exact ⟨fun _ _ => rfl, fun j hj => by omega⟩
  | succ n ih =>
    rw [copySymbols_succ]
    have hw := copySymbols_wf h m d n
    refine ⟨fun i hi => ?_, fun j hj => ?_⟩
    · rw [State.outSym_setOut hw, if_neg (by omega)]; exact ih.1 i hi
    · rw [State.outSym_setOut hw, State.outSym_setOut hw, if_neg (show m + n ≠ m + j - d by omega)]
      by_cases e : m + n = m + j
      · rw [if_pos e]; congr 1; omega
      · rw [if_neg e]; exact ih.2 j (by omega)

/-- Every way the token decoder can end (45_lzss.md R148, 60_exceptions.md R158). -/
theorem decodeToken_cases (wd : Word) (pos : Nat) (s : State) :
    (decodeToken wd pos s = .error ⟨.corruptStream, pos⟩ ∧
      (tokReserved wd ≠ 0 ∨ (tokDist wd = 0 ∧ tokLength wd ≠ 0) ∨ s.csr.cfgW.toNat < tokDist wd ∨
        s.csr.outLen.toNat < tokDist wd)) ∨
    (decodeToken wd pos s = .error ⟨.capacityExceeded, pos⟩ ∧ 4096 < s.csr.outLen.toNat + tokLength wd + 1) ∨
    (decodeToken wd pos s = .ok (replayToken wd s) ∧ tokReserved wd = 0 ∧ (tokDist wd = 0 → tokLength wd = 0) ∧
      tokDist wd ≤ s.csr.cfgW.toNat ∧ tokDist wd ≤ s.csr.outLen.toNat ∧ s.csr.outLen.toNat + tokLength wd + 1 ≤ 4096) := by
  unfold decodeToken
  split
  · exact .inl ⟨rfl, .inl (by assumption)⟩
  · split
    · exact .inl ⟨rfl, .inr (.inl (by assumption))⟩
    · split
      · exact .inl ⟨rfl, .inr (.inr (.inl (by assumption)))⟩
      · split
        · exact .inl ⟨rfl, .inr (.inr (.inr (by assumption)))⟩
        · split
          · exact .inr (.inl ⟨rfl, by simp only [Config.nMax] at *; omega⟩)
          · refine .inr (.inr ⟨rfl, not_not.1 (by assumption), ?_, by omega, by omega, ?_⟩)
            · intro h0
              rename_i hdl _ _ _
              exact not_not.1 fun hl => hdl ⟨h0, hl⟩
            · simp only [Config.nMax] at *; omega

end Sys2Proof.Machine
end

