-- ==== Sys2Proof/Laws/PerInstr.lean ====
section
/-! SUPPORT. Per-command lemmas: every well-formed command's word is selected by a row of the opcode map. -/

namespace Sys2Proof

/-- A word is equal to another when their 32 bits are. -/
theorem word_ext_upto {a b : Word} (h : ∀ i, i < 32 → a.getLsbD i = b.getLsbD i) : a = b := BitVec.eq_of_getLsbD_eq h

/-- The mask of format S keeps the opcode and drops the symbol (30_encoding.md R90). -/
theorem formatS_mask (op : BitVec 8) (sym : Byte) :
    formatS (op.setWidth 32) sym &&& maskS = op.setWidth 32 := by
  refine word_ext_upto fun i hi => ?_
  simp only [formatS, maskS, BitVec.getLsbD_and, BitVec.getLsbD_or, BitVec.getLsbD_shiftLeft, BitVec.getLsbD_setWidth]
  interval_cases i <;> simp

/-- The mask of format B keeps the opcode and drops the bit (30_encoding.md R91). -/
theorem formatB_mask (op : BitVec 8) (b : Bool) :
    formatB (op.setWidth 32) b &&& maskB = op.setWidth 32 := by
  refine word_ext_upto fun i hi => ?_
  simp only [formatB, maskB, BitVec.getLsbD_and, BitVec.getLsbD_or, BitVec.getLsbD_shiftLeft, BitVec.getLsbD_setWidth]
  cases b <;> interval_cases i <;> simp

/-- The mask of format WN keeps the opcode and drops the select (30_encoding.md R92). -/
theorem formatWN_mask (op : BitVec 8) (sel : WinSel) :
    formatWN (op.setWidth 32) sel &&& maskWN = op.setWidth 32 := by
  refine word_ext_upto fun i hi => ?_
  simp only [formatWN, maskWN, BitVec.getLsbD_and, BitVec.getLsbD_or, BitVec.getLsbD_shiftLeft, BitVec.getLsbD_setWidth]
  cases sel <;> simp only [selBit] <;> interval_cases i <;> simp

/-- The mask of format WS keeps the opcode and drops the operands (30_encoding.md R93). -/
theorem formatWS_mask (op : BitVec 8) (sel : WinSel) (sym : Byte) :
    formatWS (op.setWidth 32) sel sym &&& maskWS = op.setWidth 32 := by
  refine word_ext_upto fun i hi => ?_
  simp only [formatWS, maskWS, BitVec.getLsbD_and, BitVec.getLsbD_or, BitVec.getLsbD_shiftLeft, BitVec.getLsbD_setWidth]
  cases sel <;> simp only [selBit] <;> interval_cases i <;> simp

/-- The mask of format WI keeps the opcode and drops the operands, where the immediate fits (30_encoding.md R94). -/
theorem formatWI_mask (op : BitVec 8) (sel : WinSel) {imm : Nat} (h : immFits imm = true) :
    formatWI (op.setWidth 32) sel imm &&& maskWI = op.setWidth 32 := by
  have hlt : imm < 4096 := by simpa [immFits] using h
  unfold formatWI
  have hb : ∀ i, 12 ≤ i → (BitVec.ofNat 32 imm).getLsbD i = false := fun i hi => by
    rw [BitVec.getLsbD_ofNat, Nat.testBit_lt_two_pow (Nat.lt_of_lt_of_le hlt (Nat.pow_le_pow_right (n := 2) (by omega) hi))]
    simp
  generalize BitVec.ofNat 32 imm = w at hb
  refine word_ext_upto fun i hi => ?_
  simp only [maskWI, BitVec.getLsbD_and, BitVec.getLsbD_or, BitVec.getLsbD_shiftLeft, BitVec.getLsbD_setWidth]
  cases sel <;> simp only [selBit] <;> interval_cases i <;> simp <;> exact hb _ (by decide)

namespace Laws.RowSelects

/-- The word of a well-formed command is selected by a row of the opcode map (30_encoding.md R96). -/
def Statement (i : Instr) : Prop := i.wellFormed = true → ∃ r ∈ opcodeMap, r.selects (encode i) = true

theorem nop : Statement .nop := fun _ => by decide
theorem frqClear : Statement .frqClear := fun _ => by decide
theorem frqCount : Statement .frqCount := fun _ => by decide
theorem frqInc (sym : Byte) : Statement (.frqInc sym) := fun _ =>
  ⟨⟨maskS, 0x12#32, fun w => .frqInc (symFieldS w)⟩, by simp [opcodeMap], beq_iff_eq.2 (formatS_mask 0x12#8 sym)⟩
theorem hufBuild : Statement .hufBuild := fun _ => by decide
theorem hufEncode : Statement .hufEncode := fun _ => by decide
theorem hufPutsym (sym : Byte) : Statement (.hufPutsym sym) := fun _ =>
  ⟨⟨maskS, 0x31#32, fun w => .hufPutsym (symFieldS w)⟩, by simp [opcodeMap], beq_iff_eq.2 (formatS_mask 0x31#8 sym)⟩
theorem hufDecode : Statement .hufDecode := fun _ => by decide
theorem hufDecbit (bit : Bool) : Statement (.hufDecbit bit) := fun _ =>
  ⟨⟨maskB, 0x39#32, fun w => .hufDecbit (bitField w)⟩, by simp [opcodeMap], beq_iff_eq.2 (formatB_mask 0x39#8 bit)⟩
theorem hufDecend : Statement .hufDecend := fun _ => by decide
theorem winInit (sel : WinSel) (cap : Nat) : Statement (.winInit sel cap) := fun h =>
  ⟨⟨maskWI, 0x40#32, fun w => .winInit (selField w) (immField w)⟩, by simp [opcodeMap],
    beq_iff_eq.2 (formatWI_mask 0x40#8 sel h)⟩
theorem winPush (sel : WinSel) (sym : Byte) : Statement (.winPush sel sym) := fun _ =>
  ⟨⟨maskWS, 0x41#32, fun w => .winPush (selField w) (symFieldWS w)⟩, by simp [opcodeMap],
    beq_iff_eq.2 (formatWS_mask 0x41#8 sel sym)⟩
theorem winPushn (sel : WinSel) : Statement (.winPushn sel) := fun _ =>
  ⟨⟨maskWN, 0x42#32, fun w => .winPushn (selField w)⟩, by simp [opcodeMap], beq_iff_eq.2 (formatWN_mask 0x42#8 sel)⟩
theorem winEvict (sel : WinSel) (cnt : Nat) : Statement (.winEvict sel cnt) := fun h =>
  ⟨⟨maskWI, 0x43#32, fun w => .winEvict (selField w) (immField w)⟩, by simp [opcodeMap],
    beq_iff_eq.2 (formatWI_mask 0x43#8 sel h)⟩
theorem winRead (sel : WinSel) (idx : Nat) : Statement (.winRead sel idx) := fun h =>
  ⟨⟨maskWI, 0x44#32, fun w => .winRead (selField w) (immField w)⟩, by simp [opcodeMap],
    beq_iff_eq.2 (formatWI_mask 0x44#8 sel h)⟩
theorem lzEncode : Statement .lzEncode := fun _ => by decide
theorem lzEncstep : Statement .lzEncstep := fun _ => by decide
theorem lzDecode : Statement .lzDecode := fun _ => by decide
theorem lzDectok : Statement .lzDectok := fun _ => by decide

end Laws.RowSelects

end Sys2Proof
end

