-- ==== Sys2Proof/Laws/Tree.lean ====
section
/-! SUPPORT. What the merge heap, the merge loop and the code packing can do (42_huffman_tree.md). -/

namespace Sys2Proof.Machine

theorem mem_presentSyms {f : Nat → Word} {i : Nat} : i ∈ presentSyms f ↔ i < 256 ∧ f i ≠ 0 := by
  simp [presentSyms]

theorem presentSyms_length_le (f : Nat → Word) : (presentSyms f).length ≤ 256 := by
  have := List.length_filter_le (fun i => f i != 0) (List.range Config.alphabet)
  rwa [List.length_range] at this

/-- The present symbols come in ascending order, each once (42_huffman_tree.md R120). -/
theorem presentSyms_sorted (f : Nat → Word) : (presentSyms f).Pairwise (· < ·) := List.pairwise_lt_range.filter _

/-- The present symbols depend on the 256 counters alone. -/
theorem presentSyms_congr {f g : Nat → Word} (h : ∀ i, i < 256 → f i = g i) : presentSyms f = presentSyms g := by
  unfold presentSyms
  exact List.filter_congr fun i hi => by rw [h i (by simpa using hi)]

/-- The arena depends on the 256 counters alone (42_huffman_tree.md R119). -/
theorem buildArena_congr {f g : Nat → Word} (h : ∀ i, i < 256 → f i = g i) : buildArena f = buildArena g := by
  have hm : (presentSyms g).map (leafNode f) = (presentSyms g).map (leafNode g) :=
    List.map_congr_left fun i hi => by simp only [leafNode, h i (mem_presentSyms.1 hi).1]
  unfold buildArena
  rw [presentSyms_congr h, hm]

section
variable {ar : List Node} {h : List Nat}

theorem leastKey_eq_none : leastKey ar h = none ↔ h = [] := by
  cases h with
  | nil => simp [leastKey]
  | cons i t =>
    simp only [leastKey, reduceCtorEq, iff_false]
    split
    · simp
    · split <;> simp

theorem leastKey_mem {a : Nat} (e : leastKey ar h = some a) : a ∈ h := by
  induction h generalizing a with
  | nil => simp [leastKey] at e
  | cons i t ih =>
    simp only [leastKey] at e
    split at e
    · obtain rfl := Option.some.inj e; simp
    · rename_i j hj
      split at e
      · obtain rfl := Option.some.inj e; exact List.mem_cons_of_mem _ (ih hj)
      · obtain rfl := Option.some.inj e; simp

/-- The order of the heap keys, as naturals (42_huffman_tree.md R118). -/
theorem keyLt_iff {a b : Node} : keyLt a b = true ↔
    a.weight.toNat < b.weight.toNat ∨ (a.weight.toNat = b.weight.toNat ∧ a.minsym.toNat < b.minsym.toNat) := by
  simp [keyLt, ← BitVec.toNat_inj]

/-- No node of the heap has a smaller key than the extracted one (42_huffman_tree.md R118, R122). -/
theorem leastKey_le {a : Nat} (e : leastKey ar h = some a) {i : Nat} (hi : i ∈ h) :
    keyLt (arenaAt ar i) (arenaAt ar a) = false := by
  induction h generalizing a with
  | nil => cases hi
  | cons k t ih =>
    simp only [leastKey] at e
    split at e
    · rename_i hn
      obtain rfl := Option.some.inj e
      obtain rfl := leastKey_eq_none.1 hn
      obtain rfl := List.mem_singleton.1 hi
      rw [Bool.eq_false_iff, ne_eq, keyLt_iff]; omega
    · rename_i j hj
      split at e
      · rename_i hlt
        obtain rfl := Option.some.inj e
        rcases List.mem_cons.1 hi with rfl | hi
        · rw [keyLt_iff] at hlt
          rw [Bool.eq_false_iff, ne_eq, keyLt_iff]; omega
        · exact ih hj hi
      · rename_i hlt
        obtain rfl := Option.some.inj e
        rcases List.mem_cons.1 hi with rfl | hi
        · rw [Bool.eq_false_iff, ne_eq, keyLt_iff]; omega
        · have := ih hj hi
          rw [Bool.eq_false_iff, ne_eq, keyLt_iff] at this
          rw [Bool.not_eq_true, Bool.eq_false_iff, ne_eq, keyLt_iff] at hlt
          rw [Bool.eq_false_iff, ne_eq, keyLt_iff]; omega

/-- The merge loop, said once: what holds of the arena and the heap and every merge keeps, holds at the end, with one heap
entry less per turn of the loop (42_huffman_tree.md R121, R122). -/
theorem mergeLoop_induct {P : List Node → List Nat → Prop} {n : Nat} (hn : n < h.length) (h0 : P ar h)
    (step : ∀ ar h a b, P ar h → leastKey ar h = some a → leastKey ar (h.erase a) = some b →
      P (ar ++ [mergeNode ar a b]) ((h.erase a).erase b ++ [ar.length])) :
    ∃ h', P (mergeLoop n ar h) h' ∧ h'.length = h.length - n := by
  induction n generalizing ar h with
  | zero => exact ⟨h, h0, rfl⟩
  | succ n ih =>
    obtain ⟨a, ha⟩ : ∃ a, leastKey ar h = some a :=
      Option.ne_none_iff_exists'.1 fun e => by rw [leastKey_eq_none.1 e] at hn; simp at hn
    have hla : (h.erase a).length = h.length - 1 := List.length_erase_of_mem (leastKey_mem ha)
    obtain ⟨b, hb⟩ : ∃ b, leastKey ar (h.erase a) = some b :=
      Option.ne_none_iff_exists'.1 fun e => by rw [leastKey_eq_none.1 e] at hla; simp at hla; omega
    have hlb : ((h.erase a).erase b).length = h.length - 2 := by
      rw [List.length_erase_of_mem (leastKey_mem hb), hla]; omega
    have hl : ((h.erase a).erase b ++ [ar.length]).length = h.length - 1 := by
      rw [List.length_append, hlb, List.length_singleton]; omega
    obtain ⟨h', hp, he⟩ := ih (by omega) (step ar h a b h0 ha hb)
    exact ⟨h', by simpa only [mergeLoop, ha, hb] using hp, by omega⟩

/-- The merge loop only appends to the arena (42_huffman_tree.md R121). -/
theorem mergeLoop_prefix (n : Nat) (ar : List Node) (h : List Nat) : ∃ t, mergeLoop n ar h = ar ++ t := by
  induction n generalizing ar h with
  | zero => exact ⟨[], by simp [mergeLoop]⟩
  | succ n ih =>
    simp only [mergeLoop]
    split
    · exact ⟨[], by simp⟩
    · split
      · exact ⟨[], by simp⟩
      · rename_i a _ _ b _
        obtain ⟨t, ht⟩ := ih (ar ++ [mergeNode ar a b]) ((h.erase a).erase b ++ [ar.length])
        exact ⟨[mergeNode ar a b] ++ t, by rw [ht, List.append_assoc]⟩

theorem mergeLoop_length {n : Nat} (hn : n < h.length) : (mergeLoop n ar h).length = ar.length + n := by
  have := mergeLoop_induct (P := fun ar' h' => ar'.length + h'.length = ar.length + h.length) hn rfl
    fun ar' h' a b e ha hb => by
      have := List.length_pos_of_mem (leastKey_mem hb)
      rw [List.length_erase_of_mem (leastKey_mem ha)] at this
      simp only [List.length_append, List.length_singleton, List.length_erase_of_mem (leastKey_mem hb),
        List.length_erase_of_mem (leastKey_mem ha)]
      omega
  obtain ⟨h', e1, e2⟩ := this
  omega

end

/-- NODE_CNT is 2k - 1 for k ≥ 1 leaves (10_state.md R43, 42_huffman_tree.md R116). -/
theorem buildArena_length {f : Nat → Word} (hk : presentSyms f ≠ []) :
    (buildArena f).length = 2 * (presentSyms f).length - 1 := by
  have hp := List.length_pos_iff.2 hk
  unfold buildArena
  rw [mergeLoop_length (by simp; omega)]
  simp
  omega

/-- The empty table has the empty arena (42_huffman_tree.md R124). -/
theorem buildArena_nil {f : Nat → Word} (hk : presentSyms f = []) : buildArena f = [] := by
  simp [buildArena, hk, mergeLoop]

/-- The leaves are the first k entries, in ascending order of their symbols (42_huffman_tree.md R120). -/
theorem buildArena_leaf {f : Nat → Word} {i sym : Nat} (h : (presentSyms f)[i]? = some sym) :
    arenaAt (buildArena f) i = leafNode f sym := by
  unfold buildArena
  obtain ⟨t, ht⟩ := mergeLoop_prefix (((presentSyms f).map (leafNode f)).length - 1) ((presentSyms f).map (leafNode f))
    (List.range ((presentSyms f).map (leafNode f)).length)
  have hi : i < ((presentSyms f).map (leafNode f)).length := by
    simpa using (List.getElem?_eq_some_iff.1 h).1
  simp only [ht, arenaAt, List.getD_eq_getElem?_getD, List.getElem?_append_left hi, List.getElem?_map, h, Option.map_some,
    Option.getD_some]

/-- Bit j of a packed path (10_state.md R54). -/
theorem getLsbD_packCode (p : List Bool) {j : Nat} (hj : j < 255) : (packCode p).getLsbD j = p.getD j false := by
  induction p generalizing j with
  | nil => simp [packCode]
  | cons b t ih =>
    rw [packCode, BitVec.getLsbD_or, BitVec.getLsbD_shiftLeft]
    cases j with
    | zero => cases b <;> simp
    | succ j =>
      have h1 : (if b then 1#255 else 0#255).getLsbD (j + 1) = false := by cases b <;> simp [BitVec.getLsbD_one]
      rw [h1]
      simp [hj, ih (Nat.lt_of_succ_lt hj)]

/-- A path of a legal length comes back from its LUT entry whole: length and bits (10_state.md R54). -/
theorem LutEntry.ofPath_bits {p : List Bool} (hp : p.length ≤ 255) :
    (LutEntry.ofPath p).len.toNat = p.length ∧
      (List.range (LutEntry.ofPath p).len.toNat).map (LutEntry.ofPath p).code.getLsbD = p := by
  have hl : (LutEntry.ofPath p).len.toNat = p.length := by
    simp only [LutEntry.ofPath, BitVec.toNat_ofNat]; omega
  refine ⟨hl, ?_⟩
  rw [hl]
  apply List.ext_getElem (by simp)
  intro j h1 h2
  simp only [List.getElem_map, List.getElem_range, LutEntry.ofPath]
  rw [getLsbD_packCode p (by omega), List.getD_eq_getElem _ _ h2]

end Sys2Proof.Machine
end

