-- ==== Sys2Proof/Laws/Walker.lean ====
section
/-! SUPPORT. What one step of the tree walker can do (43_huffman_codec.md R131). -/

namespace Sys2Proof.Machine

/-- `Emit` succeeds exactly where OUT has room, and then stores the symbol and resets the walker. -/
theorem emitSym_ok {sym : Byte} {pos v : Nat} {s t : State} (h : emitSym sym pos s = .ok (t, v)) :
    s.csr.outLen.toNat < 4096 ∧
      t = ((s.setOut s.csr.outLen.toNat sym).setOutLen (s.csr.outLen.toNat + 1)).walkerToRoot ∧ v = 0x100 ||| sym.toNat := by
  unfold emitSym at h
  split at h
  · cases h
  · cases h
    exact ⟨by simp only [Config.nMax] at *; omega, rfl, rfl⟩

/-- Every way a walker step can end (43_huffman_codec.md R131). -/
theorem decStep_cases (b : Bool) (pos : Nat) (s : State) :
    (s.csr.nsym = 0 ∧ decStep b pos s = .error ⟨.corruptStream, pos⟩) ∨
    (s.csr.nsym = 1 ∧ b = true ∧ decStep b pos s = .error ⟨.corruptStream, pos⟩) ∨
    (s.csr.nsym = 1 ∧ b = false ∧ decStep b pos s = emitSym (s.nodeAt s.csr.root).sym pos s) ∨
    (s.csr.nsym ≠ 0 ∧ s.csr.nsym ≠ 1 ∧ (s.nodeAt (childOf (s.nodeAt s.csr.decNode) b)).leaf = true ∧
      decStep b pos s = emitSym (s.nodeAt (childOf (s.nodeAt s.csr.decNode) b)).sym pos s) ∨
    (s.csr.nsym ≠ 0 ∧ s.csr.nsym ≠ 1 ∧ (s.nodeAt (childOf (s.nodeAt s.csr.decNode) b)).leaf = false ∧
      decStep b pos s = .ok (s.setWalker (childOf (s.nodeAt s.csr.decNode) b) (s.csr.decLen.toNat + 1), 0)) := by
  unfold decStep
  by_cases h0 : s.csr.nsym = 0
  · exact .inl ⟨h0, if_pos h0⟩
  · rw [if_neg h0]
    by_cases h1 : s.csr.nsym = 1
    · rw [if_pos h1]
      cases b
      · exact .inr (.inr (.inl ⟨h1, rfl, rfl⟩))
      · exact .inr (.inl ⟨h1, rfl, rfl⟩)
    · rw [if_neg h1]
      by_cases hl : (s.nodeAt (childOf (s.nodeAt s.csr.decNode) b)).leaf = true
      · exact .inr (.inr (.inr (.inl ⟨h0, h1, hl, if_pos hl⟩)))
      · exact .inr (.inr (.inr (.inr ⟨h0, h1, by simpa using hl, if_neg hl⟩)))

/-- A walker step that succeeds changes OUT, OUT_LEN and the walker alone. -/
theorem decStep_frame {b : Bool} {pos v : Nat} {s t : State} (h : decStep b pos s = .ok (t, v)) :
    { t with mem := s.mem, csr := { t.csr with outLen := s.csr.outLen, decNode := s.csr.decNode, decLen := s.csr.decLen } } =
        s ∧
      ∀ a, (a < outBase ∨ outBase + 4 * 4096 ≤ a) → Memory.get t.mem a = Memory.get s.mem a := by
  have key : ∀ sym, emitSym sym pos s = .ok (t, v) →
      { t with mem := s.mem,
               csr := { t.csr with outLen := s.csr.outLen, decNode := s.csr.decNode, decLen := s.csr.decLen } } = s ∧
        ∀ a, (a < outBase ∨ outBase + 4 * 4096 ≤ a) → Memory.get t.mem a = Memory.get s.mem a := by
    intro sym he
    obtain ⟨hl, rfl, -⟩ := emitSym_ok he
    refine ⟨rfl, fun a ha => ?_⟩
    exact Memory.get_set_of_ne (by simp only [outAddr]; omega) _
  rcases decStep_cases b pos s with ⟨-, e⟩ | ⟨-, -, e⟩ | ⟨-, -, e⟩ | ⟨-, -, -, e⟩ | ⟨-, -, -, e⟩ <;> rw [e] at h
  · cases h
  · cases h
  · exact key _ h
  · exact key _ h
  · cases h; exact ⟨rfl, fun _ _ => rfl⟩

end Sys2Proof.Machine
end

