-- ==== Sys2Proof/Tests/Slice0.lean ====
section
/-! SUPPORT. Tests: expected values from 95_test_vectors.md and the rules named, and a witness for the hypotheses of each
statement. -/

set_option Elab.async false

namespace Sys2Proof.Tests

open Sys2Proof Sys2Proof.Machine

/-! ### Small states -/

/-- The core after reset and initialisation. -/
def ready : State := initStep State.reset

/-- IN and IN_LEN loaded. -/
def fed (xs : List Nat) : State :=
  { (xs.foldl (fun p x => (p.1 + 1, p.2.setIn p.1 (BitVec.ofNat 8 x))) (0, ready)).2 with
    csr := { Csr.reset with inLen := BitVec.ofNat 16 xs.length } }

/-- FREQ loaded with (symbol, count) pairs. -/
def counted (fs : List (Nat × Nat)) : State := fs.foldl (fun s p => s.setFreq p.1 (BitVec.ofNat 32 p.2)) ready

/-- The tree of a frequency table, built. -/
def built (fs : List (Nat × Nat)) : State := buildTree (counted fs)

/-- BITBUF[0] and BIT_LEN. -/
def withBits (w n : Nat) (s : State) : State := (s.setBitWord 0 (BitVec.ofNat 32 w)).setBitLen n

/-- CFG_W and CFG_B. -/
def config (w b : Nat) (s : State) : State :=
  { s with csr := { s.csr with cfgW := BitVec.ofNat 12 w, cfgB := BitVec.ofNat 8 b } }

/-- TOKBUF and TOK_LEN. -/
def withToks (ws : List Nat) (s : State) : State :=
  (ws.foldl (fun p w => (p.1 + 1, p.2.setTok p.1 (BitVec.ofNat 32 w))) (0, s)).2.setTokLen ws.length

/-- OUT and OUT_LEN. -/
def withOut (xs : List Nat) (s : State) : State :=
  (xs.foldl (fun p x => (p.1 + 1, p.2.setOut p.1 (BitVec.ofNat 8 x))) (0, s)).2.setOutLen xs.length

/-- ARG0. -/
def withArg (w : Nat) (s : State) : State := { s with csr := { s.csr with arg0 := BitVec.ofNat 32 w } }

/-- A frequency table with one counter at its bound. -/
def saturated : State := counted [(0x61, 0xFFFFFFFF)]

/-- The tree of "abracadabra" (95_test_vectors.md 2.2). -/
def abra : List (Nat × Nat) := [(0x61, 5), (0x62, 2), (0x63, 1), (0x64, 1), (0x72, 2)]

/-- The walker one bit inside the "abracadabra" tree (95_test_vectors.md 2.3). -/
def midCode : State := (built abra).setWalker 7 1

/-- A pending command word. -/
def pendingWord (w : Nat) : State := issue (BitVec.ofNat 32 w) ready

/-- The state an outcome leads to. -/
def after : Host.Outcome State Fault Refusal → Option State
  | .next t => some t
  | .fault _ => none
  | .refused _ => none

/-- A completion: (ERRCODE, RESULT0, ERR_POS, STATUS). -/
def record (o : Host.Outcome State Fault Refusal) : Option (Nat × Nat × Nat × Nat) :=
  (after o).map fun t => (t.csr.errcode.toNat, t.csr.result0.toNat, t.csr.errPos.toNat, t.statusWord.toNat)

/-- What a completed command leaves, read by `f`. -/
def leaves {α : Type} (o : Host.Outcome State Fault Refusal) (f : State → α) : Option α := (after o).map f

/-- The token words in TOKBUF. -/
def toks (t : State) : List Nat := (List.range t.csr.tokLen.toNat).map fun i => (t.tok i).toNat

/-- The symbols in OUT. -/
def outs (t : State) : List Nat := (t.outSlice 0 t.csr.outLen.toNat).map BitVec.toNat

/-- A window as (capacity, symbols). -/
def view (x : Window) : Nat × List Nat := (x.cap, x.seq.map BitVec.toNat)

/-! ### Well-formedness: operands out of range are refused (30_encoding.md R95, R100) -/

theorem test_illformed_winInit : (Instr.winInit .hwin 4096).wellFormed = false ∧ assemble (.winInit .hwin 4096) = none := by
  decide
theorem test_illformed_winEvict : (Instr.winEvict .lwin 4096).wellFormed = false ∧ assemble (.winEvict .lwin 4096) = none := by
  decide
theorem test_illformed_winRead : (Instr.winRead .lwin 9999).wellFormed = false ∧ assemble (.winRead .lwin 9999) = none := by
  decide
theorem test_wellformed_bound : assemble (.winRead .hwin 4095) = some 0x0FFF0044#32 := by decide

/-! ### Decoding: words written out from the formats of 30_encoding.md -/

theorem test_decode_nop : decode 0b00000000000000000000000000000000#32 = .ok .nop := by decide
theorem test_decode_frqClear : decode 0b00000000000000000000000000010000#32 = .ok .frqClear := by decide
theorem test_decode_frqCount : decode 0b00000000000000000000000000010001#32 = .ok .frqCount := by decide
theorem test_decode_frqInc : decode 0b00000000000000000110000100010010#32 = .ok (.frqInc 0x61#8) := by decide
theorem test_decode_hufBuild : decode 0b00000000000000000000000000100000#32 = .ok .hufBuild := by decide
theorem test_decode_hufEncode : decode 0b00000000000000000000000000110000#32 = .ok .hufEncode := by decide
theorem test_decode_hufPutsym : decode 0b00000000000000000110001000110001#32 = .ok (.hufPutsym 0x62#8) := by decide
theorem test_decode_hufDecode : decode 0b00000000000000000000000000111000#32 = .ok .hufDecode := by decide
theorem test_decode_hufDecbit : decode 0b00000000000000000000000100111001#32 = .ok (.hufDecbit true) := by decide
theorem test_decode_hufDecend : decode 0b00000000000000000000000000111010#32 = .ok .hufDecend := by decide
theorem test_decode_winInit : decode 0b00000000000000110000000101000000#32 = .ok (.winInit .lwin 3) := by decide
theorem test_decode_winPush : decode 0b00000000011000010000000101000001#32 = .ok (.winPush .lwin 0x61#8) := by decide
theorem test_decode_winPushn : decode 0b00000000000000000000000001000010#32 = .ok (.winPushn .hwin) := by decide
theorem test_decode_winEvict : decode 0b00000000000000100000000101000011#32 = .ok (.winEvict .lwin 2) := by decide
theorem test_decode_winRead : decode 0b00000000000000110000000001000100#32 = .ok (.winRead .hwin 3) := by decide
theorem test_decode_lzEncode : decode 0b00000000000000000000000001010000#32 = .ok .lzEncode := by decide
theorem test_decode_lzEncstep : decode 0b00000000000000000000000001010001#32 = .ok .lzEncstep := by decide
theorem test_decode_lzDecode : decode 0b00000000000000000000000001011000#32 = .ok .lzDecode := by decide
theorem test_decode_lzDectok : decode 0b00000000000000000000000001011001#32 = .ok .lzDectok := by decide

/-- Illegal words of 95_test_vectors.md 2.1, by kind. -/
theorem test_decode_illegal :
    decode 0x00000001#32 = .error (.unassignedOp 0x01#8) ∧ decode 0x0000003B#32 = .error (.unassignedOp 0x3B#8) ∧
      decode 0x000000FF#32 = .error (.unassignedOp 0xFF#8) ∧ decode 0x00000200#32 = .error (.reservedBit 0x00#8) ∧
      decode 0x00016112#32 = .error (.reservedBit 0x12#8) ∧ decode 0x00000239#32 = .error (.reservedBit 0x39#8) ∧
      decode 0x00000242#32 = .error (.reservedBit 0x42#8) ∧ decode 0x01000141#32 = .error (.reservedBit 0x41#8) ∧
      decode 0x10000040#32 = .error (.reservedBit 0x40#8) ∧ decode 0x80000050#32 = .error (.reservedBit 0x50#8) := by
  decide

/-! ### The host's fetch: the next step runs the word -/

theorem test_fetch_decodes : decodeTableWord 32 0x00030140 = some (.winInit .lwin 3) ∧ decodeTableWord 8 0x59 = some .lzDectok :=
  by decide
theorem test_fetch_runs : leaves (step (State.reset.withFetchWord 32 0x00030140)) (fun t => (view t.lwin, t.csr.cmd.toNat)) =
    some ((3, []), 0x00030140) := by decide +kernel

/-! ### The host bus -/

theorem test_id_read : leaves (hostReadAt (pendingWord 0) 0) State.resp = some (some (.data 0x484C5A01#32)) := by decide +kernel
theorem test_cfgW_keeps_12_bits : leaves (hostWriteAt ready 0x01C 0x00012345#32) (fun t => t.csr.cfgW) = some 0x345#12 := by
  decide +kernel
theorem test_node_aperture : (List.range 4).map (fun k => ((built [(0x61, 3), (0x62, 1)]).nodeWord 2 k).toNat) =
    [0x00000004, 0x00000000, 0x00000001, 0x00006100] := by decide +kernel
theorem test_leaf_aperture : (List.range 4).map (fun k => ((built [(0x61, 3), (0x62, 1)]).nodeWord 1 k).toNat) =
    [0x00000001, 0x00000000, 0x01FF01FF, 0x00016262] := by decide +kernel
theorem test_lut_aperture : (List.range 3).map (fun k => ((built [(0x61, 3), (0x62, 1)]).lutWord 0x61 k).toNat) = [1, 1, 0] := by
  decide +kernel

/-! ### Instructions: the vectors of 95_test_vectors.md -/

theorem test_nop : record (exec .nop ready) = some (0, 0, 0, 0x082) := by decide +kernel
theorem test_illegal : record (step (pendingWord 0x00000100)) = some (5, 0, 0, 0x58E) := by decide +kernel
theorem test_frqClear : leaves (exec .frqClear saturated) (fun t => (t.freq 0x61).toNat) = some 0 := by decide +kernel
theorem test_frqCount : leaves (exec .frqCount (fed [0x61, 0x61, 0x61, 0x62]))
    (fun t => ((t.freq 0x61).toNat, (t.freq 0x62).toNat, t.csr.result0.toNat)) = some (3, 1, 2) := by decide +kernel
theorem test_frqInc : record (exec (.frqInc 0x61) ready) = some (0, 1, 0, 0x082) := by decide +kernel
theorem test_frqInc_full : record (exec (.frqInc 0x61) saturated) = some (4, 0, 0, 0x48E) := by decide +kernel
theorem test_hufBuild : leaves (exec .hufBuild (counted abra))
    (fun t => (t.csr.result0.toNat, t.csr.root.toNat, t.csr.nodeCnt.toNat, codeBits (t.lutAt 0x63))) =
    some (5, 8, 9, [true, true, true, false]) := by decide +kernel
theorem test_hufBuild_tie : leaves (exec .hufBuild (counted [(0x61, 1), (0x62, 1), (0x63, 2)]))
    (fun t => (codeBits (t.lutAt 0x61), codeBits (t.lutAt 0x62), codeBits (t.lutAt 0x63))) =
    some ([false, false], [false, true], [true]) := by decide +kernel
theorem test_hufEncode : leaves (exec .hufEncode (fed [0x61, 0x62, 0x63, 0x64]))
    (fun t => ((t.bitWord 0).toNat, t.csr.bitLen.toNat, t.csr.result0.toNat)) = some (0xD8, 8, 8) := by decide +kernel
theorem test_hufEncode_keeps : leaves (exec .hufEncode (withBits 0xFFFFFFFF 0 (fed [0x61, 0x61, 0x61, 0x62])))
    (fun t => (t.bitWord 0).toNat) = some 0xFFFFFFF7 := by decide +kernel
theorem test_hufPutsym : leaves (exec (.hufPutsym 0x62) (built [(0x61, 3), (0x62, 1)]))
    (fun t => (t.csr.result0.toNat, t.csr.bitLen.toNat, bitRead t 0)) = some (1, 1, false) := by decide +kernel
theorem test_hufPutsym_unknown : record (exec (.hufPutsym 0x63) (built [(0x61, 3), (0x62, 1)])) = some (3, 0, 0, 0x3AE) := by
  decide +kernel
theorem test_hufDecode : leaves (exec .hufDecode (withBits 0x17 5 (counted [(0x61, 3), (0x62, 1)]))) outs =
    some [0x61, 0x61, 0x61, 0x62, 0x61] := by decide +kernel
theorem test_hufDecode_cut : record (exec .hufDecode (withBits 0x16F396 21 (counted abra))) = some (1, 0, 21, 0x1AE) := by
  decide +kernel
theorem test_hufDecbit : leaves (exec (.hufDecbit true) (built abra))
    (fun t => (t.csr.decNode.toNat, t.csr.decLen.toNat, t.statusWord.toNat)) = some (7, 1, 0xE2) := by decide +kernel
theorem test_hufDecbit_emits : leaves (exec (.hufDecbit true) (built [(0x61, 3), (0x62, 1)]))
    (fun t => (t.csr.result0.toNat, outs t)) = some (0x161, [0x61]) := by decide +kernel
theorem test_hufDecend : leaves (exec .hufDecend midCode)
    (fun t => (t.csr.errcode.toNat, t.csr.errPos.toNat, t.csr.decNode.toNat, t.csr.decLen.toNat)) = some (1, 1, 8, 0) := by
  decide +kernel
theorem test_winInit : record (exec (.winInit .lwin 256) ready) = some (2, 0, 0, 0x28E) := by decide +kernel
theorem test_winPush : leaves (exec (.winPush .lwin 0x64) (ready.setWin .lwin ⟨3, [0x61, 0x62, 0x63]⟩))
    (fun t => (view t.lwin, t.csr.result0.toNat)) = some ((3, [0x62, 0x63, 0x64]), 0x161) := by decide +kernel
theorem test_winPushn : leaves (exec (.winPushn .hwin) ((fed [0x61, 0x62, 0x63, 0x64, 0x65, 0x66]).setWin .hwin ⟨4, []⟩))
    (fun t => (view t.hwin, t.csr.result0.toNat)) = some ((4, [0x63, 0x64, 0x65, 0x66]), 2) := by decide +kernel
theorem test_winEvict : leaves (exec (.winEvict .lwin 2) (ready.setWin .lwin ⟨3, [0x62, 0x63, 0x64]⟩))
    (fun t => (view t.lwin, t.csr.result0.toNat)) = some ((3, [0x64]), 2) := by decide +kernel
theorem test_winRead : record (exec (.winRead .lwin 1) (ready.setWin .lwin ⟨3, [0x64]⟩)) = some (7, 0, 1, 0x78E) := by
  decide +kernel
theorem test_lzEncode : leaves (exec .lzEncode (config 4 2 (fed [0x61, 0x62, 0x61, 0x62, 0x61, 0x62]))) toks =
    some [0x61, 0x62, 0x20261, 0x62] := by decide +kernel
theorem test_lzEncode_windows : leaves (exec .lzEncode (config 4 3 (fed [0x61, 0x61, 0x61, 0x61, 0x61])))
    (fun t => (toks t, view t.hwin, view t.lwin)) = some ([0x61, 0x10361], (4, [0x61, 0x61, 0x61, 0x61]), (3, [])) := by
  decide +kernel
theorem test_lzEncstep : leaves (exec .lzEncstep ((config 4 2 (fed [0x61, 0x61, 0x61, 0x61, 0x61])).setLzPos 1))
    (fun t => (t.csr.result0.toNat, t.csr.lzPos.toNat, view t.lwin)) = some (0x10261, 4, (2, [0x61])) := by decide +kernel
theorem test_lzDecode : leaves (exec .lzDecode (config 4 0 (withToks [0x61, 0x10162, 0x50161] ready)))
    (fun t => (outs t, t.csr.errcode.toNat, t.csr.errPos.toNat, view t.hwin)) =
    some ([0x61, 0x61, 0x62], 1, 2, (4, [0x61, 0x61, 0x62])) := by decide +kernel
theorem test_lzDectok : leaves (exec .lzDectok (config 4 0 (withArg 0x00010579 (withOut [0x78] ready))))
    (fun t => (outs t, t.csr.result0.toNat, view t.hwin)) =
    some ([0x78, 0x78, 0x78, 0x78, 0x78, 0x78, 0x79], 6, (4, [0x78, 0x78, 0x78, 0x79])) := by decide +kernel

/-! ### Witnesses: for each statement with hypotheses, states and operands that meet them, clause by clause -/

theorem wit_DecodeAndEncodeAgree :
    (Instr.winEvict .lwin 4095).wellFormed = true ∧ decode 0x0FFF0143#32 = .ok (.winEvict .lwin 4095) := by decide

theorem wit_IllegalWordCompletesWithIllegalCommand :
    ready.pending = .idle ∧ (pendingWord 0x80000050).pending = .cmd 0x80000050#32 ∧
      decode 0x80000050#32 = .error (.reservedBit 0x50#8) := by decide +kernel

theorem wit_StepRunsThePendingCommand :
    (pendingWord 0x6112).pending = .cmd 0x6112#32 ∧ decode 0x6112#32 = .ok (.frqInc 0x61#8) ∧
      (pendingWord 0x6112).agenda = [] := by decide +kernel

theorem wit_CoreTurnEndsWhatIsPending : State.reset.agenda = [] ∧ (pendingWord 0x59).agenda = [] := by decide +kernel

theorem wit_PendingChangesOnlyAtTheFourEvents : step State.reset = .next ready := rfl

/-- A platform that ignores bus errors. -/
def lenient : State := { ready with params := { Params.plain with ignoreBusErr := true } }

theorem wit_BusErrorLeavesTheCoreUnchanged :
    AccessSize.two ≠ .four ∧ 0x7FFFD % 4 ≠ 0 ∧ reservedOffset 0x00054 ∧ reservedOffset 0x7FFFC ∧ 0x7FFFD < 0x80000 ∧
      ready.params.ignoreBusErr = false ∧ lenient.params.ignoreBusErr = true := by
  refine ⟨by decide, by decide, ?_, ?_, by decide, rfl, rfl⟩ <;> unfold reservedOffset <;> decide

theorem wit_ReadsHaveNoSideEffect :
    ¬ reservedOffset 0x00050 ∧ ¬ reservedOffset 0x5FFFC ∧ ready.pending = .idle ∧ State.reset.pending ≠ .idle ∧
      ¬ reservedOffset 0x0000C := by
  refine ⟨?_, ?_, rfl, by decide, ?_⟩ <;> unfold reservedOffset <;> decide

theorem wit_BusyWritesAreDropped :
    State.reset.pending ≠ .idle ∧ ¬ reservedOffset 0x00000 ∧ ¬ reservedOffset 0x5FFFC ∧ (0x2#32).getLsbD 1 = true ∧
      reservedOffset 0x60000 ∧ State.reset.params.ignoreBusErr = false ∧
      ({ lenient with pending := .init } : State).params.ignoreBusErr = true := by
  refine ⟨by decide, ?_, ?_, by decide, ?_, rfl, rfl⟩ <;> unfold reservedOffset <;> decide

theorem wit_SoftResetAtAnyTime : (0x3#32).getLsbD 1 = true := by decide

theorem wit_ValuesAfterReset :
    step { ready with agenda := [.hardReset] } = .next (resetEntry ready) ∧
      hostWriteAt ready 0x004 0x3#32 = .next { resetEntry ready with resp := some .written } ∧
      State.reset.pending = .init ∧ State.reset.csr = { Csr.reset with overrun := false } ∧
      (leaves (hostWriteAt State.reset 0x01C 4#32) fun t => (t.csr, t.pending)) =
        some ({ Csr.reset with overrun := true }, .init) :=
  ⟨rfl, rfl, rfl, rfl, by decide +kernel⟩

theorem wit_CmdWriteIssuesTheWord : ready.pending = .idle ∧ (pendingWord 0).pending ≠ .idle := by decide +kernel

theorem wit_RegisterWritesKeepTheirOwnBits :
    ready.pending = .idle ∧ rwMask .cfgB = some 0xFF#32 ∧ rwMask .bitLen = some 0x1FFFFF#32 := by decide +kernel

theorem wit_ReadOnlyWritesAreIgnored :
    ready.pending = .idle ∧ readOnlyCsr .id = true ∧ readOnlyCsr .lwinStat = true ∧ offsetOf (.csr .lwinStat) = 0x00050 ∧
      0x02000 % 4 = 0 ∧ 0x07FFC % 4 = 0 ∧ 0x07FFC ≤ 0x07FFF := by decide +kernel

/-- A completed command with everything there is to acknowledge. -/
def acknowledgeable : State :=
  { ready with csr := { Csr.reset with irqEn := true, done := true, stickyErr := true, overrun := true, irqPend := true } }

theorem wit_InterruptEnableAndAcknowledge :
    acknowledgeable.pending = .idle ∧ acknowledgeable.irq = true ∧ (0x1#32).getLsbD 1 = false ∧
      (0x80#32).getLsbD 7 = true := by decide +kernel

theorem wit_FreqWriteInvalidatesTheTree : 255 < 256 ∧ Memory.wf (built abra).mem ∧ (built abra).pending = .idle ∧
    (built abra).csr.treeValid = true := by decide +kernel

theorem wit_ApertureWritesStoreOneCell : Memory.wf (fed [1, 2]).mem ∧ (fed [1, 2]).pending = .idle ∧ 4095 < 4096 ∧ 32767 < 32768 :=
  by decide +kernel

theorem wit_AddressMapIsOneToOne : target 0x00050 = .csr .lwinStat ∧ target 0x00054 = .reserved ∧
    target 0x5FFFC = .bits 32767 ∧ target 0x7FFFC = .reserved ∧ target 0x07FFC = .lut 255 15 := by decide

theorem wit_RacingWriteHasTwoOutcomes : (pendingWord 0).pending = .cmd 0x00000000#32 := by decide +kernel

theorem wit_TracePortHasNoEffect : ready.params.traceEn = false := rfl

theorem wit_NopOnlyCompletes : ready.csr.treeValid = false ∧ ready.csr.decLen = 0 ∧ ready.csr.stickyErr = false ∧
    ready.csr.overrun = false := by decide +kernel

/-- IN_LEN over the buffer. -/
def overfull : State := { ready with csr := { Csr.reset with inLen := 4097 } }

theorem wit_FrqCountCountsTheInput : Memory.wf (fed [0, 255, 0]).mem ∧ (fed [0, 255, 0]).csr.inLen.toNat ≤ 4096 ∧
    Memory.wf overfull.mem ∧ 4096 < overfull.csr.inLen.toNat := by decide +kernel

theorem wit_FrqIncCountsOneSymbol : Memory.wf saturated.mem ∧ (saturated.freq 0x61).toNat = 2 ^ 32 - 1 ∧
    (saturated.freq 0x62).toNat ≠ 2 ^ 32 - 1 := by decide +kernel

theorem wit_StepwiseCountingEqualsFrqCount : Memory.wf (fed [0, 255, 0]).mem ∧ (fed [0, 255, 0]).csr.inLen.toNat ≤ 4096 := by
  decide +kernel

theorem wit_TreeDependsOnFreqAlone : (∀ v, v < 256 → (counted abra).freq v = (withBits 7 3 (counted abra)).freq v) ∧
    counted abra ≠ withBits 7 3 (counted abra) := by decide +kernel

theorem wit_TreeIsStrictlyBinary :
    leaves (exec .hufBuild (counted abra)) (fun t => (t.node[4]?.map Node.leaf, t.node[5]?.map Node.leaf, t.node.length)) =
      some (some true, some false, 9) ∧
      ((List.range 256).filter fun v => decide ((counted abra).freq v ≠ 0))[4]? = some 0x72 ∧ distinctCount (counted abra) = 5 := by
  decide +kernel

theorem wit_EachMergeTakesTheTwoLeastKeys :
    leaves (exec .hufBuild (counted abra)) (fun t => t.node[5]?.map fun n => (n.left.toNat, n.right.toNat)) =
      some (some (2, 3)) ∧
      leaves (exec .hufBuild (counted abra)) (fun t => t.node[4]?.map Node.leaf) = some (some true) := by decide +kernel

theorem wit_EmptyAndSingleSymbolTrees : distinctCount ready = 0 ∧ distinctCount saturated = 1 ∧ saturated.freq 0x61 ≠ 0 ∧
    (after (exec .hufBuild ready)).isSome = true ∧ (after (exec .hufBuild saturated)).isSome = true := by decide +kernel

theorem wit_CodesArePrefixFreePaths : (counted abra).freq 0x65 = 0 ∧ (counted abra).freq 0x61 ≠ 0 ∧
    (counted abra).freq 0x72 ≠ 0 ∧ 2 ≤ distinctCount (counted abra) ∧ (after (exec .hufBuild (counted abra))).isSome = true := by
  decide +kernel

theorem wit_KraftEquality : 2 ≤ distinctCount (counted abra) ∧ distinctCount saturated = 1 ∧
    (after (exec .hufBuild (counted abra))).isSome = true ∧ (after (exec .hufBuild saturated)).isSome = true := by decide +kernel

theorem wit_HufEncodeWritesTheCodesOfTheInput : Memory.wf (fed [1, 2, 1]).mem ∧ (fed [1, 2, 1]).csr.inLen.toNat ≤ 4096 ∧
    Memory.wf overfull.mem ∧ 4096 < overfull.csr.inLen.toNat := by decide +kernel

theorem wit_HufPutsymAppendsOneCode :
    Memory.wf (built abra).mem ∧ ready.csr.treeValid = false ∧ (built abra).csr.treeValid = true ∧
      ((built abra).lutAt 0x65).len = 0 ∧ ((built abra).lutAt 0x62).len = 3 ∧
      2 ^ 20 < ((built abra).setBitLen (2 ^ 20 - 2)).csr.bitLen.toNat + 3 ∧
      ((built abra).setBitLen (2 ^ 20 - 3)).csr.bitLen.toNat + 3 ≤ 2 ^ 20 := by decide +kernel

theorem wit_HufDecodeIsTheBufferAlgorithm :
    Memory.wf (withBits 0x17 5 (counted [(0x61, 3), (0x62, 1)])).mem ∧
      2 ≤ distinctCount (withBits 0x17 5 (counted [(0x61, 3), (0x62, 1)])) ∧
      (bufferDecode (freqCode (counted [(0x61, 3), (0x62, 1)])) [] [true, false]) = ([0x61, 0x62], []) ∧
      (bufferDecode (freqCode (counted abra)) [] [true]) = ([], [true]) := by decide +kernel

/-- With two symbols of one count each, n zero bits are n times the smaller symbol. -/
theorem bufferDecode_zeros {code : Nat → List Bool} {v : Nat}
    (h : ((List.range 256).find? fun v => decide (code v = [false])) = some v) (n : Nat) :
    bufferDecode code [] (List.replicate n false) = (List.replicate n (BitVec.ofNat 8 v), []) := by
  induction n with
  | zero => rfl
  | succ n ih => simp only [List.replicate_succ, bufferDecode, List.nil_append, h, ih]

/-- A state whose memory lists nothing in BITBUF holds zero bits only. -/
theorem bitRead_of_no_bits {s : State} (h : ∀ c ∈ s.mem, c.1 < 0x40000) (i : Nat) : bitRead s i = false := by
  have hz : s.bitWord (i / 32) = 0 :=
    Memory.readWord_zero fun k _ => sparseGet_of_absent fun c hc => by
      have := h c hc
      unfold bitAddr bitBase
      omega
  rw [bitRead, hz]
  simp

/-- The clause of HUF_DECODE where symbol number 4097 completes: 4097 zero bits with the table a:1, b:1. -/
theorem wit_HufDecodeOverflows :
    ((counted [(0x61, 1), (0x62, 1)]).setBitLen 4097).csr.bitLen.toNat = 4097 ∧
      4096 < (bufferDecode (freqCode ((counted [(0x61, 1), (0x62, 1)]).setBitLen 4097)) []
        (bitsOf ((counted [(0x61, 1), (0x62, 1)]).setBitLen 4097) 4097)).1.length := by
  have hb : bitsOf ((counted [(0x61, 1), (0x62, 1)]).setBitLen 4097) 4097 = List.replicate 4097 false := by
    rw [bitsOf, List.eq_replicate_iff]
    refine ⟨by rw [List.length_map, List.length_range], fun b hb => ?_⟩
    obtain ⟨i, -, rfl⟩ := List.mem_map.1 hb
    exact bitRead_of_no_bits (by decide +kernel) i
  refine ⟨by decide +kernel, ?_⟩
  rw [hb, bufferDecode_zeros (v := 0x61) (by decide +kernel), List.length_replicate]
  decide

/-- The clause of HUF_DECODE where one symbol repeats 4097 times. -/
theorem wit_HufDecodeOverflowsOneSymbol :
    4096 < (saturated.setBitLen 4097).csr.bitLen.toNat ∧ ∀ j, j ≤ 4096 → bitRead (saturated.setBitLen 4097) j = false :=
  ⟨by decide +kernel, fun j _ => bitRead_of_no_bits (by decide +kernel) j⟩

theorem wit_HufDecodeOfDegenerateTables :
    2 ^ 20 < (ready.setBitLen (2 ^ 20 + 1)).csr.bitLen.toNat ∧ distinctCount (ready.setBitLen 1) = 0 ∧
      (ready.setBitLen 1).csr.bitLen.toNat ≠ 0 ∧ (ready.setBitLen 0).csr.bitLen.toNat = 0 ∧
      distinctCount (withBits 4 4 saturated) = 1 ∧ (withBits 4 4 saturated).freq 0x61 ≠ 0 ∧
      (withBits 4 4 saturated).csr.bitLen.toNat ≤ 4096 ∧
      bitRead (withBits 4 4 saturated) 2 = true ∧ (∀ j, j < 2 → bitRead (withBits 4 4 saturated) j = false) ∧
      (∀ i, i < (withBits 0 4 saturated).csr.bitLen.toNat → bitRead (withBits 0 4 saturated) i = false) ∧
      Memory.wf (withBits 4 4 saturated).mem ∧ Memory.wf ready.mem := by decide +kernel

theorem wit_HufDecbitStepsTheWalker :
    Memory.wf (built abra).mem ∧ ready.csr.treeValid = false ∧ (built []).csr.treeValid = true ∧ (built []).csr.nsym = 0 ∧
      (built [(0x61, 4)]).csr.nsym = 1 ∧ ((built [(0x61, 4)]).nodeAt (built [(0x61, 4)]).csr.root).sym = 0x61 ∧
      (built abra).csr.treeValid = true ∧ (built abra).csr.nsym ≠ 0 ∧ (built abra).csr.nsym ≠ 1 ∧
      ((built abra).nodeAt (childOf ((built abra).nodeAt (built abra).csr.decNode) true)).leaf = false ∧
      ((built abra).nodeAt (childOf ((built abra).nodeAt (built abra).csr.decNode) false)).leaf = true ∧
      4096 ≤ ((built abra).setOutLen 4096).csr.outLen.toNat ∧ ((built abra).setOutLen 4095).csr.outLen.toNat < 4096 := by
  decide +kernel

theorem wit_HufDecendChecksTheEnd : ready.csr.treeValid = false ∧ midCode.csr.treeValid = true ∧ midCode.csr.decLen ≠ 0 ∧
    (built abra).csr.treeValid = true ∧ (built abra).csr.decLen = 0 := by decide +kernel

theorem wit_HuffmanRoundTrip : Memory.wf (fed [1, 2, 1]).mem ∧ (fed [1, 2, 1]).csr.inLen.toNat ≤ 4096 ∧ (fed []).csr.inLen = 0 ∧
    (input (fed [7, 7])).toFinset.card = 1 := by decide +kernel

theorem wit_StepwiseEncodingEqualsHufEncode : Memory.wf (fed [1, 2, 1]).mem ∧ (fed [1, 2, 1]).csr.inLen.toNat ≤ 4096 := by
  decide +kernel

theorem wit_StepwiseDecodingEqualsHufDecode : Memory.wf (withBits 5 3 (counted abra)).mem ∧
    (withBits 5 3 (counted abra)).csr.bitLen.toNat ≤ 2 ^ 20 := by decide +kernel

/-- Both windows constructed, one full and one with room. -/
def windows : State := { fed [1, 2, 3] with hwin := ⟨4095, [1, 2]⟩, lwin := ⟨2, [1, 2]⟩ }

theorem wit_WinInitConstructs : 1 ≤ 255 ∧ 255 < 256 ∧ 4095 < 4096 ∧ (after (exec (.winInit .hwin 4095) ready)).isSome = true := by
  decide +kernel

theorem wit_WinPushAppendsOrEvicts : (ready.win .hwin).cap = 0 ∧ (windows.win .hwin).seq.length < (windows.win .hwin).cap ∧
    (windows.win .lwin).seq = 1 :: [2] ∧ (windows.win .lwin).seq.length = (windows.win .lwin).cap := by decide +kernel

theorem wit_WinPushnKeepsTheLastSymbols :
    (windows.win .lwin).seq.length ≤ (windows.win .lwin).cap ∧ (windows.win .lwin).cap ≠ 0 ∧ windows.csr.inLen.toNat ≤ 4096 ∧
      (ready.win .lwin).seq.length ≤ (ready.win .lwin).cap ∧ (ready.win .lwin).cap = 0 ∧
      4096 < ({ windows with csr := overfull.csr } : State).csr.inLen.toNat := by decide +kernel

theorem wit_WinEvictRemovesTheOldest : (windows.win .hwin).seq.length < 2 ^ 32 ∧ (windows.win .hwin).cap ≠ 0 ∧
    (ready.win .lwin).cap = 0 := by decide +kernel

theorem wit_WinReadAnswersTheSymbol : 1 < 4096 ∧ (ready.win .hwin).cap = 0 ∧ (windows.win .hwin).cap ≠ 0 ∧
    (windows.win .hwin).seq[1]? = some 2 ∧ (windows.win .hwin).seq.length ≤ 2 := by decide +kernel

/-- The symbols of "ababab". -/
def abab (i : Nat) : Byte := if i % 2 = 0 then 0x61 else 0x62

theorem wit_MatchIsTheLongestAtTheSmallestOffset :
    1 < 6 ∧ (findMatch abab 6 4 3 1).len = 0 ∧ findMatch abab 6 4 3 2 = ⟨2, 3, 0x62⟩ ∧ (findMatch abab 6 4 3 5).len = 0 ∧
      (∀ j, j < 3 → abab (0 + j) = abab (2 + j)) := by decide

/-- "aaaaa" with W = 4, B = 2. -/
def lzIn : State := config 4 2 (fed [0x61, 0x61, 0x61, 0x61, 0x61])

theorem wit_LzEncstepEmitsOneToken :
    Memory.wf lzIn.mem ∧ ready.csr.cfgW = 0 ∧ lzIn.csr.cfgW ≠ 0 ∧ lzIn.csr.cfgB ≠ 0 ∧ lzIn.csr.inLen.toNat ≤ 4096 ∧
      lzIn.csr.tokLen.toNat < 4096 ∧ lzIn.csr.lzPos.toNat < lzIn.csr.inLen.toNat ∧
      lzIn.csr.inLen.toNat ≤ (lzIn.setLzPos 5).csr.lzPos.toNat ∧ 4096 ≤ (lzIn.setTokLen 4096).csr.tokLen.toNat ∧
      4096 < (config 4 2 overfull).csr.inLen.toNat ∧ (config 4 0 lzIn).csr.cfgB = 0 := by decide +kernel

theorem wit_LzEncodeWritesTheTokens :
    Memory.wf lzIn.mem ∧ ready.csr.cfgW = 0 ∧ lzIn.csr.cfgW ≠ 0 ∧ lzIn.csr.cfgB ≠ 0 ∧ lzIn.csr.inLen.toNat ≤ 4096 ∧
      4096 < (config 4 2 overfull).csr.inLen.toNat ∧ (config 4 2 overfull).csr.cfgW ≠ 0 := by decide +kernel

/-- OUT = "ab", W = 4, a token in ARG0. -/
def replaying (w : Nat) : State := config 4 0 (withArg w (withOut [0x61, 0x62] ready))

/-- One state for each of the outcomes: the four malformed tokens, the full OUT, a replay, an unset CFG_W. -/
theorem wit_LzDectokReplaysOneToken :
    Memory.wf (replaying 0x00020362).mem ∧ (replaying 0x00020362).csr.cfgW ≠ 0 ∧
      tokReserved (replaying 0x00020362).csr.arg0 = 0 ∧ tokDist (replaying 0x00020362).csr.arg0 = 2 ∧
      tokLength (replaying 0x00020362).csr.arg0 = 3 ∧ (replaying 0x00020362).csr.outLen.toNat = 2 ∧
      tokReserved (replaying 0x10000061).csr.arg0 ≠ 0 ∧
      (tokDist (replaying 0x00000161).csr.arg0 = 0 ∧ tokLength (replaying 0x00000161).csr.arg0 ≠ 0) ∧
      (replaying 0x00050061).csr.cfgW.toNat < tokDist (replaying 0x00050061).csr.arg0 ∧
      (replaying 0x00030061).csr.outLen.toNat < tokDist (replaying 0x00030061).csr.arg0 ∧
      4096 < ((replaying 0x00000061).setOutLen 4096).csr.outLen.toNat + 0 + 1 ∧ ready.csr.cfgW = 0 := by decide +kernel

theorem wit_LzDecodeReplaysTheTokens :
    Memory.wf (config 4 0 (withToks [0x61, 0x10162] ready)).mem ∧ ready.csr.cfgW = 0 ∧
      (config 4 0 (withToks [0x61, 0x10162] ready)).csr.cfgW ≠ 0 ∧
      4096 < ((config 4 0 ready).setTokLen 4097).csr.tokLen.toNat ∧
      ([0x61, 0x61, 0x62], none) = replayWords 4 0 [] [0x61#32, 0x10162#32] ∧
      ([0x61], some (1, 1)) = replayWords 4 0 [] [0x61#32, 0x50161#32] := by decide +kernel

theorem wit_LzssRoundTrip : Memory.wf lzIn.mem ∧ lzIn.csr.inLen.toNat ≤ 4096 ∧ lzIn.csr.cfgW ≠ 0 ∧ lzIn.csr.cfgB ≠ 0 := by
  decide +kernel

theorem reset_shapeOk : State.reset.shapeOk := by
  refine ⟨⟨⟨List.Pairwise.nil, ?_⟩, ?_⟩, ⟨Nat.le_refl 0, Nat.zero_le _⟩, ⟨Nat.le_refl 0, Nat.zero_le _⟩, Nat.zero_le _⟩ <;>
    exact fun c hc => nomatch hc

theorem wit_EveryStepKeepsTheShape : State.reset.shapeOk ∧ step State.reset = .next ready := ⟨reset_shapeOk, rfl⟩

/-- A pending HUF_DECBIT one bit inside a tree. -/
def midCommand : State := issue 0x00000139#32 midCode

theorem midCommand_pendingOk : midCommand.pendingOk := ⟨rfl, rfl, rfl⟩

theorem wit_EveryStepKeepsThePendingRule : midCommand.pendingOk ∧ (after (step midCommand)).isSome = true :=
  ⟨midCommand_pendingOk, by decide +kernel⟩

/-- The invariants hold in a state with a tree and the walker inside it, where a step goes on. -/
theorem wit_EveryStepKeepsTreeAndWalker :
    midCommand.pendingOk ∧ midCommand.treeOk ∧ midCommand.walkerOk ∧ (after (step midCommand)).isSome = true := by
  refine ⟨midCommand_pendingOk, ?_, fun _ => .inr ⟨by decide +kernel, by decide +kernel, [true], by decide +kernel, by decide +kernel⟩,
    by decide +kernel⟩
  unfold State.treeOk
  decide +kernel

/-- Two states that agree on the declared inputs of HUF_ENCODE and of HUF_DECODE and differ elsewhere. -/
theorem wit_HuffmanCommandsDependOnDeclaredInputs :
    Memory.wf (fed [1, 2]).mem ∧ Memory.wf (config 4 2 (withOut [9] (fed [1, 2]))).mem ∧
      (fed [1, 2]).csr.inLen = (config 4 2 (withOut [9] (fed [1, 2]))).csr.inLen ∧
      input (fed [1, 2]) = input (config 4 2 (withOut [9] (fed [1, 2]))) ∧
      fed [1, 2] ≠ config 4 2 (withOut [9] (fed [1, 2])) ∧
      Memory.wf (withBits 0x17 3 (counted abra)).mem ∧ Memory.wf (withBits 0xFF7 3 (built abra)).mem ∧
      (withBits 0x17 3 (counted abra)).csr.bitLen = (withBits 0xFF7 3 (built abra)).csr.bitLen ∧
      (∀ i, i < 256 → (withBits 0x17 3 (counted abra)).freq i = (withBits 0xFF7 3 (built abra)).freq i) ∧
      bitsOf (withBits 0x17 3 (counted abra)) 3 = bitsOf (withBits 0xFF7 3 (built abra)) 3 ∧
      withBits 0x17 3 (counted abra) ≠ withBits 0xFF7 3 (built abra) := by decide +kernel

/-- Two states that agree on the declared inputs of LZ_ENCODE and of LZ_DECODE and differ elsewhere. -/
theorem wit_LzssCommandsDependOnDeclaredInputs :
    Memory.wf lzIn.mem ∧ Memory.wf (withToks [0x61] lzIn).mem ∧ lzIn.csr.inLen = (withToks [0x61] lzIn).csr.inLen ∧
      input lzIn = input (withToks [0x61] lzIn) ∧ lzIn.csr.cfgW = (withToks [0x61] lzIn).csr.cfgW ∧
      lzIn.csr.cfgB = (withToks [0x61] lzIn).csr.cfgB ∧ lzIn ≠ withToks [0x61] lzIn ∧
      (config 4 0 (withToks [0x61] ready)).csr.tokLen = (withToks [0x61] lzIn).csr.tokLen ∧
      (config 4 0 (withToks [0x61] ready)).csr.cfgW = (withToks [0x61] lzIn).csr.cfgW ∧
      (List.range 1).map (config 4 0 (withToks [0x61] ready)).tok = (List.range 1).map (withToks [0x61] lzIn).tok ∧
      config 4 0 (withToks [0x61] ready) ≠ withToks [0x61] lzIn := by decide +kernel

end Sys2Proof.Tests
end

section
/-! PROOFS. The trace port (00_scope.md R8, 60_exceptions.md R169): every command's `Exec` commutes with any change of the
parameters and of the trace log, so that it neither reads nor writes them. -/

namespace Sys2Proof.Machine

/-! ### The state seen with another port -/

/-- The state with other parameters and another trace log: all that TRACE_EN can make differ. -/
def State.withPort (p : Params) (tr : List TraceEvent) (s : State) : State := { s with params := p, trace := tr }

/-- What `Exec` leaves, seen with another port: the same result or error. -/
def ExecResult.withPort (p : Params) (tr : List TraceEvent) (r : ExecResult) : ExecResult := ⟨r.st.withPort p tr, r.res⟩

/-- `Exec` neither reads nor writes the parameters and the trace log. -/
def PortBlind (run : State → ExecResult) : Prop := ∀ p tr s, run (s.withPort p tr) = (run s).withPort p tr

/-- TRACE_EN changes nothing that a command leaves but the trace log, and without it no event leaves
(60_exceptions.md R169). -/
def TraceBlind (ex : State → Host.Outcome State Fault Refusal) : Prop :=
  ∀ (s : State) (b : Bool), ∃ t u, ex s = .next t ∧ ex { s with params := { s.params with traceEn := b } } = .next u ∧
    { u with params := t.params, trace := t.trace } = t ∧ (s.params.traceEn = false → t.trace = s.trace)

section
variable (p : Params) (tr : List TraceEvent) (s : State)

@[simp] theorem State.withPort_csr : (s.withPort p tr).csr = s.csr := rfl
@[simp] theorem State.withPort_lutAt : (s.withPort p tr).lutAt = s.lutAt := rfl
@[simp] theorem State.withPort_nodeAt : (s.withPort p tr).nodeAt = s.nodeAt := rfl
@[simp] theorem bitRead_withPort (i : Nat) : bitRead (s.withPort p tr) i = bitRead s i := rfl

@[simp] theorem State.withPort_win (sel : WinSel) : (s.withPort p tr).win sel = s.win sel := by cases sel <;> rfl

@[simp] theorem State.setWin_withPort (sel : WinSel) (x : Window) :
    (s.withPort p tr).setWin sel x = (s.setWin sel x).withPort p tr := by cases sel <;> rfl

/-- The port goes through a choice between two outcomes of `Exec`. -/
theorem ExecResult.withPort_ite (c : Prop) [Decidable c] (a b : ExecResult) :
    (if c then a else b).withPort p tr = if c then a.withPort p tr else b.withPort p tr :=
  apply_ite _ c a b

/-- The completion record neither reads nor writes the port (40_control.md R104). -/
theorem complete_withPort (r : ExecResult) : complete (r.withPort p tr) = (complete r).withPort p tr := by
  obtain ⟨t, res⟩ := r
  cases res <;> rfl

/-! ### Loops -/

/-- An element loop commutes with the port where each element does. -/
theorem forElems_withPort {f : Nat → State → Except Err State}
    (hf : ∀ s i, f i (s.withPort p tr) = (f i s).map (State.withPort p tr)) (is : List Nat) :
    forElems f is (s.withPort p tr) = ((forElems f is s).1.withPort p tr, (forElems f is s).2) := by
  induction is generalizing s with
  | nil => rfl
  | cons i is ih =>
    rw [forElems_cons, forElems_cons, hf]
    cases f i s with
    | ok s' => exact ih s'
    | error e => rfl

/-- A fold of state updates commutes with the port where each update does. -/
theorem foldl_withPort {g : State → Nat → State} (hg : ∀ s i, g (s.withPort p tr) i = (g s i).withPort p tr)
    (is : List Nat) : is.foldl g (s.withPort p tr) = (is.foldl g s).withPort p tr :=
  List.foldl_hom (State.withPort p tr) hg

theorem histogram_withPort (n : Nat) : histogram n (s.withPort p tr) = (histogram n s).withPort p tr :=
  congrArg State.invalidateTree (foldl_withPort p tr s.clearFreq (fun _ _ => rfl) _)

theorem bitWrite_withPort (pos : Nat) (code : BitVec 255) (len : Nat) :
    bitWrite pos code len (s.withPort p tr) = (bitWrite pos code len s).withPort p tr :=
  foldl_withPort p tr s (fun _ _ => rfl) _

theorem copySymbols_withPort (m d : Nat) (js : List Nat) :
    copySymbols m d js (s.withPort p tr) = (copySymbols m d js s).withPort p tr :=
  foldl_withPort p tr s (fun _ _ => rfl) _

theorem lzStep_withPort : lzStep (s.withPort p tr) = (lzStep s).withPort p tr := rfl

theorem lzLoop_withPort (k : Nat) :
    lzLoop k (s.withPort p tr) = ((lzLoop k s).1.withPort p tr, (lzLoop k s).2) := by
  induction k generalizing s with
  | zero => rfl
  | succ k ih =>
    simp only [lzLoop, State.withPort_csr, lzStep_withPort, ih]
    split
    · split <;> rfl
    · rfl

/-! ### Elements of the sequence commands -/

theorem appendCode_withPort (e : LutEntry) (pos : Nat) :
    appendCode e pos (s.withPort p tr) = (appendCode e pos s).map (State.withPort p tr) := by
  simp only [appendCode, State.withPort_csr, bitWrite_withPort, apply_ite (Except.map (State.withPort p tr))]
  rfl

theorem emitSym_withPort (sym : Byte) (pos : Nat) :
    emitSym sym pos (s.withPort p tr) = (emitSym sym pos s).map (Prod.map (State.withPort p tr) id) := by
  rw [emitSym, emitSym, apply_ite (Except.map (Prod.map (State.withPort p tr) id))]
  rfl

theorem decStep_withPort (b : Bool) (pos : Nat) :
    decStep b pos (s.withPort p tr) = (decStep b pos s).map (Prod.map (State.withPort p tr) id) := by
  simp only [decStep, State.withPort_csr, State.withPort_nodeAt, emitSym_withPort,
    apply_ite (Except.map (Prod.map (State.withPort p tr) id))]
  rfl

theorem encodeElem_withPort (i : Nat) : encodeElem i (s.withPort p tr) = (encodeElem i s).map (State.withPort p tr) :=
  appendCode_withPort p tr s _ i

theorem decodeElem_withPort (i : Nat) : decodeElem i (s.withPort p tr) = (decodeElem i s).map (State.withPort p tr) := by
  simp only [decodeElem, bitRead_withPort, decStep_withPort]
  cases decStep (bitRead s i) i s <;> rfl

theorem endCheck_withPort (pos v : Nat) : endCheck pos v (s.withPort p tr) = (endCheck pos v s).withPort p tr := by
  rw [endCheck, endCheck, ExecResult.withPort_ite]
  rfl

theorem replayToken_withPort (wd : Word) : replayToken wd (s.withPort p tr) = (replayToken wd s).withPort p tr := by
  simp only [replayToken, State.withPort_csr, copySymbols_withPort]
  rfl

theorem decodeToken_withPort (wd : Word) (pos : Nat) :
    decodeToken wd pos (s.withPort p tr) = (decodeToken wd pos s).map (State.withPort p tr) := by
  simp only [decodeToken, State.withPort_csr, replayToken_withPort, apply_ite (Except.map (State.withPort p tr))]
  rfl

end

/-! ### The commands -/

theorem portBlind_runNop : PortBlind runNop := fun _ _ _ => rfl

theorem portBlind_runFrqClear : PortBlind runFrqClear := fun _ _ _ => rfl

theorem portBlind_runFrqCount : PortBlind runFrqCount := fun p tr s => by
  simp only [runFrqCount, State.withPort_csr, histogram_withPort, ExecResult.withPort_ite]
  rfl

theorem portBlind_runFrqInc (sym : Byte) : PortBlind (runFrqInc sym) := fun p tr s => by
  simp only [runFrqInc, ExecResult.withPort_ite]
  rfl

theorem portBlind_runHufBuild : PortBlind runHufBuild := fun _ _ _ => rfl

theorem portBlind_runHufEncode : PortBlind runHufEncode := fun p tr s => by
  have hloop := forElems_withPort p tr ((buildTree (histogram s.csr.inLen.toNat s)).setBitLen 0)
    (fun s i => encodeElem_withPort p tr s i) (List.range s.csr.inLen.toNat)
  have hstart : (buildTree (histogram s.csr.inLen.toNat (s.withPort p tr))).setBitLen 0 =
      ((buildTree (histogram s.csr.inLen.toNat s)).setBitLen 0).withPort p tr := by
    rw [histogram_withPort]; rfl
  simp only [runHufEncode, State.withPort_csr, hstart, hloop, ExecResult.withPort_ite]
  obtain ⟨t, _ | e⟩ := forElems encodeElem _ _ <;> rfl

theorem portBlind_runHufPutsym (sym : Byte) : PortBlind (runHufPutsym sym) := fun p tr s => by
  simp only [runHufPutsym, State.withPort_csr, State.withPort_lutAt, appendCode_withPort, ExecResult.withPort_ite]
  cases appendCode (s.lutAt sym) 0 s <;> rfl

theorem portBlind_runHufDecode : PortBlind runHufDecode := fun p tr s => by
  have hloop := forElems_withPort p tr ((buildTree s).setOutLen 0) (fun s i => decodeElem_withPort p tr s i)
    (List.range s.csr.bitLen.toNat)
  have hstart : (buildTree (s.withPort p tr)).setOutLen 0 = ((buildTree s).setOutLen 0).withPort p tr := rfl
  simp only [runHufDecode, State.withPort_csr, hstart, hloop, ExecResult.withPort_ite]
  obtain ⟨t, _ | e⟩ := forElems decodeElem _ _
  · simp only [State.withPort_csr, endCheck_withPort]; rfl
  · rfl

theorem portBlind_runHufDecbit (bit : Bool) : PortBlind (runHufDecbit bit) := fun p tr s => by
  simp only [runHufDecbit, State.withPort_csr, decStep_withPort, ExecResult.withPort_ite]
  cases decStep bit 0 s <;> rfl

theorem portBlind_runHufDecend : PortBlind runHufDecend := fun p tr s => by
  simp only [runHufDecend, State.withPort_csr, endCheck_withPort, ExecResult.withPort_ite]
  rfl

theorem portBlind_runWinInit (sel : WinSel) (cap : Nat) : PortBlind (runWinInit sel cap) := fun p tr s => by
  simp only [runWinInit, State.setWin_withPort, ExecResult.withPort_ite]
  rfl

theorem portBlind_runWinPush (sel : WinSel) (sym : Byte) : PortBlind (runWinPush sel sym) := fun p tr s => by
  simp only [runWinPush, State.withPort_win, State.setWin_withPort, ExecResult.withPort_ite]
  rfl

theorem portBlind_runWinPushn (sel : WinSel) : PortBlind (runWinPushn sel) := fun p tr s => by
  simp only [runWinPushn, State.withPort_win, State.setWin_withPort, ExecResult.withPort_ite]
  rfl

theorem portBlind_runWinEvict (sel : WinSel) (cnt : Nat) : PortBlind (runWinEvict sel cnt) := fun p tr s => by
  simp only [runWinEvict, State.withPort_win, State.setWin_withPort, ExecResult.withPort_ite]
  rfl

theorem portBlind_runWinRead (sel : WinSel) (idx : Nat) : PortBlind (runWinRead sel idx) := fun p tr s => by
  simp only [runWinRead, State.withPort_win, ExecResult.withPort_ite]
  cases (s.win sel).seq[idx]? <;> rfl

theorem portBlind_runLzEncode : PortBlind runLzEncode := fun p tr s => by
  have hstart : loadWindows 0 (((s.withPort p tr).setTokLen 0).setLzPos 0) =
      (loadWindows 0 ((s.setTokLen 0).setLzPos 0)).withPort p tr := rfl
  simp only [runLzEncode, State.withPort_csr, hstart, lzLoop_withPort, ExecResult.withPort_ite]
  obtain ⟨t, _ | e⟩ := lzLoop _ _ <;> rfl

theorem portBlind_runLzEncstep : PortBlind runLzEncstep := fun p tr s => by
  simp only [runLzEncstep, ExecResult.withPort_ite]
  rfl

theorem portBlind_runLzDecode : PortBlind runLzDecode := fun p tr s => by
  have hloop := forElems_withPort p tr ((s.setOutLen 0).setWin .hwin (Window.construct s.csr.cfgW.toNat))
    (f := fun i t => decodeToken (t.tok i) i t) (fun s i => decodeToken_withPort p tr s (s.tok i) i)
    (List.range s.csr.tokLen.toNat)
  have hstart : ((s.withPort p tr).setOutLen 0).setWin .hwin (Window.construct s.csr.cfgW.toNat) =
      ((s.setOutLen 0).setWin .hwin (Window.construct s.csr.cfgW.toNat)).withPort p tr := rfl
  simp only [runLzDecode, State.withPort_csr, hstart, hloop, ExecResult.withPort_ite]
  obtain ⟨t, _ | e⟩ := forElems (fun i t => decodeToken (t.tok i) i t) _ _ <;> rfl

theorem portBlind_runLzDectok : PortBlind runLzDectok := fun p tr s => by
  simp only [runLzDectok, State.withPort_csr, decodeToken_withPort, ExecResult.withPort_ite]
  cases decodeToken s.csr.arg0 0 s <;> rfl

/-! ### From `Exec` to the completion -/

/-- `Exec` that is blind to the port leaves the parameters as they are. -/
theorem PortBlind.params {run : State → ExecResult} (h : PortBlind run) (s : State) : (run s).st.params = s.params :=
  congrArg (fun r => r.st.params) (h s.params s.trace s)

/-- `Exec` that is blind to the port leaves the trace log as it is. -/
theorem PortBlind.trace {run : State → ExecResult} (h : PortBlind run) (s : State) : (run s).st.trace = s.trace :=
  congrArg (fun r => r.st.trace) (h s.params s.trace s)

/-- States that differ in the port alone agree up to the port, whatever events each of them emits. -/
theorem emit_withPort (p : Params) (tr : List TraceEvent) (s : State) (evs evs' : List TraceEvent) :
    (emit evs' (s.withPort p tr)).withPort (emit evs s).params (emit evs s).trace = emit evs s := by
  unfold emit
  split <;> split <;> rfl

theorem emit_nil (s : State) : emit [] s = s := by
  unfold emit
  split
  · rw [List.append_nil]
  · rfl

/-- A completion with events is blind to TRACE_EN, whatever the events are (60_exceptions.md R169). -/
theorem traceBlind_finish {run : State → ExecResult} (h : PortBlind run) (evs : State → List TraceEvent) :
    TraceBlind fun s => finish (evs s) (run s) := by
  intro s b
  refine ⟨_, _, rfl, rfl, ?_, fun hoff => ?_⟩
  · have hrun : complete (run { s with params := { s.params with traceEn := b } }) =
        (complete (run s)).withPort { s.params with traceEn := b } s.trace := by
      rw [← complete_withPort]
      exact congrArg complete (h { s.params with traceEn := b } s.trace s)
    rw [hrun]
    exact emit_withPort _ _ _ _ _
  · obtain ⟨-, -, -, -, -, -, hparams, -, -, -, -, htrace⟩ := complete_frame (run s)
    rw [emit_trace, hparams, h.params, hoff, htrace, h.trace]
    rfl

/-- A completion without events is blind to TRACE_EN. -/
theorem traceBlind_complete {run : State → ExecResult} (h : PortBlind run) :
    TraceBlind fun s => .next (complete (run s)) := by
  simpa only [finish, emit_nil] using traceBlind_finish h fun _ => []

/-- Every command is blind to TRACE_EN (00_scope.md R8). -/
theorem traceBlind_exec (i : Instr) : TraceBlind (exec i) := by
  cases i with
  | nop => exact traceBlind_complete portBlind_runNop
  | frqClear => exact traceBlind_complete portBlind_runFrqClear
  | frqCount => exact traceBlind_complete portBlind_runFrqCount
  | frqInc sym => exact traceBlind_complete (portBlind_runFrqInc sym)
  | hufBuild => exact traceBlind_complete portBlind_runHufBuild
  | hufEncode => exact traceBlind_finish portBlind_runHufEncode _
  | hufPutsym sym => exact traceBlind_finish (portBlind_runHufPutsym sym) _
  | hufDecode => exact traceBlind_finish portBlind_runHufDecode _
  | hufDecbit bit => exact traceBlind_finish (portBlind_runHufDecbit bit) _
  | hufDecend => exact traceBlind_complete portBlind_runHufDecend
  | winInit sel cap => exact traceBlind_complete (portBlind_runWinInit sel cap)
  | winPush sel sym => exact traceBlind_complete (portBlind_runWinPush sel sym)
  | winPushn sel => exact traceBlind_complete (portBlind_runWinPushn sel)
  | winEvict sel cnt => exact traceBlind_complete (portBlind_runWinEvict sel cnt)
  | winRead sel idx => exact traceBlind_complete (portBlind_runWinRead sel idx)
  | lzEncode => exact traceBlind_finish portBlind_runLzEncode _
  | lzEncstep => exact traceBlind_finish portBlind_runLzEncstep _
  | lzDecode => exact traceBlind_finish portBlind_runLzDecode _
  | lzDectok => exact traceBlind_finish portBlind_runLzDectok _

/-- Settles O22: `Exec` of every command commutes with any change of the port, and the completion adds events to the log
alone. -/
theorem tracePortHasNoEffect : Obligations.TracePortHasNoEffect := by
  unfold Obligations.TracePortHasNoEffect
  exact traceBlind_exec

end Sys2Proof.Machine
end

section
/-! PROOFS. The tree that an arena holds, as data: a binary tree with symbols at its leaves, the paths in it, and that
`BuildTree` leaves such a tree at ROOT (42_huffman_tree.md R116 to R123). -/

namespace Sys2Proof.Machine

/-! ### Binary trees and the paths in them -/

/-- A strictly binary tree with a symbol at each leaf (42_huffman_tree.md R116). -/
inductive HuffTree where
  | leaf (v : Byte)
  | node (l r : HuffTree)

namespace HuffTree

/-- The symbols of the leaves, left to right. -/
def syms : HuffTree → List Byte
  | .leaf v => [v]
  | .node l r => l.syms ++ r.syms

/-- The number of nodes, leaves included. -/
def size : HuffTree → Nat
  | .leaf _ => 1
  | .node l r => l.size + r.size + 1

/-- The subtree at the end of a path, 0 left and 1 right; no path goes on past a leaf (42_huffman_tree.md R126). -/
def sub : HuffTree → List Bool → Option HuffTree
  | t, [] => some t
  | .leaf _, _ :: _ => none
  | .node l r, b :: p => (if b then r else l).sub p

variable {t u l r : HuffTree} {p q : List Bool} {b : Bool} {v : Byte}

@[simp] theorem sub_nil : t.sub [] = some t := by cases t <;> rfl

@[simp] theorem sub_leaf_cons : (leaf v).sub (b :: p) = none := rfl

@[simp] theorem sub_node_cons : (node l r).sub (b :: p) = (if b then r else l).sub p := rfl

theorem sub_append : t.sub (p ++ q) = (t.sub p).bind fun u => u.sub q := by
  induction p generalizing t with
  | nil => simp
  | cons b p ih =>
    cases t with
    | leaf v => rfl
    | node l r => exact ih

/-- One bit more leads from an internal node to the child it names. -/
theorem sub_snoc (h : t.sub p = some (node l r)) : t.sub (p ++ [b]) = some (if b then r else l) := by
  rw [sub_append, h]
  simp

theorem syms_length_pos : 0 < t.syms.length := by
  induction t with
  | leaf v => simp [syms]
  | node l r ihl ihr => simp only [syms, List.length_append]; omega

/-- Each step of a path leaves at least one leaf behind. -/
theorem length_add_syms_le (h : t.sub p = some u) : p.length + u.syms.length ≤ t.syms.length := by
  induction p generalizing t with
  | nil =>
    obtain rfl := Option.some.inj (sub_nil.symm.trans h)
    simp
  | cons b p ih =>
    cases t with
    | leaf v => cases h
    | node l r =>
      have hl : 0 < l.syms.length := syms_length_pos
      have hr : 0 < r.syms.length := syms_length_pos
      have hchild := ih (t := if b then r else l) h
      cases b <;> simp [syms] at hchild ⊢ <;> omega

/-- A path to an internal node is two bits shorter than the number of leaves at least. -/
theorem length_of_sub_node (h : t.sub p = some (node l r)) : p.length + 2 ≤ t.syms.length := by
  have hl : 0 < l.syms.length := syms_length_pos
  have hr : 0 < r.syms.length := syms_length_pos
  have hp := length_add_syms_le h
  simp only [syms, List.length_append] at hp
  omega

/-- Every path to a leaf is shorter than the number of leaves. -/
theorem length_of_sub_leaf (h : t.sub p = some (leaf v)) : p.length + 1 ≤ t.syms.length := length_add_syms_le h

/-- A symbol stands in the tree exactly where some path leads to its leaf. -/
theorem mem_syms_iff : v ∈ t.syms ↔ ∃ p, t.sub p = some (leaf v) := by
  constructor
  · intro h
    induction t with
    | leaf w => exact ⟨[], by rw [sub_nil, List.mem_singleton.1 h]⟩
    | node l r ihl ihr =>
      rcases List.mem_append.1 h with h | h
      · obtain ⟨p, hp⟩ := ihl h
        exact ⟨false :: p, hp⟩
      · obtain ⟨p, hp⟩ := ihr h
        exact ⟨true :: p, hp⟩
  · rintro ⟨p, hp⟩
    induction p generalizing t with
    | nil =>
      obtain rfl := Option.some.inj (sub_nil.symm.trans hp)
      simp [syms]
    | cons b p ih =>
      cases t with
      | leaf w => cases hp
      | node l r =>
        have hchild := ih (t := if b then r else l) hp
        cases b
        · exact List.mem_append_left _ hchild
        · exact List.mem_append_right _ hchild

end HuffTree

/-! ### The tree at a node of an arena -/

/-- The node `i` of the arena `ar` and all nodes under it form the tree. -/
def Represents (ar : List Node) : HuffTree → Nat → Prop
  | .leaf v, i => i < ar.length ∧ (arenaAt ar i).leaf = true ∧ (arenaAt ar i).sym = v
  | .node l r, i => i < ar.length ∧ (arenaAt ar i).leaf = false ∧ Represents ar l (arenaAt ar i).left.toNat ∧
      Represents ar r (arenaAt ar i).right.toNat

section
variable {ar : List Node} {t l r : HuffTree} {i : Nat}

theorem Represents.lt (h : Represents ar t i) : i < ar.length := by
  cases t with
  | leaf v => exact h.1
  | node l r => exact h.1

theorem Represents.not_leaf (h : Represents ar (.node l r) i) : (arenaAt ar i).leaf = false := h.2.1

theorem Represents.leaf_sym {v : Byte} (h : Represents ar (.leaf v) i) :
    (arenaAt ar i).leaf = true ∧ (arenaAt ar i).sym = v := h.2

theorem arenaAt_append_left (h : i < ar.length) (x : List Node) : arenaAt (ar ++ x) i = arenaAt ar i :=
  List.getD_append ar x Node.zero i h

theorem arenaAt_concat_length (n : Node) : arenaAt (ar ++ [n]) ar.length = n := by
  simp [arenaAt]

/-- What stands in an arena stays when nodes are appended (42_huffman_tree.md R121). -/
theorem Represents.append (h : Represents ar t i) (x : List Node) : Represents (ar ++ x) t i := by
  induction t generalizing i with
  | leaf v =>
    obtain ⟨hi, hleaf, hsym⟩ := h
    refine ⟨by rw [List.length_append]; omega, ?_, ?_⟩ <;> rw [arenaAt_append_left hi] <;> assumption
  | node l r ihl ihr =>
    obtain ⟨hi, hleaf, hl, hr⟩ := h
    refine ⟨by rw [List.length_append]; omega, ?_, ?_, ?_⟩ <;> rw [arenaAt_append_left hi]
    · exact hleaf
    · exact ihl hl
    · exact ihr hr

/-- The child that a bit names represents the subtree that it names. -/
theorem Represents.child (h : Represents ar (.node l r) i) (b : Bool) :
    Represents ar (if b then r else l) (childOf (arenaAt ar i) b).toNat := by
  obtain ⟨-, -, hl, hr⟩ := h
  cases b
  · exact hl
  · exact hr

/-- A node that is no leaf has two subtrees. -/
theorem Represents.exists_node (h : Represents ar t i) (hleaf : (arenaAt ar i).leaf = false) :
    ∃ l r, t = .node l r := by
  cases t with
  | leaf v =>
    exact absurd h.leaf_sym.1 (by simp [hleaf])
  | node l r => exact ⟨l, r, rfl⟩

/-- A path in the arena is a path in the tree it holds. -/
theorem Represents.sub_of_walk {i j : BitVec 9} {p : List Bool} (h : Represents ar t i.toNat)
    (hw : walk ar i p = some j) : ∃ u, t.sub p = some u ∧ Represents ar u j.toNat := by
  induction p generalizing t i with
  | nil =>
    obtain rfl := Option.some.inj hw
    exact ⟨t, HuffTree.sub_nil, h⟩
  | cons b p ih =>
    rw [walk] at hw
    split at hw
    · cases hw
    · rename_i hleaf
      obtain ⟨l, r, rfl⟩ := h.exists_node (Bool.eq_false_iff.2 hleaf)
      exact ih (h.child b) hw

/-- A path to an internal node goes on with either bit. -/
theorem walk_snoc {i j : BitVec 9} {p : List Bool} (hw : walk ar i p = some j)
    (hleaf : (arenaAt ar j.toNat).leaf = false) (b : Bool) :
    walk ar i (p ++ [b]) = some (childOf (arenaAt ar j.toNat) b) := by
  induction p generalizing i with
  | nil =>
    obtain rfl := Option.some.inj hw
    exact if_neg (Bool.eq_false_iff.1 hleaf)
  | cons c p ih =>
    rw [walk] at hw
    rw [List.cons_append, walk]
    split at hw
    · cases hw
    · rename_i hc
      rw [if_neg hc]
      exact ih hw

end

/-! ### The forest that the merge loop keeps -/

/-- The heap `h` holds the roots of a forest: the tree at `i` is `g i`, the trees together use every node of the arena
once, their leaves carry the symbols `syms`, and the newest node is the last of the heap. -/
structure Forest (syms : List Byte) (g : Nat → HuffTree) (ar : List Node) (h : List Nat) : Prop where
  represents : ∀ i ∈ h, Represents ar (g i) i
  size : (h.map fun i => (g i).size).sum = ar.length
  perm : (h.flatMap fun i => (g i).syms).Perm syms
  count : ar.length + h.length = 2 * syms.length
  last : h.getLast? = some (ar.length - 1)

/-- One merge joins two trees of the forest under a new root (42_huffman_tree.md R121). -/
theorem Forest.merge {syms : List Byte} {g : Nat → HuffTree} {ar : List Node} {h : List Nat} {a b : Nat}
    (hf : Forest syms g ar h) (hk : syms.length ≤ 256) (ha : a ∈ h) (hb : b ∈ h.erase a) :
    Forest syms (Function.update g ar.length (.node (g a) (g b))) (ar ++ [mergeNode ar a b])
      ((h.erase a).erase b ++ [ar.length]) := by
  generalize hrest : (h.erase a).erase b = rest
  have hperm : h.Perm (a :: b :: rest) :=
    hrest ▸ (List.perm_cons_erase ha).trans ((List.perm_cons_erase hb).cons a)
  have hlt : ∀ i ∈ h, i < ar.length := fun i hi => (hf.represents i hi).lt
  have hmem : ∀ i ∈ rest, i ∈ h := fun i hi =>
    List.mem_of_mem_erase (List.mem_of_mem_erase (hrest ▸ hi : i ∈ (h.erase a).erase b))
  have hold : ∀ i, i < ar.length → Function.update g ar.length (.node (g a) (g b)) i = g i := fun i hi =>
    Function.update_of_ne (Nat.ne_of_lt hi) _ _
  have hlen := hperm.length_eq
  have hcount := hf.count
  simp only [List.length_cons] at hlen
  have hnarrow : ∀ i ∈ h, (BitVec.ofNat 9 i).toNat = i := fun i hi => by
    have := hlt i hi
    rw [BitVec.toNat_ofNat]; omega
  have hbh := List.mem_of_mem_erase hb
  constructor
  case represents =>
    intro i hi
    rcases List.mem_append.1 hi with hi | hi
    · rw [hold i (hlt i (hmem i hi))]
      exact (hf.represents i (hmem i hi)).append _
    · obtain rfl := List.mem_singleton.1 hi
      rw [Function.update_self]
      refine ⟨by simp, ?_, ?_, ?_⟩ <;> rw [arenaAt_concat_length]
      · rfl
      · simp only [mergeNode, hnarrow a ha]
        exact (hf.represents a ha).append _
      · simp only [mergeNode, hnarrow b hbh]
        exact (hf.represents b hbh).append _
  case size =>
    have hsum := (hperm.map fun i => (g i).size).sum_eq
    rw [hf.size] at hsum
    rw [List.map_append, List.map_congr_left fun i hi => by rw [hold i (hlt i (hmem i hi))]]
    simp [HuffTree.size] at hsum ⊢
    omega
  case perm =>
    refine .trans ?_ ((hperm.flatMap_right fun i => (g i).syms).symm.trans hf.perm)
    rw [List.flatMap_append, List.flatMap_congr fun i hi => by rw [hold i (hlt i (hmem i hi))]]
    simp only [List.flatMap_cons, List.flatMap_nil, Function.update_self, HuffTree.syms, List.append_nil]
    rw [← List.append_assoc (g a).syms]
    exact List.perm_append_comm
  case count =>
    simp only [List.length_append, List.length_singleton]
    omega
  case last => simp

/-- The leaves alone, one tree for each (42_huffman_tree.md R120). -/
theorem Forest.leaves {f : Nat → Word} (hk : presentSyms f ≠ []) :
    Forest ((presentSyms f).map (BitVec.ofNat 8)) (fun i => .leaf (arenaAt ((presentSyms f).map (leafNode f)) i).sym)
      ((presentSyms f).map (leafNode f)) (List.range ((presentSyms f).map (leafNode f)).length) := by
  have hpos := List.length_pos_iff.2 hk
  constructor
  case represents =>
    intro i hi
    have hi := List.mem_range.1 hi
    refine ⟨hi, ?_, rfl⟩
    rw [arenaAt, List.getD_eq_getElem _ _ hi, List.getElem_map]
    rfl
  case size => simp [HuffTree.size]
  case perm =>
    refine .of_eq ?_
    simp only [HuffTree.syms]
    rw [← List.map_eq_flatMap]
    refine List.ext_getElem (by simp) fun i h1 h2 => ?_
    simp only [List.length_map] at h2
    simp [arenaAt, leafNode, h2]
  case count => simp; omega
  case last =>
    rw [List.getLast?_range]
    simp [hk]

/-! ### The tree of a table of counters -/

/-- `t` is the tree of the counters `f`: the one at ROOT of the arena that `BuildTree` leaves. -/
structure IsTreeOf (f : Nat → Word) (t : HuffTree) : Prop where
  root : Represents (buildArena f) t (rootOf (buildArena f)).toNat
  size : t.size = (buildArena f).length
  perm : t.syms.Perm ((presentSyms f).map (BitVec.ofNat 8))

/-- ROOT is the last entry of a nonempty arena (42_huffman_tree.md R122). -/
theorem rootOf_toNat {ar : List Node} (h0 : ar ≠ []) (h : ar.length ≤ 512) : (rootOf ar).toNat = ar.length - 1 := by
  rw [rootOf, if_neg h0, BitVec.toNat_ofNat]
  omega

/-- Every table with a symbol has a tree (42_huffman_tree.md R116, R122). -/
theorem exists_isTreeOf {f : Nat → Word} (hk : presentSyms f ≠ []) : ∃ t, IsTreeOf f t := by
  have hpos := List.length_pos_iff.2 hk
  have hle := presentSyms_length_le f
  have hlen := buildArena_length hk
  obtain ⟨h', ⟨g, hf⟩, hl⟩ := mergeLoop_induct (n := ((presentSyms f).map (leafNode f)).length - 1)
    (P := fun ar h => ∃ g, Forest ((presentSyms f).map (BitVec.ofNat 8)) g ar h)
    (by simp; omega) ⟨_, Forest.leaves hk⟩
    fun ar h a b ⟨g, hf⟩ ha hb => ⟨_, hf.merge (by simpa using hle) (leastKey_mem ha) (leastKey_mem hb)⟩
  obtain ⟨i, rfl⟩ : ∃ i, h' = [i] := List.length_eq_one_iff.1 (by rw [hl]; simp; omega)
  change Forest _ g (buildArena f) [i] at hf
  have hlast : i = (buildArena f).length - 1 := by simpa using hf.last
  have hsize := hf.size
  have hperm := hf.perm
  have hrep := hf.represents i (by simp)
  refine ⟨g i, ?_, by simpa using hsize, by simpa using hperm⟩
  rwa [rootOf_toNat (List.length_pos_iff.1 (by omega)) (by omega), ← hlast]

section
variable {f : Nat → Word} {t : HuffTree} (h : IsTreeOf f t)
include h

/-- The tree has a leaf for each present symbol. -/
theorem IsTreeOf.syms_length : t.syms.length = (presentSyms f).length := by
  rw [h.perm.length_eq, List.length_map]

theorem IsTreeOf.syms_length_le : t.syms.length ≤ 256 := h.syms_length ▸ presentSyms_length_le f

/-- The tree of two symbols or more is no leaf. -/
theorem IsTreeOf.exists_node (hk : 2 ≤ (presentSyms f).length) : ∃ l r, t = .node l r := by
  have hl := h.syms_length
  cases t with
  | leaf v => simp [HuffTree.syms] at hl; omega
  | node l r => exact ⟨l, r, rfl⟩

end

end Sys2Proof.Machine
end

section
/-! PROOFS. Every command completes: its `Exec`, then the completion record, then the events on the trace port
(40_control.md R104). -/

namespace Sys2Proof.Machine

/-- `Exec` of a command, without its completion. -/
def runOf : Instr → State → ExecResult
  | .nop => runNop
  | .frqClear => runFrqClear
  | .frqCount => runFrqCount
  | .frqInc sym => runFrqInc sym
  | .hufBuild => runHufBuild
  | .hufEncode => runHufEncode
  | .hufPutsym sym => runHufPutsym sym
  | .hufDecode => runHufDecode
  | .hufDecbit bit => runHufDecbit bit
  | .hufDecend => runHufDecend
  | .winInit sel cap => runWinInit sel cap
  | .winPush sel sym => runWinPush sel sym
  | .winPushn sel => runWinPushn sel
  | .winEvict sel cnt => runWinEvict sel cnt
  | .winRead sel idx => runWinRead sel idx
  | .lzEncode => runLzEncode
  | .lzEncstep => runLzEncstep
  | .lzDecode => runLzDecode
  | .lzDectok => runLzDectok

/-- The completion of a command is that of its `Exec`, with some events on the port. -/
theorem exec_eq (i : Instr) (s : State) : ∃ evs, exec i s = .next (emit evs (complete (runOf i s))) := by
  cases i with
  | hufEncode | hufPutsym | hufDecode | hufDecbit | lzEncode | lzEncstep | lzDecode | lzDectok => exact ⟨_, rfl⟩
  | nop | frqClear | frqCount | frqInc | hufBuild | hufDecend | winInit | winPush | winPushn | winEvict | winRead =>
    exact ⟨[], by rw [emit_nil]; rfl⟩

/-- The core's turn: nothing while Idle, the initialisation, or some completion, of a command or of an Illegal word. -/
theorem coreTurn_next (s : State) :
    (s.pending = .idle ∧ coreTurn s = .next s) ∨ (s.pending = .init ∧ coreTurn s = .next (initStep s)) ∨
      ∃ w evs r, s.pending = .cmd w ∧ ((∃ i, r = runOf i s) ∨ r = raise .illegalCommand 0 s) ∧
        coreTurn s = .next (emit evs (complete r)) := by
  rcases coreTurn_cases s with h | h | ⟨w, i, hp, -, he⟩ | ⟨w, e, hp, -, he⟩
  · exact .inl h
  · exact .inr (.inl h)
  · obtain ⟨evs, hx⟩ := exec_eq i s
    exact .inr (.inr ⟨w, evs, _, hp, .inl ⟨i, rfl⟩, he.trans hx⟩)
  · exact .inr (.inr ⟨w, [], _, hp, .inr rfl, by rw [emit_nil, he]; rfl⟩)

/-- The completion of a success, as the statements say it (40_control.md R104). -/
theorem succeeded_complete {s t : State} {v : Nat} (hsticky : t.csr.stickyErr = s.csr.stickyErr) (hv : v < 2 ^ 32)
    (evs : List TraceEvent) : succeeded s (emit evs (complete ⟨t, .ok v⟩)) v := by
  rw [succeeded, complete_ok, emit_csr, emit_pending, completeOk_csr]
  exact ⟨rfl, rfl, rfl, rfl, rfl, hsticky, (BitVec.toNat_ofNat v 32).trans (Nat.mod_eq_of_lt hv)⟩

/-- The completion of an error, as the statements say it (40_control.md R104). -/
theorem failed_complete {t : State} {e : Err} (hpos : e.pos < 2 ^ 21) (evs : List TraceEvent) :
    failed (emit evs (complete ⟨t, .error e⟩)) e.code.num.toNat e.pos := by
  rw [failed, complete_error, emit_csr, emit_pending, completeErr_csr]
  exact ⟨rfl, rfl, rfl, rfl, (BitVec.toNat_ofNat e.pos 21).trans (Nat.mod_eq_of_lt hpos), rfl, rfl⟩

end Sys2Proof.Machine
end

section
/-! PROOFS. The tree and the walker as an invariant: a valid tree is that of the current FREQ, and the walker stands on a
path in it (10_state.md R23, R28, R57, R59). -/

namespace Sys2Proof.Machine

/-- A valid tree is the one built from the current FREQ, and the walker stands at the node its bits lead to. -/
def State.treeInv (s : State) : Prop := s.treeOk ∧ s.walkerOk

/-- `t` agrees with `s` on all that the invariant speaks of: FREQ, the arena, the code table, and the tree and walker
registers. -/
structure SameTree (s t : State) : Prop where
  mem : ∀ a, a < 0x1400 → Memory.get t.mem a = Memory.get s.mem a
  tree : withTree s t = s

/-! ### What leaves the tree alone -/

section
variable {s t u : State}

theorem SameTree.refl (s : State) : SameTree s s := ⟨fun _ _ => rfl, rfl⟩

theorem SameTree.trans (h : SameTree s t) (h' : SameTree t u) : SameTree s u where
  mem a ha := (h'.mem a ha).trans (h.mem a ha)
  tree := (congrArg (withTree s) h'.tree).trans h.tree

/-- The counters depend on the bytes below the end of FREQ alone (20_memory.md R66). -/
theorem freq_eq_of_get (h : ∀ a, a < 0x1400 → Memory.get t.mem a = Memory.get s.mem a) {i : Nat} (hi : i < 256) :
    t.freq i = s.freq i :=
  Memory.readWord_congr fun k hk => h _ (by simp only [freqAddr, freqBase]; omega)

/-- `treeOk` depends on the 256 counters and on the tree alone. -/
theorem State.treeOk_withMem {m : Memory} (h : ∀ i, i < 256 → (s.withMem m).freq i = s.freq i) (hs : s.treeOk) :
    (s.withMem m).treeOk := by
  have harena : buildArena (s.withMem m).freq = buildArena s.freq := buildArena_congr h
  have hcount : (s.withMem m).symCount = s.symCount := congrArg List.length (presentSyms_congr h)
  simp only [State.treeOk, harena, hcount]
  exact hs

theorem SameTree.treeInv (h : SameTree s t) (hs : s.treeInv) : t.treeInv := by
  have hmem : (s.withMem t.mem).treeInv := ⟨State.treeOk_withMem (fun _ hi => freq_eq_of_get h.mem hi) hs.1, hs.2⟩
  have hview : ((withTree s t).withMem t.mem).treeInv := by rw [h.tree]; exact hmem
  exact hview

/-- A state update that writes memory beyond FREQ alone. -/
theorem SameTree.of_mem (hframe : t.withMem s.mem = s) (hmem : ∀ a, a < 0x1400 → Memory.get t.mem a = Memory.get s.mem a) :
    SameTree s t where
  mem := hmem
  tree := by
    have hview := congrArg (withTree s) hframe
    exact hview

theorem sameTree_setOut (s : State) (i : Nat) (b : Byte) : SameTree s (s.setOut i b) :=
  .of_mem rfl fun _ _ => Memory.get_set_of_ne (by simp only [outAddr, outBase]; omega) _

theorem sameTree_setIn (s : State) (i : Nat) (b : Byte) : SameTree s (s.setIn i b) :=
  .of_mem rfl fun _ _ => Memory.get_set_of_ne (by simp only [inAddr, inBase]; omega) _

theorem sameTree_setTok (s : State) (i : Nat) (w : Word) : SameTree s (s.setTok i w) :=
  .of_mem rfl fun _ _ => Memory.get_writeWord_of_ne (by simp only [tokAddr, tokBase]; omega) _

theorem sameTree_setBitWord (s : State) (i : Nat) (w : Word) : SameTree s (s.setBitWord i w) :=
  .of_mem rfl fun _ _ => Memory.get_writeWord_of_ne (by simp only [bitAddr, bitBase]; omega) _

theorem sameTree_setWin (s : State) (sel : WinSel) (x : Window) : SameTree s (s.setWin sel x) := by
  cases sel <;> exact ⟨fun _ _ => rfl, rfl⟩

theorem sameTree_bitWrite (pos : Nat) (code : BitVec 255) (n : Nat) (s : State) : SameTree s (bitWrite pos code n s) :=
  .of_mem (bitWrite_frame pos code n s).1 fun a ha => (bitWrite_frame pos code n s).2 a (by simp only [bitBase]; omega)

theorem sameTree_copySymbols (m d n : Nat) (s : State) : SameTree s (copySymbols m d (List.range n) s) :=
  .of_mem (copySymbols_frame m d n s).1 fun a ha =>
    (copySymbols_frame m d n s).2 a fun j _ => by simp only [outAddr, outBase]; omega

/-- The completion record and the trace port leave the tree alone. -/
theorem sameTree_complete (evs : List TraceEvent) (r : ExecResult) : SameTree r.st (emit evs (complete r)) := by
  obtain ⟨s, res⟩ := r
  unfold emit
  split <;> cases res <;> exact ⟨fun _ _ => rfl, rfl⟩

end

/-! ### Building, invalidating and walking -/

section
variable {s t : State}

theorem treeInv_of_cleared (h : treeCleared s) : s.treeInv := by
  obtain ⟨hv, hrest⟩ := h
  refine ⟨?_, fun hvalid => absurd hvalid (by simp [hv])⟩
  rw [State.treeOk, if_neg (by simp [hv])]
  exact hrest

theorem treeInv_invalidateTree (s : State) : s.invalidateTree.treeInv :=
  treeInv_of_cleared ⟨rfl, rfl, rfl, rfl, rfl, rfl⟩

theorem treeInv_buildTree (s : State) : (buildTree s).treeInv :=
  ⟨⟨rfl, rfl, rfl, rfl, rfl⟩, fun _ => .inl ⟨rfl, rfl⟩⟩

/-- What `treeOk` says of a valid tree. -/
theorem State.treeOk_of_valid (hv : s.csr.treeValid = true) : s.treeOk ↔
    s.node = buildArena s.freq ∧ s.lut = deriveCodes (buildArena s.freq) s.symCount ∧
      s.csr.nsym = BitVec.ofNat 9 s.symCount ∧ s.csr.nodeCnt = BitVec.ofNat 10 (buildArena s.freq).length ∧
      s.csr.root = rootOf (buildArena s.freq) := by
  rw [State.treeOk, if_pos hv]

/-- A valid tree does not depend on the walker registers. -/
theorem State.treeOk_setWalker (hv : s.csr.treeValid = true) (h : s.treeOk) (x : BitVec 9) (n : Nat) :
    (s.setWalker x n).treeOk :=
  (State.treeOk_of_valid (s := s.setWalker x n) hv).2 ((State.treeOk_of_valid hv).1 h)

theorem treeInv_walkerToRoot (hv : s.csr.treeValid = true) (h : s.treeInv) : s.walkerToRoot.treeInv :=
  ⟨State.treeOk_setWalker hv h.1 _ _, fun _ => .inl ⟨rfl, rfl⟩⟩

/-- A valid tree of two symbols or more is the tree of FREQ, in NODE at ROOT. -/
theorem State.treeOk.exists_tree (h : s.treeOk) (hv : s.csr.treeValid = true) (h2 : 2 ≤ s.csr.nsym.toNat) :
    ∃ l r, IsTreeOf s.freq (.node l r) ∧ Represents s.node (.node l r) s.csr.root.toNat := by
  obtain ⟨hnode, -, hnsym, -, hroot⟩ := (State.treeOk_of_valid hv).1 h
  have hcount : 2 ≤ (presentSyms s.freq).length := by
    rw [hnsym, BitVec.toNat_ofNat] at h2
    exact h2.trans (Nat.mod_le _ _)
  obtain ⟨t, ht⟩ := exists_isTreeOf (f := s.freq) (List.length_pos_iff.1 (by omega))
  obtain ⟨l, r, rfl⟩ := ht.exists_node hcount
  exact ⟨l, r, ht, by rw [hnode, hroot]; exact ht.root⟩

/-- In a tree of two symbols or more the walker stands at an internal node, at the end of a path of DEC_LEN bits. -/
theorem State.walkerOk.exists_path (hw : s.walkerOk) (ht : s.treeOk) (hv : s.csr.treeValid = true)
    (h2 : 2 ≤ s.csr.nsym.toNat) : (s.nodeAt s.csr.decNode).leaf = false ∧
      ∃ p : List Bool, p.length = s.csr.decLen.toNat ∧ walk s.node s.csr.root p = some s.csr.decNode := by
  rcases hw hv with ⟨hlen, hnode⟩ | ⟨-, hleaf, hp⟩
  · obtain ⟨l, r, -, hroot⟩ := ht.exists_tree hv h2
    exact ⟨by rw [hnode]; exact hroot.not_leaf, [], by rw [hlen]; rfl, by rw [hnode]; rfl⟩
  · exact ⟨hleaf, hp⟩

/-- A step down to an internal node: the path grows by the bit, and its length still fits DEC_LEN, because a path to an
internal node is shorter than the number of leaves (10_state.md R45, R57). -/
theorem treeInv_walkDown {b : Bool} (h : s.treeInv) (hv : s.csr.treeValid = true) (h2 : 2 ≤ s.csr.nsym.toNat)
    (hleaf : (s.nodeAt (childOf (s.nodeAt s.csr.decNode) b)).leaf = false) :
    (s.setWalker (childOf (s.nodeAt s.csr.decNode) b) (s.csr.decLen.toNat + 1)).treeInv := by
  obtain ⟨ht, hw⟩ := h
  refine ⟨State.treeOk_setWalker hv ht _ _, fun _ => .inr ⟨h2, hleaf, ?_⟩⟩
  obtain ⟨hdec, p, hp, hwalk⟩ := hw.exists_path ht hv h2
  have hwalk' := walk_snoc hwalk hdec b
  obtain ⟨l, r, htree, hroot⟩ := ht.exists_tree hv h2
  obtain ⟨u, hsub, hu⟩ := hroot.sub_of_walk hwalk'
  obtain ⟨l', r', rfl⟩ := hu.exists_node hleaf
  have hlen := HuffTree.length_of_sub_node hsub
  have hsyms := htree.syms_length_le
  refine ⟨p ++ [b], ?_, hwalk'⟩
  rw [List.length_append] at hlen ⊢
  rw [hp] at hlen ⊢
  simp only [List.length_singleton] at hlen ⊢
  simp only [State.setWalker_csr, BitVec.toNat_ofNat]
  omega

/-- Two symbols or more: the walker's test of NSYM (43_huffman_codec.md R131). -/
theorem two_le_toNat_iff {n : BitVec 9} : 2 ≤ n.toNat ↔ n ≠ 0 ∧ n ≠ 1 := by
  constructor
  · exact fun h => ⟨by bv_omega, by bv_omega⟩
  · rintro ⟨h0, h1⟩
    bv_omega

/-- What every walker step keeps (43_huffman_codec.md R131). -/
theorem treeInv_decStep {b : Bool} {pos v : Nat} (h : s.treeInv ∧ s.csr.treeValid = true)
    (he : decStep b pos s = .ok (t, v)) : t.treeInv ∧ t.csr.treeValid = true := by
  obtain ⟨hinv, hv⟩ := h
  have hemit : ∀ sym, emitSym sym pos s = .ok (t, v) → t.treeInv ∧ t.csr.treeValid = true := by
    intro sym he
    obtain ⟨-, rfl, -⟩ := emitSym_ok he
    have hout : SameTree s ((s.setOut s.csr.outLen.toNat sym).setOutLen (s.csr.outLen.toNat + 1)) :=
      (sameTree_setOut s _ sym).trans ⟨fun _ _ => rfl, rfl⟩
    exact ⟨treeInv_walkerToRoot hv (hout.treeInv hinv), hv⟩
  rcases decStep_cases b pos s with ⟨-, e⟩ | ⟨-, -, e⟩ | ⟨-, -, e⟩ | ⟨-, -, -, e⟩ | ⟨h0, h1, hleaf, e⟩ <;> rw [e] at he
  · cases he
  · cases he
  · exact hemit _ he
  · exact hemit _ he
  · cases he
    exact ⟨treeInv_walkDown hinv hv (two_le_toNat_iff.2 ⟨h0, h1⟩) hleaf, hv⟩

end

/-! ### Elements of the sequence commands -/

section
variable {s t : State}

theorem sameTree_appendCode {e : LutEntry} {pos : Nat} (he : appendCode e pos s = .ok t) : SameTree s t := by
  unfold appendCode at he
  split at he
  · cases he
  · cases he
    exact (sameTree_bitWrite _ _ _ s).trans ⟨fun _ _ => rfl, rfl⟩

theorem sameTree_decodeToken {wd : Word} {pos : Nat} (he : decodeToken wd pos s = .ok t) : SameTree s t := by
  rcases decodeToken_cases wd pos s with ⟨e, -⟩ | ⟨e, -⟩ | ⟨e, -⟩ <;> rw [e] at he <;> cases he
  exact ((sameTree_copySymbols _ _ _ s).trans (sameTree_setOut _ _ _)).trans ⟨fun _ _ => rfl, rfl⟩

theorem sameTree_lzStep (s : State) : SameTree s (lzStep s) :=
  (sameTree_setTok s _ _).trans ⟨fun _ _ => rfl, rfl⟩

theorem sameTree_lzLoop (n : Nat) (s : State) : SameTree s (lzLoop n s).1 := by
  induction n generalizing s with
  | zero => exact .refl s
  | succ n ih =>
    rw [lzLoop]
    split
    · split
      · exact .refl s
      · exact (sameTree_lzStep s).trans (ih _)
    · exact .refl s

/-- However far HUF_DECODE gets, its walker stands on a path in the tree of FREQ. -/
theorem treeInv_decodeLoop (s : State) (is : List Nat) :
    (forElems decodeElem is ((buildTree s).setOutLen 0)).1.treeInv ∧
      (forElems decodeElem is ((buildTree s).setOutLen 0)).1.csr.treeValid = true := by
  refine forElems_keeps (P := fun u => u.treeInv ∧ u.csr.treeValid = true) (fun i _ u u' hu he => ?_)
    ⟨treeInv_buildTree s, rfl⟩
  unfold decodeElem at he
  split at he <;> cases he
  rename_i hstep
  exact treeInv_decStep hu hstep

theorem treeInv_endCheck (hv : s.csr.treeValid = true) (h : s.treeInv) (pos v : Nat) : (endCheck pos v s).st.treeInv := by
  unfold endCheck
  split <;> exact treeInv_walkerToRoot hv h

end

/-! ### The commands -/

section
variable {s : State}

theorem treeInv_runFrqCount (h : s.treeInv) : (runFrqCount s).st.treeInv := by
  unfold runFrqCount
  split
  · exact h
  · exact treeInv_invalidateTree _

theorem treeInv_runFrqInc (h : s.treeInv) (sym : Byte) : (runFrqInc sym s).st.treeInv := by
  unfold runFrqInc
  split
  · exact h
  · exact treeInv_invalidateTree _

theorem treeInv_runHufEncode (h : s.treeInv) : (runHufEncode s).st.treeInv := by
  unfold runHufEncode
  split
  · exact h
  · have hstart : ((buildTree (histogram s.csr.inLen.toNat s)).setBitLen 0).treeInv := treeInv_buildTree _
    have hloop := forElems_keeps (f := encodeElem) (is := List.range s.csr.inLen.toNat)
      (fun _ _ _ _ hu he => (sameTree_appendCode he).treeInv hu) hstart
    split <;> rename_i heq <;> rw [heq] at hloop <;> exact hloop

theorem treeInv_runHufPutsym (h : s.treeInv) (sym : Byte) : (runHufPutsym sym s).st.treeInv := by
  unfold runHufPutsym
  split
  · exact h
  · split
    · exact h
    · split
      · rename_i he
        exact (sameTree_appendCode he).treeInv h
      · exact h

theorem treeInv_runHufDecode (h : s.treeInv) : (runHufDecode s).st.treeInv := by
  unfold runHufDecode
  split
  · exact h
  · have hloop := treeInv_decodeLoop s (List.range s.csr.bitLen.toNat)
    split <;> rename_i heq <;> rw [heq] at hloop
    · exact treeInv_endCheck hloop.2 hloop.1 _ _
    · exact hloop.1

theorem treeInv_runHufDecbit (h : s.treeInv) (bit : Bool) : (runHufDecbit bit s).st.treeInv := by
  unfold runHufDecbit
  split
  · exact h
  · rename_i hv
    split
    · rename_i he
      exact (treeInv_decStep ⟨h, Bool.not_eq_false _ ▸ hv⟩ he).1
    · exact h

theorem treeInv_runHufDecend (h : s.treeInv) : (runHufDecend s).st.treeInv := by
  unfold runHufDecend
  split
  · exact h
  · rename_i hv
    exact treeInv_endCheck (Bool.not_eq_false _ ▸ hv) h _ _

theorem sameTree_runWinInit (sel : WinSel) (cap : Nat) (s : State) : SameTree s (runWinInit sel cap s).st := by
  unfold runWinInit
  split
  · exact .refl s
  · exact sameTree_setWin s _ _

theorem sameTree_runWinPush (sel : WinSel) (sym : Byte) (s : State) : SameTree s (runWinPush sel sym s).st := by
  unfold runWinPush
  split
  · exact .refl s
  · exact sameTree_setWin s _ _

theorem sameTree_runWinPushn (sel : WinSel) (s : State) : SameTree s (runWinPushn sel s).st := by
  unfold runWinPushn
  split
  · exact .refl s
  · split
    · exact .refl s
    · exact sameTree_setWin s _ _

theorem sameTree_runWinEvict (sel : WinSel) (cnt : Nat) (s : State) : SameTree s (runWinEvict sel cnt s).st := by
  unfold runWinEvict
  split
  · exact .refl s
  · exact sameTree_setWin s _ _

theorem sameTree_runWinRead (sel : WinSel) (idx : Nat) (s : State) : SameTree s (runWinRead sel idx s).st := by
  unfold runWinRead
  split
  · exact .refl s
  · split <;> exact .refl s

theorem sameTree_runLzEncode (s : State) : SameTree s (runLzEncode s).st := by
  unfold runLzEncode
  split
  · exact .refl s
  · split
    · exact .refl s
    · have hstart : SameTree s (loadWindows 0 ((s.setTokLen 0).setLzPos 0)) := ⟨fun _ _ => rfl, rfl⟩
      have hloop := hstart.trans (sameTree_lzLoop s.csr.inLen.toNat _)
      split <;> rename_i heq <;> rw [heq] at hloop <;> exact hloop

theorem sameTree_runLzEncstep (s : State) : SameTree s (runLzEncstep s).st := by
  have hload : SameTree s (loadWindows s.csr.lzPos.toNat s) := ⟨fun _ _ => rfl, rfl⟩
  unfold runLzEncstep
  split
  · exact .refl s
  · split
    · exact .refl s
    · split
      · exact .refl s
      · split
        · exact .refl s
        · exact hload.trans (sameTree_lzStep _)

theorem sameTree_runLzDecode (s : State) : SameTree s (runLzDecode s).st := by
  unfold runLzDecode
  split
  · exact .refl s
  · split
    · exact .refl s
    · have hstart : SameTree s ((s.setOutLen 0).setWin .hwin (Window.construct s.csr.cfgW.toNat)) := ⟨fun _ _ => rfl, rfl⟩
      have hloop := forElems_keeps (f := fun i t => decodeToken (t.tok i) i t) (P := SameTree s)
        (is := List.range s.csr.tokLen.toNat) (fun _ _ _ _ hu he => hu.trans (sameTree_decodeToken he)) hstart
      split <;> rename_i heq <;> rw [heq] at hloop <;> exact hloop

theorem sameTree_runLzDectok (s : State) : SameTree s (runLzDectok s).st := by
  unfold runLzDectok
  split
  · exact .refl s
  · split
    · rename_i he
      exact sameTree_decodeToken he
    · exact .refl s

/-- Every command keeps the invariant. -/
theorem treeInv_runOf (h : s.treeInv) (i : Instr) : (runOf i s).st.treeInv := by
  cases i with
  | nop => exact h
  | frqClear => exact treeInv_invalidateTree _
  | frqCount => exact treeInv_runFrqCount h
  | frqInc sym => exact treeInv_runFrqInc h sym
  | hufBuild => exact treeInv_buildTree s
  | hufEncode => exact treeInv_runHufEncode h
  | hufPutsym sym => exact treeInv_runHufPutsym h sym
  | hufDecode => exact treeInv_runHufDecode h
  | hufDecbit bit => exact treeInv_runHufDecbit h bit
  | hufDecend => exact treeInv_runHufDecend h
  | winInit sel cap => exact (sameTree_runWinInit sel cap s).treeInv h
  | winPush sel sym => exact (sameTree_runWinPush sel sym s).treeInv h
  | winPushn sel => exact (sameTree_runWinPushn sel s).treeInv h
  | winEvict sel cnt => exact (sameTree_runWinEvict sel cnt s).treeInv h
  | winRead sel idx => exact (sameTree_runWinRead sel idx s).treeInv h
  | lzEncode => exact (sameTree_runLzEncode s).treeInv h
  | lzEncstep => exact (sameTree_runLzEncstep s).treeInv h
  | lzDecode => exact (sameTree_runLzDecode s).treeInv h
  | lzDectok => exact (sameTree_runLzDectok s).treeInv h

end

/-! ### The steps -/

/-- The core's turn; the initialisation empties FREQ, and its premise says that no tree is valid then
(70_reset_and_hazards.md R172). -/
theorem treeInv_coreTurn {s t : State} (hp : s.pendingOk) (h : s.treeInv) (he : coreTurn s = .next t) : t.treeInv := by
  rcases coreTurn_next s with ⟨-, e⟩ | ⟨hinit, e⟩ | ⟨w, evs, r, -, hr, e⟩ <;>
    obtain rfl := Host.Outcome.next.inj (e.symm.trans he)
  · exact h
  · rw [State.pendingOk, hinit] at hp
    refine treeInv_of_cleared ?_
    rw [treeCleared, initStep_csr, hp]
    exact ⟨rfl, rfl, rfl, rfl, rfl, rfl⟩
  · refine (sameTree_complete evs r).treeInv ?_
    rcases hr with ⟨i, rfl⟩ | rfl
    · exact treeInv_runOf h i
    · exact h

/-- A write while idle: FREQ invalidates the tree, and nothing else that the host can write reaches it
(20_memory.md R65 to R69). -/
theorem treeInv_writeTarget {s : State} (h : s.treeInv) (w : Word) (a : Target) : (s.writeTarget w a).treeInv := by
  cases a with
  | csr r =>
    have hcsr : SameTree s (s.writeCsr w r) := by cases r <;> exact ⟨fun _ _ => rfl, rfl⟩
    exact hcsr.treeInv h
  | freq i => exact treeInv_invalidateTree _
  | inCell i => exact (sameTree_setIn s i _).treeInv h
  | outCell i => exact (sameTree_setOut s i _).treeInv h
  | tok i => exact (sameTree_setTok s i w).treeInv h
  | bits i => exact (sameTree_setBitWord s i w).treeInv h
  | node | lut | reserved => exact h

theorem treeInv_resetEntry (s : State) : (resetEntry s).treeInv :=
  treeInv_of_cleared ⟨rfl, rfl, rfl, rfl, rfl, rfl⟩

theorem treeInv_busWrite {s : State} (h : s.treeInv) (a : Target) (w : Word) : (busWrite a w s).treeInv := by
  rcases busWrite_cases a w s with ⟨-, e⟩ | ⟨-, -, e⟩ | ⟨-, -, e⟩ <;> rw [e]
  · exact treeInv_resetEntry s
  · exact h
  · exact treeInv_writeTarget h w a

theorem treeInv_busAccess {s t : State} (h : s.treeInv) {a : Access} (he : busAccess a s = .next t) : t.treeInv := by
  rcases busAccess_cases a s with ⟨-, e⟩ | ⟨off, -, ⟨-, -, e⟩ | ⟨-, -, e⟩ | ⟨-, e⟩⟩ <;> rw [e] at he
  · obtain rfl := Host.Outcome.next.inj he
    exact h
  · obtain rfl := Host.Outcome.next.inj he
    rcases busRead_cases (target off) s with e | ⟨-, -, e⟩ <;> rw [e] <;> exact h
  · obtain rfl := Host.Outcome.next.inj he
    exact treeInv_busWrite h _ _
  · unfold busError at he
    split at he <;> cases he
    exact h

/-- Settles O58: a command rebuilds the tree, invalidates it or leaves FREQ and the tree alone, and the walker moves along
the tree only; a path to an internal node is short enough for DEC_LEN. -/
theorem everyStepKeepsTreeAndWalker : Obligations.EveryStepKeepsTreeAndWalker := by
  unfold Obligations.EveryStepKeepsTreeAndWalker
  intro s t hp htree hwalker he
  have h : s.treeInv := ⟨htree, hwalker⟩
  rcases step_cases s with ⟨-, e⟩ | ⟨rest, -, e⟩ | ⟨rest, -, e⟩ | ⟨a, rest, -, e⟩ <;> rw [e] at he
  · exact treeInv_coreTurn hp h he
  · exact treeInv_coreTurn (s := { s with agenda := rest }) hp h he
  · obtain rfl := Host.Outcome.next.inj he
    exact treeInv_resetEntry _
  · exact treeInv_busAccess (s := { s with agenda := rest }) h he

end Sys2Proof.Machine
end

section
/-! PROOFS. Host writes to the registers, reset, and the pending state (10_state.md sections 2 and 5, 20_memory.md). -/

namespace Sys2Proof.Machine

/-! ### Registers by offset -/

/-- The address map reaches a register at its own offset (10_state.md R20). -/
@[simp] theorem target_offsetOf_csr (r : CsrName) : target (offsetOf (.csr r)) = .csr r := by
  cases r <;> decide

theorem offsetOf_csr_aligned (r : CsrName) : offsetOf (.csr r) % 4 = 0 := by
  simp [offsetOf]

theorem offsetOf_csr_lt (r : CsrName) : offsetOf (.csr r) < Config.windowBytes := by
  cases r <;> decide

/-- No register stands beyond the 21 (10_state.md R20). -/
theorem target_ne_csr {off : Nat} (h : ¬ off < 0x00054) (r : CsrName) : target off ≠ .csr r := by
  simp [target, h, ite_eq_iff]

/-- No aligned offset but its own reaches a register (20_memory.md R63). -/
theorem offsetOf_of_target_csr {off : Nat} {r : CsrName} (h4 : off % 4 = 0) (h : target off = .csr r) :
    off = offsetOf (.csr r) := by
  by_cases hoff : off < 0x00054
  · rw [target, if_pos hoff] at h
    split at h
    · rename_i r' hmap
      obtain rfl := Target.csr.inj h
      obtain ⟨hlt, rfl⟩ := List.getElem?_eq_some_iff.1 hmap
      rw [offsetOf, List.Nodup.idxOf_getElem (by decide : csrMap.Nodup) (off / 4) hlt]
      omega
    · cases h
  · exact absurd h (target_ne_csr hoff r)

/-! ### Accepted host writes -/

section
variable {s : State} {w : Word}

/-- An aligned write to an offset that is not reserved is accepted (20_memory.md R62, R64). -/
theorem hostWriteAt_accepted {off : Nat} (hoff : off < Config.windowBytes) (h4 : off % 4 = 0)
    (ht : target off ≠ .reserved) : hostWriteAt s off w = .next (busWrite (target off) w s) := by
  have hacc : accepted ⟨.write, s.params.base + off, .four, w⟩ off = true := accepted_iff.2 ⟨rfl, h4, ht⟩
  change busAccess ⟨.write, s.params.base + off, .four, w⟩ s = _
  simp only [busAccess, Params.offset_base s.params hoff, hacc, if_true]

theorem hostWriteAt_csr (r : CsrName) : hostWriteAt s (offsetOf (.csr r)) w = .next (busWrite (.csr r) w s) := by
  rw [hostWriteAt_accepted (offsetOf_csr_lt r) (offsetOf_csr_aligned r) (by simp), target_offsetOf_csr]

/-- A register write while idle, other than SRST, follows the register's rule (10_state.md R19). -/
theorem hostWriteAt_csr_idle (hp : s.pending = .idle) {r : CsrName} (hr : isSoftReset (.csr r) w = false) :
    hostWriteAt s (offsetOf (.csr r)) w = .next { s.writeCsr w r with resp := some .written } := by
  rw [hostWriteAt_csr]
  rcases busWrite_cases (.csr r) w s with ⟨h, -⟩ | ⟨-, h, -⟩ | ⟨-, -, e⟩
  · exact absurd h (by simp [hr])
  · exact absurd hp h
  · rw [e]; rfl

/-- A register write while busy, other than SRST, is dropped and sets OVERRUN (20_memory.md R77). -/
theorem hostWriteAt_csr_busy (hp : s.pending ≠ .idle) {r : CsrName} (hr : isSoftReset (.csr r) w = false) :
    hostWriteAt s (offsetOf (.csr r)) w =
      .next { s with csr := { s.csr with overrun := true }, resp := some .written } := by
  rw [hostWriteAt_csr]
  rcases busWrite_cases (.csr r) w s with ⟨h, -⟩ | ⟨-, -, e⟩ | ⟨-, h, -⟩
  · exact absurd h (by simp [hr])
  · rw [e]
  · exact absurd h hp

/-- SRST resets at any time (70_reset_and_hazards.md R173). -/
theorem hostWriteAt_srst (hw : w.getLsbD 1 = true) :
    hostWriteAt s 0x004 w = .next { resetEntry s with resp := some .written } := by
  have hsrst : isSoftReset (.csr .ctrl) w = true := by simp [isSoftReset, hw]
  refine (hostWriteAt_csr .ctrl).trans ?_
  simp [busWrite, hsrst]

end

/-- Only CTRL has the SRST action (10_state.md R22). -/
theorem isSoftReset_eq_true {t : Target} {w : Word} (h : isSoftReset t w = true) : t = .csr .ctrl ∧ w.getLsbD 1 = true := by
  simpa [isSoftReset] using h

theorem isSoftReset_of_ne {r : CsrName} (h : r ≠ .ctrl) (w : Word) : isSoftReset (.csr r) w = false := by
  simp [isSoftReset, h]

/-! ### The bits a register keeps -/

/-- Narrowing a word to `n` bits and widening it again keeps its low `n` bits. -/
theorem setWidth_setWidth_eq_and (w : Word) (n : Nat) :
    (w.setWidth n).setWidth 32 = w &&& BitVec.ofNat 32 (2 ^ n - 1) := by
  refine BitVec.eq_of_getLsbD_eq fun i hi => ?_
  simp only [BitVec.getLsbD_setWidth, BitVec.getLsbD_and, BitVec.getLsbD_ofNat, Nat.testBit_two_pow_sub_one, hi,
    decide_true, Bool.true_and]
  rw [Bool.and_comm]

/-- A RW register reads back the bits of a written word that it keeps (10_state.md R32, R35 to R41). -/
theorem readCsr_writeCsr_self {r : CsrName} {m : Word} (hm : rwMask r = some m) (s : State) (w : Word) :
    (s.writeCsr w r).readCsr r = w &&& m := by
  cases r <;> cases hm
  case arg0 => exact (BitVec.and_allOnes (x := w)).symm
  case cfgW => exact setWidth_setWidth_eq_and w 12
  case cfgB => exact setWidth_setWidth_eq_and w 8
  case bitLen => exact setWidth_setWidth_eq_and w 21
  case inLen | outLen | tokLen | lzPos => exact setWidth_setWidth_eq_and w 16

/-- A write to a RW register leaves every other register (10_state.md R19). -/
theorem readCsr_writeCsr_of_ne {r r' : CsrName} {m : Word} (hm : rwMask r = some m) (hne : r' ≠ r) (s : State) (w : Word) :
    (s.writeCsr w r).readCsr r' = s.readCsr r' := by
  cases r <;> cases hm <;> cases r' <;> trivial

/-- A write to a RW register writes no memory and none of the model's own fields. -/
theorem writeCsr_frame {r : CsrName} {m : Word} (hm : rwMask r = some m) (s : State) (w : Word) :
    { s.writeCsr w r with csr := s.csr } = s := by
  cases r <;> cases hm <;> rfl

/-- Settles O15: while idle the write follows the register's rule, which keeps the low bits of one field. -/
theorem registerWritesKeepTheirOwnBits : Obligations.RegisterWritesKeepTheirOwnBits := by
  unfold Obligations.RegisterWritesKeepTheirOwnBits
  intro s r m w hp hm
  have hr : r ≠ .ctrl := by rintro rfl; cases hm
  refine ⟨_, hostWriteAt_csr_idle hp (isSoftReset_of_ne hr w), ?_, fun r' hne => ?_, ?_⟩
  · exact readCsr_writeCsr_self hm s w
  · exact readCsr_writeCsr_of_ne hm hne s w
  · exact congrArg (fun u : State => { u with resp := some .written }) (writeCsr_frame hm s w)

/-- Settles O17: both writes follow the rule of their register, CTRL's with IRQ_EN alone, STATUS's the acknowledgement. -/
theorem interruptEnableAndAcknowledge : Obligations.InterruptEnableAndAcknowledge := by
  unfold Obligations.InterruptEnableAndAcknowledge
  intro s w hp
  refine ⟨fun hw => ?_, _, hostWriteAt_csr_idle (r := .status) hp (isSoftReset_of_ne (by decide) w), rfl, ?_, ?_, ?_, ?_, ?_⟩
  · exact hostWriteAt_csr_idle (r := .ctrl) hp (by rw [isSoftReset, hw, Bool.and_false])
  all_goals simp +contextual [State.writeCsr, State.irq]

/-! ### Reset -/

/-- After reset entry STATUS shows BUSY alone (10_state.md R60). -/
theorem statusWord_of_reset {u : State} (hp : u.pending = .init) (hc : u.csr = Csr.reset) : u.statusWord = 1 := by
  simp only [State.statusWord, State.busy, State.err, State.decMid, hp, hc]
  decide

/-- What every register reads as once the initialisation has completed, with OVERRUN at `b` (10_state.md R60). -/
theorem readCsr_after_init {s : State} {b : Bool} (hc : s.csr = { Csr.reset with overrun := b }) (r : CsrName) :
    (initStep s).readCsr r =
      if r = .id then 0x484C5A01#32 else if r = .root ∨ r = .decNode then 0x1FF#32
      else if r = .status then (if b then 0x10#32 else 0) else 0 := by
  have hcsr : (initStep s).csr = { Csr.reset with overrun := b } := hc
  cases r
  case hwinStat => simp only [State.readCsr, initStep_hwin]; rfl
  case lwinStat => simp only [State.readCsr, initStep_lwin]; rfl
  case status =>
    simp only [State.readCsr, State.statusWord, State.busy, State.err, State.decMid, hcsr, initStep_pending]
    cases b <;> decide
  all_goals simp only [State.readCsr, State.ctrlWord, hcsr]; rfl

/-- After the initialisation every cell of the memories reads 0 (70_reset_and_hazards.md R172). -/
theorem cells_after_init (s : State) (i : Nat) : (initStep s).freq i = 0 ∧ (initStep s).inSym i = 0 ∧
    (initStep s).outSym i = 0 ∧ (initStep s).tok i = 0 ∧ (initStep s).bitWord i = 0 :=
  have hword : ∀ a, Memory.readWord [] a = 0 := fun _ => Memory.readWord_zero fun _ _ => rfl
  ⟨hword _, rfl, rfl, hword _, hword _⟩

/-- While no tree is valid the apertures of NODE and LUT read 0 (20_memory.md R70, R71). -/
theorem apertures_of_invalid {s : State} (hv : s.csr.treeValid = false) (i k : Nat) :
    s.nodeWord i k = 0 ∧ s.lutWord i k = 0 := by
  simp [State.nodeWord, State.lutWord, hv]

/-- Settles O13: reset entry sets every register, the initialisation empties every memory, and OVERRUN alone can be set in
between. -/
theorem valuesAfterReset : Obligations.ValuesAfterReset := by
  unfold Obligations.ValuesAfterReset
  refine ⟨⟨rfl, rfl⟩, fun s u h => ?_, fun s b hp hc => ⟨fun v => ?_, ?_⟩⟩
  · have hu : u.pending = .init ∧ u.csr = Csr.reset := by
      rcases h with h | ⟨w, hw, h⟩
      · obtain rfl := Host.Outcome.next.inj h
        exact ⟨rfl, rfl⟩
      · obtain rfl := Host.Outcome.next.inj ((hostWriteAt_srst hw).symm.trans h)
        exact ⟨rfl, rfl⟩
    exact ⟨hu.1, hu.2, statusWord_of_reset hu.1 hu.2⟩
  · have hbusy : s.pending ≠ .idle := by simp [hp]
    have hdrop := hostWriteAt_csr_busy hbusy (isSoftReset_of_ne (r := .cfgW) (by decide) v)
    rwa [hc] at hdrop
  · have hcsr : (initStep s).csr = { Csr.reset with overrun := b } := hc
    refine ⟨initStep s, ?_, rfl, ?_, readCsr_after_init hc, cells_after_init s, apertures_of_invalid ?_, rfl, rfl⟩
    · change coreTurn s = _
      rw [coreTurn, hp]
    · rw [State.irq, hcsr]; rfl
    · rw [hcsr]; rfl

/-! ### The pending state -/

/-- Bit 0 of STATUS is BUSY (10_state.md R23, R24). -/
theorem statusWord_bit0 (s : State) : s.statusWord.getLsbD 0 = s.busy := by
  simp only [State.statusWord, flagAt, BitVec.getLsbD_or, BitVec.getLsbD_shiftLeft]
  cases s.busy <;> simp

/-- BUSY is 1 exactly when something is pending (10_state.md R58). -/
theorem busy_iff (s : State) : s.busy = true ↔ s.pending ≠ .idle := by
  simp [State.busy]

/-- The core's turn leaves the pending state, or ends what is pending. -/
theorem coreTurn_pending {s t : State} (h : coreTurn s = .next t) :
    t.pending = s.pending ∨ (s.pending ≠ .idle ∧ t.pending = .idle) := by
  rcases coreTurn_next s with ⟨-, e⟩ | ⟨hp, e⟩ | ⟨w, evs, r, hp, -, e⟩ <;>
    obtain rfl := Host.Outcome.next.inj (e.symm.trans h)
  · exact .inl rfl
  · exact .inr ⟨by simp [hp], rfl⟩
  · obtain ⟨-, -, -, -, -, hidle, -⟩ := complete_frame r
    exact .inr ⟨by simp [hp], by rw [emit_pending, hidle]⟩

/-- A write while idle leaves the pending state, unless it is the write to CMD that issues a command (40_control.md R103). -/
theorem writeTarget_pending (s : State) (w : Word) (a : Target) :
    (s.writeTarget w a).pending = s.pending ∨ (a = .csr .cmd ∧ (s.writeTarget w a).pending = .cmd w) := by
  cases a with
  | csr r =>
    cases r with
    | cmd => exact .inr ⟨rfl, rfl⟩
    | _ => exact .inl rfl
  | _ => exact .inl rfl

/-- An accepted write leaves the pending state, resets, or issues a command. -/
theorem busWrite_pending (s : State) (w : Word) (a : Target) :
    (busWrite a w s).pending = s.pending ∨ (a = .csr .ctrl ∧ w.getLsbD 1 = true ∧ (busWrite a w s).pending = .init) ∨
      (a = .csr .cmd ∧ s.pending = .idle ∧ (busWrite a w s).pending = .cmd w) := by
  rcases busWrite_cases a w s with ⟨h, e⟩ | ⟨-, -, e⟩ | ⟨-, hp, e⟩ <;> rw [e]
  · obtain ⟨hctrl, hw⟩ := isSoftReset_eq_true h
    exact .inr (.inl ⟨hctrl, hw, rfl⟩)
  · exact .inl rfl
  · rcases writeTarget_pending s w a with h | ⟨hcmd, h⟩
    · exact .inl h
    · exact .inr (.inr ⟨hcmd, hp, h⟩)

/-- The address of an accessed offset is that offset from BASE (20_memory.md R61). -/
theorem Params.eq_of_offset {p : Params} {addr off : Nat} (h : p.offset addr = some off) : addr = p.base + off := by
  unfold Params.offset at h
  split at h <;> cases h
  omega

/-- An accepted write that reaches a register is the aligned word write at its offset. -/
theorem access_eq_of_target {a : Access} {p : Params} {off : Nat} {r : CsrName} (hoff : p.offset a.addr = some off)
    (hacc : accepted a off = true) (hk : a.kind = .write) (ht : target off = .csr r) :
    a = ⟨.write, p.base + offsetOf (.csr r), .four, a.wdata⟩ := by
  obtain ⟨hsize, h4, -⟩ := accepted_iff.1 hacc
  have haddr := Params.eq_of_offset hoff
  rw [offsetOf_of_target_csr h4 ht] at haddr
  rw [← haddr, ← hsize, ← hk]

/-- A host access leaves the pending state, or is the write of SRST, or issues a command while idle. -/
theorem busAccess_pending {s t : State} {a : Access} (h : busAccess a s = .next t) :
    t.pending = s.pending ∨
      (a = ⟨.write, s.params.base + 0x004, .four, a.wdata⟩ ∧ a.wdata.getLsbD 1 = true ∧ t.pending = .init) ∨
      (a = ⟨.write, s.params.base + 0x00C, .four, a.wdata⟩ ∧ s.pending = .idle ∧ t.pending = .cmd a.wdata) := by
  rcases busAccess_cases a s with ⟨-, e⟩ | ⟨off, hoff, ⟨-, -, e⟩ | ⟨hacc, hk, e⟩ | ⟨-, e⟩⟩ <;> rw [e] at h
  · obtain rfl := Host.Outcome.next.inj h
    exact .inl rfl
  · obtain rfl := Host.Outcome.next.inj h
    rcases busRead_cases (target off) s with e | ⟨-, -, e⟩ <;> rw [e] <;> exact .inl rfl
  · obtain rfl := Host.Outcome.next.inj h
    rcases busWrite_pending s a.wdata (target off) with h | ⟨ht, hw, h⟩ | ⟨ht, hp, h⟩
    · exact .inl h
    · exact .inr (.inl ⟨access_eq_of_target hoff hacc hk ht, hw, h⟩)
    · exact .inr (.inr ⟨access_eq_of_target hoff hacc hk ht, hp, h⟩)
  · unfold busError at h
    split at h <;> cases h
    exact .inl rfl

/-- Settles O8: of the events only the core's turn, a reset, and an accepted write to CTRL or CMD reach the pending
state. -/
theorem pendingChangesOnlyAtTheFourEvents : Obligations.PendingChangesOnlyAtTheFourEvents := by
  unfold Obligations.PendingChangesOnlyAtTheFourEvents
  refine ⟨fun s => by rw [statusWord_bit0, busy_iff], fun s t he => ?_⟩
  rcases step_cases s with ⟨ha, e⟩ | ⟨rest, ha, e⟩ | ⟨rest, ha, e⟩ | ⟨a, rest, ha, e⟩ <;> rw [e] at he
  · rcases coreTurn_pending he with h | ⟨hp, h⟩
    · exact .inl h
    · exact .inr (.inl ⟨hp, h, .inl ha⟩)
  · rcases coreTurn_pending he with h | ⟨hp, h⟩
    · exact .inl h
    · exact .inr (.inl ⟨hp, h, .inr ⟨rest, ha⟩⟩)
  · obtain rfl := Host.Outcome.next.inj he
    exact .inr (.inr (.inl ⟨rest, ha, rfl⟩))
  · rcases busAccess_pending he with h | ⟨hacc, hw, h⟩ | ⟨hacc, hp, h⟩
    · exact .inl h
    · exact .inr (.inr (.inr (.inl ⟨a.wdata, rest, ha.trans (congrArg (Event.bus · :: rest) hacc), hw, h⟩)))
    · exact .inr (.inr (.inr (.inr ⟨a.wdata, rest, ha.trans (congrArg (Event.bus · :: rest) hacc), hp, h⟩)))

end Sys2Proof.Machine
end

section
/-! PROOFS. The code table of a tree: each symbol's code is the path to its leaf (42_huffman_tree.md R126). -/

namespace Sys2Proof.Machine

/-! ### What the traversal writes -/

/-- The codes of a subtree at the end of the path `p`, written into a table, left before right. -/
def HuffTree.insertCodes : HuffTree → List Bool → List (Nat × LutEntry) → List (Nat × LutEntry)
  | .leaf v, p, lut => sparseSet LutEntry.none lut v.toNat (LutEntry.ofPath p)
  | .node l r, p, lut => r.insertCodes (p ++ [true]) (l.insertCodes (p ++ [false]) lut)

section
variable {t l r : HuffTree} {lut : List (Nat × LutEntry)} {p q : List Bool}

/-- The traversal with its stack writes the codes of the subtree on top, in as many turns as the subtree has nodes
(42_huffman_tree.md R126, 70_reset_and_hazards.md R175). -/
theorem deriveLoop_of_represents {ar : List Node} {i : Nat} (h : Represents ar t i) (n : Nat)
    (stack : List (Nat × List Bool)) :
    deriveLoop ar (t.size + n) ((i, p) :: stack) lut = deriveLoop ar n stack (t.insertCodes p lut) := by
  induction t generalizing i p lut n stack with
  | leaf v =>
    obtain ⟨-, hleaf, hsym⟩ := h
    rw [HuffTree.size, Nat.add_comm, deriveLoop, if_pos hleaf, hsym, HuffTree.insertCodes]
  | node l r ihl ihr =>
    obtain ⟨-, hleaf, hl, hr⟩ := h
    rw [show (HuffTree.node l r).size + n = l.size + (r.size + n) + 1 by simp only [HuffTree.size]; omega, deriveLoop,
      if_neg (Bool.eq_false_iff.1 hleaf), ihl hl, ihr hr, HuffTree.insertCodes]

theorem HuffTree.insertCodes_wf (hwf : sparseWf LutEntry.none lut) : sparseWf LutEntry.none (t.insertCodes p lut) := by
  induction t generalizing p lut with
  | leaf v => exact sparseSet_wf hwf _ _
  | node l r ihl ihr => exact ihr (ihl hwf)

/-- A symbol that the subtree does not have keeps its entry. -/
theorem HuffTree.get_insertCodes_of_notMem {v : Byte} (hv : v ∉ t.syms) :
    sparseGet LutEntry.none (t.insertCodes p lut) v.toNat = sparseGet LutEntry.none lut v.toNat := by
  induction t generalizing p lut with
  | leaf w =>
    refine sparseGet_set_of_ne (fun h => hv ?_) _
    exact List.mem_singleton.2 (BitVec.eq_of_toNat_eq h).symm
  | node l r ihl ihr =>
    simp only [HuffTree.syms, List.mem_append, not_or] at hv
    rw [HuffTree.insertCodes, ihr hv.2, ihl hv.1]

/-- A symbol of the subtree gets the path to its leaf. -/
theorem HuffTree.get_insertCodes_of_sub {v : Byte} (hwf : sparseWf LutEntry.none lut) (hnodup : t.syms.Nodup)
    (hsub : t.sub q = some (.leaf v)) :
    sparseGet LutEntry.none (t.insertCodes p lut) v.toNat = LutEntry.ofPath (p ++ q) := by
  induction t generalizing p q lut with
  | leaf w =>
    cases q with
    | nil =>
      obtain rfl := HuffTree.leaf.inj (Option.some.inj hsub)
      rw [HuffTree.insertCodes, sparseGet_set_self hwf, List.append_nil]
    | cons b q => cases hsub
  | node l r ihl ihr =>
    obtain ⟨hl, hr, hdisjoint⟩ := List.nodup_append'.1 hnodup
    cases q with
    | nil => cases hsub
    | cons b q =>
      rw [HuffTree.insertCodes]
      cases b with
      | false =>
        have hv : v ∉ r.syms := fun hv => hdisjoint (HuffTree.mem_syms_iff.2 ⟨q, hsub⟩) hv
        rw [HuffTree.get_insertCodes_of_notMem hv, ihl hwf hl hsub, ← List.append_cons]
      | true => rw [ihr (HuffTree.insertCodes_wf hwf) hr hsub, ← List.append_cons]

end

/-! ### The table derived from FREQ -/

section
variable {f : Nat → Word} {t : HuffTree} (h : IsTreeOf f t)
include h

/-- No symbol has two leaves. -/
theorem IsTreeOf.nodup : t.syms.Nodup := by
  refine h.perm.nodup_iff.2 (List.Nodup.map_on (fun i hi j hj e => ?_) ((presentSyms_sorted f).imp Nat.ne_of_lt))
  have hi := (mem_presentSyms.1 hi).1
  have hj := (mem_presentSyms.1 hj).1
  simpa [Nat.mod_eq_of_lt hi, Nat.mod_eq_of_lt hj] using congrArg BitVec.toNat e

/-- With two symbols or more the code table holds the paths of the tree (42_huffman_tree.md R126). -/
theorem IsTreeOf.deriveCodes_eq (hk : 2 ≤ (presentSyms f).length) :
    deriveCodes (buildArena f) (presentSyms f).length = t.insertCodes [] [] := by
  have hne : presentSyms f ≠ [] := List.length_pos_iff.1 (by omega)
  have hlen := buildArena_length hne
  have hle := presentSyms_length_le f
  have hroot := h.root
  rw [rootOf_toNat (List.length_pos_iff.1 (by omega)) (by omega)] at hroot
  rw [deriveCodes, if_neg (by omega), if_neg (by omega), ← h.size]
  rw [← h.size] at hroot
  exact deriveLoop_of_represents hroot 0 []

end

section
variable {s : State} {t : HuffTree} (h : IsTreeOf s.freq t) (hk : 2 ≤ s.symCount)
include h hk

/-- The code of a symbol with a leaf is the path to the leaf. -/
theorem IsTreeOf.freqCode_of_sub {v : Byte} {p : List Bool} (hsub : t.sub p = some (.leaf v)) : freqCode s v.toNat = p := by
  have hlen := HuffTree.length_of_sub_leaf hsub
  have hle := h.syms_length_le
  rw [freqCode, State.symCount, h.deriveCodes_eq hk, HuffTree.get_insertCodes_of_sub sparseWf_nil h.nodup hsub,
    List.nil_append, codeBits]
  exact (LutEntry.ofPath_bits (by omega)).2

/-- A symbol without a leaf has no code. -/
theorem IsTreeOf.freqCode_of_notMem {v : Byte} (hv : v ∉ t.syms) : freqCode s v.toNat = [] := by
  rw [freqCode, State.symCount, h.deriveCodes_eq hk, HuffTree.get_insertCodes_of_notMem hv]
  rfl

/-- A bit string is the code of a symbol exactly when it is the path to its leaf. -/
theorem IsTreeOf.freqCode_eq_iff {v : Nat} (hv : v < 256) {p : List Bool} (hp : p ≠ []) :
    freqCode s v = p ↔ t.sub p = some (.leaf (BitVec.ofNat 8 v)) := by
  have hnat : (BitVec.ofNat 8 v).toNat = v := by rw [BitVec.toNat_ofNat]; omega
  constructor
  · rintro rfl
    by_cases hmem : BitVec.ofNat 8 v ∈ t.syms
    · obtain ⟨q, hq⟩ := HuffTree.mem_syms_iff.1 hmem
      rwa [← hnat, h.freqCode_of_sub hk hq, hnat]
    · rw [← hnat, h.freqCode_of_notMem hk hmem] at hp
      exact absurd rfl hp
  · intro hsub
    rw [← hnat]
    exact h.freqCode_of_sub hk hsub

end

end Sys2Proof.Machine
end

section
/-! PROOFS. HUF_DECODE is the buffer algorithm of AXC: the buffer is the path on which the walker stands
(10_state.md R57, 43_huffman_codec.md R131, R132, R135). -/

namespace Sys2Proof.Machine

/-! ### The buffer algorithm, bit by bit -/

/-- The buffer algorithm goes on from the buffer that the bits so far have left. -/
theorem bufferDecode_snoc (code : Nat → List Bool) (buf bs : List Bool) (b : Bool) :
    bufferDecode code buf (bs ++ [b]) =
      ((bufferDecode code buf bs).1 ++ (bufferDecode code (bufferDecode code buf bs).2 [b]).1,
        (bufferDecode code (bufferDecode code buf bs).2 [b]).2) := by
  induction bs generalizing buf with
  | nil => rfl
  | cons c bs ih =>
    rw [List.cons_append, bufferDecode, bufferDecode]
    split
    · rw [ih]; rfl
    · rw [ih]

/-- What the buffer algorithm has emitted after `i` bits, and the buffer it has left. -/
def decoded (s : State) (i : Nat) : List Byte × List Bool := bufferDecode (freqCode s) [] (bitsOf s i)

theorem decoded_succ (s : State) (i : Nat) : decoded s (i + 1) =
    ((decoded s i).1 ++ (bufferDecode (freqCode s) (decoded s i).2 [bitRead s i]).1,
      (bufferDecode (freqCode s) (decoded s i).2 [bitRead s i]).2) := by
  rw [decoded, bitsOf, List.range_succ, List.map_append]
  exact bufferDecode_snoc _ _ _ _

/-- Further bits emit further symbols. -/
theorem decoded_length_mono (s : State) {i j : Nat} (h : i ≤ j) : (decoded s i).1.length ≤ (decoded s j).1.length := by
  refine monotone_nat_of_le_succ (f := fun i => (decoded s i).1.length) (fun i => ?_) h
  simp [decoded_succ]

section
variable {s : State} {t l r : HuffTree} (h : IsTreeOf s.freq t) (hk : 2 ≤ s.symCount) {buf : List Bool} {b : Bool}
include h hk

/-- A bit that leads to a leaf completes its symbol. -/
theorem IsTreeOf.bufferDecode_leaf {v : Byte} (hsub : t.sub (buf ++ [b]) = some (.leaf v)) :
    bufferDecode (freqCode s) buf [b] = ([v], []) := by
  have hfind : (List.range 256).find? (fun w => decide (freqCode s w = buf ++ [b])) = some v.toNat := by
    cases e : (List.range 256).find? (fun w => decide (freqCode s w = buf ++ [b])) with
    | none =>
      have hv := List.find?_eq_none.1 e v.toNat (List.mem_range.2 v.isLt)
      exact absurd (decide_eq_true (h.freqCode_of_sub hk hsub)) hv
    | some w =>
      have hw : w < 256 := List.mem_range.1 (List.mem_of_find?_eq_some e)
      have hcode := List.find?_some e
      rw [decide_eq_true_eq, h.freqCode_eq_iff hk hw (by simp), hsub] at hcode
      obtain rfl := HuffTree.leaf.inj (Option.some.inj hcode)
      rw [BitVec.toNat_ofNat, Nat.mod_eq_of_lt hw]
  simp [bufferDecode, hfind]

/-- A bit that leads to an internal node lengthens the buffer. -/
theorem IsTreeOf.bufferDecode_node (hsub : t.sub (buf ++ [b]) = some (.node l r)) :
    bufferDecode (freqCode s) buf [b] = ([], buf ++ [b]) := by
  have hfind : (List.range 256).find? (fun w => decide (freqCode s w = buf ++ [b])) = none := by
    refine List.find?_eq_none.2 fun w hw => ?_
    rw [decide_eq_true_eq, h.freqCode_eq_iff hk (List.mem_range.1 hw) (by simp), hsub]
    simp
  simp [bufferDecode, hfind]

end

/-! ### The decoder, bit by bit -/

/-- `s` with what the decoder writes as `t` has it: OUT, OUT_LEN, the tree and the walker. -/
def decodeFrame (s t : State) : State := { withTree (withWalker s t) t with mem := t.mem }

theorem decodeFrame_trans {s t u : State} (h : t = decodeFrame s t) (h' : u = decodeFrame t u) : u = decodeFrame s u := by
  have hview := congrArg (fun x => decodeFrame x u) h
  exact h'.trans hview

/-- `s` with what a decoding command writes as `t` has it: what the decoder writes, the completion record, the trace. -/
def decodedFrame (s t : State) : State :=
  { withTree (withWalker (recorded s t) t) t with mem := t.mem, trace := t.trace }

/-- The completion adds its record and the trace events to what the decoder wrote. -/
theorem complete_decodedFrame {s : State} {r : ExecResult} (h : r.st = decodeFrame s r.st) (evs : List TraceEvent) :
    emit evs (complete r) = decodedFrame s (emit evs (complete r)) := by
  have hcomplete : emit evs (complete r) = decodedFrame r.st (emit evs (complete r)) := by
    obtain ⟨u, res⟩ := r
    unfold emit
    split <;> cases res <;> rfl
  have hview := congrArg (fun x => decodedFrame x (emit evs (complete r))) h
  exact hcomplete.trans hview

/-- After `i` bits of HUF_DECODE from `s`, the state `t` has in OUT what the buffer algorithm has emitted, and has changed
nothing beside. -/
structure OutputSoFar (s : State) (i : Nat) (t : State) : Prop where
  frame : t = decodeFrame s t
  wf : Memory.wf t.mem
  mem : sameOutside (outAddr 0) (outAddr t.csr.outLen.toNat) s t
  full : t.csr.outLen.toNat ≤ 4096
  out : t.outSlice 0 t.csr.outLen.toNat = (decoded s i).1

/-- Besides, in the tree `tree` of FREQ, the walker stands at the internal node to which the buffer leads. -/
structure DecodedSoFar (s : State) (tree : HuffTree) (i : Nat) (t : State) : Prop extends OutputSoFar s i t where
  nsym : 2 ≤ t.csr.nsym.toNat
  root : Represents t.node tree t.csr.root.toNat
  len : t.csr.decLen = BitVec.ofNat 9 (decoded s i).2.length
  walker : ∃ l r, tree.sub (decoded s i).2 = some (.node l r) ∧ Represents t.node (.node l r) t.csr.decNode.toNat

/-- One more cell at the end of a slice of OUT. -/
theorem outSlice_succ (t : State) (n : Nat) : t.outSlice 0 (n + 1) = t.outSlice 0 n ++ [t.outSym n] := by
  simp [State.outSlice, slice, List.range'_1_concat]

section
variable {s t : State} {tl tr : HuffTree} {i : Nat}

/-- The number of symbols in OUT is that of the buffer algorithm. -/
theorem OutputSoFar.outLen (hd : OutputSoFar s i t) :
    t.csr.outLen.toNat = (decoded s i).1.length := by
  rw [← hd.out, State.outSlice_length, Nat.sub_zero]

/-- BITBUF lies beyond OUT (20_memory.md R63). -/
theorem OutputSoFar.bitRead_eq (hd : OutputSoFar s i t) (j : Nat) : bitRead t j = bitRead s j := by
  have hfull := hd.full
  have hword : t.bitWord (j / 32) = s.bitWord (j / 32) :=
    Memory.readWord_congr fun k _ => hd.mem _ (.inr (by simp only [outAddr, outBase, bitAddr, bitBase]; omega))
  rw [bitRead, hword, bitRead]

/-- HUF_DECODE starts at the root of the tree of FREQ with no output (43_huffman_codec.md R135). -/
theorem decodedSoFar_start (hwf : Memory.wf s.mem) (h : IsTreeOf s.freq (.node tl tr)) (hk : 2 ≤ s.symCount) :
    DecodedSoFar s (.node tl tr) 0 ((buildTree s).setOutLen 0) where
  frame := rfl
  wf := hwf
  mem _ _ := rfl
  full := Nat.zero_le _
  out := rfl
  nsym := by
    have hle : s.symCount ≤ 256 := presentSyms_length_le s.freq
    simp only [State.setOutLen_csr, buildTree_csr, BitVec.toNat_ofNat]
    omega
  root := h.root
  len := rfl
  walker := ⟨tl, tr, rfl, h.root⟩

/-- A bit to an internal node: the buffer grows, the walker goes down. -/
theorem DecodedSoFar.atNode (hd : DecodedSoFar s (.node tl tr) i t) {c : BitVec 9} {l r : HuffTree}
    (hbuf : decoded s (i + 1) = ((decoded s i).1, (decoded s i).2 ++ [bitRead s i]))
    (hsub : (HuffTree.node tl tr).sub ((decoded s i).2 ++ [bitRead s i]) = some (.node l r))
    (hc : Represents t.node (.node l r) c.toNat) :
    DecodedSoFar s (.node tl tr) (i + 1) (t.setWalker c (t.csr.decLen.toNat + 1)) where
  frame := decodeFrame_trans hd.frame rfl
  wf := hd.wf
  mem := hd.mem
  full := hd.full
  out := by rw [hbuf]; exact hd.out
  nsym := hd.nsym
  root := hd.root
  len := BitVec.eq_of_toNat_eq (by simp [hbuf, hd.len])
  walker := by rw [hbuf]; exact ⟨l, r, hsub, hc⟩

/-- A symbol appended to OUT, with room for it, and the walker back at the root. -/
theorem OutputSoFar.append (hd : OutputSoFar s i t) {v : Byte}
    (hbuf : decoded s (i + 1) = ((decoded s i).1 ++ [v], [])) (hroom : t.csr.outLen.toNat < 4096) :
    OutputSoFar s (i + 1) ((t.setOut t.csr.outLen.toNat v).setOutLen (t.csr.outLen.toNat + 1)).walkerToRoot := by
  generalize hn : t.csr.outLen.toNat = n at hroom
  have hmem : sameOutside (outAddr 0) (outAddr n) s t := hn ▸ hd.mem
  have hlen : (BitVec.ofNat 16 (n + 1)).toNat = n + 1 := by rw [BitVec.toNat_ofNat]; omega
  have hsame : (t.setOut n v).outSlice 0 n = t.outSlice 0 n := by
    refine List.map_congr_left fun j hj => ?_
    have hj : j < n := by simpa [slice] using hj
    rw [State.outSym_setOut hd.wf, if_neg (by omega)]
  constructor
  case frame => exact decodeFrame_trans hd.frame rfl
  case wf => exact State.setOut_wf hd.wf _ _
  case mem =>
    intro a ha
    simp only [State.walkerToRoot_csr, State.setOutLen_csr, hlen] at ha
    rw [← hmem a (by simp only [outAddr] at ha ⊢; omega)]
    exact Memory.get_set_of_ne (by simp only [outAddr] at ha ⊢; omega) _
  case full => simpa [hlen] using hroom
  case out =>
    simp only [State.walkerToRoot_csr, State.setOutLen_csr, hlen, hbuf]
    change (t.setOut n v).outSlice 0 (n + 1) = _
    rw [outSlice_succ, hsame, State.outSym_setOut hd.wf, if_pos rfl, ← hn, hd.out]

/-- A bit to a leaf, with room in OUT: its symbol is appended, buffer and walker start again. -/
theorem DecodedSoFar.atLeaf (hd : DecodedSoFar s (.node tl tr) i t) {v : Byte}
    (hbuf : decoded s (i + 1) = ((decoded s i).1 ++ [v], [])) (hroom : t.csr.outLen.toNat < 4096) :
    DecodedSoFar s (.node tl tr) (i + 1)
      ((t.setOut t.csr.outLen.toNat v).setOutLen (t.csr.outLen.toNat + 1)).walkerToRoot := by
  refine { toOutputSoFar := hd.append hbuf hroom, nsym := hd.nsym, root := hd.root, len := ?_, walker := ?_ }
  · rw [hbuf]; rfl
  · rw [hbuf]; exact ⟨tl, tr, rfl, hd.root⟩

/-- One bit of HUF_DECODE: a step of the buffer algorithm, or CapacityExceeded where it completes symbol number 4097
(43_huffman_codec.md R131, R135). -/
theorem DecodedSoFar.nextBit (h : IsTreeOf s.freq (.node tl tr)) (hk : 2 ≤ s.symCount)
    (hd : DecodedSoFar s (.node tl tr) i t) :
    (∃ t', decodeElem i t = .ok t' ∧ DecodedSoFar s (.node tl tr) (i + 1) t') ∨
      (decodeElem i t = .error ⟨.capacityExceeded, i⟩ ∧ (decoded s i).1.length = 4096 ∧
        (decoded s (i + 1)).1.length = 4097) := by
  obtain ⟨l, r, hsub, hwalker⟩ := hd.walker
  have hsub' := HuffTree.sub_snoc (b := bitRead s i) hsub
  have hchild := hwalker.child (bitRead s i)
  obtain ⟨h0, h1⟩ := two_le_toNat_iff.1 hd.nsym
  generalize (if bitRead s i then r else l) = u at hsub' hchild
  rw [decodeElem, hd.bitRead_eq, decStep, if_neg h0, if_neg h1]
  cases u with
  | node l' r' =>
    have hbuf : decoded s (i + 1) = ((decoded s i).1, (decoded s i).2 ++ [bitRead s i]) := by
      rw [decoded_succ, h.bufferDecode_node hk hsub', List.append_nil]
    have hleaf : ¬ (t.nodeAt (childOf (t.nodeAt t.csr.decNode) (bitRead s i))).leaf = true :=
      Bool.eq_false_iff.1 hchild.not_leaf
    simp only [if_neg hleaf]
    exact .inl ⟨_, rfl, hd.atNode hbuf hsub' hchild⟩
  | leaf v =>
    have hbuf : decoded s (i + 1) = ((decoded s i).1 ++ [v], []) := by
      rw [decoded_succ, h.bufferDecode_leaf hk hsub']
    have hleaf : (t.nodeAt (childOf (t.nodeAt t.csr.decNode) (bitRead s i))).leaf = true := hchild.leaf_sym.1
    have hsym : (t.nodeAt (childOf (t.nodeAt t.csr.decNode) (bitRead s i))).sym = v := hchild.leaf_sym.2
    simp only [if_pos hleaf, hsym, emitSym]
    by_cases hroom : Config.nMax ≤ t.csr.outLen.toNat
    · have hfull := hd.full
      have hlen := hd.outLen
      have hroom' : 4096 ≤ t.csr.outLen.toNat := hroom
      rw [if_pos hroom]
      refine .inr ⟨rfl, by omega, ?_⟩
      rw [hbuf, List.length_append, List.length_singleton]
      omega
    · rw [if_neg hroom]
      exact .inl ⟨_, rfl, hd.atLeaf hbuf (Nat.lt_of_not_le hroom)⟩

/-- A loop that has stopped at an error does not see the elements after it. -/
theorem forElems_append_error {f : Nat → State → Except Err State} {pre post : List Nat} {s t : State} {e : Err}
    (h : forElems f pre s = (t, some e)) : forElems f (pre ++ post) s = (t, some e) := by
  induction pre generalizing s with
  | nil => cases h
  | cons i is ih =>
    rw [forElems_cons] at h
    rw [List.cons_append, forElems_cons]
    split at h
    · exact ih h
    · exact h

/-- The first `n` bits of HUF_DECODE: all of them fed to the buffer algorithm, or the first bit that completes symbol number
4097 (43_huffman_codec.md R135). -/
theorem decodeLoop_spec (hwf : Memory.wf s.mem) (h : IsTreeOf s.freq (.node tl tr)) (hk : 2 ≤ s.symCount) (n : Nat) :
    (∃ t, forElems decodeElem (List.range n) ((buildTree s).setOutLen 0) = (t, none) ∧
      DecodedSoFar s (.node tl tr) n t) ∨
    ∃ i t, i < n ∧ forElems decodeElem (List.range n) ((buildTree s).setOutLen 0) = (t, some ⟨.capacityExceeded, i⟩) ∧
      DecodedSoFar s (.node tl tr) i t ∧ (decoded s i).1.length = 4096 ∧ (decoded s (i + 1)).1.length = 4097 := by
  induction n with
  | zero => exact .inl ⟨_, rfl, decodedSoFar_start hwf h hk⟩
  | succ n ih =>
    rw [List.range_succ]
    rcases ih with ⟨t, he, hd⟩ | ⟨i, t, hi, he, hd⟩
    · rw [forElems_append he, forElems_cons]
      rcases hd.nextBit h hk with ⟨t', he', hd'⟩ | ⟨he', hlen⟩
      · exact .inl ⟨t', by rw [he']; rfl, hd'⟩
      · exact .inr ⟨n, t, Nat.lt_succ_self n, by rw [he'], hd, hlen⟩
    · exact .inr ⟨i, t, Nat.lt_succ_of_lt hi, forElems_append_error he, hd⟩

end

/-! ### The whole command -/

/-- The statements count the present symbols as the builder does. -/
theorem distinctCount_eq_symCount (s : State) : distinctCount s = s.symCount :=
  congrArg List.length (List.filter_congr fun v _ => Bool.eq_iff_iff.2 (by simp))

/-- The end check after all bits: it succeeds exactly where the buffer is empty, and leaves the walker at the root
(43_huffman_codec.md R132). -/
theorem DecodedSoFar.endCheck_eq {s t : State} {tree : HuffTree} {n : Nat} (hd : DecodedSoFar s tree n t)
    (h : IsTreeOf s.freq tree) (pos v : Nat) : endCheck pos v t =
      ⟨t.walkerToRoot, if (decoded s n).2 = [] then .ok v else .error ⟨.corruptStream, pos⟩⟩ := by
  obtain ⟨l, r, hsub, -⟩ := hd.walker
  have hlen := HuffTree.length_of_sub_node hsub
  have hle := h.syms_length_le
  have hzero : t.csr.decLen = 0 ↔ (decoded s n).2 = [] := by
    rw [hd.len, ← BitVec.toNat_inj, BitVec.toNat_ofNat, Nat.mod_eq_of_lt (by omega), ← List.length_eq_zero_iff]
    rfl
  unfold endCheck
  by_cases hbuf : (decoded s n).2 = []
  · rw [if_pos (hzero.2 hbuf), if_pos hbuf]
  · rw [if_neg (mt hzero.1 hbuf), if_neg hbuf]

section
variable {s t : State} (hbits : s.csr.bitLen.toNat ≤ 2 ^ 20)
include hbits

/-- Where no bit raises, HUF_DECODE ends with the end check (43_huffman_codec.md R135). -/
theorem runHufDecode_of_loop
    (he : forElems decodeElem (List.range s.csr.bitLen.toNat) ((buildTree s).setOutLen 0) = (t, none)) :
    runHufDecode s = endCheck s.csr.bitLen.toNat t.csr.outLen.toNat t := by
  simp only [runHufDecode, he]
  exact if_neg (Nat.not_lt.2 hbits)

/-- Where a bit raises, HUF_DECODE ends with its error (43_huffman_codec.md R135). -/
theorem runHufDecode_of_error {e : Err}
    (he : forElems decodeElem (List.range s.csr.bitLen.toNat) ((buildTree s).setOutLen 0) = (t, some e)) :
    runHufDecode s = ⟨t, .error e⟩ := by
  simp only [runHufDecode, he]
  exact if_neg (Nat.not_lt.2 hbits)

end

/-- The walker put back at the root does not touch the output. -/
theorem OutputSoFar.walkerToRoot {s t : State} {i : Nat} (hd : OutputSoFar s i t) : OutputSoFar s i t.walkerToRoot where
  frame := decodeFrame_trans hd.frame rfl
  wf := hd.wf
  mem := hd.mem
  full := hd.full
  out := hd.out

/-- The decoder does not touch the sticky error. -/
theorem OutputSoFar.stickyErr {s t : State} {i : Nat} (hd : OutputSoFar s i t) : t.csr.stickyErr = s.csr.stickyErr :=
  congrArg (fun x => x.csr.stickyErr) hd.frame

/-- The completion record is apart from OUT_LEN and the tree and walker registers (40_control.md R104). -/
theorem complete_csr_frame (r : ExecResult) : (complete r).csr.outLen = r.st.csr.outLen ∧
    (complete r).csr.treeValid = r.st.csr.treeValid ∧ (complete r).csr.root = r.st.csr.root ∧
    (complete r).csr.decNode = r.st.csr.decNode ∧ (complete r).csr.decLen = r.st.csr.decLen := by
  obtain ⟨u, res⟩ := r
  cases res <;> exact ⟨rfl, rfl, rfl, rfl, rfl⟩

/-- What every outcome of HUF_DECODE says of the tree, the output and everything else. -/
theorem OutputSoFar.completed {s u t : State} {i : Nat} (hd : OutputSoFar s i u) (hinv : u.treeInv)
    (hvalid : u.csr.treeValid = true) {res : Except Err Nat} {evs : List TraceEvent}
    (ht : t = emit evs (complete ⟨u, res⟩)) :
    t.csr.treeValid = true ∧ t.treeOk ∧ t = decodedFrame s t ∧ sameOutside (outAddr 0) (outAddr t.csr.outLen.toNat) s t ∧
      t.outSlice 0 t.csr.outLen.toNat = (decoded s i).1 := by
  obtain ⟨hlen, hv, -⟩ := complete_csr_frame ⟨u, res⟩
  have hmem : t.mem = u.mem := by rw [ht, emit_mem, (complete_frame _).1]
  have hcsr : t.csr = (complete ⟨u, res⟩).csr := by rw [ht, emit_csr]
  have hslice : t.outSlice = u.outSlice := by unfold State.outSlice State.outSym; rw [hmem]
  rw [hcsr, hlen, hv, hslice]
  refine ⟨hvalid, ?_, ?_, ?_, hd.out⟩
  · rw [ht]; exact ((sameTree_complete evs ⟨u, res⟩).treeInv hinv).1
  · rw [ht]; exact complete_decodedFrame hd.frame evs
  · unfold sameOutside; rw [hmem]; exact hd.mem

/-- Settles O37: HUF_DECODE keeps the walker at the node to which the buffer of AXC leads, bit by bit; since the codes are
the paths to the leaves, a bit completes a symbol for both or for neither. -/
theorem hufDecodeIsTheBufferAlgorithm : Obligations.HufDecodeIsTheBufferAlgorithm := by
  unfold Obligations.HufDecodeIsTheBufferAlgorithm
  intro s hwf hbits hk
  rw [distinctCount_eq_symCount] at hk
  obtain ⟨tree, h⟩ := exists_isTreeOf (f := s.freq) (List.length_pos_iff.1 (Nat.lt_of_lt_of_le Nat.zero_lt_two hk))
  obtain ⟨tl, tr, rfl⟩ := h.exists_node hk
  have hinv := treeInv_decodeLoop s (List.range s.csr.bitLen.toNat)
  refine ⟨_, rfl, ?_⟩
  generalize traceHufDecode s (runHufDecode s) = evs
  have hdecoded : ∀ i, bufferDecode (freqCode s) [] (bitsOf s i) = decoded s i := fun _ => rfl
  simp only [hdecoded]
  rcases decodeLoop_spec hwf h hk s.csr.bitLen.toNat with ⟨t, he, hd⟩ | ⟨i, t, hi, he, hd, hlen, hlen'⟩
  · rw [he] at hinv
    rw [runHufDecode_of_loop hbits he, hd.endCheck_eq h]
    have hroot := hd.walkerToRoot
    have hfull := hd.full
    obtain ⟨hv, htree, hframe, hmem, hout⟩ := hroot.completed (treeInv_walkerToRoot hinv.2 hinv.1) hinv.2 rfl
    obtain ⟨hclen, -, hcroot, hcnode, hcdec⟩ := complete_csr_frame
      ⟨t.walkerToRoot, if (decoded s s.csr.bitLen.toNat).2 = [] then .ok t.csr.outLen.toNat
        else .error ⟨.corruptStream, s.csr.bitLen.toNat⟩⟩
    refine ⟨hv, htree, hframe, hmem, fun _ => ⟨hout, ?_, ?_, fun hbuf => ?_, fun hbuf => ?_⟩, fun hlong => ?_⟩
    · rw [emit_csr, hcnode, hcroot]; rfl
    · rw [emit_csr, hcdec]; rfl
    · rw [emit_csr, hclen, if_pos hbuf]
      exact succeeded_complete hroot.stickyErr (by omega) evs
    · rw [if_neg hbuf]
      exact failed_complete (e := ⟨.corruptStream, s.csr.bitLen.toNat⟩) (by simp only; omega) evs
    · rw [hd.outLen] at hfull
      omega
  · rw [he] at hinv
    rw [runHufDecode_of_error hbits he]
    obtain ⟨hv, htree, hframe, hmem, hout⟩ := hd.completed hinv.1 hinv.2 rfl
    refine ⟨hv, htree, hframe, hmem, fun hshort => ?_, fun _ => ⟨i, hi, ?_, hlen, hlen', hout⟩⟩
    · have hmono := decoded_length_mono s hi
      simp only [Nat.succ_eq_add_one] at hmono
      omega
    · exact failed_complete (e := ⟨.capacityExceeded, i⟩) (by simp only; omega) evs

end Sys2Proof.Machine
end

section
/-! PROOFS. The address map, by offset and by target, and host accesses through it, rejected and accepted, while idle and
while busy (20_memory.md R62 to R77). -/

namespace Sys2Proof.Machine

/-! ### The rows of the map -/

/-- The targets that the core has: every register, and every index that a memory holds (20_memory.md R63, R66 to R71). -/
def Target.inMap : Target → Prop
  | .freq i => i < 256
  | .node i k => i < 512 ∧ k < 4
  | .lut sym k => sym < 256 ∧ k < 16
  | .inCell i => i < 4096
  | .outCell i => i < 4096
  | .tok i => i < 4096
  | .bits i => i < 32768
  | _ => True

/-- The offset of each cell of the five memories, in numbers (20_memory.md R66 to R69). -/
theorem cellAddr_eq {i : Nat} : freqAddr i = 0x01000 + 4 * i ∧ inAddr i = 0x10000 + 4 * i ∧
    outAddr i = 0x14000 + 4 * i ∧ tokAddr i = 0x20000 + 4 * i ∧ bitAddr i = 0x40000 + 4 * i :=
  ⟨rfl, rfl, rfl, rfl, rfl⟩

/-- The rows of the address map: the range of offsets in which each target lies (20_memory.md R63, R66 to R71). -/
inductive Reaches (off : Nat) : Target → Prop
  | csr {r : CsrName} (hi : off < 0x00054) (hr : csrMap.idxOf r = off / 4) : Reaches off (.csr r)
  | freq (lo : 0x01000 ≤ off) (hi : off < 0x01400) : Reaches off (.freq ((off - 0x01000) / 4))
  | node (lo : 0x02000 ≤ off) (hi : off < 0x04000) : Reaches off (.node ((off - 0x02000) / 16) ((off - 0x02000) % 16 / 4))
  | lut (lo : 0x04000 ≤ off) (hi : off < 0x08000) : Reaches off (.lut ((off - 0x04000) / 64) ((off - 0x04000) % 64 / 4))
  | inCell (lo : 0x10000 ≤ off) (hi : off < 0x14000) : Reaches off (.inCell ((off - 0x10000) / 4))
  | outCell (lo : 0x14000 ≤ off) (hi : off < 0x18000) : Reaches off (.outCell ((off - 0x14000) / 4))
  | tok (lo : 0x20000 ≤ off) (hi : off < 0x24000) : Reaches off (.tok ((off - 0x20000) / 4))
  | bits (lo : 0x40000 ≤ off) (hi : off < 0x60000) : Reaches off (.bits ((off - 0x40000) / 4))
  | reserved (h : reservedOffset off ∨ 0x80000 ≤ off) : Reaches off .reserved

/-- Every offset lies in a row of the map, and reaches what that row says (20_memory.md R63). -/
theorem target_reaches (off : Nat) : Reaches off (target off) := by
  by_cases hi : off < 0x00054
  · have hlen : off / 4 < csrMap.length := by
      have : csrMap.length = 21 := rfl
      omega
    rw [target, if_pos hi, List.getElem?_eq_getElem hlen]
    exact .csr hi (List.Nodup.idxOf_getElem (by decide : csrMap.Nodup) (off / 4) hlen)
  · rw [target, if_neg hi]
    repeat' refine iteInduction (fun _ => ?_) fun _ => ?_
    all_goals constructor
    any_goals unfold reservedOffset
    all_goals omega

section
variable {off : Nat} {t : Target}

/-- An offset reaches nothing exactly where it is marked reserved, or beyond the window (20_memory.md R63). -/
theorem Reaches.eq_reserved_iff (h : Reaches off t) : t = .reserved ↔ reservedOffset off ∨ 0x80000 ≤ off := by
  cases h with
  | reserved h => exact iff_of_true rfl h
  | csr hi | freq _ hi | node _ hi | lut _ hi | inCell _ hi | outCell _ hi | tok _ hi | bits _ hi =>
    exact iff_of_false (by simp) (by unfold reservedOffset; omega)

/-- A target stands at the aligned offset that reaches it (20_memory.md R63). -/
theorem Reaches.offsetOf_eq (h : Reaches off t) (h4 : off % 4 = 0) (ht : t ≠ .reserved) : offsetOf t = off := by
  cases h with
  | reserved _ => exact absurd rfl ht
  | csr hi hr => rw [offsetOf, hr]; omega
  | freq | node | lut | inCell | outCell | tok | bits => simp only [offsetOf, cellAddr_eq]; omega

/-- A target that an offset reaches is one that the core has (20_memory.md R63). -/
theorem Reaches.inMap (h : Reaches off t) : t.inMap := by
  cases h with
  | csr | reserved => trivial
  | freq | inCell | outCell | tok | bits => unfold Target.inMap; omega
  | node | lut => unfold Target.inMap; constructor <;> omega

end

/-- The address map reaches every target that the core has at the target's own offset (20_memory.md R63). -/
theorem target_offsetOf {t : Target} (h : t.inMap) : target (offsetOf t) = t := by
  cases t with
  | csr r => exact target_offsetOf_csr r
  | reserved => rfl
  | freq | inCell | outCell | tok | bits | node | lut =>
    simp only [Target.inMap] at h
    simp only [offsetOf, cellAddr_eq]
    rw [target]
    repeat rw [if_neg (by omega)]
    rw [if_pos (by omega)]
    congr 1 <;> omega

/-- In the window the map reserves exactly the offsets that R63 marks so (20_memory.md R63). -/
theorem target_eq_reserved_iff {off : Nat} (hoff : off < 0x80000) : target off = .reserved ↔ reservedOffset off := by
  rw [(target_reaches off).eq_reserved_iff, or_iff_left (by omega)]

/-- Settles O20: the two facts hold in each row of the map. -/
theorem addressMapIsOneToOne : Obligations.AddressMapIsOneToOne := by
  unfold Obligations.AddressMapIsOneToOne
  exact fun off hoff h4 => ⟨target_eq_reserved_iff hoff, (target_reaches off).offsetOf_eq h4⟩

/-! ### Host accesses -/

section
variable {s : State} {off : Nat} {w : Word}

/-- An access that is not accepted is a bus error (20_memory.md R62, R64). -/
theorem step_bus_rejected {a : Access} (hoff : off < 0x80000) (haddr : a.addr = s.params.base + off)
    (hrej : a.size ≠ .four ∨ off % 4 ≠ 0 ∨ reservedOffset off) :
    step { s with agenda := .bus a :: s.agenda } = busError a s := by
  have hacc : ¬ accepted a off = true := by
    rw [accepted_iff, ne_eq, target_eq_reserved_iff hoff]
    tauto
  have hin : s.params.offset a.addr = some off := haddr ▸ Params.offset_base s.params hoff
  change busAccess a s = _
  simp only [busAccess, hin, if_neg hacc]

/-- An aligned read of an offset that is not reserved is accepted (20_memory.md R62, R64). -/
theorem hostReadAt_accepted (hoff : off < 0x80000) (h4 : off % 4 = 0) (ht : target off ≠ .reserved) :
    hostReadAt s off = .next (busRead (target off) s) := by
  have hacc : accepted ⟨.read, s.params.base + off, .four, 0⟩ off = true := accepted_iff.2 ⟨rfl, h4, ht⟩
  change busAccess ⟨.read, s.params.base + off, .four, 0⟩ s = _
  simp only [busAccess, Params.offset_base s.params hoff, hacc, if_true]

/-- An accepted read returns the value of its target while idle, and of a readable register always (20_memory.md R74,
R76). -/
theorem busRead_of_value {t : Target} (h : s.pending = .idle ∨ readableBusy t = true) :
    busRead t s = { s with resp := some (.data (s.readTarget t)) } := by
  rcases busRead_cases t s with e | ⟨hp, hr, -⟩
  · exact e
  · simp [hp, hr] at h

/-- Any other accepted read while busy returns a free draw (20_memory.md R76). -/
theorem busRead_of_draw {t : Target} (hp : s.pending ≠ .idle) (hr : readableBusy t = false) :
    busRead t s = { s with resp := some (.data (Config.busyRead s.draws)), draws := s.draws + 1 } := by
  rw [busRead, (busy_iff s).2 hp, hr]
  rfl

/-- An accepted write while idle, other than SRST, follows its target's rule (20_memory.md R65 to R69). -/
theorem busWrite_idle (hp : s.pending = .idle) {t : Target} (hr : isSoftReset t w = false) :
    busWrite t w s = { s.writeTarget w t with resp := some .written } := by
  rcases busWrite_cases t w s with ⟨h, -⟩ | ⟨-, h, -⟩ | ⟨-, -, e⟩
  · simp [hr] at h
  · exact absurd hp h
  · exact e

/-- An accepted write while busy, other than SRST, is dropped and sets OVERRUN (20_memory.md R77). -/
theorem busWrite_busy (hp : s.pending ≠ .idle) {t : Target} (hr : isSoftReset t w = false) :
    busWrite t w s = { s with csr := { s.csr with overrun := true }, resp := some .written } := by
  rcases busWrite_cases t w s with ⟨h, -⟩ | ⟨-, -, e⟩ | ⟨-, h, -⟩
  · simp [hr] at h
  · exact e
  · exact absurd h hp

/-- The registers that keep their value while busy are those below 0x010: ID, CTRL, STATUS and CMD (20_memory.md R76). -/
theorem readableBusy_target (h4 : off % 4 = 0) : readableBusy (target off) = true ↔ off < 0x010 := by
  constructor
  · intro h
    generalize ht : target off = t at h
    unfold readableBusy at h
    split at h
    case h_5 => cases h
    all_goals rw [offsetOf_of_target_csr h4 ht]; decide
  · intro h
    obtain rfl | rfl | rfl | rfl : off = 0x000 ∨ off = 0x004 ∨ off = 0x008 ∨ off = 0x00C := by omega
    all_goals rfl

/-- The SRST action is a write to offset 0x004 with bit 1 set (10_state.md R22). -/
theorem isSoftReset_target (h4 : off % 4 = 0) : isSoftReset (target off) w = true ↔ off = 0x004 ∧ w.getLsbD 1 = true := by
  have hctrl : target off = .csr .ctrl ↔ off = 0x004 :=
    ⟨fun h => offsetOf_of_target_csr h4 h, fun h => h ▸ rfl⟩
  simp [isSoftReset, hctrl]

end

/-- Settles O9: such an access is rejected, and the bus error response is either way all that happens. -/
theorem busErrorLeavesTheCoreUnchanged : Obligations.BusErrorLeavesTheCoreUnchanged := by
  unfold Obligations.BusErrorLeavesTheCoreUnchanged
  intro s a off hoff haddr hrej
  rw [step_bus_rejected hoff haddr hrej, busError]
  exact ⟨fun h => by simp [h], fun h => by simp [h]⟩

/-- Settles O10: the accepted read of a target, with the four registers readable while busy told by their offset. -/
theorem readsHaveNoSideEffect : Obligations.ReadsHaveNoSideEffect := by
  unfold Obligations.ReadsHaveNoSideEffect
  intro s off hoff h4 hres
  rw [hostReadAt_accepted hoff h4 (mt (target_eq_reserved_iff hoff).1 hres)]
  refine ⟨fun h => ⟨_, ?_, rfl⟩, fun hp hlo => ?_⟩
  · rw [busRead_of_value (by rwa [readableBusy_target h4])]
  · rw [busRead_of_draw hp (Bool.eq_false_iff.2 (mt (readableBusy_target h4).1 (Nat.not_lt.2 hlo)))]

/-- Settles O11: while busy an accepted write is SRST, told by its offset, or dropped; one to a reserved offset is not
accepted. -/
theorem busyWritesAreDropped : Obligations.BusyWritesAreDropped := by
  unfold Obligations.BusyWritesAreDropped
  intro s off w hoff h4 hp
  refine ⟨fun hres hsrst => ?_, fun h hw => ?_, fun hres => ?_⟩
  · rw [hostWriteAt_accepted hoff h4 (mt (target_eq_reserved_iff hoff).1 hres),
      busWrite_busy hp (Bool.eq_false_iff.2 (mt (isSoftReset_target h4).1 hsrst))]
  · subst h
    exact hostWriteAt_srst hw
  · rw [hostWriteAt, step_bus_rejected hoff rfl (.inr (.inr hres)), busError]
    exact ⟨fun h => by simp [h], fun h => ⟨_, if_pos h, rfl, rfl, rfl⟩⟩

/-! ### Accesses while idle, by target -/

section
variable {s : State} {w : Word} {t : Target}

/-- Every target that the core has stands at an aligned offset of the window (20_memory.md R63). -/
theorem offsetOf_lt_and_aligned (h : t.inMap) : offsetOf t < 0x80000 ∧ offsetOf t % 4 = 0 := by
  cases t with
  | csr r => exact ⟨offsetOf_csr_lt r, offsetOf_csr_aligned r⟩
  | reserved => decide
  | freq | inCell | outCell | tok | bits | node | lut =>
    simp only [Target.inMap] at h
    simp only [offsetOf, cellAddr_eq]
    omega

/-- A write while idle, other than SRST, follows its target's rule (20_memory.md R65 to R69). -/
theorem hostWriteAt_idle (hp : s.pending = .idle) (h : t.inMap) (ht : t ≠ .reserved) (hr : isSoftReset t w = false) :
    hostWriteAt s (offsetOf t) w = .next { s.writeTarget w t with resp := some .written } := by
  obtain ⟨hoff, h4⟩ := offsetOf_lt_and_aligned h
  rw [hostWriteAt_accepted hoff h4 (by rwa [target_offsetOf h]), target_offsetOf h, busWrite_idle hp hr]

/-- A read while idle returns the value of its target (20_memory.md R74). -/
theorem hostReadAt_idle (hp : s.pending = .idle) (h : t.inMap) (ht : t ≠ .reserved) :
    hostReadAt s (offsetOf t) = .next { s with resp := some (.data (s.readTarget t)) } := by
  obtain ⟨hoff, h4⟩ := offsetOf_lt_and_aligned h
  rw [hostReadAt_accepted hoff h4 (by rwa [target_offsetOf h]), target_offsetOf h, busRead_of_value (.inl hp)]

end

/-- A read-only register ignores the write (10_state.md R19). -/
theorem writeCsr_readOnly {r : CsrName} (hr : readOnlyCsr r = true) (s : State) (w : Word) : s.writeCsr w r = s := by
  cases r <;> cases hr <;> rfl

/-- From 0x02000 to 0x07FFF lie the NODE and LUT apertures, which ignore the write (20_memory.md R65). -/
theorem writeTarget_readOnly {off : Nat} (lo : 0x02000 ≤ off) (hi : off ≤ 0x07FFF) (s : State) (w : Word) :
    target off ≠ .reserved ∧ isSoftReset (target off) w = false ∧ s.writeTarget w (target off) = s := by
  have h := target_reaches off
  generalize target off = t at h ⊢
  cases h with
  | node | lut => exact ⟨by simp, rfl, rfl⟩
  | reserved h => unfold reservedOffset at h; omega
  | csr | freq | inCell | outCell | tok | bits => omega

/-- Settles O16: the write is accepted, and the rule of its target is to ignore it. -/
theorem readOnlyWritesAreIgnored : Obligations.ReadOnlyWritesAreIgnored := by
  unfold Obligations.ReadOnlyWritesAreIgnored
  rintro s off w hp h4 (⟨r, hr, rfl⟩ | ⟨lo, hi⟩)
  · have hctrl : r ≠ .ctrl := by rintro rfl; cases hr
    rw [hostWriteAt_csr_idle hp (isSoftReset_of_ne hctrl w), writeCsr_readOnly hr]
  · obtain ⟨ht, hr, he⟩ := writeTarget_readOnly lo hi s w
    rw [hostWriteAt_accepted (by simp only [Config.windowBytes]; omega) h4 ht, busWrite_idle hp hr, he]

/-- Settles O18: the write follows the rule of FREQ, a word stored and the tree invalidated. -/
theorem freqWriteInvalidatesTheTree : Obligations.FreqWriteInvalidatesTheTree := by
  unfold Obligations.FreqWriteInvalidatesTheTree
  intro s v w hv hwf hp
  refine ⟨⟨_, hostWriteAt_idle (t := .freq v) hp hv (by simp) rfl, ?_, ⟨rfl, rfl, rfl, rfl, rfl, rfl⟩, rfl, rfl, rfl, ?_⟩,
    hostReadAt_idle (t := .freq v) hp hv (by simp)⟩
  · exact (State.freq_setFreq hwf v v w).trans (if_pos rfl)
  · exact fun a ha => Memory.get_writeWord_of_ne ha w

/-- A write whose rule stores into memory alone, with a read of the same cell, as the statement on the apertures puts
them: `P` says what the cell reads as afterwards, and the bytes from `lo` to `hi` are those of the cell. -/
theorem storesOneCell {s : State} {w : Word} {t : Target} {P : State → Prop} {lo hi : Nat} (hp : s.pending = .idle)
    (h : t.inMap) (ht : t ≠ .reserved) (hr : isSoftReset t w = false)
    (hrule : s.writeTarget w t = s.withMem (s.writeTarget w t).mem)
    (hcell : P { s.writeTarget w t with resp := some .written })
    (hbytes : ∀ a, (a < lo ∨ hi ≤ a) → Memory.get (s.writeTarget w t).mem a = Memory.get s.mem a) :
    ∃ u, hostWriteAt s (offsetOf t) w = .next u ∧ P u ∧ u = { s with mem := u.mem, resp := some .written } ∧
      sameOutside lo hi s u ∧ hostReadAt s (offsetOf t) = .next { s with resp := some (.data (s.readTarget t)) } :=
  ⟨_, hostWriteAt_idle hp h ht hr, hcell, congrArg (fun u : State => { u with resp := some .written }) hrule, hbytes,
    hostReadAt_idle hp h ht⟩

/-- Settles O19: the write follows the rule of its aperture, one byte or one word stored. -/
theorem apertureWritesStoreOneCell : Obligations.ApertureWritesStoreOneCell := by
  unfold Obligations.ApertureWritesStoreOneCell
  intro s i w hwf hp
  refine ⟨fun hi => ?_, fun hi => ?_, fun hi => ?_, fun hi => ?_⟩
  · exact storesOneCell (t := .inCell i) hp hi (by simp) rfl rfl ((State.inSym_setIn hwf i i _).trans (if_pos rfl))
      fun a ha => Memory.get_set_of_ne (by simp only [cellAddr_eq]; omega) _
  · exact storesOneCell (t := .outCell i) hp hi (by simp) rfl rfl ((State.outSym_setOut hwf i i _).trans (if_pos rfl))
      fun a ha => Memory.get_set_of_ne (by simp only [cellAddr_eq]; omega) _
  · exact storesOneCell (t := .tok i) hp hi (by simp) rfl rfl ((State.tok_setTok hwf i i w).trans (if_pos rfl))
      fun a ha => Memory.get_writeWord_of_ne ha w
  · exact storesOneCell (t := .bits i) hp hi (by simp) rfl rfl ((State.bitWord_setBitWord hwf i i w).trans (if_pos rfl))
      fun a ha => Memory.get_writeWord_of_ne ha w

end Sys2Proof.Machine
end

section
/-! PROOFS. The shape of the state as an invariant: the memory is canonical and inside the cells of the address map, the
windows are within their capacities, and ERRCODE is a defined code (20_memory.md R63, R78, 44_window.md R140,
60_exceptions.md R156). -/

namespace Sys2Proof.Machine

/-! ### The memory -/

/-- The memory is canonical and holds nothing outside the cells of the address map: `State.memOk`, said of the memory. -/
structure Memory.InCells (m : Memory) : Prop where
  wf : Memory.wf m
  cells : ∀ c ∈ m, isCellByte c.1 = true

section
variable {m : Memory}

theorem Memory.InCells.set (h : Memory.InCells m) {a : Nat} (ha : isCellByte a = true) (b : Byte) :
    Memory.InCells (Memory.set m a b) where
  wf := Memory.set_wf h.wf a b
  cells c hc := by
    rcases Memory.mem_set hc with hc | rfl
    · exact h.cells c hc
    · exact ha

theorem Memory.InCells.writeWord (h : Memory.InCells m) {a : Nat} (ha : ∀ k, k < 4 → isCellByte (a + k) = true)
    (w : Word) :
    Memory.InCells (Memory.writeWord m a w) where
  wf := Memory.writeWord_wf h.wf a w
  cells c hc := by
    rcases Memory.mem_writeWord hc with hc | ⟨hlo, hhi⟩
    · exact h.cells c hc
    · simpa [Nat.add_sub_cancel' hlo] using ha (c.1 - a) (by omega)

theorem Memory.InCells.clearRange (h : Memory.InCells m) (lo n : Nat) : Memory.InCells (Memory.clearRange m lo n) where
  wf := Memory.clearRange_wf h.wf lo n
  cells c hc := h.cells c (List.mem_filter.1 hc).1

end

/-- The offsets at which the five memories keep bits (20_memory.md R63, R66 to R69). -/
theorem isCellByte_iff {a : Nat} : isCellByte a = true ↔
    (0x01000 ≤ a ∧ a < 0x01400) ∨ (0x10000 ≤ a ∧ a < 0x18000 ∧ a % 4 = 0) ∨ (0x20000 ≤ a ∧ a < 0x24000) ∨
      (0x40000 ≤ a ∧ a < 0x60000) := by
  simp [isCellByte, or_assoc]

/-! ### What a command may write -/

/-- The shape of the memory and the windows: all of `State.shapeOk` but ERRCODE, which the completion record sets. -/
structure State.StoreOk (s : State) : Prop where
  mem : Memory.InCells s.mem
  hwin : Window.ok .hwin s.hwin
  lwin : Window.ok .lwin s.lwin

theorem State.shapeOk_iff {s : State} : s.shapeOk ↔ s.StoreOk ∧ s.csr.errcode.toNat ≤ 7 :=
  ⟨fun ⟨⟨hwf, hcells⟩, hhwin, hlwin, herr⟩ => ⟨⟨⟨hwf, hcells⟩, hhwin, hlwin⟩, herr⟩,
    fun ⟨⟨⟨hwf, hcells⟩, hhwin, hlwin⟩, herr⟩ => ⟨⟨hwf, hcells⟩, hhwin, hlwin, herr⟩⟩

section
variable {s t : State}

/-- An update of other fields keeps the shape. -/
theorem State.StoreOk.of_eq (h : s.StoreOk) (hmem : t.mem = s.mem) (hhwin : t.hwin = s.hwin) (hlwin : t.lwin = s.lwin) :
    t.StoreOk := ⟨hmem ▸ h.mem, hhwin ▸ h.hwin, hlwin ▸ h.lwin⟩

theorem State.StoreOk.withMem (h : s.StoreOk) {m : Memory} (hm : Memory.InCells m) : (s.withMem m).StoreOk :=
  ⟨hm, h.hwin, h.lwin⟩

theorem State.StoreOk.setFreq (h : s.StoreOk) {i : Nat} (hi : i < 256) (w : Word) : (s.setFreq i w).StoreOk :=
  h.withMem (h.mem.writeWord (fun k hk => isCellByte_iff.2 (by simp only [cellAddr_eq]; omega)) w)

theorem State.StoreOk.setIn (h : s.StoreOk) {i : Nat} (hi : i < 4096) (b : Byte) : (s.setIn i b).StoreOk :=
  h.withMem (h.mem.set (isCellByte_iff.2 (by simp only [cellAddr_eq]; omega)) b)

theorem State.StoreOk.setOut (h : s.StoreOk) {i : Nat} (hi : i < 4096) (b : Byte) : (s.setOut i b).StoreOk :=
  h.withMem (h.mem.set (isCellByte_iff.2 (by simp only [cellAddr_eq]; omega)) b)

theorem State.StoreOk.setTok (h : s.StoreOk) {i : Nat} (hi : i < 4096) (w : Word) : (s.setTok i w).StoreOk :=
  h.withMem (h.mem.writeWord (fun k hk => isCellByte_iff.2 (by simp only [cellAddr_eq]; omega)) w)

theorem State.StoreOk.setBitWord (h : s.StoreOk) {i : Nat} (hi : i < 32768) (w : Word) : (s.setBitWord i w).StoreOk :=
  h.withMem (h.mem.writeWord (fun k hk => isCellByte_iff.2 (by simp only [cellAddr_eq]; omega)) w)

theorem State.StoreOk.clearFreq (h : s.StoreOk) : s.clearFreq.StoreOk := h.withMem (h.mem.clearRange _ _)

theorem State.StoreOk.win (h : s.StoreOk) (sel : WinSel) : Window.ok sel (s.win sel) := by
  cases sel
  · exact h.hwin
  · exact h.lwin

theorem State.StoreOk.setWin (h : s.StoreOk) {sel : WinSel} {x : Window} (hx : Window.ok sel x) :
    (s.setWin sel x).StoreOk := by
  cases sel
  · exact ⟨h.mem, hx, h.lwin⟩
  · exact ⟨h.mem, h.hwin, hx⟩

end

/-! ### The windows -/

section
variable {sel : WinSel} {x : Window}

theorem Window.ok_construct {c : Nat} (hc : c ≤ capMax sel) : Window.ok sel (Window.construct c) := ⟨Nat.zero_le c, hc⟩

theorem Window.ok.pushMany (h : Window.ok sel x) (xs : List Byte) : Window.ok sel (x.pushMany xs).1 :=
  ⟨Window.pushMany_le h.1 xs, (Window.pushMany_cap xs).trans_le h.2⟩

/-- One push is a push of one. -/
theorem Window.ok.push (h : Window.ok sel x) (b : Byte) : Window.ok sel (x.push b).1 := h.pushMany [b]

theorem Window.ok.evict (h : Window.ok sel x) (c : Nat) : Window.ok sel (x.evict c).1 := ⟨Window.evict_le h.1 c, h.2⟩

/-- CFG_W fits HWIN's store by its width (10_state.md R34, 44_window.md R140). -/
theorem cfgW_le_capMax (w : BitVec 12) : w.toNat ≤ capMax .hwin := Nat.le_of_lt_succ w.isLt

/-- CFG_B fits LWIN's store by its width (10_state.md R35, 44_window.md R140). -/
theorem cfgB_le_capMax (b : BitVec 8) : b.toNat ≤ capMax .lwin := Nat.le_of_lt_succ b.isLt

end

/-! ### Loops and elements of the sequence commands -/

section
variable {s t : State}

theorem State.StoreOk.histogram (h : s.StoreOk) (n : Nat) : (histogram n s).StoreOk := by
  have hfold : ((List.range n).foldl (fun t i => t.bumpFreq (t.inSym i).toNat) s.clearFreq).StoreOk :=
    List.foldlRecOn _ _ h.clearFreq fun t ht i _ => ht.setFreq (t.inSym i).isLt _
  exact hfold.of_eq rfl rfl rfl

/-- The bit writer stays inside BITBUF where its last bit does (43_huffman_codec.md R130). -/
theorem State.StoreOk.bitWrite (h : s.StoreOk) {pos : Nat} (code : BitVec 255) {n : Nat} (hn : pos + n ≤ Config.nBitMax) :
    (bitWrite pos code n s).StoreOk := by
  induction n with
  | zero => exact h
  | succ n ih =>
    rw [bitWrite_succ]
    exact (ih (by omega)).setBitWord (by simp only [Config.nBitMax] at hn; omega) _

theorem State.StoreOk.appendCode (h : s.StoreOk) {e : LutEntry} {pos : Nat} (he : appendCode e pos s = .ok t) :
    t.StoreOk := by
  unfold Machine.appendCode at he
  split at he
  · cases he
  · rename_i hroom
    cases he
    exact (h.bitWrite e.code (Nat.le_of_not_lt hroom)).of_eq rfl rfl rfl

theorem State.StoreOk.decStep (h : s.StoreOk) {b : Bool} {pos v : Nat} (he : decStep b pos s = .ok (t, v)) :
    t.StoreOk := by
  have hemit : ∀ sym, emitSym sym pos s = .ok (t, v) → t.StoreOk := by
    intro sym he
    obtain ⟨hroom, rfl, -⟩ := emitSym_ok he
    exact (h.setOut hroom sym).of_eq rfl rfl rfl
  rcases decStep_cases b pos s with ⟨-, e⟩ | ⟨-, -, e⟩ | ⟨-, -, e⟩ | ⟨-, -, -, e⟩ | ⟨-, -, -, e⟩ <;> rw [e] at he
  · cases he
  · cases he
  · exact hemit _ he
  · exact hemit _ he
  · cases he
    exact h.of_eq rfl rfl rfl

theorem State.StoreOk.decodeElem (h : s.StoreOk) {i : Nat} (he : decodeElem i s = .ok t) :
    t.StoreOk := by
  unfold Machine.decodeElem at he
  split at he <;> cases he
  rename_i hstep
  exact h.decStep hstep

theorem State.StoreOk.endCheck (h : s.StoreOk) (pos v : Nat) : (endCheck pos v s).st.StoreOk := by
  unfold Machine.endCheck
  split <;> exact h.of_eq rfl rfl rfl

theorem State.StoreOk.copySymbols (h : s.StoreOk) {m : Nat} (d : Nat) {n : Nat} (hn : m + n ≤ 4096) :
    (copySymbols m d (List.range n) s).StoreOk := by
  induction n with
  | zero => exact h
  | succ n ih =>
    rw [copySymbols_succ]
    exact (ih (by omega)).setOut (by omega) _

theorem State.StoreOk.decodeToken (h : s.StoreOk) {wd : Word} {pos : Nat} (he : decodeToken wd pos s = .ok t) :
    t.StoreOk := by
  rcases decodeToken_cases wd pos s with ⟨e, -⟩ | ⟨e, -⟩ | ⟨e, -, -, -, -, hroom⟩ <;> rw [e] at he <;> cases he
  have hcopy : (Machine.copySymbols s.csr.outLen.toNat (tokDist wd) (List.range (tokLength wd)) s).StoreOk :=
    h.copySymbols _ (by omega)
  have hout := hcopy.setOut (i := s.csr.outLen.toNat + tokLength wd) (by omega) (tokNext wd)
  exact ⟨hout.mem, (Window.ok_construct (cfgW_le_capMax _)).pushMany _, hout.lwin⟩

theorem State.StoreOk.loadWindows (h : s.StoreOk) (p : Nat) : (loadWindows p s).StoreOk :=
  ⟨h.mem, (Window.ok_construct (cfgW_le_capMax _)).pushMany _, (Window.ok_construct (cfgB_le_capMax _)).pushMany _⟩

theorem State.StoreOk.lzStep (h : s.StoreOk) (hroom : s.csr.tokLen.toNat < 4096) : (lzStep s).StoreOk :=
  have htok := h.setTok hroom s.tokenAtCursor.word
  ⟨htok.mem, h.hwin.pushMany _, (h.lwin.evict _).pushMany _⟩

theorem State.StoreOk.lzLoop (h : s.StoreOk) (n : Nat) : (lzLoop n s).1.StoreOk := by
  induction n generalizing s with
  | zero => exact h
  | succ n ih =>
    rw [Machine.lzLoop]
    split
    · split
      · exact h
      · rename_i hroom
        exact ih (h.lzStep (Nat.lt_of_not_le hroom))
    · exact h

/-! ### The commands -/

theorem storeOk_runFrqCount (h : s.StoreOk) : (runFrqCount s).st.StoreOk := by
  unfold runFrqCount
  split
  · exact h
  · exact h.histogram _

theorem storeOk_runFrqInc (h : s.StoreOk) (sym : Byte) : (runFrqInc sym s).st.StoreOk := by
  unfold runFrqInc
  split
  · exact h
  · exact (h.setFreq sym.isLt _).of_eq rfl rfl rfl

theorem storeOk_runHufEncode (h : s.StoreOk) : (runHufEncode s).st.StoreOk := by
  unfold runHufEncode
  split
  · exact h
  · have hstart : ((buildTree (histogram s.csr.inLen.toNat s)).setBitLen 0).StoreOk := (h.histogram _).of_eq rfl rfl rfl
    have hloop := forElems_keeps (f := encodeElem) (is := List.range s.csr.inLen.toNat)
      (fun _ _ _ _ hu he => State.StoreOk.appendCode hu he) hstart
    split <;> rename_i heq <;> rw [heq] at hloop <;> exact hloop

theorem storeOk_runHufPutsym (h : s.StoreOk) (sym : Byte) : (runHufPutsym sym s).st.StoreOk := by
  unfold runHufPutsym
  split
  · exact h
  · split
    · exact h
    · split
      · rename_i he
        exact h.appendCode he
      · exact h

theorem storeOk_runHufDecode (h : s.StoreOk) : (runHufDecode s).st.StoreOk := by
  unfold runHufDecode
  split
  · exact h
  · have hstart : ((buildTree s).setOutLen 0).StoreOk := h.of_eq rfl rfl rfl
    have hloop := forElems_keeps (f := decodeElem) (is := List.range s.csr.bitLen.toNat)
      (fun _ _ _ _ hu he => State.StoreOk.decodeElem hu he) hstart
    split <;> rename_i heq <;> rw [heq] at hloop
    · exact hloop.endCheck _ _
    · exact hloop

theorem storeOk_runHufDecbit (h : s.StoreOk) (bit : Bool) : (runHufDecbit bit s).st.StoreOk := by
  unfold runHufDecbit
  split
  · exact h
  · split
    · rename_i he
      exact h.decStep he
    · exact h

theorem storeOk_runHufDecend (h : s.StoreOk) : (runHufDecend s).st.StoreOk := by
  unfold runHufDecend
  split
  · exact h
  · exact h.endCheck _ _

theorem storeOk_runWinInit (h : s.StoreOk) (sel : WinSel) (cap : Nat) : (runWinInit sel cap s).st.StoreOk := by
  unfold runWinInit
  split
  · exact h
  · exact h.setWin (Window.ok_construct (by omega))

theorem storeOk_runWinPush (h : s.StoreOk) (sel : WinSel) (sym : Byte) : (runWinPush sel sym s).st.StoreOk := by
  unfold runWinPush
  split
  · exact h
  · exact h.setWin ((h.win sel).push sym)

theorem storeOk_runWinPushn (h : s.StoreOk) (sel : WinSel) : (runWinPushn sel s).st.StoreOk := by
  unfold runWinPushn
  split
  · exact h
  · split
    · exact h
    · exact h.setWin ((h.win sel).pushMany _)

theorem storeOk_runWinEvict (h : s.StoreOk) (sel : WinSel) (cnt : Nat) : (runWinEvict sel cnt s).st.StoreOk := by
  unfold runWinEvict
  split
  · exact h
  · exact h.setWin ((h.win sel).evict cnt)

theorem storeOk_runWinRead (h : s.StoreOk) (sel : WinSel) (idx : Nat) : (runWinRead sel idx s).st.StoreOk := by
  unfold runWinRead
  split
  · exact h
  · split <;> exact h

theorem storeOk_runLzEncode (h : s.StoreOk) : (runLzEncode s).st.StoreOk := by
  unfold runLzEncode
  split
  · exact h
  · split
    · exact h
    · have hset : ((s.setTokLen 0).setLzPos 0).StoreOk := h.of_eq rfl rfl rfl
      have hloop := (hset.loadWindows 0).lzLoop s.csr.inLen.toNat
      split <;> rename_i heq <;> rw [heq] at hloop <;> exact hloop

theorem storeOk_runLzEncstep (h : s.StoreOk) : (runLzEncstep s).st.StoreOk := by
  unfold runLzEncstep
  split
  · exact h
  · split
    · exact h
    · split
      · exact h
      · split
        · exact h
        · rename_i hroom _
          exact (h.loadWindows _).lzStep (Nat.lt_of_not_le hroom)

theorem storeOk_runLzDecode (h : s.StoreOk) : (runLzDecode s).st.StoreOk := by
  unfold runLzDecode
  split
  · exact h
  · split
    · exact h
    · have hlen : (s.setOutLen 0).StoreOk := h.of_eq rfl rfl rfl
      have hloop := forElems_keeps (f := fun i t => decodeToken (t.tok i) i t) (is := List.range s.csr.tokLen.toNat)
        (fun _ _ _ _ hu he => State.StoreOk.decodeToken hu he)
        (hlen.setWin (sel := .hwin) (Window.ok_construct (cfgW_le_capMax s.csr.cfgW)))
      split <;> rename_i heq <;> rw [heq] at hloop <;> exact hloop

theorem storeOk_runLzDectok (h : s.StoreOk) : (runLzDectok s).st.StoreOk := by
  unfold runLzDectok
  split
  · exact h
  · split
    · rename_i he
      exact h.decodeToken he
    · exact h

/-- Every command keeps the shape of the memory and the windows. -/
theorem storeOk_runOf (h : s.StoreOk) (i : Instr) : (runOf i s).st.StoreOk := by
  cases i with
  | nop => exact h
  | frqClear => exact h.clearFreq.of_eq rfl rfl rfl
  | frqCount => exact storeOk_runFrqCount h
  | frqInc sym => exact storeOk_runFrqInc h sym
  | hufBuild => exact h.of_eq rfl rfl rfl
  | hufEncode => exact storeOk_runHufEncode h
  | hufPutsym sym => exact storeOk_runHufPutsym h sym
  | hufDecode => exact storeOk_runHufDecode h
  | hufDecbit bit => exact storeOk_runHufDecbit h bit
  | hufDecend => exact storeOk_runHufDecend h
  | winInit sel cap => exact storeOk_runWinInit h sel cap
  | winPush sel sym => exact storeOk_runWinPush h sel sym
  | winPushn sel => exact storeOk_runWinPushn h sel
  | winEvict sel cnt => exact storeOk_runWinEvict h sel cnt
  | winRead sel idx => exact storeOk_runWinRead h sel idx
  | lzEncode => exact storeOk_runLzEncode h
  | lzEncstep => exact storeOk_runLzEncstep h
  | lzDecode => exact storeOk_runLzDecode h
  | lzDectok => exact storeOk_runLzDectok h

/-! ### The steps -/

/-- The completion record leaves the memory and the windows, and sets ERRCODE to 0 or to the number of an error kind
(40_control.md R104, 60_exceptions.md R156). -/
theorem shapeOk_complete {r : ExecResult} (h : r.st.StoreOk) (evs : List TraceEvent) :
    (emit evs (complete r)).shapeOk := by
  obtain ⟨hmem, -, -, hhwin, hlwin, -⟩ := complete_frame r
  refine State.shapeOk_iff.2 ⟨h.of_eq ?_ ?_ ?_, ?_⟩
  · rw [emit_mem, hmem]
  · rw [emit_hwin, hhwin]
  · rw [emit_lwin, hlwin]
  · rw [emit_csr]
    obtain ⟨u, res⟩ := r
    cases res with
    | ok v => exact Nat.zero_le 7
    | error e => exact e.code.num_range.2

/-- Empty memory and windows have the shape (70_reset_and_hazards.md R172). -/
theorem storeOk_initStep (s : State) : (initStep s).StoreOk :=
  ⟨⟨sparseWf_nil, by simp⟩, ⟨Nat.le_refl 0, Nat.zero_le _⟩, ⟨Nat.le_refl 0, Nat.zero_le _⟩⟩

theorem shapeOk_coreTurn (h : s.shapeOk) (he : coreTurn s = .next t) : t.shapeOk := by
  obtain ⟨hstore, herr⟩ := State.shapeOk_iff.1 h
  rcases coreTurn_next s with ⟨-, e⟩ | ⟨-, e⟩ | ⟨w, evs, r, -, hr, e⟩ <;>
    obtain rfl := Host.Outcome.next.inj (e.symm.trans he)
  · exact h
  · exact State.shapeOk_iff.2 ⟨storeOk_initStep s, herr⟩
  · refine shapeOk_complete ?_ evs
    rcases hr with ⟨i, rfl⟩ | rfl
    · exact storeOk_runOf hstore i
    · exact hstore

theorem shapeOk_resetEntry (h : s.shapeOk) : (resetEntry s).shapeOk := by
  obtain ⟨hstore, -⟩ := State.shapeOk_iff.1 h
  exact State.shapeOk_iff.2 ⟨hstore.of_eq rfl rfl rfl, Nat.zero_le 7⟩

/-- A register write stores no memory, and leaves ERRCODE or, at an issue, clears it (40_control.md R103). -/
theorem shapeOk_writeCsr (h : s.shapeOk) (w : Word) (r : CsrName) : (s.writeCsr w r).shapeOk := by
  obtain ⟨hstore, herr⟩ := State.shapeOk_iff.1 h
  refine State.shapeOk_iff.2 ⟨?_, ?_⟩
  · cases r <;> exact hstore.of_eq rfl rfl rfl
  · cases r with
    | cmd => exact Nat.zero_le 7
    | _ => exact herr

/-- A write while idle stores into a cell that its memory has (20_memory.md R65 to R69). -/
theorem shapeOk_writeTarget (h : s.shapeOk) (w : Word) {a : Target} (ha : a.inMap) : (s.writeTarget w a).shapeOk := by
  obtain ⟨hstore, herr⟩ := State.shapeOk_iff.1 h
  cases a with
  | csr r => exact shapeOk_writeCsr h w r
  | freq i => exact State.shapeOk_iff.2 ⟨(hstore.setFreq ha w).of_eq rfl rfl rfl, herr⟩
  | inCell i => exact State.shapeOk_iff.2 ⟨hstore.setIn ha _, herr⟩
  | outCell i => exact State.shapeOk_iff.2 ⟨hstore.setOut ha _, herr⟩
  | tok i => exact State.shapeOk_iff.2 ⟨hstore.setTok ha w, herr⟩
  | bits i => exact State.shapeOk_iff.2 ⟨hstore.setBitWord ha w, herr⟩
  | node | lut | reserved => exact h

theorem shapeOk_busWrite (h : s.shapeOk) {a : Target} (ha : a.inMap) (w : Word) : (busWrite a w s).shapeOk := by
  rcases busWrite_cases a w s with ⟨-, e⟩ | ⟨-, -, e⟩ | ⟨-, -, e⟩ <;> rw [e]
  · exact shapeOk_resetEntry (s := s) h
  · exact h
  · exact shapeOk_writeTarget h w ha

theorem shapeOk_busAccess (h : s.shapeOk) {a : Access} (he : busAccess a s = .next t) : t.shapeOk := by
  rcases busAccess_cases a s with ⟨-, e⟩ | ⟨off, -, ⟨-, -, e⟩ | ⟨-, -, e⟩ | ⟨-, e⟩⟩ <;> rw [e] at he
  · obtain rfl := Host.Outcome.next.inj he
    exact h
  · obtain rfl := Host.Outcome.next.inj he
    rcases busRead_cases (target off) s with e | ⟨-, -, e⟩ <;> rw [e] <;> exact h
  · obtain rfl := Host.Outcome.next.inj he
    exact shapeOk_busWrite h (target_reaches off).inMap _
  · unfold busError at he
    split at he <;> cases he
    exact h

end

/-- Settles O56: every cell that a command or the host writes has an index that its memory has, every window primitive
keeps the capacity, and ERRCODE is written by the completion record, an issue and a reset alone. -/
theorem everyStepKeepsTheShape : Obligations.EveryStepKeepsTheShape := by
  unfold Obligations.EveryStepKeepsTheShape
  intro s t h he
  rcases step_cases s with ⟨-, e⟩ | ⟨rest, -, e⟩ | ⟨rest, -, e⟩ | ⟨a, rest, -, e⟩ <;> rw [e] at he
  · exact shapeOk_coreTurn h he
  · exact shapeOk_coreTurn (s := { s with agenda := rest }) h he
  · obtain rfl := Host.Outcome.next.inj he
    exact shapeOk_resetEntry (s := { s with agenda := rest }) h
  · exact shapeOk_busAccess (s := { s with agenda := rest }) h he

end Sys2Proof.Machine
end

section
/-! PROOFS. Decoding and encoding: the rows of the opcode map exclude each other, every row rebuilds the words it selects,
and every command is read back from its word (30_encoding.md R88 to R100). -/

namespace Sys2Proof

/-! ### The rows exclude each other -/

section
variable {r q : OpRow} {w : Word} {i : Instr}

theorem OpRow.selects_iff : r.selects w = true ↔ w &&& r.mask = r.pattern := beq_iff_eq

/-- Every mask keeps the opcode bits (30_encoding.md R89 to R94). -/
theorem opField_mask : ∀ r ∈ opcodeMap, opField r.mask = BitVec.allOnes 8 := by decide

/-- No two rows share an opcode (30_encoding.md R96). -/
theorem nodup_opcodes : (opcodeMap.map fun r => opField r.pattern).Nodup := by decide

theorem opField_and (a b : Word) : opField (a &&& b) = opField a &&& opField b := BitVec.extractLsb'_and

/-- A row selects only words with its own opcode. -/
theorem opField_of_selects (hr : r ∈ opcodeMap) (hs : r.selects w = true) : opField r.pattern = opField w := by
  rw [← OpRow.selects_iff.1 hs, opField_and, opField_mask r hr, BitVec.and_allOnes]

theorem row_eq_of_opField_eq (hr : r ∈ opcodeMap) (hq : q ∈ opcodeMap) (h : opField r.pattern = opField q.pattern) :
    r = q :=
  List.inj_on_of_nodup_map nodup_opcodes hr hq h

theorem row_eq_of_selects (hr : r ∈ opcodeMap) (hq : q ∈ opcodeMap) (hsr : r.selects w = true)
    (hsq : q.selects w = true) : r = q :=
  row_eq_of_opField_eq hr hq ((opField_of_selects hr hsr).trans (opField_of_selects hq hsq).symm)

/-- The rows that select a word have one opcode, its own, and no two rows share one (30_encoding.md R96). -/
theorem length_selecting_le_one (w : Word) : (opcodeMap.filter fun r => r.selects w).length ≤ 1 := by
  have hsame : (opcodeMap.filter fun r => r.selects w).map (fun r => opField r.pattern) =
      List.replicate (opcodeMap.filter fun r => r.selects w).length (opField w) := by
    refine List.eq_replicate_iff.2 ⟨List.length_map _, fun op hop => ?_⟩
    obtain ⟨r, hr, rfl⟩ := List.mem_map.1 hop
    obtain ⟨hmem, hs⟩ := List.mem_filter.1 hr
    exact opField_of_selects hmem hs
  have hnodup := nodup_opcodes.sublist ((List.filter_sublist (p := fun r : OpRow => r.selects w)).map _)
  rw [hsame] at hnodup
  exact List.nodup_replicate.1 hnodup

/-! ### What the decoder answers -/

/-- The decoder reads a word by the row that selects it (30_encoding.md R97). -/
theorem decode_of_selects (hr : r ∈ opcodeMap) (hs : r.selects w = true) : decode w = .ok (r.build w) := by
  unfold decode
  cases hfind : opcodeMap.find? fun r => r.selects w with
  | none => exact absurd hs (List.find?_eq_none.1 hfind r hr)
  | some q =>
    obtain rfl := row_eq_of_selects hr (List.mem_of_find?_eq_some hfind) hs
      (List.find?_some (p := fun r : OpRow => r.selects w) hfind)
    rfl

/-- A word that no row selects is Illegal (30_encoding.md R98). -/
theorem decode_error_of_not_selects (h : ∀ r ∈ opcodeMap, ¬ r.selects w = true) : ∃ e, decode w = .error e := by
  rw [decode, List.find?_eq_none.2 h]
  cases opAssigned (opField w) with
  | true => exact ⟨_, rfl⟩
  | false => exact ⟨_, rfl⟩

theorem decode_ok_iff : decode w = .ok i ↔ ∃ r ∈ opcodeMap, r.selects w = true ∧ r.build w = i := by
  constructor
  · intro h
    by_cases hsel : ∃ r ∈ opcodeMap, r.selects w = true
    · obtain ⟨r, hr, hs⟩ := hsel
      exact ⟨r, hr, hs, Except.ok.inj ((decode_of_selects hr hs).symm.trans h)⟩
    · obtain ⟨e, he⟩ := decode_error_of_not_selects fun r hr hs => hsel ⟨r, hr, hs⟩
      cases he.symm.trans h
  · rintro ⟨r, hr, hs, rfl⟩
    exact decode_of_selects hr hs

theorem decode_error_iff : (∃ e, decode w = .error e) ↔ ∀ r ∈ opcodeMap, ¬ r.selects w = true := by
  refine ⟨?_, decode_error_of_not_selects⟩
  rintro ⟨e, he⟩ r hr hs
  cases he.symm.trans (decode_of_selects hr hs)

/-- The two kinds of Illegal word (30_encoding.md R98): no row has the opcode, or the one row that has it finds other bits
outside its operands than its own. -/
theorem not_selected_iff : (∀ r ∈ opcodeMap, ¬ r.selects w = true) ↔
    (∀ r ∈ opcodeMap, opField r.pattern ≠ opField w) ∨
      ∃ r ∈ opcodeMap, opField r.pattern = opField w ∧ w &&& r.mask ≠ r.pattern := by
  constructor
  · intro h
    by_cases hop : ∃ r ∈ opcodeMap, opField r.pattern = opField w
    · obtain ⟨r, hr, hop⟩ := hop
      exact .inr ⟨r, hr, hop, fun hs => h r hr (OpRow.selects_iff.2 hs)⟩
    · exact .inl fun r hr he => hop ⟨r, hr, he⟩
  · rintro (h | ⟨r, hr, hop, hne⟩) q hq hs
    · exact h q hq (opField_of_selects hq hs)
    · obtain rfl := row_eq_of_opField_eq hr hq (hop.trans (opField_of_selects hq hs).symm)
      exact hne (OpRow.selects_iff.1 hs)

end

/-- Settles O2: every mask keeps the opcode, and no two rows share one, so the row the decoder finds first is the only
one. -/
theorem atMostOneRowSelectsAWord : Obligations.AtMostOneRowSelectsAWord := by
  unfold Obligations.AtMostOneRowSelectsAWord
  exact fun w => ⟨length_selecting_le_one w, fun _ => decode_ok_iff⟩

/-! ### The operand fields of a format -/

section
variable (op : BitVec 8) (sel : WinSel)

theorem symFieldS_formatS (sym : Byte) : symFieldS (formatS (op.setWidth 32) sym) = sym := by
  refine BitVec.eq_of_getLsbD_eq fun i hi => ?_
  simp only [symFieldS, formatS, BitVec.getLsbD_extractLsb', BitVec.getLsbD_or, BitVec.getLsbD_shiftLeft,
    BitVec.getLsbD_setWidth]
  interval_cases i <;> simp

theorem bitField_formatB (bit : Bool) : bitField (formatB (op.setWidth 32) bit) = bit := by
  cases bit <;> simp [bitField, formatB]

theorem selField_formatWN : selField (formatWN (op.setWidth 32) sel) = sel := by
  cases sel <;> simp [selField, formatWN, selBit]

/-- What stands from bit 16 on leaves the window select alone (30_encoding.md R93, R94). -/
theorem selField_or_shiftLeft (a x : Word) : selField (a ||| x <<< 16) = selField a := by
  simp [selField]

theorem selField_formatWS (sym : Byte) : selField (formatWS (op.setWidth 32) sel sym) = sel :=
  (selField_or_shiftLeft _ _).trans (selField_formatWN op sel)

theorem selField_formatWI (imm : Nat) : selField (formatWI (op.setWidth 32) sel imm) = sel :=
  (selField_or_shiftLeft _ _).trans (selField_formatWN op sel)

/-- Opcode and window select leave the bits from 9 on free (30_encoding.md R92). -/
theorem getLsbD_formatWN_of_le {i : Nat} (hi : 9 ≤ i) : (formatWN (op.setWidth 32) sel).getLsbD i = false := by
  have hop : op.getLsbD i = false := BitVec.getLsbD_of_ge op i (by omega)
  have hsel : (selBit sel).getLsbD (i - 8) = false := by
    have hne : i - 8 ≠ 0 := by omega
    cases sel <;> simp [selBit, hne]
  simp [formatWN, hop, hsel]

/-- The operand from bit 16 on is read back (30_encoding.md R93, R94). -/
theorem extractLsb'_formatWN_or (x : Word) {n : Nat} (hn : n ≤ 16) :
    (formatWN (op.setWidth 32) sel ||| x <<< 16).extractLsb' 16 n = x.setWidth n := by
  refine BitVec.eq_of_getLsbD_eq fun i hi => ?_
  have hlow := getLsbD_formatWN_of_le op sel (i := 16 + i) (by omega)
  have hlt : 16 + i < 32 := by omega
  rw [BitVec.getLsbD_extractLsb', BitVec.getLsbD_or, hlow, BitVec.getLsbD_shiftLeft, BitVec.getLsbD_setWidth]
  simp [hi, hlt]

theorem symFieldWS_formatWS (sym : Byte) : symFieldWS (formatWS (op.setWidth 32) sel sym) = sym := by
  refine (extractLsb'_formatWN_or op sel (sym.setWidth 32) (by decide)).trans ?_
  simp

theorem immField_formatWI {imm : Nat} (h : immFits imm = true) :
    immField (formatWI (op.setWidth 32) sel imm) = imm := by
  have hlt : imm < 4096 := by simpa [immFits] using h
  refine (congrArg BitVec.toNat (extractLsb'_formatWN_or op sel (BitVec.ofNat 32 imm) (by decide))).trans ?_
  simp only [BitVec.toNat_setWidth, BitVec.toNat_ofNat]
  omega

end

/-! ### A word is its fixed bits and its operands -/

section
variable {w op : Word}

theorem eq_of_and_maskN (h : w &&& maskN = op) : op = w := h.symm.trans BitVec.and_allOnes

theorem formatS_symFieldS (h : w &&& maskS = op) : formatS op (symFieldS w) = w := by
  subst h
  refine word_ext_upto fun i hi => ?_
  simp only [formatS, maskS, symFieldS, BitVec.getLsbD_and, BitVec.getLsbD_or, BitVec.getLsbD_shiftLeft,
    BitVec.getLsbD_setWidth, BitVec.getLsbD_extractLsb']
  interval_cases i <;> simp

theorem getLsbD_selBit_selField (w : Word) (i : Nat) :
    (selBit (selField w)).getLsbD i = (decide (i = 0) && w.getLsbD 8) := by
  unfold selField
  cases w.getLsbD 8 <;> simp [selBit]

theorem formatWN_selField (h : w &&& maskWN = op) : formatWN op (selField w) = w := by
  subst h
  refine word_ext_upto fun i hi => ?_
  simp only [formatWN, maskWN, BitVec.getLsbD_and, BitVec.getLsbD_or, BitVec.getLsbD_shiftLeft,
    getLsbD_selBit_selField]
  interval_cases i <;> simp

/-- Formats B and WN differ only in what bit [8] stands for (30_encoding.md R91, R92). -/
theorem formatB_bitField (h : w &&& maskB = op) : formatB op (bitField w) = w := by
  refine Eq.trans ?_ (formatWN_selField h)
  unfold formatB formatWN bitField selField
  cases w.getLsbD 8 <;> rfl

theorem formatWS_selField_symFieldWS (h : w &&& maskWS = op) : formatWS op (selField w) (symFieldWS w) = w := by
  subst h
  refine word_ext_upto fun i hi => ?_
  simp only [formatWS, maskWS, symFieldWS, BitVec.getLsbD_and, BitVec.getLsbD_or, BitVec.getLsbD_shiftLeft,
    getLsbD_selBit_selField, BitVec.getLsbD_setWidth, BitVec.getLsbD_extractLsb']
  interval_cases i <;> simp

theorem formatWI_selField_immField (h : w &&& maskWI = op) : formatWI op (selField w) (immField w) = w := by
  subst h
  refine word_ext_upto fun i hi => ?_
  simp only [formatWI, maskWI, immField, BitVec.ofNat_toNat, BitVec.getLsbD_and, BitVec.getLsbD_or,
    BitVec.getLsbD_shiftLeft, getLsbD_selBit_selField, BitVec.getLsbD_setWidth, BitVec.getLsbD_extractLsb']
  interval_cases i <;> simp

theorem immFits_immField (w : Word) : immFits (immField w) = true := decide_eq_true (w.extractLsb' 16 12).isLt

end

/-- The command that a row builds from a word it selects is well-formed, and has that word. -/
def OpRow.Rebuilds (r : OpRow) : Prop :=
  ∀ w, w &&& r.mask = r.pattern → (r.build w).wellFormed = true ∧ encode (r.build w) = w

/-- Row by row, in the map's order and by the row's format (30_encoding.md R96). -/
theorem opcodeMap_rebuilds : ∀ r ∈ opcodeMap, r.Rebuilds := by
  simp only [opcodeMap, List.forall_mem_cons]
  exact ⟨
    fun _ h => ⟨rfl, eq_of_and_maskN h⟩,
    fun _ h => ⟨rfl, eq_of_and_maskN h⟩,
    fun _ h => ⟨rfl, eq_of_and_maskN h⟩,
    fun _ h => ⟨rfl, formatS_symFieldS h⟩,
    fun _ h => ⟨rfl, eq_of_and_maskN h⟩,
    fun _ h => ⟨rfl, eq_of_and_maskN h⟩,
    fun _ h => ⟨rfl, formatS_symFieldS h⟩,
    fun _ h => ⟨rfl, eq_of_and_maskN h⟩,
    fun _ h => ⟨rfl, formatB_bitField h⟩,
    fun _ h => ⟨rfl, eq_of_and_maskN h⟩,
    fun w h => ⟨immFits_immField w, formatWI_selField_immField h⟩,
    fun _ h => ⟨rfl, formatWS_selField_symFieldWS h⟩,
    fun _ h => ⟨rfl, formatWN_selField h⟩,
    fun w h => ⟨immFits_immField w, formatWI_selField_immField h⟩,
    fun w h => ⟨immFits_immField w, formatWI_selField_immField h⟩,
    fun _ h => ⟨rfl, eq_of_and_maskN h⟩,
    fun _ h => ⟨rfl, eq_of_and_maskN h⟩,
    fun _ h => ⟨rfl, eq_of_and_maskN h⟩,
    fun _ h => ⟨rfl, eq_of_and_maskN h⟩,
    fun _ h => nomatch h⟩

/-! ### Every command is read back from its word -/

/-- A row that selects the word of a command and builds the command from it makes the decoder answer that command. -/
theorem decode_encode_of_row {i : Instr} {r : OpRow} (hr : r ∈ opcodeMap) (hs : encode i &&& r.mask = r.pattern)
    (hb : r.build (encode i) = i) : decode (encode i) = .ok i :=
  decode_ok_iff.2 ⟨r, hr, OpRow.selects_iff.2 hs, hb⟩

theorem decode_encode (i : Instr) (h : i.wellFormed = true) : decode (encode i) = .ok i := by
  cases i with
  | frqInc sym =>
    exact decode_encode_of_row (r := opcodeMap[3]) (List.getElem_mem _) (formatS_mask 0x12#8 sym)
      (congrArg Instr.frqInc (symFieldS_formatS 0x12#8 sym))
  | hufPutsym sym =>
    exact decode_encode_of_row (r := opcodeMap[6]) (List.getElem_mem _) (formatS_mask 0x31#8 sym)
      (congrArg Instr.hufPutsym (symFieldS_formatS 0x31#8 sym))
  | hufDecbit bit =>
    exact decode_encode_of_row (r := opcodeMap[8]) (List.getElem_mem _) (formatB_mask 0x39#8 bit)
      (congrArg Instr.hufDecbit (bitField_formatB 0x39#8 bit))
  | winInit sel cap =>
    exact decode_encode_of_row (r := opcodeMap[10]) (List.getElem_mem _) (formatWI_mask 0x40#8 sel h)
      (congrArg₂ Instr.winInit (selField_formatWI 0x40#8 sel cap) (immField_formatWI 0x40#8 sel h))
  | winPush sel sym =>
    exact decode_encode_of_row (r := opcodeMap[11]) (List.getElem_mem _) (formatWS_mask 0x41#8 sel sym)
      (congrArg₂ Instr.winPush (selField_formatWS 0x41#8 sel sym) (symFieldWS_formatWS 0x41#8 sel sym))
  | winPushn sel =>
    exact decode_encode_of_row (r := opcodeMap[12]) (List.getElem_mem _) (formatWN_mask 0x42#8 sel)
      (congrArg Instr.winPushn (selField_formatWN 0x42#8 sel))
  | winEvict sel cnt =>
    exact decode_encode_of_row (r := opcodeMap[13]) (List.getElem_mem _) (formatWI_mask 0x43#8 sel h)
      (congrArg₂ Instr.winEvict (selField_formatWI 0x43#8 sel cnt) (immField_formatWI 0x43#8 sel h))
  | winRead sel idx =>
    exact decode_encode_of_row (r := opcodeMap[14]) (List.getElem_mem _) (formatWI_mask 0x44#8 sel h)
      (congrArg₂ Instr.winRead (selField_formatWI 0x44#8 sel idx) (immField_formatWI 0x44#8 sel h))
  | nop | frqClear | frqCount | hufBuild | hufEncode | hufDecode | hufDecend | lzEncode | lzEncstep | lzDecode
  | lzDectok => decide

/-- Settles O1: every command is read back from its word through its own row, and every row rebuilds the words it selects
from their fields. -/
theorem decodeAndEncodeAgree : Obligations.DecodeAndEncodeAgree := by
  unfold Obligations.DecodeAndEncodeAgree
  refine ⟨decode_encode, fun w i hi => ?_⟩
  obtain ⟨r, hr, hs, rfl⟩ := decode_ok_iff.1 hi
  exact opcodeMap_rebuilds r hr w (OpRow.selects_iff.1 hs)

end Sys2Proof

namespace Sys2Proof.Machine

/-! ### Illegal words -/

/-- Settles O3: a word is Illegal when no row selects it; its issue is the write to CMD, and its completion the record of
IllegalCommand on the state as it is. -/
theorem illegalWordCompletesWithIllegalCommand : Obligations.IllegalWordCompletesWithIllegalCommand := by
  unfold Obligations.IllegalWordCompletesWithIllegalCommand
  refine ⟨fun w => decode_error_iff.trans not_selected_iff, fun s w e hp _ => ?_, fun s w e hp he => ?_⟩
  · exact ⟨_, hostWriteAt_csr_idle (r := .cmd) hp (isSoftReset_of_ne (by decide) w), rfl⟩
  · have hturn : coreTurn s = execIllegal s := by simp only [coreTurn, hp, he]
    have hfail := failed_complete (t := s) (e := ⟨.illegalCommand, 0⟩) (by decide) []
    rw [emit_nil] at hfail
    exact ⟨_, hturn, hfail, rfl⟩

end Sys2Proof.Machine
end

section
/-! PROOFS. The issue of a command, the core's turn that completes it, and NOP (40_control.md sections 1 and 2). -/

namespace Sys2Proof.Machine

/-! ### Issue and turn -/

/-- The core's turn, with a word pending that decodes, is the command (40_control.md R104). -/
theorem coreTurn_of_decode {s : State} {w : Word} {i : Instr} (hp : s.pending = .cmd w) (hd : decode w = .ok i) :
    coreTurn s = exec i s := by
  simp only [coreTurn, hp, hd]

/-- Settles O5: the core has the turn as the next event or with no event left, and the agenda that remains is that of `s`. -/
theorem stepRunsThePendingCommand : Obligations.StepRunsThePendingCommand := by
  unfold Obligations.StepRunsThePendingCommand
  intro s w i hp hd
  have hturn := coreTurn_of_decode hp hd
  refine ⟨hturn, fun hnil => ?_⟩
  rw [step, hnil]
  exact hturn

/-- Settles O14: while idle the write to CMD follows the register's rule, the issue; while busy it is dropped. -/
theorem cmdWriteIssuesTheWord : Obligations.CmdWriteIssuesTheWord := by
  unfold Obligations.CmdWriteIssuesTheWord
  intro s w
  have hcmd : isSoftReset (.csr .cmd) w = false := isSoftReset_of_ne (by decide) w
  refine ⟨fun hp => ?_, fun hp => ?_⟩
  · exact ⟨_, hostWriteAt_csr_idle (r := .cmd) hp hcmd, rfl, rfl, rfl⟩
  · exact ⟨_, hostWriteAt_csr_busy (r := .cmd) hp hcmd, rfl, rfl, rfl⟩

/-! ### NOP -/

/-- STATUS right after a success shows DONE and IRQ_PEND, and beside them only flags that the command left
(10_state.md R23, 40_control.md R104). -/
theorem statusWord_completeOk {s : State} (v : Nat) (htree : s.csr.treeValid = false) (hlen : s.csr.decLen = 0)
    (hsticky : s.csr.stickyErr = false) (hover : s.csr.overrun = false) :
    (completeOk v s).statusWord = 0x00000082#32 := by
  simp only [State.statusWord, State.busy, State.err, State.decMid, completeOk_csr, completeOk_pending, htree, hlen,
    hsticky, hover]
  decide

/-- Settles O23: the completion record of a success with result 0 on the state as it is. -/
theorem nopOnlyCompletes : Obligations.NopOnlyCompletes := by
  unfold Obligations.NopOnlyCompletes
  refine ⟨rfl, ⟨_, rfl⟩, fun s => ⟨completeOk 0 s, rfl, ?_, rfl, statusWord_completeOk 0⟩⟩
  have hrecord := succeeded_complete (s := s) (t := s) (v := 0) rfl (by decide) []
  rwa [emit_nil] at hrecord

/-! ### The pending rule -/

section
variable {s t : State}

/-- Nothing is required of an Idle core. -/
theorem pendingOk_of_idle (h : s.pending = .idle) : s.pendingOk := by
  rw [State.pendingOk, h]
  trivial

/-- The rule speaks of the pending state and the registers alone. -/
theorem State.pendingOk.of_eq (h : s.pendingOk) (hpending : t.pending = s.pending) (hcsr : t.csr = s.csr) : t.pendingOk := by
  rw [State.pendingOk, hpending, hcsr]
  exact h

/-- Every turn of the core ends Idle (40_control.md R104, 70_reset_and_hazards.md R172). -/
theorem pendingOk_coreTurn (he : coreTurn s = .next t) : t.pendingOk := by
  rcases coreTurn_next s with ⟨hp, e⟩ | ⟨-, e⟩ | ⟨w, evs, r, -, -, e⟩ <;>
    obtain rfl := Host.Outcome.next.inj (e.symm.trans he)
  · exact pendingOk_of_idle hp
  · exact pendingOk_of_idle rfl
  · obtain ⟨-, -, -, -, -, hidle, -⟩ := complete_frame r
    exact pendingOk_of_idle (by rw [emit_pending, hidle])

/-- OVERRUN is apart from the rule. -/
theorem pendingOk_setOverrun (h : s.pendingOk) (b : Bool) : { s with csr := { s.csr with overrun := b } }.pendingOk := by
  unfold State.pendingOk at h ⊢
  cases hp : s.pending with
  | idle => trivial
  | cmd w => rwa [hp] at h
  | init =>
    rw [hp] at h
    exact congrArg (fun c : Csr => { c with overrun := b }) h

/-- Of the writes while idle only the one to CMD leaves a word pending, and its issue is the rule (40_control.md R103). -/
theorem pendingOk_writeTarget (hp : s.pending = .idle) (w : Word) (a : Target) : (s.writeTarget w a).pendingOk := by
  rcases writeTarget_pending s w a with h | ⟨rfl, -⟩
  · exact pendingOk_of_idle (h.trans hp)
  · exact ⟨rfl, rfl, rfl⟩

theorem pendingOk_busWrite (h : s.pendingOk) (a : Target) (w : Word) : (busWrite a w s).pendingOk := by
  rcases busWrite_cases a w s with ⟨-, e⟩ | ⟨-, -, e⟩ | ⟨-, hp, e⟩ <;> rw [e]
  · rfl
  · exact (pendingOk_setOverrun h true).of_eq rfl rfl
  · exact (pendingOk_writeTarget hp w a).of_eq rfl rfl

/-- A host access that does not stop the run writes the model's own fields alone, or is an accepted write. -/
theorem busAccess_next {a : Access} (he : busAccess a s = .next t) :
    (∃ resp draws errs, t = { s with resp := resp, draws := draws, busErrs := errs }) ∨
      ∃ x, t = busWrite x a.wdata s := by
  rcases busAccess_cases a s with ⟨-, e⟩ | ⟨off, -, ⟨-, -, e⟩ | ⟨-, -, e⟩ | ⟨-, e⟩⟩ <;> rw [e] at he
  · obtain rfl := Host.Outcome.next.inj he
    exact .inl ⟨_, _, _, rfl⟩
  · obtain rfl := Host.Outcome.next.inj he
    rcases busRead_cases (target off) s with e | ⟨-, -, e⟩ <;> rw [e] <;> exact .inl ⟨_, _, _, rfl⟩
  · obtain rfl := Host.Outcome.next.inj he
    exact .inr ⟨_, rfl⟩
  · unfold busError at he
    split at he <;> cases he
    exact .inl ⟨_, _, _, rfl⟩

theorem pendingOk_busAccess (h : s.pendingOk) {a : Access} (he : busAccess a s = .next t) : t.pendingOk := by
  rcases busAccess_next he with ⟨resp, draws, errs, rfl⟩ | ⟨x, rfl⟩
  · exact h
  · exact pendingOk_busWrite h x _

end

/-- Settles O57: a turn of the core leaves nothing pending, an issue and a reset leave the registers as the rule says, and
OVERRUN alone is written while busy. -/
theorem everyStepKeepsThePendingRule : Obligations.EveryStepKeepsThePendingRule := by
  unfold Obligations.EveryStepKeepsThePendingRule
  intro s t h he
  rcases step_cases s with ⟨-, e⟩ | ⟨rest, -, e⟩ | ⟨rest, -, e⟩ | ⟨a, rest, -, e⟩ <;> rw [e] at he
  · exact pendingOk_coreTurn he
  · exact pendingOk_coreTurn he
  · obtain rfl := Host.Outcome.next.inj he
    rfl
  · exact pendingOk_busAccess (s := { s with agenda := rest }) h he

end Sys2Proof.Machine
end

section
/-! PROOFS. What a command may write: not its inputs, not the host's registers, and none of the model's own fields but the
trace log (40_control.md R104, 10_state.md sections 2 and 3). -/

namespace Sys2Proof.Machine

/-! ### What stays -/

/-- `s` with everything that `Exec` of some command writes as `t` has it. -/
def execFrame (s t : State) : State :=
  { withTree (withWalker s t) t with
    mem := t.mem, hwin := t.hwin, lwin := t.lwin,
    csr := { (withTree (withWalker s t) t).csr with bitLen := t.csr.bitLen, tokLen := t.csr.tokLen, lzPos := t.csr.lzPos } }

/-- From `s` to `t` only such fields are written, and of the memory no byte of IN. -/
structure KeepsInputs (s t : State) : Prop where
  frame : t = execFrame s t
  mem : ∀ a, inBase ≤ a → a < outBase → Memory.get t.mem a = Memory.get s.mem a

section
variable {s t u : State}

theorem KeepsInputs.refl (s : State) : KeepsInputs s s := ⟨rfl, fun _ _ _ => rfl⟩

theorem KeepsInputs.trans (h : KeepsInputs s t) (h' : KeepsInputs t u) : KeepsInputs s u where
  frame := by
    have hview := congrArg (fun x => execFrame x u) h.frame
    exact h'.frame.trans hview
  mem a hlo hhi := (h'.mem a hlo hhi).trans (h.mem a hlo hhi)

/-- An update that leaves the memory. -/
theorem KeepsInputs.of_frame (hframe : t = execFrame s t) (hmem : t.mem = s.mem) : KeepsInputs s t :=
  ⟨hframe, fun _ _ _ => by rw [hmem]⟩

/-- An update of the memory alone, outside IN. -/
theorem KeepsInputs.of_mem (hframe : t.withMem s.mem = s)
    (hmem : ∀ a, inBase ≤ a → a < outBase → Memory.get t.mem a = Memory.get s.mem a) : KeepsInputs s t where
  frame := by
    have hview := congrArg (fun x => execFrame x t) hframe
    exact hview
  mem := hmem

theorem keepsInputs_setFreq (s : State) {i : Nat} (hi : i < 256) (w : Word) : KeepsInputs s (s.setFreq i w) :=
  .of_mem rfl fun _ _ _ => Memory.get_writeWord_of_ne (by simp only [freqAddr, freqBase, inBase] at *; omega) _

theorem keepsInputs_clearFreq (s : State) : KeepsInputs s s.clearFreq :=
  .of_mem rfl fun _ _ _ => s.get_clearFreq (by simp only [inBase] at *; omega)

theorem keepsInputs_setOut (s : State) (i : Nat) (b : Byte) : KeepsInputs s (s.setOut i b) :=
  .of_mem rfl fun _ _ _ => Memory.get_set_of_ne (by simp only [outAddr] at *; omega) _

theorem keepsInputs_setTok (s : State) (i : Nat) (w : Word) : KeepsInputs s (s.setTok i w) :=
  .of_mem rfl fun _ _ _ => Memory.get_writeWord_of_ne (by simp only [tokAddr, tokBase, outBase] at *; omega) _

theorem keepsInputs_bitWrite (pos : Nat) (code : BitVec 255) (n : Nat) (s : State) :
    KeepsInputs s (bitWrite pos code n s) :=
  .of_mem (bitWrite_frame pos code n s).1 fun a _ _ =>
    (bitWrite_frame pos code n s).2 a (by simp only [outBase, bitBase] at *; omega)

theorem keepsInputs_copySymbols (m d n : Nat) (s : State) : KeepsInputs s (copySymbols m d (List.range n) s) :=
  .of_mem (copySymbols_frame m d n s).1 fun a _ _ =>
    (copySymbols_frame m d n s).2 a fun j _ => by simp only [outAddr] at *; omega

theorem keepsInputs_setWin (s : State) (sel : WinSel) (x : Window) : KeepsInputs s (s.setWin sel x) := by
  cases sel <;> exact .of_frame rfl rfl

/-! ### Loops and elements of the sequence commands -/

theorem keepsInputs_histogram (n : Nat) (s : State) : KeepsInputs s (histogram n s) := by
  have hfold : KeepsInputs s ((List.range n).foldl (fun t i => t.bumpFreq (t.inSym i).toNat) s.clearFreq) :=
    List.foldlRecOn _ _ (keepsInputs_clearFreq s) fun t ht i _ => ht.trans (keepsInputs_setFreq t (t.inSym i).isLt _)
  exact hfold.trans (.of_frame rfl rfl)

theorem keepsInputs_appendCode {e : LutEntry} {pos : Nat} (he : appendCode e pos s = .ok t) : KeepsInputs s t := by
  unfold appendCode at he
  split at he
  · cases he
  · cases he
    exact (keepsInputs_bitWrite _ _ _ s).trans (.of_frame rfl rfl)

theorem keepsInputs_decStep {b : Bool} {pos v : Nat} (he : decStep b pos s = .ok (t, v)) : KeepsInputs s t := by
  have hemit : ∀ sym, emitSym sym pos s = .ok (t, v) → KeepsInputs s t := by
    intro sym he
    obtain ⟨-, rfl, -⟩ := emitSym_ok he
    exact (keepsInputs_setOut s _ sym).trans (.of_frame rfl rfl)
  rcases decStep_cases b pos s with ⟨-, e⟩ | ⟨-, -, e⟩ | ⟨-, -, e⟩ | ⟨-, -, -, e⟩ | ⟨-, -, -, e⟩ <;> rw [e] at he
  · cases he
  · cases he
  · exact hemit _ he
  · exact hemit _ he
  · cases he
    exact .of_frame rfl rfl

theorem keepsInputs_decodeElem {i : Nat} (he : decodeElem i s = .ok t) : KeepsInputs s t := by
  unfold decodeElem at he
  split at he <;> cases he
  rename_i hstep
  exact keepsInputs_decStep hstep

theorem keepsInputs_endCheck (pos v : Nat) (s : State) : KeepsInputs s (endCheck pos v s).st := by
  unfold endCheck
  split <;> exact .of_frame rfl rfl

theorem keepsInputs_decodeToken {wd : Word} {pos : Nat} (he : decodeToken wd pos s = .ok t) : KeepsInputs s t := by
  rcases decodeToken_cases wd pos s with ⟨e, -⟩ | ⟨e, -⟩ | ⟨e, -⟩ <;> rw [e] at he <;> cases he
  exact ((keepsInputs_copySymbols _ _ _ s).trans (keepsInputs_setOut _ _ _)).trans (.of_frame rfl rfl)

theorem keepsInputs_lzStep (s : State) : KeepsInputs s (lzStep s) :=
  (keepsInputs_setTok s _ _).trans (.of_frame rfl rfl)

theorem keepsInputs_lzLoop (n : Nat) (s : State) : KeepsInputs s (lzLoop n s).1 := by
  induction n generalizing s with
  | zero => exact .refl s
  | succ n ih =>
    rw [lzLoop]
    split
    · split
      · exact .refl s
      · exact (keepsInputs_lzStep s).trans (ih _)
    · exact .refl s

/-- An element loop keeps what each of its elements keeps. -/
theorem keepsInputs_forElems {f : Nat → State → Except Err State} (hf : ∀ i t u, f i t = .ok u → KeepsInputs t u)
    (is : List Nat) (h : KeepsInputs s t) : KeepsInputs s (forElems f is t).1 :=
  forElems_keeps (P := KeepsInputs s) (fun i _ t u ht he => ht.trans (hf i t u he)) h

end

/-! ### The commands -/

section
variable {s : State}

/-- A pre-check that raises leaves all state unchanged (40_control.md R105). -/
theorem keepsInputs_check {c : Prop} [Decidable c] {code : ErrCode} {pos : Nat} {r : ExecResult}
    (h : KeepsInputs s r.st) : KeepsInputs s (if c then raise code pos s else r).st := by
  split
  · exact .refl s
  · exact h

variable (s)

theorem keepsInputs_runHufEncode : KeepsInputs s (runHufEncode s).st := by
  have hstart : KeepsInputs s ((buildTree (histogram s.csr.inLen.toNat s)).setBitLen 0) :=
    (keepsInputs_histogram _ s).trans (.of_frame rfl rfl)
  have hloop := keepsInputs_forElems (f := encodeElem) (fun _ _ _ he => keepsInputs_appendCode he)
    (List.range s.csr.inLen.toNat) hstart
  unfold runHufEncode
  refine keepsInputs_check ?_
  split <;> rename_i heq <;> rw [heq] at hloop <;> exact hloop

theorem keepsInputs_runHufPutsym (sym : Byte) : KeepsInputs s (runHufPutsym sym s).st := by
  unfold runHufPutsym
  refine keepsInputs_check (keepsInputs_check ?_)
  split
  · rename_i he
    exact keepsInputs_appendCode he
  · exact .refl s

theorem keepsInputs_runHufDecode : KeepsInputs s (runHufDecode s).st := by
  have hstart : KeepsInputs s ((buildTree s).setOutLen 0) := .of_frame rfl rfl
  have hloop := keepsInputs_forElems (f := decodeElem) (fun _ _ _ he => keepsInputs_decodeElem he)
    (List.range s.csr.bitLen.toNat) hstart
  unfold runHufDecode
  refine keepsInputs_check ?_
  split <;> rename_i heq <;> rw [heq] at hloop
  · exact hloop.trans (keepsInputs_endCheck _ _ _)
  · exact hloop

theorem keepsInputs_runHufDecbit (bit : Bool) : KeepsInputs s (runHufDecbit bit s).st := by
  unfold runHufDecbit
  refine keepsInputs_check ?_
  split
  · rename_i he
    exact keepsInputs_decStep he
  · exact .refl s

theorem keepsInputs_runWinRead (sel : WinSel) (idx : Nat) : KeepsInputs s (runWinRead sel idx s).st := by
  unfold runWinRead
  refine keepsInputs_check ?_
  split <;> exact .refl s

theorem keepsInputs_runLzEncode : KeepsInputs s (runLzEncode s).st := by
  have hstart : KeepsInputs s (loadWindows 0 ((s.setTokLen 0).setLzPos 0)) := .of_frame rfl rfl
  have hloop := hstart.trans (keepsInputs_lzLoop s.csr.inLen.toNat _)
  unfold runLzEncode
  refine keepsInputs_check (keepsInputs_check ?_)
  split <;> rename_i heq <;> rw [heq] at hloop <;> exact hloop

theorem keepsInputs_runLzEncstep : KeepsInputs s (runLzEncstep s).st := by
  have hload : KeepsInputs s (loadWindows s.csr.lzPos.toNat s) := .of_frame rfl rfl
  exact keepsInputs_check (keepsInputs_check (keepsInputs_check (keepsInputs_check (hload.trans (keepsInputs_lzStep _)))))

theorem keepsInputs_runLzDecode : KeepsInputs s (runLzDecode s).st := by
  have hstart : KeepsInputs s ((s.setOutLen 0).setWin .hwin (Window.construct s.csr.cfgW.toNat)) := .of_frame rfl rfl
  have hloop := keepsInputs_forElems (f := fun i t => decodeToken (t.tok i) i t)
    (fun _ _ _ he => keepsInputs_decodeToken he) (List.range s.csr.tokLen.toNat) hstart
  unfold runLzDecode
  refine keepsInputs_check (keepsInputs_check ?_)
  split <;> rename_i heq <;> rw [heq] at hloop <;> exact hloop

theorem keepsInputs_runLzDectok : KeepsInputs s (runLzDectok s).st := by
  unfold runLzDectok
  refine keepsInputs_check ?_
  split
  · rename_i he
    exact keepsInputs_decodeToken he
  · exact .refl s

/-- No command writes its inputs or the host's registers. -/
theorem keepsInputs_runOf (i : Instr) : KeepsInputs s (runOf i s).st := by
  cases i with
  | nop => exact .refl s
  | frqClear => exact (keepsInputs_clearFreq s).trans (.of_frame rfl rfl)
  | frqCount => exact keepsInputs_check (keepsInputs_histogram _ s)
  | frqInc sym => exact keepsInputs_check ((keepsInputs_setFreq s sym.isLt _).trans (.of_frame rfl rfl))
  | hufBuild => exact .of_frame rfl rfl
  | hufEncode => exact keepsInputs_runHufEncode s
  | hufPutsym sym => exact keepsInputs_runHufPutsym s sym
  | hufDecode => exact keepsInputs_runHufDecode s
  | hufDecbit bit => exact keepsInputs_runHufDecbit s bit
  | hufDecend => exact keepsInputs_check (keepsInputs_endCheck _ _ s)
  | winInit sel cap => exact keepsInputs_check (keepsInputs_setWin s sel _)
  | winPush sel sym => exact keepsInputs_check (keepsInputs_setWin s sel _)
  | winPushn sel => exact keepsInputs_check (keepsInputs_check (keepsInputs_setWin s sel _))
  | winEvict sel cnt => exact keepsInputs_check (keepsInputs_setWin s sel _)
  | winRead sel idx => exact keepsInputs_runWinRead s sel idx
  | lzEncode => exact keepsInputs_runLzEncode s
  | lzEncstep => exact keepsInputs_runLzEncstep s
  | lzDecode => exact keepsInputs_runLzDecode s
  | lzDectok => exact keepsInputs_runLzDectok s

end

/-! ### The completion -/

/-- The completion writes its record and the trace log alone (40_control.md R104). -/
theorem emit_complete_eq (evs : List TraceEvent) (r : ExecResult) :
    emit evs (complete r) = { recorded r.st (emit evs (complete r)) with trace := (emit evs (complete r)).trace } := by
  obtain ⟨u, res⟩ := r
  unfold emit
  split <;> cases res <;> rfl

/-- Whatever `Exec` answers, the record is that of a success or of one of the seven errors (60_exceptions.md R156). -/
theorem record_complete {s : State} {r : ExecResult} (hsticky : r.st.csr.stickyErr = s.csr.stickyErr)
    (evs : List TraceEvent) :
    succeeded s (emit evs (complete r)) (emit evs (complete r)).csr.result0.toNat ∨
      ∃ e pos, 1 ≤ e ∧ e ≤ 7 ∧ failed (emit evs (complete r)) e pos := by
  obtain ⟨u, res⟩ := r
  rw [emit_csr]
  cases res with
  | ok v =>
    refine .inl ?_
    rw [succeeded, emit_csr, emit_pending]
    exact ⟨rfl, rfl, rfl, rfl, rfl, hsticky, rfl⟩
  | error e =>
    refine .inr ⟨e.code.num.toNat, (BitVec.ofNat 21 e.pos).toNat, e.code.num_range.1, e.code.num_range.2, ?_⟩
    rw [failed, emit_csr, emit_pending]
    exact ⟨rfl, rfl, rfl, rfl, rfl, rfl, rfl⟩

/-- Every completion sets IRQ_PEND, so that the interrupt output is IRQ_EN (60_exceptions.md R163). -/
theorem irq_complete (evs : List TraceEvent) (r : ExecResult) : (emit evs (complete r)).irq = r.st.csr.irqEn := by
  obtain ⟨u, res⟩ := r
  rw [State.irq, emit_csr]
  cases res <;> exact Bool.and_true _

/-- Settles O6: `Exec` of every command writes its outputs alone, and its completion adds the record. -/
theorem everyCommandCompletes : Obligations.EveryCommandCompletes := by
  unfold Obligations.EveryCommandCompletes
  intro i s
  obtain ⟨evs, he⟩ := exec_eq i s
  obtain ⟨hframe, hmem⟩ := keepsInputs_runOf s i
  generalize runOf i s = r at he hframe hmem
  have hsticky : r.st.csr.stickyErr = s.csr.stickyErr := congrArg (fun x => x.csr.stickyErr) hframe
  have hirq : r.st.csr.irqEn = s.csr.irqEn := congrArg (fun x => x.csr.irqEn) hframe
  have hrecord := record_complete hsticky evs
  have hout := (irq_complete evs r).trans hirq
  have hcomplete := emit_complete_eq evs r
  generalize emit evs (complete r) = t at he hrecord hout hcomplete
  have hview := congrArg (fun x => { recorded x t with trace := t.trace }) hframe
  have hall := hcomplete.trans hview
  refine ⟨t, he, hrecord, hout, congrArg (·.csr.irqEn) hall, congrArg (·.csr.overrun) hall, congrArg (·.csr.cmd) hall,
    congrArg (·.csr.arg0) hall, congrArg (·.csr.cfgW) hall, congrArg (·.csr.cfgB) hall, congrArg (·.csr.inLen) hall,
    congrArg (·.params) hall, congrArg (·.agenda) hall, congrArg (·.resp) hall, congrArg (·.draws) hall,
    congrArg (·.busErrs) hall, fun a hlo hhi => ?_⟩
  rw [hcomplete]
  exact hmem a hlo hhi

end Sys2Proof.Machine
end

section
/-! PROOFS. Two runs of one command: what it takes for both to end alike, said once for the element loop, the pre-checks and
the completion record (40_control.md R104 to R106). -/

namespace Sys2Proof.Machine

/-- Two elements end alike: with the same error, or in states related by `R`. -/
def ResultsAgree {α : Type} (R : α → α → Prop) : Except Err α → Except Err α → Prop
  | .ok a, .ok b => R a b
  | .error e, .error e' => e = e'
  | _, _ => False

/-- Two runs of `Exec` end alike: with the same result or error, and after a success in states related by `R`. -/
structure ExecAgree (R : State → State → Prop) (r r' : ExecResult) : Prop where
  res : r.res = r'.res
  st : ∀ v, r.res = .ok v → R r.st r'.st

/-- `s` with the completion record and the trace log as `t` has them (40_control.md R104). -/
def completedAs (s t : State) : State := { recorded s t with trace := t.trace }

/-- `R` does not look at the completion record or at the trace log. -/
def IgnoresRecord (R : State → State → Prop) : Prop := ∀ s u t v, R s u → R (completedAs s t) (completedAs u v)

section
variable {R : State → State → Prop} {s u : State}

/-- Elements that end alike from related states make loops that do (40_control.md R105). -/
theorem forElems_agree {f : Nat → State → Except Err State} {is : List Nat}
    (hf : ∀ i ∈ is, ∀ s u, R s u → ResultsAgree R (f i s) (f i u)) (h : R s u) :
    ∃ t v o, forElems f is s = (t, o) ∧ forElems f is u = (v, o) ∧ R t v := by
  induction is generalizing s u with
  | nil => exact ⟨s, u, none, rfl, rfl, h⟩
  | cons i is ih =>
    have hi := hf i (by simp) s u h
    rw [forElems_cons, forElems_cons]
    generalize f i s = x, f i u = y at hi
    cases x <;> cases y
    case ok.ok => exact ih (fun j hj => hf j (List.mem_cons_of_mem _ hj)) hi
    case error.error => exact ⟨s, u, _, rfl, by rw [hi], h⟩
    case ok.error | error.ok => exact hi.elim

/-- A pre-check that both runs pass or both fail (40_control.md R105). -/
theorem execAgree_check {c c' : Prop} [Decidable c] [Decidable c'] (hc : c ↔ c') {code : ErrCode} {pos : Nat}
    {r r' : ExecResult} (h : ¬ c → ExecAgree R r r') :
    ExecAgree R (if c then raise code pos s else r) (if c' then raise code pos u else r') := by
  by_cases hfail : c
  · rw [if_pos hfail, if_pos (hc.1 hfail)]
    exact ⟨rfl, nofun⟩
  · rw [if_neg hfail, if_neg (mt hc.2 hfail)]
    exact h hfail

/-- No error kind has the number 0 (60_exceptions.md R156). -/
theorem ErrCode.num_ne_zero (c : ErrCode) : c.num ≠ 0 := by cases c <;> decide

/-- The two completion records say the same, and after a success the states are related (40_control.md R104). -/
theorem ExecAgree.completed {r r' : ExecResult} (h : ExecAgree R r r') (hR : IgnoresRecord R)
    {evs evs' : List TraceEvent} {t v : State} (ht : t = emit evs (complete r)) (hv : v = emit evs' (complete r')) :
    t.csr.errcode = v.csr.errcode ∧ t.csr.errPos = v.csr.errPos ∧ t.csr.result0 = v.csr.result0 ∧
      (t.csr.errcode = 0 → R t v) := by
  have hst : ∀ x, r.res = .ok x → R t v := by
    intro x hx
    have hview := hR _ _ t v (h.st x hx)
    rwa [show completedAs r.st t = t by rw [ht]; exact (emit_complete_eq evs r).symm,
      show completedAs r'.st v = v by rw [hv]; exact (emit_complete_eq evs' r').symm] at hview
  obtain ⟨a, res⟩ := r
  obtain ⟨b, res'⟩ := r'
  obtain rfl : res = res' := h.res
  have htcsr : t.csr = (complete ⟨a, res⟩).csr := by rw [ht, emit_csr]
  have hvcsr : v.csr = (complete ⟨b, res⟩).csr := by rw [hv, emit_csr]
  rw [htcsr, hvcsr]
  cases res with
  | ok x => exact ⟨rfl, rfl, rfl, fun _ => hst x rfl⟩
  | error e => exact ⟨rfl, rfl, rfl, fun h0 => absurd h0 e.code.num_ne_zero⟩

/-- Two runs of a command that end alike complete alike. -/
theorem exec_agree {i : Instr} (hR : IgnoresRecord R) (h : ExecAgree R (runOf i s) (runOf i u)) :
    ∃ t v, exec i s = .next t ∧ exec i u = .next v ∧ t.csr.errcode = v.csr.errcode ∧ t.csr.errPos = v.csr.errPos ∧
      t.csr.result0 = v.csr.result0 ∧ (t.csr.errcode = 0 → R t v) := by
  obtain ⟨evs, ht⟩ := exec_eq i s
  obtain ⟨evs', hv⟩ := exec_eq i u
  exact ⟨_, _, ht, hv, h.completed hR rfl rfl⟩

end

/-! ### Slices of the buffers -/

section
variable {s u : State} {a b n : Nat}

theorem mem_slice {i : Nat} : i ∈ slice a b ↔ a ≤ i ∧ i < b := by
  rw [slice, List.mem_range'_1]
  omega

/-- A slice of IN depends on its cells alone. -/
theorem inSlice_congr (h : ∀ i, i < b → s.inSym i = u.inSym i) : s.inSlice a b = u.inSlice a b :=
  List.map_congr_left fun i hi => h i (mem_slice.1 hi).2

/-- A slice of OUT depends on its cells alone. -/
theorem outSlice_congr (h : ∀ i, i < b → s.outSym i = u.outSym i) : s.outSlice a b = u.outSlice a b :=
  List.map_congr_left fun i hi => h i (mem_slice.1 hi).2

/-- Equal inputs of equal length are equal cell by cell. -/
theorem inSym_eq_of_input (hlen : s.csr.inLen = u.csr.inLen) (h : input s = input u) :
    ∀ i, i < s.csr.inLen.toNat → s.inSym i = u.inSym i := by
  rw [input, input, ← hlen] at h
  exact fun i hi => List.map_inj_left.1 h i (mem_slice.2 ⟨Nat.zero_le i, hi⟩)

end

end Sys2Proof.Machine
end

section
/-! PROOFS. The full Huffman commands see their declared inputs alone: two runs from states that agree on these go through
the same codes and the same nodes, element by element (40_control.md R106). -/

namespace Sys2Proof.Machine

/-! ### HUF_ENCODE -/

/-- The states agree on the counters and on the first `n` cells of IN. -/
structure SameCounts (n : Nat) (s u : State) : Prop where
  wfLeft : Memory.wf s.mem
  wfRight : Memory.wf u.mem
  input : ∀ i, i < n → s.inSym i = u.inSym i
  freq : ∀ i, i < 256 → s.freq i = u.freq i

/-- Besides, they agree on the tree, on the code table and on the bits written so far. -/
structure SameEncoding (n : Nat) (s u : State) : Prop extends SameCounts n s u where
  node : s.node = u.node
  lut : s.lut = u.lut
  bitLen : s.csr.bitLen = u.csr.bitLen
  bits : ∀ i, i < s.csr.bitLen.toNat → bitRead s i = bitRead u i

/-- What HUF_ENCODE writes (43_huffman_codec.md R133). -/
def EncodeOutputs (t v : State) : Prop :=
  (∀ i, i < 256 → t.freq i = v.freq i) ∧ t.node = v.node ∧ t.lut = v.lut ∧ t.csr.bitLen = v.csr.bitLen ∧
    bitsOf t t.csr.bitLen.toNat = bitsOf v v.csr.bitLen.toNat

section
variable {n : Nat} {s u : State}

/-- Clearing the counters makes them equal (41_frequency.md R112). -/
theorem sameCounts_clearFreq (hs : Memory.wf s.mem) (hu : Memory.wf u.mem) (h : ∀ i, i < n → s.inSym i = u.inSym i) :
    SameCounts n s.clearFreq u.clearFreq where
  wfLeft := State.clearFreq_wf hs
  wfRight := State.clearFreq_wf hu
  input i hi := by
    have hcell : ∀ x : State, x.clearFreq.inSym i = x.inSym i := fun x =>
      x.get_clearFreq (by simp only [inAddr, inBase]; omega)
    rw [hcell, hcell, h i hi]
  freq i hi := by rw [s.freq_clearFreq hi, u.freq_clearFreq hi]

/-- One symbol counted, the same for both. -/
theorem SameCounts.bumpFreq (h : SameCounts n s u) {i : Nat} (hi : i < n) :
    SameCounts n (s.bumpFreq (s.inSym i).toNat) (u.bumpFreq (u.inSym i).toNat) := by
  rw [← h.input i hi]
  have hsym := (s.inSym i).isLt
  generalize (s.inSym i).toNat = x at hsym
  unfold State.bumpFreq
  rw [← h.freq x hsym]
  refine ⟨State.setFreq_wf h.wfLeft _ _, State.setFreq_wf h.wfRight _ _, fun j hj => ?_, fun j hj => ?_⟩
  · rw [State.inSym_setFreq s hsym, State.inSym_setFreq u hsym, h.input j hj]
  · rw [State.freq_setFreq h.wfLeft, State.freq_setFreq h.wfRight, h.freq j hj]

theorem sameCounts_histogram (hs : Memory.wf s.mem) (hu : Memory.wf u.mem) (h : ∀ i, i < n → s.inSym i = u.inSym i) :
    SameCounts n (histogram n s) (histogram n u) := by
  have hfold := List.foldl_rel (l := List.range n) (f := fun t i => t.bumpFreq (t.inSym i).toNat)
    (g := fun t i => t.bumpFreq (t.inSym i).toNat) (sameCounts_clearFreq hs hu h)
    fun i hi _ _ hc => hc.bumpFreq (List.mem_range.1 hi)
  exact ⟨hfold.wfLeft, hfold.wfRight, hfold.input, hfold.freq⟩

/-- The tree depends on the counters alone (42_huffman_tree.md R127). -/
theorem SameCounts.buildTree (h : SameCounts n s u) :
    SameEncoding n ((buildTree s).setBitLen 0) ((buildTree u).setBitLen 0) where
  wfLeft := h.wfLeft
  wfRight := h.wfRight
  input := h.input
  freq := h.freq
  node := buildArena_congr h.freq
  lut := by
    have hcount : s.symCount = u.symCount := congrArg List.length (presentSyms_congr h.freq)
    simp only [State.setBitLen_lut, buildTree_lut, buildArena_congr h.freq, hcount]
  bitLen := rfl
  bits i hi := absurd hi (Nat.not_lt_zero i)

/-- The writer leaves IN and FREQ (43_huffman_codec.md R130). -/
theorem bitWrite_cells (pos : Nat) (code : BitVec 255) (len : Nat) (s : State) :
    (∀ i, i < 4096 → (bitWrite pos code len s).inSym i = s.inSym i) ∧
      ∀ i, i < 256 → (bitWrite pos code len s).freq i = s.freq i := by
  obtain ⟨-, hmem⟩ := bitWrite_frame pos code len s
  refine ⟨fun i hi => hmem _ ?_, fun i hi => freq_eq_of_get (fun a ha => hmem a ?_) hi⟩
  · simp only [inAddr, inBase, bitBase]; omega
  · simp only [bitBase]; omega

theorem SameCounts.bitWrite (h : SameCounts n s u) (hn : n ≤ 4096) (pos : Nat) (code : BitVec 255) (len : Nat) :
    SameCounts n (bitWrite pos code len s) (bitWrite pos code len u) := by
  obtain ⟨hins, hfreqs⟩ := bitWrite_cells pos code len s
  obtain ⟨hinu, hfrequ⟩ := bitWrite_cells pos code len u
  refine ⟨bitWrite_wf h.wfLeft _ _ _, bitWrite_wf h.wfRight _ _ _, fun i hi => ?_, fun i hi => ?_⟩
  · rw [hins i (by omega), hinu i (by omega), h.input i hi]
  · rw [hfreqs i hi, hfrequ i hi, h.freq i hi]

/-- One code appended, the same for both, or the same CapacityExceeded (43_huffman_codec.md R133). -/
theorem SameEncoding.appendCode (h : SameEncoding n s u) (hn : n ≤ 4096) (e : LutEntry) (pos : Nat) :
    ResultsAgree (SameEncoding n) (appendCode e pos s) (appendCode e pos u) := by
  have hbits := h.bits
  unfold Machine.appendCode
  rw [← h.bitLen]
  generalize s.csr.bitLen.toNat = m at hbits
  split
  · rfl
  · have hcounts := h.toSameCounts.bitWrite hn m e.code e.len.toNat
    obtain ⟨hframes, -⟩ := bitWrite_frame m e.code e.len.toNat s
    obtain ⟨hframeu, -⟩ := bitWrite_frame m e.code e.len.toNat u
    refine ⟨⟨hcounts.wfLeft, hcounts.wfRight, hcounts.input, hcounts.freq⟩, ?_, ?_, rfl, fun i hi => ?_⟩
    · exact (congrArg (·.node) hframes).trans (h.node.trans (congrArg (·.node) hframeu).symm)
    · exact (congrArg (·.lut) hframes).trans (h.lut.trans (congrArg (·.lut) hframeu).symm)
    · have hi : i < m + e.len.toNat := Nat.lt_of_lt_of_le hi ((BitVec.toNat_ofNat _ _).trans_le (Nat.mod_le _ _))
      change bitRead (Machine.bitWrite m e.code e.len.toNat s) i = bitRead (Machine.bitWrite m e.code e.len.toNat u) i
      rw [bitRead_bitWrite h.wfLeft, bitRead_bitWrite h.wfRight]
      split
      · rfl
      · exact hbits i (by omega)

theorem SameEncoding.encodeElem (h : SameEncoding n s u) (hn : n ≤ 4096) {i : Nat} (hi : i < n) :
    ResultsAgree (SameEncoding n) (encodeElem i s) (encodeElem i u) := by
  have hentry : u.lutAt (u.inSym i) = s.lutAt (s.inSym i) := by rw [State.lutAt, State.lutAt, h.lut, h.input i hi]
  rw [Machine.encodeElem, Machine.encodeElem, hentry]
  exact h.appendCode hn _ i

theorem SameEncoding.outputs (h : SameEncoding n s u) : EncodeOutputs s u :=
  ⟨h.freq, h.node, h.lut, h.bitLen, by rw [← h.bitLen]; exact List.map_congr_left fun i hi => h.bits i (List.mem_range.1 hi)⟩

/-- HUF_ENCODE depends on IN[0..IN_LEN) alone (40_control.md R106). -/
theorem runHufEncode_agree (hs : Memory.wf s.mem) (hu : Memory.wf u.mem) (hlen : s.csr.inLen = u.csr.inLen)
    (h : ∀ i, i < s.csr.inLen.toNat → s.inSym i = u.inSym i) :
    ExecAgree EncodeOutputs (runHufEncode s) (runHufEncode u) := by
  unfold runHufEncode
  refine execAgree_check (by rw [hlen]) fun hroom => ?_
  have hn : s.csr.inLen.toNat ≤ 4096 := Nat.le_of_not_lt hroom
  obtain ⟨t, v, o, hloops, hloopu, ht⟩ := forElems_agree (f := encodeElem) (is := List.range s.csr.inLen.toNat)
    (fun i hi _ _ ht => SameEncoding.encodeElem ht hn (List.mem_range.1 hi)) (sameCounts_histogram hs hu h).buildTree
  rw [← hlen, hloops, hloopu]
  cases o with
  | none => exact ⟨by simp only [ht.bitLen], fun _ _ => ht.outputs⟩
  | some e => exact ⟨rfl, nofun⟩

end

/-! ### HUF_DECODE -/

/-- The states agree on the first `n` bits of BITBUF, on the tree, on the walker and on the symbols emitted so far. -/
structure SameDecoding (n : Nat) (s u : State) : Prop where
  wfLeft : Memory.wf s.mem
  wfRight : Memory.wf u.mem
  bits : ∀ i, i < n → bitRead s i = bitRead u i
  node : s.node = u.node
  lut : s.lut = u.lut
  nsym : s.csr.nsym = u.csr.nsym
  root : s.csr.root = u.csr.root
  decNode : s.csr.decNode = u.csr.decNode
  decLen : s.csr.decLen = u.csr.decLen
  outLen : s.csr.outLen = u.csr.outLen
  out : ∀ i, i < s.csr.outLen.toNat → s.outSym i = u.outSym i

/-- What HUF_DECODE writes (43_huffman_codec.md R135). -/
def DecodeOutputs (t v : State) : Prop :=
  t.csr.outLen = v.csr.outLen ∧ t.outSlice 0 t.csr.outLen.toNat = v.outSlice 0 v.csr.outLen.toNat ∧ t.node = v.node ∧
    t.lut = v.lut

section
variable {n : Nat} {s u : State}

/-- Both decoders start from the tree of the counters, with no output (43_huffman_codec.md R135). -/
theorem sameDecoding_start (hs : Memory.wf s.mem) (hu : Memory.wf u.mem) (hfreq : ∀ i, i < 256 → s.freq i = u.freq i)
    (hbits : ∀ i, i < n → bitRead s i = bitRead u i) :
    SameDecoding n ((buildTree s).setOutLen 0) ((buildTree u).setOutLen 0) := by
  have harena : buildArena s.freq = buildArena u.freq := buildArena_congr hfreq
  have hcount : s.symCount = u.symCount := congrArg List.length (presentSyms_congr hfreq)
  constructor
  case wfLeft => exact hs
  case wfRight => exact hu
  case bits => exact hbits
  case out => exact fun i hi => absurd hi (Nat.not_lt_zero i)
  all_goals
    simp only [State.setOutLen_node, State.setOutLen_lut, State.setOutLen_csr, buildTree_node, buildTree_lut, buildTree_csr,
      harena, hcount]

theorem SameDecoding.setWalker (h : SameDecoding n s u) (x : BitVec 9) (k : Nat) :
    SameDecoding n (s.setWalker x k) (u.setWalker x k) :=
  ⟨h.wfLeft, h.wfRight, h.bits, h.node, h.lut, h.nsym, h.root, rfl, rfl, h.outLen, h.out⟩

theorem SameDecoding.walkerToRoot (h : SameDecoding n s u) : SameDecoding n s.walkerToRoot u.walkerToRoot := by
  rw [State.walkerToRoot, State.walkerToRoot, ← h.root]
  exact h.setWalker _ _

/-- One symbol emitted, the same for both, or the same CapacityExceeded (43_huffman_codec.md R131). -/
theorem SameDecoding.emitSym (h : SameDecoding n s u) (sym : Byte) (pos : Nat) :
    ResultsAgree (fun p q => SameDecoding n p.1 q.1) (emitSym sym pos s) (emitSym sym pos u) := by
  have hout := h.out
  unfold Machine.emitSym
  rw [← h.outLen]
  generalize s.csr.outLen.toNat = m at hout
  split
  · rfl
  · rename_i hroom
    have hm : m < 4096 := Nat.lt_of_not_le hroom
    have hbit : ∀ (x : State) i, bitRead (x.setOut m sym) i = bitRead x i := fun x i => by
      rw [bitRead, bitRead, State.bitWord_setOut x hm]
    have hset : SameDecoding n ((s.setOut m sym).setOutLen (m + 1)) ((u.setOut m sym).setOutLen (m + 1)) := by
      refine ⟨State.setOut_wf h.wfLeft _ _, State.setOut_wf h.wfRight _ _, fun i hi => ?_, h.node, h.lut, h.nsym, h.root, h.decNode,
        h.decLen, rfl, fun i hi => ?_⟩
      · exact (hbit s i).trans ((h.bits i hi).trans (hbit u i).symm)
      · have hi : i < m + 1 := Nat.lt_of_lt_of_le hi ((BitVec.toNat_ofNat _ _).trans_le (Nat.mod_le _ _))
        change (s.setOut m sym).outSym i = (u.setOut m sym).outSym i
        rw [State.outSym_setOut h.wfLeft, State.outSym_setOut h.wfRight]
        split
        · rfl
        · exact hout i (by omega)
    exact hset.walkerToRoot

/-- One bit fed to the walker takes both to the same node (43_huffman_codec.md R131). -/
theorem SameDecoding.decStep (h : SameDecoding n s u) (b : Bool) (pos : Nat) :
    ResultsAgree (fun p q => SameDecoding n p.1 q.1) (decStep b pos s) (decStep b pos u) := by
  have hnode : ∀ x, u.nodeAt x = s.nodeAt x := fun x => by rw [State.nodeAt, State.nodeAt, h.node]
  unfold Machine.decStep
  simp only [← h.nsym, ← h.root, ← h.decNode, ← h.decLen, hnode]
  split
  · rfl
  · split
    · split
      · rfl
      · exact h.emitSym _ pos
    · split
      · exact h.emitSym _ pos
      · exact h.setWalker _ _

theorem SameDecoding.decodeElem (h : SameDecoding n s u) {i : Nat} (hi : i < n) :
    ResultsAgree (SameDecoding n) (decodeElem i s) (decodeElem i u) := by
  have hstep := h.decStep (bitRead s i) i
  unfold Machine.decodeElem
  rw [← h.bits i hi]
  generalize Machine.decStep (bitRead s i) i s = x, Machine.decStep (bitRead s i) i u = y at hstep
  cases x <;> cases y <;> exact hstep

theorem SameDecoding.outputs (h : SameDecoding n s u) : DecodeOutputs s u :=
  ⟨h.outLen, by rw [← h.outLen]; exact outSlice_congr h.out, h.node, h.lut⟩

/-- The end check finds the same buffer (43_huffman_codec.md R132). -/
theorem SameDecoding.endCheck (h : SameDecoding n s u) (pos v : Nat) :
    ExecAgree DecodeOutputs (endCheck pos v s) (endCheck pos v u) := by
  unfold Machine.endCheck
  rw [← h.decLen]
  split
  · exact ⟨rfl, fun _ _ => h.walkerToRoot.outputs⟩
  · exact ⟨rfl, nofun⟩

/-- HUF_DECODE depends on the counters and on the first BIT_LEN bits alone (40_control.md R106). -/
theorem runHufDecode_agree (hs : Memory.wf s.mem) (hu : Memory.wf u.mem) (hlen : s.csr.bitLen = u.csr.bitLen)
    (hfreq : ∀ i, i < 256 → s.freq i = u.freq i) (hbits : ∀ i, i < s.csr.bitLen.toNat → bitRead s i = bitRead u i) :
    ExecAgree DecodeOutputs (runHufDecode s) (runHufDecode u) := by
  unfold runHufDecode
  refine execAgree_check (by rw [hlen]) fun _ => ?_
  obtain ⟨t, v, o, hloops, hloopu, ht⟩ := forElems_agree (f := decodeElem) (is := List.range s.csr.bitLen.toNat)
    (fun i hi _ _ ht => SameDecoding.decodeElem ht (List.mem_range.1 hi)) (sameDecoding_start hs hu hfreq hbits)
  rw [← hlen, hloops, hloopu]
  cases o with
  | none => simpa only [← ht.outLen] using ht.endCheck s.csr.bitLen.toNat t.csr.outLen.toNat
  | some e => exact ⟨rfl, nofun⟩

end

/-- Settles O59: from states that agree on the declared inputs the two runs of either command agree element by element. -/
theorem huffmanCommandsDependOnDeclaredInputs : Obligations.HuffmanCommandsDependOnDeclaredInputs := by
  unfold Obligations.HuffmanCommandsDependOnDeclaredInputs
  refine ⟨fun s u hs hu hlen hin => ?_, fun s u hs hu hlen hfreq hbits => ?_⟩
  · exact exec_agree (i := .hufEncode) (R := EncodeOutputs) (fun _ _ _ _ h => h)
      (runHufEncode_agree hs hu hlen (inSym_eq_of_input hlen hin))
  · rw [← hlen] at hbits
    exact exec_agree (i := .hufDecode) (R := DecodeOutputs) (fun _ _ _ _ h => h)
      (runHufDecode_agree hs hu hlen hfreq fun i hi => List.map_inj_left.1 hbits i (List.mem_range.2 hi))

end Sys2Proof.Machine
end

section
/-! PROOFS. The full LZSS commands see their declared inputs alone: two runs from states that agree on these write the same
tokens, and replay them to the same output, element by element (40_control.md R106). -/

namespace Sys2Proof.Machine

/-! ### The matcher reads IN[0..IN_LEN) alone -/

section
variable {f g : Nat → Byte} {n p : Nat}

theorem extendMatch_congr (hf : ∀ i, i < n → f i = g i) {o : Nat} (left l : Nat) (ho : o + l + left ≤ n)
    (hp : p + l + left ≤ n) : extendMatch f o p left l = extendMatch g o p left l := by
  induction left generalizing l with
  | zero => rfl
  | succ left ih => rw [extendMatch, extendMatch, hf _ (by omega), hf _ (by omega), ih (l + 1) (by omega) (by omega)]

theorem scanOffsets_congr (hf : ∀ i, i < n → f i = g i) {maxL : Nat} (hp : p + maxL ≤ n) {os : List Nat}
    (hos : ∀ o ∈ os, o < p) (best : Nat × Nat) : scanOffsets f p maxL os best = scanOffsets g p maxL os best := by
  induction os generalizing best with
  | nil => rfl
  | cons o os ih =>
    have ho : o < p := hos o (by simp)
    rw [scanOffsets, scanOffsets, extendMatch_congr hf maxL 0 (by omega) (by omega),
      ih fun x hx => hos x (List.mem_cons_of_mem _ hx)]

/-- No match is longer than the cap. -/
theorem scanOffsets_le (f : Nat → Byte) (p maxL : Nat) (os : List Nat) : (scanOffsets f p maxL os (0, 0)).1 ≤ maxL := by
  obtain ⟨-, -, h | ⟨pre, o, post, -, h, -, -⟩⟩ := scanOffsets_spec f p maxL os (0, 0)
  · rw [h]; exact Nat.zero_le _
  · rw [h]
    obtain ⟨-, hle, -⟩ := extendMatch_spec f o p maxL 0
    simpa using hle

/-- A token and its next symbol stay inside the input (45_lzss.md R149). -/
theorem findMatch_len_lt (f : Nat → Byte) (w b : Nat) (hp : p < n) : p + (findMatch f n w b p).len < n := by
  have hle := scanOffsets_le f p (min b (n - p - 1)) (slice (p - w) p)
  unfold findMatch
  simp only
  split <;> simp only <;> omega

/-- The matcher depends on the input alone (45_lzss.md R149). -/
theorem findMatch_congr (hf : ∀ i, i < n → f i = g i) (w b : Nat) (hp : p < n) :
    findMatch f n w b p = findMatch g n w b p := by
  have hle := scanOffsets_le g p (min b (n - p - 1)) (slice (p - w) p)
  unfold findMatch
  simp only [scanOffsets_congr hf (show p + min b (n - p - 1) ≤ n by omega) (fun o ho => (mem_slice.1 ho).2) (0, 0)]
  rw [hf p hp, hf _ (by omega)]

end

/-! ### LZ_ENCODE -/

/-- The states agree on the input, on the configuration, on the cursor and on the tokens so far. -/
structure SameCursor (s u : State) : Prop where
  wfLeft : Memory.wf s.mem
  wfRight : Memory.wf u.mem
  inLen : s.csr.inLen = u.csr.inLen
  cfgW : s.csr.cfgW = u.csr.cfgW
  cfgB : s.csr.cfgB = u.csr.cfgB
  tokLen : s.csr.tokLen = u.csr.tokLen
  lzPos : s.csr.lzPos = u.csr.lzPos
  fits : s.csr.inLen.toNat ≤ 4096
  input : ∀ i, i < s.csr.inLen.toNat → s.inSym i = u.inSym i
  tok : ∀ i, i < s.csr.tokLen.toNat → s.tok i = u.tok i

/-- Besides, they agree on both windows. -/
structure SameTokens (s u : State) : Prop extends SameCursor s u where
  hwin : s.hwin = u.hwin
  lwin : s.lwin = u.lwin

/-- What LZ_ENCODE writes (45_lzss.md R151). -/
def TokenOutputs (t v : State) : Prop :=
  t.csr.tokLen = v.csr.tokLen ∧
    (List.range t.csr.tokLen.toNat).map t.tok = (List.range v.csr.tokLen.toNat).map v.tok ∧
    t.csr.lzPos = v.csr.lzPos ∧ t.hwin = v.hwin ∧ t.lwin = v.lwin

section
variable {s u : State}

theorem SameTokens.outputs (h : SameTokens s u) : TokenOutputs s u :=
  ⟨h.tokLen, by rw [← h.tokLen]; exact List.map_congr_left fun i hi => h.tok i (List.mem_range.1 hi), h.lzPos, h.hwin, h.lwin⟩

/-- A slice of the input is the same in both. -/
theorem SameCursor.inSlice (h : SameCursor s u) {a b : Nat} (hb : b ≤ s.csr.inLen.toNat) : s.inSlice a b = u.inSlice a b :=
  inSlice_congr fun i hi => h.input i (Nat.lt_of_lt_of_le hi hb)

theorem SameCursor.tokenAtCursor (h : SameCursor s u) (hp : s.csr.lzPos.toNat < s.csr.inLen.toNat) :
    s.tokenAtCursor = u.tokenAtCursor := by
  unfold State.tokenAtCursor
  rw [← h.inLen, ← h.cfgW, ← h.cfgB, ← h.lzPos]
  exact findMatch_congr h.input _ _ hp

/-- One token stored, the same in both. -/
theorem SameTokens.storeTok (h : SameTokens s u) (w : Word) :
    SameTokens ((s.setTok s.csr.tokLen.toNat w).setTokLen (s.csr.tokLen.toNat + 1))
      ((u.setTok s.csr.tokLen.toNat w).setTokLen (s.csr.tokLen.toNat + 1)) := by
  have htok := h.tok
  have hfits := h.fits
  generalize s.csr.tokLen.toNat = m at htok
  refine { h with wfLeft := State.setTok_wf h.wfLeft _ _, wfRight := State.setTok_wf h.wfRight _ _, tokLen := rfl,
                  input := fun i hi => ?_, tok := fun i hi => ?_ }
  · have hi : i < s.csr.inLen.toNat := hi
    exact (State.inSym_setTok s (by omega) m w).trans ((h.input i hi).trans (State.inSym_setTok u (by omega) m w).symm)
  · have hi : i < m + 1 := Nat.lt_of_lt_of_le hi ((BitVec.toNat_ofNat _ _).trans_le (Nat.mod_le _ _))
    change (s.setTok m w).tok i = (u.setTok m w).tok i
    rw [State.tok_setTok h.wfLeft, State.tok_setTok h.wfRight]
    split
    · rfl
    · exact htok i (by omega)

/-- Both windows are views of the input at the cursor (45_lzss.md R150). -/
theorem SameCursor.loadWindows (h : SameCursor s u) {p : Nat} (hp : p ≤ s.csr.inLen.toNat) :
    SameTokens (loadWindows p s) (loadWindows p u) := by
  refine ⟨⟨h.wfLeft, h.wfRight, h.inLen, h.cfgW, h.cfgB, h.tokLen, h.lzPos, h.fits, h.input, h.tok⟩, ?_, ?_⟩
  · simp only [Machine.loadWindows, ← h.cfgW, h.inSlice hp]
  · simp only [Machine.loadWindows, ← h.cfgB, ← h.inLen, h.inSlice (Nat.min_le_left _ (p + s.csr.cfgB.toNat))]

/-- The cursor moved on past a token of length `len` at `p`: the consumed symbols go from LWIN into HWIN, and LWIN is
filled up (45_lzss.md R150). -/
def advanceCursor (len p : Nat) (s : State) : State :=
  let l := (s.lwin.evict (min (len + 1) s.lwin.seq.length)).1
  ({ s with hwin := (s.hwin.pushMany (s.inSlice p (p + len + 1))).1,
            lwin := (l.pushMany (s.inSlice (max (p + len + 1) (min s.csr.inLen.toNat (p + s.csr.cfgB.toNat)))
              (min s.csr.inLen.toNat (p + len + 1 + s.csr.cfgB.toNat)))).1 }).setLzPos (p + len + 1)

/-- A step of the encoder stores the token at the cursor and moves on (45_lzss.md R150). -/
theorem lzStep_eq (s : State) : lzStep s = advanceCursor s.tokenAtCursor.len s.csr.lzPos.toNat
    ((s.setTok s.csr.tokLen.toNat s.tokenAtCursor.word).setTokLen (s.csr.tokLen.toNat + 1)) := rfl

theorem SameTokens.advanceCursor (h : SameTokens s u) {len p : Nat} (hp : p + len < s.csr.inLen.toNat) :
    SameTokens (advanceCursor len p s) (advanceCursor len p u) := by
  have hpushed : s.inSlice p (p + len + 1) = u.inSlice p (p + len + 1) := h.inSlice hp
  have hfilled : ∀ a b, s.inSlice a (min s.csr.inLen.toNat b) = u.inSlice a (min s.csr.inLen.toNat b) := fun a b =>
    h.inSlice (Nat.min_le_left _ b)
  refine { h with lzPos := rfl, hwin := ?_, lwin := ?_ }
  · simp only [Machine.advanceCursor, State.setLzPos_hwin, ← h.hwin, hpushed]
  · simp only [Machine.advanceCursor, State.setLzPos_lwin, ← h.lwin, ← h.inLen, ← h.cfgB, hfilled]

theorem SameTokens.lzStep (h : SameTokens s u) (hp : s.csr.lzPos.toNat < s.csr.inLen.toNat) :
    SameTokens (lzStep s) (lzStep u) := by
  rw [lzStep_eq, lzStep_eq, ← h.toSameCursor.tokenAtCursor hp, ← h.tokLen, ← h.lzPos]
  exact (h.storeTok _).advanceCursor (findMatch_len_lt _ _ _ hp)

/-- Both encoders stop at the same token, with the same error or none (45_lzss.md R151). -/
theorem SameTokens.lzLoop (h : SameTokens s u) (k : Nat) :
    ∃ t v o, lzLoop k s = (t, o) ∧ lzLoop k u = (v, o) ∧ SameTokens t v := by
  induction k generalizing s u with
  | zero => exact ⟨s, u, none, rfl, rfl, h⟩
  | succ k ih =>
    rw [Machine.lzLoop, Machine.lzLoop, ← h.lzPos, ← h.inLen, ← h.tokLen]
    split
    · rename_i hp
      split
      · exact ⟨s, u, _, rfl, rfl, h⟩
      · exact ih (h.lzStep hp)
    · exact ⟨s, u, none, rfl, rfl, h⟩

/-- LZ_ENCODE depends on the input, CFG_W and CFG_B alone (40_control.md R106). -/
theorem runLzEncode_agree (hs : Memory.wf s.mem) (hu : Memory.wf u.mem) (hlen : s.csr.inLen = u.csr.inLen)
    (hin : ∀ i, i < s.csr.inLen.toNat → s.inSym i = u.inSym i) (hw : s.csr.cfgW = u.csr.cfgW)
    (hb : s.csr.cfgB = u.csr.cfgB) : ExecAgree TokenOutputs (runLzEncode s) (runLzEncode u) := by
  unfold runLzEncode
  refine execAgree_check (by rw [hw, hb]) fun _ => execAgree_check (by rw [hlen]) fun hroom => ?_
  have hstart : SameCursor ((s.setTokLen 0).setLzPos 0) ((u.setTokLen 0).setLzPos 0) :=
    ⟨hs, hu, hlen, hw, hb, rfl, rfl, Nat.le_of_not_lt hroom, hin, fun i hi => absurd hi (Nat.not_lt_zero i)⟩
  obtain ⟨t, v, o, hloops, hloopu, ht⟩ := (hstart.loadWindows (Nat.zero_le _)).lzLoop s.csr.inLen.toNat
  rw [← hlen, hloops, hloopu]
  cases o with
  | none => exact ⟨by simp only [ht.tokLen], fun _ _ => ht.outputs⟩
  | some e => exact ⟨rfl, nofun⟩

end

/-! ### LZ_DECODE -/

/-- The states agree on the first `n` tokens, on CFG_W and on the first `k` cells of OUT. -/
structure SameOut (n k : Nat) (s u : State) : Prop where
  wfLeft : Memory.wf s.mem
  wfRight : Memory.wf u.mem
  cfgW : s.csr.cfgW = u.csr.cfgW
  tok : ∀ i, i < n → s.tok i = u.tok i
  out : ∀ i, i < k → s.outSym i = u.outSym i

/-- They agree on the output so far, and on HWIN. -/
structure SameReplay (n : Nat) (s u : State) : Prop extends SameOut n s.csr.outLen.toNat s u where
  outLen : s.csr.outLen = u.csr.outLen
  hwin : s.hwin = u.hwin

/-- What LZ_DECODE writes (45_lzss.md R153). -/
def ReplayOutputs (t v : State) : Prop :=
  t.csr.outLen = v.csr.outLen ∧ t.outSlice 0 t.csr.outLen.toNat = v.outSlice 0 v.csr.outLen.toNat ∧ t.hwin = v.hwin

section
variable {n k : Nat} {s u : State}

theorem SameReplay.outputs (h : SameReplay n s u) : ReplayOutputs s u :=
  ⟨h.outLen, by rw [← h.outLen]; exact outSlice_congr h.out, h.hwin⟩

/-- The copy does not reach TOKBUF (20_memory.md R63). -/
theorem tok_copySymbols (s : State) {m d l : Nat} (hroom : m + l ≤ 4096) (i : Nat) :
    (copySymbols m d (List.range l) s).tok i = s.tok i :=
  Memory.readWord_congr fun k _ =>
    (copySymbols_frame m d l s).2 _ fun j hj => by simp only [tokAddr, tokBase, outAddr, outBase]; omega

/-- The copy reads the output so far alone: each new symbol is the one `d` places before it (45_lzss.md R148). -/
theorem outSym_copySymbols_congr (hs : Memory.wf s.mem) (hu : Memory.wf u.mem) {m d : Nat} (hd : 1 ≤ d) (hm : d ≤ m)
    (hout : ∀ i, i < m → s.outSym i = u.outSym i) (l : Nat) : ∀ i, i < m + l →
    (copySymbols m d (List.range l) s).outSym i = (copySymbols m d (List.range l) u).outSym i := by
  obtain ⟨holds, hnews⟩ := outSym_copySymbols hs l hd hm
  obtain ⟨holdu, hnewu⟩ := outSym_copySymbols hu l hd hm
  intro i
  induction i using Nat.strong_induction_on with
  | _ i ih =>
    intro hi
    by_cases hold : i < m
    · rw [holds i hold, holdu i hold, hout i hold]
    · obtain ⟨j, rfl⟩ := Nat.exists_eq_add_of_le (Nat.le_of_not_lt hold)
      rw [hnews j (by omega), hnewu j (by omega), ih (m + j - d) (by omega) (by omega)]

/-- A copy that reaches back into the output lengthens both alike; one of distance 0 copies nothing. -/
theorem SameOut.copySymbols (h : SameOut n k s u) {d l : Nat} (hzero : d = 0 → l = 0) (hback : d ≤ k)
    (hroom : k + l ≤ 4096) :
    SameOut n (k + l) (copySymbols k d (List.range l) s) (copySymbols k d (List.range l) u) := by
  have hcsr : ∀ x, (Machine.copySymbols k d (List.range l) x).csr = x.csr := fun x =>
    congrArg (·.csr) (copySymbols_frame k d l x).1
  refine ⟨copySymbols_wf h.wfLeft k d l, copySymbols_wf h.wfRight k d l, by rw [hcsr, hcsr, h.cfgW], fun i hi => ?_, ?_⟩
  · rw [tok_copySymbols s hroom, tok_copySymbols u hroom, h.tok i hi]
  · rcases Nat.eq_zero_or_pos d with hd | hd
    · rw [hzero hd]
      exact h.out
    · exact outSym_copySymbols_congr h.wfLeft h.wfRight hd hback h.out l

/-- One symbol more. -/
theorem SameOut.setOut (h : SameOut n k s u) (hroom : k < 4096) (b : Byte) :
    SameOut n (k + 1) (s.setOut k b) (u.setOut k b) := by
  refine ⟨State.setOut_wf h.wfLeft k b, State.setOut_wf h.wfRight k b, h.cfgW, fun i hi => ?_, fun i hi => ?_⟩
  · rw [State.tok_setOut s hroom, State.tok_setOut u hroom, h.tok i hi]
  · rw [State.outSym_setOut h.wfLeft, State.outSym_setOut h.wfRight]
    split
    · rfl
    · exact h.out i (by omega)

/-- `s` with OUT_LEN at `k` and HWIN rebuilt from the output, with capacity `w` (45_lzss.md R148). -/
def withOutput (w k : Nat) (s : State) : State :=
  { s.setOutLen k with hwin := ((Window.construct w).pushMany (s.outSlice (k - w) k)).1 }

theorem SameOut.withOutput (h : SameOut n k s u) (w : Nat) : SameReplay n (withOutput w k s) (withOutput w k u) := by
  have hlen : (BitVec.ofNat 16 k).toNat ≤ k := (BitVec.toNat_ofNat k 16).trans_le (Nat.mod_le _ _)
  refine ⟨⟨h.wfLeft, h.wfRight, h.cfgW, h.tok, fun i hi => h.out i (Nat.lt_of_lt_of_le hi hlen)⟩, rfl, ?_⟩
  simp only [Machine.withOutput, outSlice_congr h.out]

/-- The replay of a token copies, appends its next symbol, and rebuilds HWIN (45_lzss.md R148). -/
theorem replayToken_eq (wd : Word) (s : State) : replayToken wd s =
    withOutput s.csr.cfgW.toNat (s.csr.outLen.toNat + tokLength wd + 1)
      ((copySymbols s.csr.outLen.toNat (tokDist wd) (List.range (tokLength wd)) s).setOut
        (s.csr.outLen.toNat + tokLength wd) (tokNext wd)) := rfl

/-- Both decoders replay a token alike, or find the same fault in it (45_lzss.md R148). -/
theorem SameReplay.decodeToken (h : SameReplay n s u) (wd : Word) (pos : Nat) :
    ResultsAgree (SameReplay n) (decodeToken wd pos s) (decodeToken wd pos u) := by
  have hsame : Machine.decodeToken wd pos u = (Machine.decodeToken wd pos s).map fun _ => replayToken wd u := by
    unfold Machine.decodeToken
    rw [← h.cfgW, ← h.outLen]
    split_ifs <;> rfl
  rw [hsame]
  rcases decodeToken_cases wd pos s with ⟨e, -⟩ | ⟨e, -⟩ | ⟨e, -, hzero, -, hback, hroom⟩ <;> rw [e]
  · rfl
  · rfl
  · have hcopy := h.toSameOut.copySymbols hzero hback (by omega)
    have hnext := hcopy.setOut (by omega) (tokNext wd)
    change SameReplay n (replayToken wd s) (replayToken wd u)
    rw [replayToken_eq, replayToken_eq, ← h.outLen, ← h.cfgW]
    exact hnext.withOutput _

/-- LZ_DECODE depends on the tokens and on CFG_W alone (40_control.md R106). -/
theorem runLzDecode_agree (hs : Memory.wf s.mem) (hu : Memory.wf u.mem) (hlen : s.csr.tokLen = u.csr.tokLen)
    (hw : s.csr.cfgW = u.csr.cfgW) (htok : ∀ i, i < s.csr.tokLen.toNat → s.tok i = u.tok i) :
    ExecAgree ReplayOutputs (runLzDecode s) (runLzDecode u) := by
  unfold runLzDecode
  refine execAgree_check (by rw [hw]) fun _ => execAgree_check (by rw [hlen]) fun _ => ?_
  have hstart : SameReplay s.csr.tokLen.toNat ((s.setOutLen 0).setWin .hwin (Window.construct s.csr.cfgW.toNat))
      ((u.setOutLen 0).setWin .hwin (Window.construct s.csr.cfgW.toNat)) :=
    ⟨⟨hs, hu, hw, htok, fun i hi => absurd hi (Nat.not_lt_zero i)⟩, rfl, rfl⟩
  obtain ⟨t, v, o, hloops, hloopu, ht⟩ := forElems_agree (f := fun i t => decodeToken (t.tok i) i t)
    (is := List.range s.csr.tokLen.toNat)
    (fun i hi _ _ ht => by rw [← ht.tok i (List.mem_range.1 hi)]; exact ht.decodeToken _ i) hstart
  rw [← hlen, ← hw, hloops, hloopu]
  cases o with
  | none => exact ⟨by simp only [ht.outLen], fun _ _ => ht.outputs⟩
  | some e => exact ⟨rfl, nofun⟩

end

/-- Settles O60: from states that agree on the declared inputs the two runs of either command agree token by token. -/
theorem lzssCommandsDependOnDeclaredInputs : Obligations.LzssCommandsDependOnDeclaredInputs := by
  unfold Obligations.LzssCommandsDependOnDeclaredInputs
  refine ⟨fun s u hs hu hlen hin hw hb => ?_, fun s u hs hu hlen hw htok => ?_⟩
  · exact exec_agree (i := .lzEncode) (R := TokenOutputs) (fun _ _ _ _ h => h)
      (runLzEncode_agree hs hu hlen (inSym_eq_of_input hlen hin) hw hb)
  · rw [← hlen] at htok
    exact exec_agree (i := .lzDecode) (R := ReplayOutputs) (fun _ _ _ _ h => h)
      (runLzDecode_agree hs hu hlen hw fun i hi => List.map_inj_left.1 htok i (List.mem_range.2 hi))

end Sys2Proof.Machine
end

section
/-! PROOFS. Frequency analysis: FRQ_CLEAR, FRQ_COUNT and FRQ_INC write FREQ and invalidate the tree, and counting is a fold
of `FREQ[sym] <- FREQ[sym] + 1` over the symbols of IN (41_frequency.md). -/

namespace Sys2Proof.Machine

/-! ### What the commands write -/

/-- `t` is `s` with another memory, and no byte outside [lo, hi) differs. -/
structure WritesWithin (lo hi : Nat) (s t : State) : Prop where
  frame : t.withMem s.mem = s
  mem : sameOutside lo hi s t

/-- What a frequency command that succeeded leaves beside the counters and the record: the tree is invalid, and nothing
changed outside [lo, hi) and the tree registers (10_state.md R59). -/
def InvalidatedAround (lo hi : Nat) (s t : State) : Prop :=
  treeCleared t ∧ t.node = s.node ∧ t.lut = s.lut ∧ t = { withTree (recorded s t) t with mem := t.mem } ∧
    sameOutside lo hi s t

section
variable {lo hi : Nat} {s t u : State}

theorem WritesWithin.trans (h : WritesWithin lo hi s t) (h' : WritesWithin lo hi t u) : WritesWithin lo hi s u where
  frame := by
    have hview := congrArg (fun x => x.withMem s.mem) h'.frame
    exact hview.trans h.frame
  mem a ha := (h'.mem a ha).trans (h.mem a ha)

theorem writesWithin_clearFreq (s : State) : WritesWithin 0x01000 0x01400 s s.clearFreq := ⟨rfl, fun _ => s.get_clearFreq⟩

/-- One counter is one host word (20_memory.md R66). -/
theorem writesWithin_bumpFreq (s : State) (v : Nat) :
    WritesWithin (0x01000 + 4 * v) (0x01000 + 4 * v + 4) s (s.bumpFreq v) :=
  ⟨rfl, fun _ ha => Memory.get_writeWord_of_ne ha _⟩

theorem WritesWithin.mono {lo' hi' : Nat} (h : WritesWithin lo hi s t) (hlo : lo' ≤ lo) (hhi : hi ≤ hi') :
    WritesWithin lo' hi' s t :=
  ⟨h.frame, fun a ha => h.mem a (by omega)⟩

/-- The writes, then `InvalidateTree`, then the record of a success (41_frequency.md R113 to R115). -/
theorem WritesWithin.completed (h : WritesWithin lo hi s u) {v : Nat} (hv : v < 2 ^ 32) :
    succeeded s (complete ⟨u.invalidateTree, .ok v⟩) v ∧
      InvalidatedAround lo hi s (complete ⟨u.invalidateTree, .ok v⟩) := by
  have hsticky : u.csr.stickyErr = s.csr.stickyErr := congrArg (·.csr.stickyErr) h.frame
  have hrecord := succeeded_complete (s := s) (t := u.invalidateTree) hsticky hv []
  rw [emit_nil] at hrecord
  generalize ht : complete ⟨u.invalidateTree, .ok v⟩ = t at hrecord
  have hview := congrArg (fun x => { withTree (recorded x t) t with mem := t.mem }) h.frame
  subst ht
  exact ⟨hrecord, ⟨rfl, rfl, rfl, rfl, rfl, rfl⟩, congrArg (·.node) h.frame, congrArg (·.lut) h.frame, hview, h.mem⟩

/-- A command whose `Exec` raises in a pre-check fails and changes its record alone (40_control.md R105). -/
theorem failsAlone_of_raise {i : Instr} {code : ErrCode} {pos : Nat} (h : exec i s = .next (complete (raise code pos s)))
    (hpos : pos < 2 ^ 21) : failsAlone i s code.num.toNat pos := by
  have hrecord := failed_complete (t := s) (e := ⟨code, pos⟩) hpos []
  rw [emit_nil] at hrecord
  exact ⟨_, h, hrecord, rfl⟩

end

/-! ### Counting -/

section
variable {s : State}

theorem State.freq_bumpFreq (h : Memory.wf s.mem) (x v : Nat) :
    (s.bumpFreq x).freq v = if x = v then s.freq v + 1 else s.freq v := by
  rw [State.bumpFreq, State.freq_setFreq h]
  split
  · subst x
    rw [BitVec.ofNat_add, BitVec.ofNat_toNat, BitVec.setWidth_eq]
    rfl
  · rfl

theorem State.bumpFreq_wf (h : Memory.wf s.mem) (x : Nat) : Memory.wf (s.bumpFreq x).mem := State.setFreq_wf h _ _

/-- Below its maximum a counter does not wrap (41_frequency.md R115). -/
theorem State.toNat_freq_bumpFreq (h : Memory.wf s.mem) {v : Nat} (hmax : (s.freq v).toNat ≠ 2 ^ 32 - 1) :
    ((s.bumpFreq v).freq v).toNat = (s.freq v).toNat + 1 := by
  rw [State.freq_bumpFreq h, if_pos rfl, BitVec.toNat_add]
  have hlt := (s.freq v).isLt
  exact Nat.mod_eq_of_lt (by change _ + 1 < _; omega)

/-- Counting a list of symbols adds to each counter the number of its occurrences. -/
theorem State.freq_foldl_bumpFreq (h : Memory.wf s.mem) (xs : List Nat) (v : Nat) :
    (xs.foldl State.bumpFreq s).freq v = s.freq v + BitVec.ofNat 32 (xs.count v) := by
  induction xs generalizing s with
  | nil => exact (BitVec.add_zero _).symm
  | cons x xs ih =>
    rw [List.foldl_cons, ih (State.bumpFreq_wf h x), State.freq_bumpFreq h, List.count_cons, BitVec.ofNat_add]
    by_cases hx : x = v
    · simp [hx, BitVec.add_assoc, BitVec.add_comm]
    · simp [hx]

theorem writesWithin_foldl_bumpFreq (s : State) {xs : List Nat} (hxs : ∀ x ∈ xs, x < 256) :
    WritesWithin 0x01000 0x01400 s (xs.foldl State.bumpFreq s) :=
  List.foldlRecOn xs _ ⟨rfl, fun _ _ => rfl⟩ fun t ht x hx =>
    ht.trans ((writesWithin_bumpFreq t x).mono (by omega) (by have := hxs x hx; omega))

/-- The counting loop reads IN as it stands before the loop (41_frequency.md R112). -/
theorem foldl_bumpFreq_inSym {t : State} (hin : ∀ i, t.inSym i = s.inSym i) (is : List Nat) :
    is.foldl (fun t i => t.bumpFreq (t.inSym i).toNat) t =
      ((is.map s.inSym).map BitVec.toNat).foldl State.bumpFreq t := by
  induction is generalizing t with
  | nil => rfl
  | cons i is ih =>
    simp only [List.map_cons, List.foldl_cons, hin i]
    exact ih fun j => (State.inSym_setFreq t (s.inSym i).isLt j _).trans (hin j)

end

/-! ### The histogram of IN -/

/-- The symbols of IN[0..IN_LEN), as indices of counters. -/
def inputSyms (s : State) : List Nat := (input s).map BitVec.toNat

/-- FREQ cleared and the symbols of IN counted. -/
def countedInput (s : State) : State := (inputSyms s).foldl State.bumpFreq s.clearFreq

section
variable {s : State}

theorem inputSyms_length (s : State) : (inputSyms s).length = s.csr.inLen.toNat := by
  rw [inputSyms, List.length_map, input, State.inSlice_length, Nat.sub_zero]

theorem inputSyms_lt {x : Nat} (hx : x ∈ inputSyms s) : x < 256 := by
  obtain ⟨b, -, rfl⟩ := List.mem_map.1 hx
  exact b.isLt

theorem toNat_byte_injective : Function.Injective (BitVec.toNat : Byte → Nat) := fun _ _ => BitVec.eq_of_toNat_eq

theorem count_inputSyms (s : State) {v : Nat} (hv : v < 256) :
    (inputSyms s).count v = (input s).count (BitVec.ofNat 8 v) := by
  have hcount := List.count_map_of_injective (input s) BitVec.toNat toNat_byte_injective (BitVec.ofNat 8 v)
  rwa [BitVec.toNat_ofNat, Nat.mod_eq_of_lt hv] at hcount

theorem histogram_inLen (s : State) : histogram s.csr.inLen.toNat s = (countedInput s).invalidateTree := by
  have hin : ∀ i, s.clearFreq.inSym i = s.inSym i := fun i =>
    (State.cells_of_get (fun _ ha => s.get_clearFreq (.inr ha)) i).1
  rw [histogram, foldl_bumpFreq_inSym hin, countedInput, inputSyms, input, State.inSlice, slice, Nat.sub_zero,
    List.range_eq_range']

theorem writesWithin_countedInput (s : State) : WritesWithin 0x01000 0x01400 s (countedInput s) :=
  (writesWithin_clearFreq s).trans (writesWithin_foldl_bumpFreq _ fun _ => inputSyms_lt)

/-- Each counter holds the number of occurrences of its symbol, which no input that fits IN makes wrap. -/
theorem toNat_freq_countedInput (h : Memory.wf s.mem) (hlen : s.csr.inLen.toNat ≤ 4096) {v : Nat} (hv : v < 256) :
    ((countedInput s).freq v).toNat = (inputSyms s).count v := by
  have hcount : (inputSyms s).count v ≤ (inputSyms s).length := List.count_le_length
  rw [inputSyms_length] at hcount
  rw [countedInput, State.freq_foldl_bumpFreq (State.clearFreq_wf h), State.freq_clearFreq s hv, zero_add,
    BitVec.toNat_ofNat]
  exact Nat.mod_eq_of_lt (by omega)

/-- The present symbols of the histogram are the symbols that occur in IN. -/
theorem mem_presentSyms_countedInput (h : Memory.wf s.mem) (hlen : s.csr.inLen.toNat ≤ 4096) {v : Nat} :
    v ∈ presentSyms (countedInput s).freq ↔ v ∈ inputSyms s := by
  have hiff : v < 256 → ((countedInput s).freq v ≠ 0 ↔ v ∈ inputSyms s) := fun hv => by
    rw [← List.count_pos_iff, ← toNat_freq_countedInput h hlen hv, Nat.pos_iff_ne_zero]
    exact not_congr BitVec.toNat_inj.symm
  rw [mem_presentSyms]
  exact ⟨fun ⟨hv, hne⟩ => (hiff hv).1 hne, fun hv => ⟨inputSyms_lt hv, (hiff (inputSyms_lt hv)).2 hv⟩⟩

theorem length_presentSyms_countedInput (h : Memory.wf s.mem) (hlen : s.csr.inLen.toNat ≤ 4096) :
    (presentSyms (countedInput s).freq).length = (input s).toFinset.card := by
  have hset : (presentSyms (countedInput s).freq).toFinset = (input s).toFinset.image BitVec.toNat := by
    ext v
    rw [List.mem_toFinset, mem_presentSyms_countedInput h hlen]
    simp [inputSyms]
  rw [← List.toFinset_card_of_nodup ((presentSyms_sorted _).imp Nat.ne_of_lt), hset,
    Finset.card_image_of_injective _ toNat_byte_injective]

/-- Every element of a list below `n` is counted once. -/
theorem sum_count_range {n : Nat} {xs : List Nat} (h : ∀ x ∈ xs, x < n) :
    ((List.range n).map fun v => xs.count v).sum = xs.length := by
  have hsum := Multiset.sum_count_eq_card (s := Finset.range n) (m := (xs : Multiset Nat)) fun x hx =>
    Finset.mem_range.2 (h x hx)
  simpa only [Finset.sum_eq_multiset_sum, Finset.range_val, Multiset.range, Multiset.map_coe, Multiset.sum_coe,
    Multiset.coe_count, Multiset.coe_card] using hsum

/-! ### The commands -/

theorem exec_frqCount (s : State) : exec .frqCount s = .next (complete (runFrqCount s)) := rfl

theorem exec_frqInc (sym : Byte) (s : State) : exec (.frqInc sym) s = .next (complete (runFrqInc sym s)) := rfl

theorem runFrqCount_of_le (hlen : s.csr.inLen.toNat ≤ 4096) : runFrqCount s =
    ⟨(countedInput s).invalidateTree, .ok (presentSyms (countedInput s).freq).length⟩ := by
  rw [runFrqCount, if_neg (Nat.not_lt.2 hlen), histogram_inLen]
  rfl

theorem runFrqCount_of_gt (hlen : 4096 < s.csr.inLen.toNat) : runFrqCount s = raise .capacityExceeded 0 s := if_pos hlen

theorem runFrqInc_of_ne {sym : Byte} (hmax : (s.freq sym.toNat).toNat ≠ 2 ^ 32 - 1) : runFrqInc sym s =
    ⟨(s.bumpFreq sym.toNat).invalidateTree, .ok ((s.bumpFreq sym.toNat).freq sym.toNat).toNat⟩ :=
  if_neg fun h => hmax (congrArg BitVec.toNat h)

theorem runFrqInc_of_eq {sym : Byte} (hmax : (s.freq sym.toNat).toNat = 2 ^ 32 - 1) :
    runFrqInc sym s = raise .capacityExceeded 0 s := if_pos (BitVec.eq_of_toNat_eq hmax)

theorem runCommands_cons {i : Instr} {is : List Instr} {t : State} (h : exec i s = .next t) :
    runCommands (i :: is) s = runCommands is t := by
  rw [runCommands, h]

/-- FRQ_INC of each symbol of a list leaves the memory that the counting loop leaves, where no counter can reach its
maximum on the way. -/
theorem runCommands_frqInc {t : State} (h : Memory.wf t.mem) (hmem : s.mem = t.mem) {syms : List Byte}
    (hroom : ∀ v, v < 256 → (t.freq v).toNat + syms.length < 2 ^ 32) :
    ∃ u, runCommands (syms.map .frqInc) s = .next u ∧ u.mem = ((syms.map BitVec.toNat).foldl State.bumpFreq t).mem := by
  induction syms generalizing s t with
  | nil => exact ⟨s, rfl, hmem⟩
  | cons sym syms ih =>
    have hfreq : s.freq = t.freq := by unfold State.freq; rw [hmem]
    have hbump : (s.bumpFreq sym.toNat).mem = (t.bumpFreq sym.toNat).mem := by
      rw [State.bumpFreq, State.bumpFreq, State.setFreq_mem, State.setFreq_mem, hfreq, hmem]
    have hne : (s.freq sym.toNat).toNat ≠ 2 ^ 32 - 1 := by
      have hsym := hroom _ sym.isLt
      rw [List.length_cons] at hsym
      rw [hfreq]
      omega
    have hrest : ∀ v, v < 256 → ((t.bumpFreq sym.toNat).freq v).toNat + syms.length < 2 ^ 32 := fun v hv => by
      have hv' := hroom v hv
      rw [List.length_cons] at hv'
      by_cases hsym : sym.toNat = v
      · rw [← hsym, State.toNat_freq_bumpFreq h (hfreq ▸ hne), hsym]
        omega
      · rw [State.freq_bumpFreq h, if_neg hsym]
        omega
    rw [List.map_cons, runCommands_cons (exec_frqInc sym s), runFrqInc_of_ne hne]
    exact ih (State.bumpFreq_wf h _) hbump hrest

end

/-! ### The statements -/

/-- Settles O24: every counter cleared, then `InvalidateTree`. -/
theorem frqClearEmptiesTheTable : Obligations.FrqClearEmptiesTheTable := by
  unfold Obligations.FrqClearEmptiesTheTable
  intro s
  obtain ⟨hrecord, hframe⟩ := (writesWithin_clearFreq s).completed (v := 0) (by decide)
  exact ⟨_, rfl, hrecord, fun _ => s.freq_clearFreq, hframe⟩

/-- Settles O25: the counters are those of `countedInput`, and the present symbols are those that occur in IN. -/
theorem frqCountCountsTheInput : Obligations.FrqCountCountsTheInput := by
  unfold Obligations.FrqCountCountsTheInput
  refine fun s h => ⟨fun hlen => ?_, fun hlen => ?_⟩
  · have hk : (presentSyms (countedInput s).freq).length < 2 ^ 32 :=
      (presentSyms_length_le _).trans_lt (by decide)
    obtain ⟨hrecord, hframe⟩ := (writesWithin_countedInput s).completed hk
    rw [exec_frqCount, runFrqCount_of_le hlen]
    refine ⟨_, rfl, length_presentSyms_countedInput h hlen ▸ hrecord, fun v hv => ?_, hframe⟩
    rw [← count_inputSyms s hv]
    exact toNat_freq_countedInput h hlen hv
  · exact failsAlone_of_raise (by rw [exec_frqCount, runFrqCount_of_gt hlen]) (by decide)

/-- Settles O26: one counter bumped below its maximum, and the pre-check raises at the maximum. -/
theorem frqIncCountsOneSymbol : Obligations.FrqIncCountsOneSymbol := by
  unfold Obligations.FrqIncCountsOneSymbol
  refine fun s sym h => ⟨fun hne => ?_, fun hmax => ?_⟩
  · have hcount := State.toNat_freq_bumpFreq h hne
    obtain ⟨hrecord, hframe⟩ :=
      (writesWithin_bumpFreq s sym.toNat).completed ((s.bumpFreq sym.toNat).freq sym.toNat).isLt
    rw [exec_frqInc, runFrqInc_of_ne hne]
    exact ⟨_, rfl, hcount ▸ hrecord, hcount, hframe⟩
  · exact failsAlone_of_raise (by rw [exec_frqInc, runFrqInc_of_eq hmax]) (by decide)

/-- Settles O27: both ways leave the memory of `countedInput`, whose counters count every symbol of IN once. -/
theorem stepwiseCountingEqualsFrqCount : Obligations.StepwiseCountingEqualsFrqCount := by
  unfold Obligations.StepwiseCountingEqualsFrqCount
  intro s h hlen
  have hroom : ∀ v, v < 256 → (s.clearFreq.freq v).toNat + (input s).length < 2 ^ 32 := fun v hv => by
    rw [State.freq_clearFreq s hv, input, State.inSlice_length]
    change 0 + _ < _
    omega
  obtain ⟨u, hrun, hmem⟩ := runCommands_frqInc (s := complete (runFrqClear s)) (State.clearFreq_wf h) rfl hroom
  rw [exec_frqCount, runFrqCount_of_le hlen]
  refine ⟨_, u, rfl, hrun, fun v _ => congrArg (Memory.readWord · (freqAddr v)) hmem, ?_⟩
  have hcounts : ((List.range 256).map fun v => ((countedInput s).freq v).toNat) =
      (List.range 256).map fun v => (inputSyms s).count v :=
    List.map_congr_left fun v hv => toNat_freq_countedInput h hlen (List.mem_range.1 hv)
  calc ((List.range 256).map fun v => ((countedInput s).freq v).toNat).sum
      = (inputSyms s).length := by rw [hcounts, sum_count_range fun _ => inputSyms_lt]
    _ = s.csr.inLen.toNat := inputSyms_length s

end Sys2Proof.Machine
end

section
/-! PROOFS. Every merge of `BuildTree` takes the two nodes of least key among those without a parent, and weighs their sum:
the heap holds exactly the nodes that no record names as a child (42_huffman_tree.md R116 to R123). -/

namespace Sys2Proof.Machine

/-! ### The order of the keys -/

/-- Two keys with different symbols are ordered one way or the other (42_huffman_tree.md R118). -/
theorem keyLt_of_not_keyLt {a b : Node} (h : keyLt b a = false) (hne : a.minsym ≠ b.minsym) : keyLt a b = true := by
  rw [Bool.eq_false_iff, ne_eq, keyLt_iff] at h
  rw [ne_eq, ← BitVec.toNat_inj] at hne
  rw [keyLt_iff]
  omega

theorem minSym_toNat (a b : Byte) : (minSym a b).toNat = min a.toNat b.toNat := by
  unfold minSym
  split <;> omega

theorem minSym_eq_or (a b : Byte) : minSym a b = a ∨ minSym a b = b := by
  unfold minSym
  split
  · exact .inl rfl
  · exact .inr rfl

/-! ### Records and parents -/

/-- The node `i` is older than `j`, and no record of [k, j) has it as a child. -/
def Parentless (k : Nat) (ar : List Node) (j i : Nat) : Prop :=
  i < j ∧ ∀ q, k ≤ q → q < j → (arenaAt ar q).left.toNat ≠ i ∧ (arenaAt ar q).right.toNat ≠ i

/-- The record at `j` is the merge of `a` and `b`, the two nodes of least key that had no parent before it, `a` the least,
with the exact sum of their weights (42_huffman_tree.md R121, R122). -/
structure MergedFrom (k : Nat) (ar : List Node) (j a b : Nat) : Prop where
  record : arenaAt ar j = mergeNode ar a b
  left : (arenaAt ar j).left.toNat = a
  right : (arenaAt ar j).right.toNat = b
  leftParentless : Parentless k ar j a
  rightParentless : Parentless k ar j b
  weight : (arenaAt ar a).weight.toNat + (arenaAt ar b).weight.toNat < 2 ^ 40
  ordered : keyLt (arenaAt ar a) (arenaAt ar b) = true
  least : ∀ i, Parentless k ar j i → i ≠ a → i ≠ b → keyLt (arenaAt ar b) (arenaAt ar i) = true

section
variable {k j i a b : Nat} {ar : List Node}

theorem mergeNode_append (ha : a < ar.length) (hb : b < ar.length) (x : List Node) :
    mergeNode (ar ++ x) a b = mergeNode ar a b := by
  simp only [mergeNode, arenaAt_append_left ha, arenaAt_append_left hb]

/-- Which of the nodes older than `j` have no parent does not depend on later records. -/
theorem parentless_append (hj : j ≤ ar.length) (x : List Node) : Parentless k (ar ++ x) j i ↔ Parentless k ar j i := by
  unfold Parentless
  refine and_congr_right fun _ => forall_congr' fun q => imp_congr_right fun _ => forall_congr' fun hq => ?_
  rw [arenaAt_append_left (by omega)]

theorem MergedFrom.append (h : MergedFrom k ar j a b) (hj : j < ar.length) (x : List Node) :
    MergedFrom k (ar ++ x) j a b := by
  have hold : ∀ {i}, i < j → arenaAt (ar ++ x) i = arenaAt ar i := fun hi => arenaAt_append_left (by omega) x
  have ha := h.leftParentless.1
  have hb := h.rightParentless.1
  constructor
  case record => rw [arenaAt_append_left hj, mergeNode_append (by omega) (by omega), h.record]
  case left => rw [arenaAt_append_left hj, h.left]
  case right => rw [arenaAt_append_left hj, h.right]
  case leftParentless => exact (parentless_append (by omega) x).2 h.leftParentless
  case rightParentless => exact (parentless_append (by omega) x).2 h.rightParentless
  case weight => rw [hold ha, hold hb]; exact h.weight
  case ordered => rw [hold ha, hold hb]; exact h.ordered
  case least =>
    intro i hi hia hib
    have hi := (parentless_append (by omega) x).1 hi
    rw [hold hb, hold hi.1]
    exact h.least i hi hia hib

/-- The two children of a record are different nodes. -/
theorem MergedFrom.ne (h : MergedFrom k ar j a b) : a ≠ b := by
  rintro rfl
  have := keyLt_iff.1 h.ordered
  omega

/-- A child of a record had no parent before it (42_huffman_tree.md R116). -/
theorem MergedFrom.parentless_of_child (h : MergedFrom k ar j a b)
    (hi : (arenaAt ar j).left.toNat = i ∨ (arenaAt ar j).right.toNat = i) : Parentless k ar j i := by
  rw [h.left, h.right] at hi
  rcases hi with rfl | rfl
  · exact h.leftParentless
  · exact h.rightParentless

/-- One more record takes its children from the nodes without a parent. -/
theorem parentless_succ_of_lt (hk : k ≤ j) (hi : i < j) : Parentless k ar (j + 1) i ↔
    Parentless k ar j i ∧ (arenaAt ar j).left.toNat ≠ i ∧ (arenaAt ar j).right.toNat ≠ i := by
  constructor
  · rintro ⟨-, hq⟩
    exact ⟨⟨hi, fun q hkq hlt => hq q hkq (by omega)⟩, hq j hk (by omega)⟩
  · rintro ⟨⟨-, hq⟩, hj⟩
    refine ⟨by omega, fun q hkq hlt => ?_⟩
    rcases Nat.lt_succ_iff_lt_or_eq.1 hlt with hlt | rfl
    · exact hq q hkq hlt
    · exact hj

/-- The newest node has no parent, because the children of a record are older than it. -/
theorem parentless_newest (h : ∀ q, k ≤ q → q < j + 1 → ∃ a b, MergedFrom k ar q a b) : Parentless k ar (j + 1) j := by
  refine ⟨Nat.lt_succ_self j, fun q hkq hlt => ?_⟩
  obtain ⟨a, b, hab⟩ := h q hkq hlt
  have ha := hab.leftParentless.1
  have hb := hab.rightParentless.1
  rw [hab.left, hab.right]
  omega

end

/-! ### What the merge loop keeps -/

/-- The heap `h` holds exactly the nodes of the arena without a parent, each with a symbol of its own, their weights together
fit the 40 bits of a weight, and every record at `k` or beyond is that of a merge. -/
structure MergeInv (k : Nat) (ar : List Node) (h : List Nat) : Prop where
  heap : ∀ i, i ∈ h ↔ Parentless k ar ar.length i
  minsyms : (h.map fun i => (arenaAt ar i).minsym).Nodup
  weights : (h.map fun i => (arenaAt ar i).weight.toNat).sum < 2 ^ 40
  leaves : k ≤ ar.length
  count : ar.length + h.length = 2 * k
  merges : ∀ j, k ≤ j → j < ar.length → ∃ a b, MergedFrom k ar j a b

section
variable {k : Nat} {ar : List Node} {h : List Nat}

/-- Two different nodes of the heap have different symbols. -/
theorem MergeInv.minsym_ne (hm : MergeInv k ar h) {i j : Nat} (hi : i ∈ h) (hj : j ∈ h) (hne : i ≠ j) :
    (arenaAt ar i).minsym ≠ (arenaAt ar j).minsym :=
  fun e => hne (List.inj_on_of_nodup_map hm.minsyms hi hj e)

/-- The two extracted nodes and the rest of the heap. -/
theorem perm_of_leastKey {a b : Nat} (ha : leastKey ar h = some a) (hb : leastKey ar (h.erase a) = some b) :
    h.Perm (a :: b :: (h.erase a).erase b) :=
  (List.perm_cons_erase (leastKey_mem ha)).trans ((List.perm_cons_erase (leastKey_mem hb)).cons a)

/-- The extracted nodes and their record (42_huffman_tree.md R121, R122). -/
theorem MergeInv.mergedFrom (hm : MergeInv k ar h) (hk : k ≤ 256) {a b : Nat} (ha : leastKey ar h = some a)
    (hb : leastKey ar (h.erase a) = some b) : MergedFrom k (ar ++ [mergeNode ar a b]) ar.length a b := by
  have hnodup : h.Nodup := hm.minsyms.of_map _
  have hah := leastKey_mem ha
  obtain ⟨hba, hbh⟩ := hnodup.mem_erase_iff.1 (leastKey_mem hb)
  have hpa := (hm.heap a).1 hah
  have hpb := (hm.heap b).1 hbh
  have hcount := hm.count
  have hpos := List.length_pos_of_mem hah
  have hsum : (arenaAt ar a).weight.toNat + (arenaAt ar b).weight.toNat < 2 ^ 40 := by
    have hw := hm.weights
    rw [((perm_of_leastKey ha hb).map fun i => (arenaAt ar i).weight.toNat).sum_eq, List.map_cons, List.map_cons,
      List.sum_cons, List.sum_cons] at hw
    omega
  constructor
  case record => rw [arenaAt_concat_length, mergeNode_append hpa.1 hpb.1]
  case left => rw [arenaAt_concat_length]; exact Nat.mod_eq_of_lt (by have := hpa.1; omega)
  case right => rw [arenaAt_concat_length]; exact Nat.mod_eq_of_lt (by have := hpb.1; omega)
  case leftParentless => exact (parentless_append le_rfl _).2 hpa
  case rightParentless => exact (parentless_append le_rfl _).2 hpb
  case weight => rwa [arenaAt_append_left hpa.1, arenaAt_append_left hpb.1]
  case ordered =>
    rw [arenaAt_append_left hpa.1, arenaAt_append_left hpb.1]
    exact keyLt_of_not_keyLt (leastKey_le ha hbh) (hm.minsym_ne hah hbh hba.symm)
  case least =>
    intro i hi hia hib
    have hi := (parentless_append le_rfl _).1 hi
    have hih := (hm.heap i).2 hi
    rw [arenaAt_append_left hi.1, arenaAt_append_left hpb.1]
    exact keyLt_of_not_keyLt (leastKey_le hb (hnodup.mem_erase_iff.2 ⟨hia, hih⟩)) (hm.minsym_ne hbh hih (Ne.symm hib))

/-- One more record of a merge makes an arena of such records again. -/
theorem MergeInv.merges_concat (hm : MergeInv k ar h) {n : Node} {a b : Nat}
    (hab : MergedFrom k (ar ++ [n]) ar.length a b) {j : Nat} (hj : k ≤ j) (hlt : j < ar.length + 1) :
    ∃ a' b', MergedFrom k (ar ++ [n]) j a' b' := by
  rcases Nat.lt_succ_iff_lt_or_eq.1 hlt with hlt | rfl
  · obtain ⟨a', b', h'⟩ := hm.merges j hj hlt
    exact ⟨a', b', h'.append hlt _⟩
  · exact ⟨a, b, hab⟩

/-- One merge takes two nodes from the heap, which get a parent, and adds the new one (42_huffman_tree.md R121, R122). -/
theorem MergeInv.merge (hm : MergeInv k ar h) (hk : k ≤ 256) {a b : Nat} (ha : leastKey ar h = some a)
    (hb : leastKey ar (h.erase a) = some b) :
    MergeInv k (ar ++ [mergeNode ar a b]) ((h.erase a).erase b ++ [ar.length]) := by
  have hab := hm.mergedFrom hk ha hb
  have hnodup : h.Nodup := hm.minsyms.of_map _
  have hperm := perm_of_leastKey ha hb
  have hrest : ∀ i, i ∈ (h.erase a).erase b ↔ i ≠ b ∧ i ≠ a ∧ Parentless k ar ar.length i := fun i => by
    rw [(hnodup.erase a).mem_erase_iff, hnodup.mem_erase_iff, hm.heap]
  have hlt : ∀ i ∈ (h.erase a).erase b, i < ar.length := fun i hi => by
    obtain ⟨-, -, hpar⟩ := (hrest i).1 hi
    exact hpar.1
  have hlen := hperm.length_eq
  have hminsyms := (hperm.map fun i => (arenaAt ar i).minsym).nodup_iff.1 hm.minsyms
  have hweights := hm.weights
  rw [(hperm.map fun i => (arenaAt ar i).weight.toNat).sum_eq] at hweights
  have hcount := hm.count
  have hleaves := hm.leaves
  generalize (h.erase a).erase b = rest at hrest hlt hlen hminsyms hweights
  have hold : ∀ {α : Type} (g : Node → α),
      rest.map (fun i => g (arenaAt (ar ++ [mergeNode ar a b]) i)) = rest.map fun i => g (arenaAt ar i) :=
    fun g => List.map_congr_left fun i hi => by rw [arenaAt_append_left (hlt i hi)]
  simp only [List.map_cons, List.nodup_cons, List.mem_cons, not_or, List.sum_cons, List.length_cons]
    at hminsyms hweights hlen
  obtain ⟨⟨-, harest⟩, hbrest, hrestNodup⟩ := hminsyms
  constructor
  case heap =>
    intro i
    rw [List.mem_append, List.mem_singleton, List.length_append, List.length_singleton]
    by_cases hi : i < ar.length
    · rw [hrest, parentless_succ_of_lt hleaves hi, parentless_append le_rfl, hab.left, hab.right]
      have hne := Nat.ne_of_lt hi
      tauto
    · refine ⟨fun h => ?_, fun h => .inr (by have := h.1; omega)⟩
      obtain rfl : i = ar.length := h.resolve_left fun h => hi (hlt i h)
      exact parentless_newest fun _ => hm.merges_concat hab
  case minsyms =>
    rw [List.map_append, hold Node.minsym, List.map_singleton, arenaAt_concat_length]
    refine List.nodup_append'.2 ⟨hrestNodup, List.nodup_singleton _, List.disjoint_singleton.2 ?_⟩
    rcases minSym_eq_or (arenaAt ar a).minsym (arenaAt ar b).minsym with e | e <;> simp only [mergeNode, e] <;> assumption
  case weights =>
    rw [List.map_append, hold fun n => n.weight.toNat, List.map_singleton, arenaAt_concat_length, List.sum_append,
      List.sum_singleton]
    simp only [mergeNode, BitVec.toNat_ofNat]
    omega
  case leaves => rw [List.length_append]; omega
  case count => simp only [List.length_append, List.length_singleton]; omega
  case merges =>
    intro j hj hlt
    rw [List.length_append, List.length_singleton] at hlt
    exact hm.merges_concat hab hj hlt

end

/-! ### The arena of a table of counters -/

section
variable {f : Nat → Word}

/-- The present symbols as bytes are different ones. -/
theorem nodup_presentSyms_map (f : Nat → Word) : ((presentSyms f).map (BitVec.ofNat 8)).Nodup := by
  by_cases hk : presentSyms f = []
  · rw [hk]; exact List.nodup_nil
  · obtain ⟨t, h⟩ := exists_isTreeOf hk
    exact h.perm.nodup_iff.1 h.nodup

/-- Reading a list by its indices in order gives the list. -/
theorem map_arenaAt_range {α : Type} (ar : List Node) (g : Node → α) :
    ((List.range ar.length).map fun i => g (arenaAt ar i)) = ar.map g := by
  refine List.ext_getElem (by simp) fun i h1 h2 => ?_
  rw [List.length_map] at h2
  simp [arenaAt, h2]

/-- The weights of 256 leaves fit 40 bits (42_huffman_tree.md R117). -/
theorem sum_leaf_weights_lt (f : Nat → Word) :
    (((presentSyms f).map (leafNode f)).map fun n => n.weight.toNat).sum < 2 ^ 40 := by
  have hle := presentSyms_length_le f
  have hbound := List.sum_le_card_nsmul (((presentSyms f).map (leafNode f)).map fun n => n.weight.toNat) (2 ^ 32 - 1) <| by
    simp only [List.map_map, List.mem_map, Function.comp_apply, leafNode, forall_exists_index, and_imp]
    rintro _ v - rfl
    have := (f v).isLt
    simp only [BitVec.toNat_setWidth]
    omega
  simp only [List.length_map, smul_eq_mul] at hbound ⊢
  omega

/-- Before the first merge every leaf is in the heap (42_huffman_tree.md R120). -/
theorem mergeInv_leaves (f : Nat → Word) : MergeInv (presentSyms f).length ((presentSyms f).map (leafNode f))
    (List.range ((presentSyms f).map (leafNode f)).length) where
  heap i := by
    rw [List.mem_range, Parentless, List.length_map]
    exact ⟨fun h => ⟨h, fun q hq hlt => by omega⟩, And.left⟩
  minsyms := by
    rw [map_arenaAt_range _ Node.minsym, List.map_map]
    exact nodup_presentSyms_map f
  weights := by
    rw [map_arenaAt_range _ fun n => n.weight.toNat]
    exact sum_leaf_weights_lt f
  leaves := by simp
  count := by simp; omega
  merges j hj hlt := by rw [List.length_map] at hlt; omega

/-- When `BuildTree` ends, one node is left in the heap (42_huffman_tree.md R122). -/
theorem exists_mergeInv_buildArena (hk : presentSyms f ≠ []) : ∃ i, MergeInv (presentSyms f).length (buildArena f) [i] := by
  have hpos := List.length_pos_iff.2 hk
  obtain ⟨h', hm, hl⟩ := mergeLoop_induct (n := ((presentSyms f).map (leafNode f)).length - 1) (by simp; omega)
    (mergeInv_leaves f) fun ar h a b hm ha hb => hm.merge (presentSyms_length_le f) ha hb
  obtain ⟨i, rfl⟩ : ∃ i, h' = [i] := List.length_eq_one_iff.1 (by rw [hl]; simp; omega)
  exact ⟨i, hm⟩

/-- Every node beyond the leaves is a merge (42_huffman_tree.md R121, R122). -/
theorem exists_mergedFrom {j : Nat} (hj : (presentSyms f).length ≤ j) (hlt : j < (buildArena f).length) :
    ∃ a b, MergedFrom (presentSyms f).length (buildArena f) j a b := by
  by_cases hk : presentSyms f = []
  · rw [buildArena_nil hk] at hlt; cases hlt
  · obtain ⟨i, hm⟩ := exists_mergeInv_buildArena hk
    exact hm.merges j hj hlt

/-- Every node but the last has a parent (42_huffman_tree.md R116). -/
theorem not_parentless {i : Nat} (hi : i + 1 < (buildArena f).length) :
    ¬ Parentless (presentSyms f).length (buildArena f) (buildArena f).length i := by
  have hk : presentSyms f ≠ [] := fun hk => by rw [buildArena_nil hk] at hi; cases hi
  obtain ⟨r, hm⟩ := exists_mergeInv_buildArena hk
  obtain ⟨n, hn⟩ : ∃ n, (buildArena f).length = n + 1 := ⟨_, (Nat.succ_pred_eq_of_pos (by omega)).symm⟩
  have hlast := parentless_newest (j := n) fun q hq hlt => hm.merges q hq (hn ▸ hlt)
  rw [← hn, ← hm.heap, List.mem_singleton] at hlast
  rw [← hm.heap, List.mem_singleton]
  omega

end

end Sys2Proof.Machine
end

section
/-! PROOFS. HUF_BUILD: the registers it sets, and the shape of the tree it leaves in NODE (42_huffman_tree.md R116 to R128). -/

namespace Sys2Proof.Machine

/-! ### What the command leaves -/

theorem exec_hufBuild (s : State) : exec .hufBuild s = .next (completeOk s.symCount (buildTree s)) := rfl

/-- The statements list the present symbols as the builder does. -/
theorem filter_eq_presentSyms (f : Nat → Word) : ((List.range 256).filter fun v => decide (f v ≠ 0)) = presentSyms f :=
  List.filter_congr fun v _ => Bool.eq_iff_iff.2 (by simp)

section
variable {s t : State} (h : exec .hufBuild s = .next t)
include h

theorem eq_of_exec_hufBuild : t = completeOk s.symCount (buildTree s) := (Host.Outcome.next.inj h).symm

theorem node_of_exec_hufBuild : t.node = buildArena s.freq := by
  rw [eq_of_exec_hufBuild h]; rfl

theorem nodeAt_of_exec_hufBuild (i : BitVec 9) : t.nodeAt i = arenaAt (buildArena s.freq) i.toNat := by
  rw [eq_of_exec_hufBuild h]; rfl

theorem lut_of_exec_hufBuild : t.lut = deriveCodes (buildArena s.freq) s.symCount := by
  rw [eq_of_exec_hufBuild h]; rfl

theorem csr_of_exec_hufBuild : t.csr.treeValid = true ∧ t.csr.nsym = BitVec.ofNat 9 s.symCount ∧
    t.csr.nodeCnt = BitVec.ofNat 10 (buildArena s.freq).length ∧ t.csr.root = rootOf (buildArena s.freq) := by
  rw [eq_of_exec_hufBuild h]; exact ⟨rfl, rfl, rfl, rfl⟩

end

/-! ### The registers -/

theorem symCount_le (s : State) : s.symCount ≤ 256 := presentSyms_length_le s.freq

theorem symCount_eq_zero {s : State} : s.symCount = 0 ↔ presentSyms s.freq = [] := List.length_eq_zero_iff

/-- NODE_CNT for k leaves, the empty tree included (10_state.md R43). -/
theorem length_buildArena (s : State) : (buildArena s.freq).length = 2 * s.symCount - 1 := by
  by_cases hk : presentSyms s.freq = []
  · rw [buildArena_nil hk, symCount_eq_zero.2 hk]; rfl
  · exact buildArena_length hk

/-- ROOT for k leaves (42_huffman_tree.md R122, R124). -/
theorem rootOf_buildArena (s : State) : rootOf (buildArena s.freq) =
    if s.symCount = 0 then 0x1FF#9 else BitVec.ofNat 9 (2 * s.symCount - 2) := by
  have hlen := length_buildArena s
  have hnil : buildArena s.freq = [] ↔ s.symCount = 0 := by rw [← List.length_eq_zero_iff]; omega
  simp only [rootOf, hnil, hlen, Nat.sub_sub]

/-- Settles O28: a completed `BuildTree`, whose registers follow from the number of leaves. -/
theorem hufBuildSetsTheTreeRegisters : Obligations.HufBuildSetsTheTreeRegisters := by
  unfold Obligations.HufBuildSetsTheTreeRegisters
  intro s
  have hle := symCount_le s
  have hlen := length_buildArena s
  have hrecord := succeeded_complete (s := s) (t := buildTree s) (v := s.symCount) rfl (by omega) []
  rw [emit_nil] at hrecord
  rw [distinctCount_eq_symCount, ← rootOf_buildArena]
  refine ⟨_, exec_hufBuild s, hrecord, rfl, ?_, ?_, hlen, rfl, rfl, rfl, rfl⟩
  · exact Nat.mod_eq_of_lt (by omega)
  · exact (Nat.mod_eq_of_lt (by omega)).trans hlen

/-- Settles O29: everything HUF_BUILD writes is made of the present symbols and the arena. -/
theorem treeDependsOnFreqAlone : Obligations.TreeDependsOnFreqAlone := by
  unfold Obligations.TreeDependsOnFreqAlone
  intro s u h
  have harena : buildArena s.freq = buildArena u.freq := buildArena_congr h
  have hcount : s.symCount = u.symCount := congrArg List.length (presentSyms_congr h)
  refine ⟨_, _, exec_hufBuild s, exec_hufBuild u, ?_⟩
  simp [harena, hcount]

/-! ### The shape of the tree -/

theorem getElem?_eq_some_iff_arenaAt {ar : List Node} {j : Nat} {n : Node} :
    ar[j]? = some n ↔ j < ar.length ∧ arenaAt ar j = n := by
  rw [List.getElem?_eq_some_iff, ← exists_prop]
  exact exists_congr fun hj => by rw [arenaAt, List.getD_eq_getElem _ _ hj]

/-- The record of a merge, with exact weight (42_huffman_tree.md R117, R121). -/
theorem MergedFrom.weight_eq {k j a b : Nat} {ar : List Node} (h : MergedFrom k ar j a b) :
    (arenaAt ar j).weight.toNat = (arenaAt ar a).weight.toNat + (arenaAt ar b).weight.toNat := by
  rw [h.record]
  exact Nat.mod_eq_of_lt h.weight

/-- A parent of the node `i`: a record beyond the leaves that has it as a child. -/
def IsParent (k : Nat) (ar : List Node) (i j : Nat) : Prop :=
  k ≤ j ∧ j < ar.length ∧ ((arenaAt ar j).left.toNat = i ∨ (arenaAt ar j).right.toNat = i)

/-- No node has a parent before another one, because a record takes its children from the nodes without a parent. -/
theorem IsParent.le {f : Nat → Word} {i j j' : Nat} (h : IsParent (presentSyms f).length (buildArena f) i j)
    (h' : IsParent (presentSyms f).length (buildArena f) i j') : j ≤ j' := by
  obtain ⟨hj, hlt, hchild⟩ := h
  obtain ⟨hj', -, hchild'⟩ := h'
  obtain ⟨a, b, hab⟩ := exists_mergedFrom hj hlt
  by_contra hlt'
  obtain ⟨-, hnone⟩ := hab.parentless_of_child hchild
  obtain ⟨hleft, hright⟩ := hnone j' hj' (Nat.lt_of_not_le hlt')
  exact hchild'.elim hleft hright

/-- Every node but the last has one parent (42_huffman_tree.md R116). -/
theorem existsUnique_isParent {f : Nat → Word} {i : Nat} (hi : i + 1 < (buildArena f).length) :
    ∃! j, IsParent (presentSyms f).length (buildArena f) i j := by
  refine existsUnique_of_exists_of_unique ?_ fun j j' h h' => Nat.le_antisymm (h.le h') (h'.le h)
  by_contra hnone
  rw [not_exists] at hnone
  exact not_parentless hi ⟨by omega, fun q hq hlt =>
    ⟨fun e => hnone q ⟨hq, hlt, .inl e⟩, fun e => hnone q ⟨hq, hlt, .inr e⟩⟩⟩

/-- Settles O30: a record of a merge names two nodes that had no parent, and at the end only the root has none. -/
theorem treeIsStrictlyBinary : Obligations.TreeIsStrictlyBinary := by
  unfold Obligations.TreeIsStrictlyBinary
  intro s t ht
  simp only [distinctCount_eq_symCount, filter_eq_presentSyms, node_of_exec_hufBuild ht, nodeAt_of_exec_hufBuild ht,
    getElem?_eq_some_iff_arenaAt]
  refine ⟨fun i v hv => ⟨?_, buildArena_leaf hv⟩, ?_, fun i hi => ?_⟩
  · have hi := (List.getElem?_eq_some_iff.1 hv).1
    rw [length_buildArena, State.symCount]
    omega
  · rintro j _ hj ⟨hlt, rfl⟩
    obtain ⟨a, b, hab⟩ := exists_mergedFrom hj hlt
    have hne : (arenaAt (buildArena s.freq) j).left ≠ (arenaAt (buildArena s.freq) j).right := fun e =>
      hab.ne (by rw [← hab.left, e, hab.right])
    refine ⟨by rw [hab.record]; rfl, by rw [hab.record]; rfl, hne, ?_⟩
    rw [hab.left, hab.right]
    exact ⟨hab.leftParentless.1, hab.rightParentless.1, hab.weight_eq, by rw [hab.record]; exact minSym_toNat _ _⟩
  · refine (existsUnique_congr fun j => ?_).1 (existsUnique_isParent hi)
    constructor
    · rintro ⟨hj, hlt, hchild⟩
      exact ⟨_, hj, ⟨hlt, rfl⟩, hchild⟩
    · rintro ⟨_, hj, ⟨hlt, rfl⟩, hchild⟩
      exact ⟨hj, hlt, hchild⟩

/-- Settles O31: the record of a merge is that of the two least keys among the nodes without a parent. -/
theorem eachMergeTakesTheTwoLeastKeys : Obligations.EachMergeTakesTheTwoLeastKeys := by
  unfold Obligations.EachMergeTakesTheTwoLeastKeys
  intro s t j n ht hj hn
  simp only [distinctCount_eq_symCount, node_of_exec_hufBuild ht, nodeAt_of_exec_hufBuild ht,
    getElem?_eq_some_iff_arenaAt] at hj hn ⊢
  obtain ⟨hlt, rfl⟩ := hn
  obtain ⟨a, b, hab⟩ := exists_mergedFrom hj hlt
  rw [hab.left, hab.right]
  refine ⟨hab.ordered, ?_⟩
  rintro i _ hi ⟨-, rfl⟩ hnone
  have hj' := hnone j _ hj le_rfl ⟨hlt, rfl⟩
  rw [hab.left, hab.right] at hj'
  exact hab.least i ⟨hi, fun q hq hqj => hnone q _ hq hqj.le ⟨hqj.trans hlt, rfl⟩⟩ hj'.1.symm hj'.2.symm

end Sys2Proof.Machine
end

section
/-! PROOFS. The codes: the tables of no symbol and of one, the codes as root-to-leaf paths, and the Kraft equality
(42_huffman_tree.md R124 to R127). -/

namespace Sys2Proof.Machine

/-! ### No symbol, and one -/

/-- In an empty tree every bit is CorruptStream (42_huffman_tree.md R124). -/
theorem failsAlone_hufDecbit_of_empty {t : State} (hv : t.csr.treeValid = true) (hn : t.csr.nsym = 0) (b : Bool) :
    failsAlone (.hufDecbit b) t 1 0 := by
  have hrun : runHufDecbit b t = raise .corruptStream 0 t := by
    simp [runHufDecbit, hv, decStep, hn, raise]
  have hexec : exec (.hufDecbit b) t = finish (traceHufDecbit (runHufDecbit b t)) (runHufDecbit b t) := rfl
  rw [hrun] at hexec
  exact failsAlone_of_raise (hexec.trans (congrArg _ (emit_nil _))) (by decide)

/-- The only present symbol is all of the list. -/
theorem presentSyms_eq_singleton {s : State} (h1 : s.symCount = 1) {v : Byte} (hv : s.freq v.toNat ≠ 0) :
    presentSyms s.freq = [v.toNat] := by
  obtain ⟨w, hw⟩ := List.length_eq_one_iff.1 h1
  have hmem : v.toNat ∈ presentSyms s.freq := mem_presentSyms.2 ⟨v.isLt, hv⟩
  rw [hw, List.mem_singleton] at hmem
  rw [hw, hmem]

/-- One of the bytes is the only present symbol. -/
theorem exists_present_of_single {s : State} (h1 : s.symCount = 1) : ∃ v : Byte, s.freq v.toNat ≠ 0 := by
  obtain ⟨w, hw⟩ := List.length_eq_one_iff.1 h1
  obtain ⟨hlt, hne⟩ := mem_presentSyms.1 (hw ▸ List.mem_singleton_self w : w ∈ presentSyms s.freq)
  exact ⟨BitVec.ofNat 8 w, by rwa [BitVec.toNat_ofNat, Nat.mod_eq_of_lt hlt]⟩

/-- One symbol makes a tree of one leaf (42_huffman_tree.md R125). -/
theorem buildArena_singleton {f : Nat → Word} {v : Nat} (h : presentSyms f = [v]) : buildArena f = [leafNode f v] := by
  simp [buildArena, h, mergeLoop]

section
variable {s t : State} (h : exec .hufBuild s = .next t)
include h

/-- LUT of the empty table (42_huffman_tree.md R124). -/
theorem lutAt_of_empty (h0 : s.symCount = 0) (v : Byte) : t.lutAt v = LutEntry.none := by
  rw [State.lutAt, lut_of_exec_hufBuild h, deriveCodes, if_pos h0]
  rfl

/-- LUT of one symbol: its code is "0", and no other symbol has one (42_huffman_tree.md R125). -/
theorem lutAt_of_single (h1 : s.symCount = 1) {v : Byte} (hv : s.freq v.toNat ≠ 0) (w : Byte) :
    t.lutAt w = if v = w then LutEntry.ofPath [false] else LutEntry.none := by
  have harena := buildArena_singleton (presentSyms_eq_singleton h1 hv)
  have hsym : (arenaAt (buildArena s.freq) 0).sym = v := by
    rw [harena]
    exact BitVec.ofNat_toNat 8 v
  rw [State.lutAt, lut_of_exec_hufBuild h, h1, deriveCodes, if_neg (by decide), if_pos rfl, hsym]
  split
  case isTrue e => rw [e, sparseGet_set_self sparseWf_nil]
  case isFalse e => rw [sparseGet_set_of_ne (fun e' => e (BitVec.eq_of_toNat_eq e')), sparseGet_nil]

end

/-- Settles O32: the tables of no symbol and of one symbol, by their arenas `[]` and `[leafNode _ _]`. -/
theorem emptyAndSingleSymbolTrees : Obligations.EmptyAndSingleSymbolTrees := by
  unfold Obligations.EmptyAndSingleSymbolTrees
  intro s t ht
  obtain ⟨hvalid, hnsym, hcnt, hroot⟩ := csr_of_exec_hufBuild ht
  rw [distinctCount_eq_symCount, hroot, hcnt, hnsym]
  refine ⟨fun h0 => ?_, fun sym h1 hsym => ?_⟩
  · have harena := buildArena_nil (symCount_eq_zero.1 h0)
    rw [h0, harena]
    refine ⟨rfl, rfl, rfl, hvalid, fun v => by rw [lutAt_of_empty ht h0]; rfl, fun b => ?_⟩
    exact failsAlone_hufDecbit_of_empty hvalid (by rw [hnsym, h0]; rfl) b
  · have harena := buildArena_singleton (presentSyms_eq_singleton h1 hsym)
    rw [h1, lutAt_of_single ht h1 hsym, if_pos rfl, nodeAt_of_exec_hufBuild ht, harena]
    exact ⟨rfl, rfl, rfl, rfl, by simp [rootOf, arenaAt, leafNode], (LutEntry.ofPath_bits (by decide)).2⟩

/-! ### Codes are paths -/

/-- A path in the tree is a path in the arena that holds it. -/
theorem Represents.walk_of_sub {ar : List Node} {t u : HuffTree} {i : BitVec 9} {p : List Bool}
    (h : Represents ar t i.toNat) (hp : t.sub p = some u) : ∃ j, walk ar i p = some j ∧ Represents ar u j.toNat := by
  induction p generalizing t i with
  | nil =>
    obtain rfl := Option.some.inj (HuffTree.sub_nil.symm.trans hp)
    exact ⟨i, rfl, h⟩
  | cons b p ih =>
    cases t with
    | leaf v => cases hp
    | node l r =>
      have hstep : walk ar i (b :: p) = walk ar (childOf (arenaAt ar i.toNat) b) p :=
        if_neg (Bool.eq_false_iff.1 h.not_leaf)
      rw [hstep]
      exact ih (h.child b) hp

/-- No path to a leaf begins with a path to another leaf (42_huffman_tree.md R127 (b)). -/
theorem HuffTree.eq_of_isPrefix {t : HuffTree} {p q : List Bool} {v w : Byte} (hp : t.sub p = some (.leaf v))
    (hq : t.sub q = some (.leaf w)) (h : p <+: q) : v = w := by
  obtain ⟨r, rfl⟩ := h
  rw [sub_append, hp] at hq
  cases r with
  | nil => exact HuffTree.leaf.inj (Option.some.inj hq)
  | cons b r => cases hq

/-- A symbol has a leaf exactly where its counter is not 0 (42_huffman_tree.md R120). -/
theorem IsTreeOf.mem_syms_iff {f : Nat → Word} {t : HuffTree} (h : IsTreeOf f t) {v : Byte} :
    v ∈ t.syms ↔ f v.toNat ≠ 0 := by
  rw [h.perm.mem_iff, List.mem_map]
  constructor
  · rintro ⟨i, hi, rfl⟩
    obtain ⟨hlt, hne⟩ := mem_presentSyms.1 hi
    rwa [BitVec.toNat_ofNat, Nat.mod_eq_of_lt hlt]
  · intro hv
    exact ⟨v.toNat, mem_presentSyms.2 ⟨v.isLt, hv⟩, by simp⟩

/-- The length and the bits of the entry that holds the path to a leaf (10_state.md R54). -/
theorem IsTreeOf.codeBits_ofPath {f : Nat → Word} {t : HuffTree} (h : IsTreeOf f t) {p : List Bool} {v : Byte}
    (hp : t.sub p = some (.leaf v)) :
    (LutEntry.ofPath p).len.toNat = p.length ∧ codeBits (LutEntry.ofPath p) = p := by
  have hle := h.syms_length_le
  have hlen := HuffTree.length_of_sub_leaf hp
  exact LutEntry.ofPath_bits (by omega)

section
variable {s t : State} (h : exec .hufBuild s = .next t) (hk : 2 ≤ s.symCount)
include h hk

/-- What LUT holds after HUF_BUILD, for a table of two symbols or more: the paths of the tree at ROOT
(42_huffman_tree.md R126). -/
theorem exists_tree_of_exec_hufBuild : ∃ l r, IsTreeOf s.freq (.node l r) ∧
    Represents t.node (.node l r) t.csr.root.toNat ∧
    (∀ v, v ∉ (HuffTree.node l r).syms → t.lutAt v = LutEntry.none) ∧
    ∀ v p, (HuffTree.node l r).sub p = some (.leaf v) → t.lutAt v = LutEntry.ofPath p := by
  obtain ⟨tree, htree⟩ := exists_isTreeOf (f := s.freq) (List.length_pos_iff.1 (Nat.lt_of_lt_of_le Nat.zero_lt_two hk))
  obtain ⟨l, r, rfl⟩ := htree.exists_node hk
  obtain ⟨-, -, -, hroot⟩ := csr_of_exec_hufBuild h
  have hlut : ∀ v, t.lutAt v = sparseGet LutEntry.none ((HuffTree.node l r).insertCodes [] []) v.toNat := fun v => by
    rw [State.lutAt, lut_of_exec_hufBuild h, State.symCount, htree.deriveCodes_eq hk]
  refine ⟨l, r, htree, ?_, fun v hv => ?_, fun v p hp => ?_⟩
  · rw [node_of_exec_hufBuild h, hroot]
    exact htree.root
  · rw [hlut, HuffTree.get_insertCodes_of_notMem hv, sparseGet_nil]
  · rw [hlut, HuffTree.get_insertCodes_of_sub sparseWf_nil htree.nodup hp, List.nil_append]

end

section
variable {s t : State} (h : exec .hufBuild s = .next t)
include h

/-- An absent symbol has no code (42_huffman_tree.md R126). -/
theorem lutAt_of_absent {v : Byte} (hv : s.freq v.toNat = 0) : t.lutAt v = LutEntry.none := by
  rcases Nat.lt_or_ge s.symCount 2 with hk | hk
  · rcases Nat.lt_succ_iff_lt_or_eq.1 hk with h0 | h1
    · exact lutAt_of_empty h (by omega) v
    · obtain ⟨w, hw⟩ := exists_present_of_single h1
      rw [lutAt_of_single h h1 hw, if_neg]
      rintro rfl
      exact hw hv
  · obtain ⟨l, r, htree, -, habsent, -⟩ := exists_tree_of_exec_hufBuild h hk
    exact habsent v fun hmem => htree.mem_syms_iff.1 hmem hv

/-- A present symbol has a path of 1 to 255 bits as its code; with two symbols or more it leads from ROOT to its leaf
(42_huffman_tree.md R126, R127 (a)). -/
theorem exists_path_of_present {v : Byte} (hv : s.freq v.toNat ≠ 0) : ∃ p : List Bool, t.lutAt v = LutEntry.ofPath p ∧
    1 ≤ p.length ∧ p.length ≤ 255 ∧
    (2 ≤ s.symCount → ∃ i, walk t.node t.csr.root p = some i ∧ (t.nodeAt i).leaf = true ∧ (t.nodeAt i).sym = v) := by
  have hpos : 0 < s.symCount := List.length_pos_of_mem (mem_presentSyms.2 ⟨v.isLt, hv⟩)
  rcases Nat.lt_or_ge s.symCount 2 with hk | hk
  · refine ⟨[false], ?_, le_rfl, by decide, fun h2 => absurd h2 (by omega)⟩
    rw [lutAt_of_single h (by omega) hv, if_pos rfl]
  · obtain ⟨l, r, htree, hroot, -, hpath⟩ := exists_tree_of_exec_hufBuild h hk
    obtain ⟨p, hp⟩ := HuffTree.mem_syms_iff.1 (htree.mem_syms_iff.2 hv)
    have hle := htree.syms_length_le
    have hlen := HuffTree.length_of_sub_leaf hp
    obtain ⟨i, hwalk, hleaf⟩ := hroot.walk_of_sub hp
    refine ⟨p, hpath v p hp, ?_, by omega, fun _ => ⟨i, hwalk, hleaf.leaf_sym⟩⟩
    cases p with
    | nil => cases hp
    | cons b p => simp

end

/-- Settles O33: a code is the path to a leaf, and no path goes on past a leaf. -/
theorem codesArePrefixFreePaths : Obligations.CodesArePrefixFreePaths := by
  unfold Obligations.CodesArePrefixFreePaths
  intro s t ht
  rw [distinctCount_eq_symCount]
  refine ⟨fun v hv => lutAt_of_absent ht hv, fun v hv => ?_, fun a b ha hb hne hpre => ?_⟩
  · obtain ⟨p, hlut, h1, h255, hwalk⟩ := exists_path_of_present ht hv
    obtain ⟨hlen, hbits⟩ := LutEntry.ofPath_bits h255
    rw [hlut, hlen, codeBits, hbits]
    exact ⟨h1, h255, hwalk⟩
  · rcases Nat.lt_or_ge s.symCount 2 with hk | hk
    · have hpos : 0 < s.symCount := List.length_pos_of_mem (mem_presentSyms.2 ⟨a.isLt, ha⟩)
      have hsingle := (presentSyms_eq_singleton (by omega) ha).symm.trans (presentSyms_eq_singleton (by omega) hb)
      exact hne (BitVec.eq_of_toNat_eq (List.singleton_inj.1 hsingle))
    · obtain ⟨l, r, htree, -, -, hpath⟩ := exists_tree_of_exec_hufBuild ht hk
      obtain ⟨p, hp⟩ := HuffTree.mem_syms_iff.1 (htree.mem_syms_iff.2 ha)
      obtain ⟨q, hq⟩ := HuffTree.mem_syms_iff.1 (htree.mem_syms_iff.2 hb)
      rw [hpath a p hp, hpath b q hq, (htree.codeBits_ofPath hp).2,
        (htree.codeBits_ofPath hq).2] at hpre
      exact hne (HuffTree.eq_of_isPrefix hp hq hpre)

/-! ### The Kraft equality -/

/-- Over the leaves under a node at depth `d`, the sum of 2^(N - depth) is 2^(N - d): each internal node halves its share
between its children (42_huffman_tree.md R127 (c)). -/
theorem HuffTree.kraft_sum {t : HuffTree} {len : Byte → Nat} {N d : Nat}
    (hlen : ∀ v p, t.sub p = some (.leaf v) → len v = d + p.length) (hN : d + t.syms.length ≤ N + 1) :
    (t.syms.map fun v => 2 ^ (N - len v)).sum = 2 ^ (N - d) := by
  induction t generalizing d with
  | leaf v => simp [syms, hlen v [] sub_nil]
  | node l r ihl ihr =>
    have hl := syms_length_pos (t := l)
    have hr := syms_length_pos (t := r)
    rw [syms, List.length_append] at hN
    have hleft := ihl (d := d + 1) (fun v p hp => by rw [hlen v (false :: p) hp, List.length_cons]; omega) (by omega)
    have hright := ihr (d := d + 1) (fun v p hp => by rw [hlen v (true :: p) hp, List.length_cons]; omega) (by omega)
    rw [syms, List.map_append, List.sum_append, hleft, hright, show N - d = N - (d + 1) + 1 by omega, Nat.pow_succ]
    omega

/-- Settles O34: the Kraft sum over the leaves of the tree, and the single code "0". -/
theorem kraftEquality : Obligations.KraftEquality := by
  unfold Obligations.KraftEquality
  intro s t ht
  rw [distinctCount_eq_symCount, filter_eq_presentSyms]
  refine ⟨fun hk => ?_, fun h1 => ?_⟩
  · obtain ⟨l, r, htree, -, -, hpath⟩ := exists_tree_of_exec_hufBuild ht hk
    have hle := htree.syms_length_le
    have hkraft := HuffTree.kraft_sum (t := .node l r) (len := fun v => (t.lutAt v).len.toNat) (N := 255) (d := 0)
      (fun v p hp => by rw [hpath v p hp, (htree.codeBits_ofPath hp).1, Nat.zero_add]) (by omega)
    rwa [(htree.perm.map _).sum_eq, List.map_map] at hkraft
  · obtain ⟨v, hv⟩ := exists_present_of_single h1
    rw [presentSyms_eq_singleton h1 hv, List.map_singleton, List.sum_singleton, BitVec.ofNat_toNat, BitVec.setWidth_eq,
      lutAt_of_single ht h1 hv, if_pos rfl]
    rfl

end Sys2Proof.Machine
end

section
/-! PROOFS. The bit-stream writer on bit strings: codes appended at BIT_LEN, one by HUF_PUTSYM and one for each symbol of IN
by HUF_ENCODE (43_huffman_codec.md R130, R133, R134). -/

namespace Sys2Proof.Machine

/-! ### Codes appended at BIT_LEN -/

/-- `s` with what the writer writes as `t` has it: BITBUF, BIT_LEN, the completion record, the trace. -/
def appendFrame (s t : State) : State :=
  { recorded s t with mem := t.mem, trace := t.trace, csr := { (recorded s t).csr with bitLen := t.csr.bitLen } }

/-- `t` is `s` with `bits` appended to the bit sequence at BIT_LEN, by commands that succeeded. -/
structure BitsAppended (s : State) (bits : List Bool) (t : State) : Prop where
  wf : Memory.wf t.mem
  frame : t = appendFrame s t
  stickyErr : t.csr.stickyErr = s.csr.stickyErr
  mem : sameOutside bitBufLo bitBufHi s t
  bitLen : t.csr.bitLen.toNat = s.csr.bitLen.toNat + bits.length
  old : ∀ i, (i < s.csr.bitLen.toNat ∨ t.csr.bitLen.toNat ≤ i) → bitRead t i = bitRead s i
  new : ∀ j b, bits[j]? = some b → bitRead t (s.csr.bitLen.toNat + j) = b

theorem codeBits_length (e : LutEntry) : (codeBits e).length = e.len.toNat := by simp [codeBits]

/-- The writer stays inside BITBUF (20_memory.md R69). -/
theorem writesWithin_bitWrite (code : BitVec 255) (s : State) {pos n : Nat} (h : pos + n ≤ 2 ^ 20) :
    WritesWithin bitBufLo bitBufHi s (bitWrite pos code n s) := by
  induction n with
  | zero => exact ⟨rfl, fun _ _ => rfl⟩
  | succ n ih =>
    rw [bitWrite_succ]
    refine (ih (by omega)).trans ⟨rfl, fun a ha => Memory.get_writeWord_of_ne ?_ _⟩
    simp only [bitBufLo, bitBufHi, bitAddr, bitBase] at ha ⊢
    omega

section
variable {s t u : State} {bits bits' : List Bool}

theorem BitsAppended.refl (h : Memory.wf s.mem) : BitsAppended s [] s :=
  ⟨h, rfl, rfl, fun _ _ => rfl, rfl, fun _ _ => rfl, fun _ _ hb => by cases hb⟩

theorem BitsAppended.trans (h : BitsAppended s bits t) (h' : BitsAppended t bits' u) :
    BitsAppended s (bits ++ bits') u := by
  have hlen := h.bitLen
  have hlen' := h'.bitLen
  constructor
  case wf => exact h'.wf
  case frame =>
    have hview := congrArg (fun x => appendFrame x u) h.frame
    exact h'.frame.trans hview
  case stickyErr => exact h'.stickyErr.trans h.stickyErr
  case mem => exact fun a ha => (h'.mem a ha).trans (h.mem a ha)
  case bitLen => rw [List.length_append]; omega
  case old => exact fun i hi => (h'.old i (by omega)).trans (h.old i (by omega))
  case new =>
    intro j b hb
    by_cases hj : j < bits.length
    · rw [List.getElem?_append_left hj] at hb
      rw [h'.old _ (by omega), h.new j b hb]
    · rw [List.getElem?_append_right (by omega)] at hb
      rw [← h'.new _ b hb, hlen]
      congr 1
      omega

/-- What was appended to the empty bit sequence is the bit sequence. -/
theorem BitsAppended.bitsOf_eq (h : BitsAppended s bits t) (h0 : s.csr.bitLen = 0) :
    t.csr.bitLen.toNat = bits.length ∧ bitsOf t t.csr.bitLen.toNat = bits := by
  have hzero : s.csr.bitLen.toNat = 0 := congrArg BitVec.toNat h0
  have hlen : t.csr.bitLen.toNat = bits.length := by rw [h.bitLen, hzero, Nat.zero_add]
  refine ⟨hlen, List.ext_getElem (by simp [bitsOf, hlen]) fun j _ hj => ?_⟩
  have hnew := h.new j _ (List.getElem?_eq_getElem hj)
  rw [hzero, Nat.zero_add] at hnew
  simpa [bitsOf] using hnew

theorem BitsAppended.sameTree (h : BitsAppended s bits t) : SameTree s t where
  mem a ha := h.mem a (.inl (by simp only [bitBufLo]; omega))
  tree := by
    have hview := congrArg (withTree s) h.frame
    exact hview

/-- The writer leaves the table that the codes come from, and IN. -/
theorem BitsAppended.lutAt_eq (h : BitsAppended s bits t) : t.lutAt = s.lutAt := by
  have hlut : t.lut = s.lut := congrArg (·.lut) h.frame
  unfold State.lutAt
  rw [hlut]

theorem BitsAppended.inSym_eq (h : BitsAppended s bits t) {i : Nat} (hi : i < 4096) : t.inSym i = s.inSym i :=
  h.mem _ (.inl (by simp only [inAddr, inBase, bitBufLo]; omega))

/-- The completion of a success adds its record and events. -/
theorem BitsAppended.completed (h : BitsAppended s bits t) (v : Nat) (evs : List TraceEvent) :
    BitsAppended s bits (emit evs (complete ⟨t, .ok v⟩)) := by
  have hdone : BitsAppended t [] (emit evs (complete ⟨t, .ok v⟩)) := by
    have hcsr : (emit evs (complete ⟨t, .ok v⟩)).csr = (completeOk v t).csr := emit_csr _ _
    have hmem : (emit evs (complete ⟨t, .ok v⟩)).mem = t.mem := emit_mem _ _
    have hbit : ∀ i, bitRead (emit evs (complete ⟨t, .ok v⟩)) i = bitRead t i := fun i => by
      unfold bitRead State.bitWord
      rw [hmem]
    refine ⟨hmem ▸ h.wf, ?_, by rw [hcsr]; rfl, fun a _ => by rw [hmem], by rw [hcsr]; rfl, fun i _ => hbit i, nofun⟩
    unfold emit
    split <;> rfl
  simpa only [List.append_nil] using h.trans hdone

/-- A code that fits in BITBUF is appended (43_huffman_codec.md R130, R133). -/
theorem appendCode_of_room (hwf : Memory.wf s.mem) {e : LutEntry} (pos : Nat)
    (hroom : s.csr.bitLen.toNat + (codeBits e).length ≤ 2 ^ 20) :
    ∃ t, appendCode e pos s = .ok t ∧ BitsAppended s (codeBits e) t := by
  rw [codeBits_length] at hroom
  refine ⟨_, if_neg (Nat.not_lt.2 hroom), ?_⟩
  obtain ⟨hframe, hmem⟩ := writesWithin_bitWrite e.code s hroom
  have hsticky : (bitWrite s.csr.bitLen.toNat e.code e.len.toNat s).csr.stickyErr = s.csr.stickyErr :=
    congrArg (·.csr.stickyErr) hframe
  have hread := bitRead_bitWrite hwf s.csr.bitLen.toNat e.code e.len.toNat
  have hwf' := bitWrite_wf hwf s.csr.bitLen.toNat e.code e.len.toNat
  generalize hn : s.csr.bitLen.toNat = n at *
  generalize bitWrite n e.code e.len.toNat s = w at *
  have hlen : (BitVec.ofNat 21 (n + e.len.toNat)).toNat = n + e.len.toNat := by rw [BitVec.toNat_ofNat]; omega
  refine ⟨hwf', ?_, hsticky, hmem, ?_, fun i hi => ?_, fun j b hb => ?_⟩
  · have hview := congrArg (fun x => appendFrame x (w.setBitLen (n + e.len.toNat))) hframe
    exact hview
  · rw [codeBits_length, State.setBitLen_csr, hlen, hn]
  · rw [State.setBitLen_csr, hlen, hn] at hi
    exact (hread i).trans (if_neg (by omega))
  · obtain ⟨hj, rfl⟩ := List.getElem?_eq_some_iff.1 hb
    rw [codeBits_length] at hj
    rw [hn]
    refine (hread _).trans ?_
    rw [if_pos (by omega), Nat.add_sub_cancel_left]
    simp [codeBits]

/-- A code that does not fit is not written (43_huffman_codec.md R133, R134). -/
theorem appendCode_of_full {e : LutEntry} (pos : Nat) (hfull : 2 ^ 20 < s.csr.bitLen.toNat + e.len.toNat) :
    appendCode e pos s = .error ⟨.capacityExceeded, pos⟩ := if_pos hfull

end

/-! ### HUF_PUTSYM -/

/-- A command whose `Exec` raises in a pre-check, and then puts no event on the port, fails and changes its record alone
(40_control.md R105). -/
theorem failsAlone_of_finish {i : Instr} {s : State} {evs : ExecResult → List TraceEvent} {r : ExecResult}
    {code : ErrCode} {pos : Nat} (hexec : exec i s = finish (evs r) r) (hr : r = raise code pos s)
    (hevs : evs (raise code pos s) = []) (hpos : pos < 2 ^ 21) : failsAlone i s code.num.toNat pos := by
  subst hr
  rw [hevs] at hexec
  exact failsAlone_of_raise (hexec.trans (congrArg _ (emit_nil _))) hpos

section
variable {s : State} {sym : Byte}

theorem exec_hufPutsym (sym : Byte) (s : State) :
    exec (.hufPutsym sym) s = finish (traceHufPutsym sym (runHufPutsym sym s)) (runHufPutsym sym s) := rfl

theorem runHufPutsym_of_ok {t : State} (hv : s.csr.treeValid = true) (hcode : (s.lutAt sym).len ≠ 0)
    (he : appendCode (s.lutAt sym) 0 s = .ok t) : runHufPutsym sym s = ⟨t, .ok (s.lutAt sym).len.toNat⟩ := by
  simp only [runHufPutsym, hv, Bool.true_eq_false, if_false, if_neg hcode, he]

theorem runHufPutsym_of_error {e : Err} (hv : s.csr.treeValid = true) (hcode : (s.lutAt sym).len ≠ 0)
    (he : appendCode (s.lutAt sym) 0 s = .error e) : runHufPutsym sym s = ⟨s, .error e⟩ := by
  simp only [runHufPutsym, hv, Bool.true_eq_false, if_false, if_neg hcode, he]

theorem failsAlone_hufPutsym {code : ErrCode} (h : runHufPutsym sym s = raise code 0 s) :
    failsAlone (.hufPutsym sym) s code.num.toNat 0 :=
  failsAlone_of_finish (exec_hufPutsym sym s) h rfl (by decide)

/-- HUF_PUTSYM of a symbol with a code that fits appends the code (43_huffman_codec.md R134). -/
theorem exec_hufPutsym_of_room (hwf : Memory.wf s.mem) (hv : s.csr.treeValid = true) (hcode : (s.lutAt sym).len ≠ 0)
    (hroom : s.csr.bitLen.toNat + (codeBits (s.lutAt sym)).length ≤ 2 ^ 20) :
    ∃ t, exec (.hufPutsym sym) s = .next t ∧ succeeded s t (s.lutAt sym).len.toNat ∧
      BitsAppended s (codeBits (s.lutAt sym)) t := by
  obtain ⟨t, he, happ⟩ := appendCode_of_room hwf 0 hroom
  have hlen := (s.lutAt sym).len.isLt
  rw [exec_hufPutsym, runHufPutsym_of_ok hv hcode he]
  exact ⟨_, rfl, succeeded_complete happ.stickyErr (by omega) _, happ.completed _ _⟩

end

/-- Settles O36: the errors in the order of the tests, and otherwise one code appended. -/
theorem hufPutsymAppendsOneCode : Obligations.HufPutsymAppendsOneCode := by
  unfold Obligations.HufPutsymAppendsOneCode
  intro s sym hwf
  refine ⟨fun hv => failsAlone_hufPutsym (code := .notReady) (if_pos hv),
    fun hv hnone => failsAlone_hufPutsym (code := .unknownSymbol) ?_,
    fun hv hcode hfull => failsAlone_hufPutsym (code := .capacityExceeded)
      (runHufPutsym_of_error hv hcode (appendCode_of_full 0 hfull)), fun hv hcode hroom => ?_⟩
  · rw [runHufPutsym, if_neg (by simp [hv]), if_pos hnone]
  · obtain ⟨t, he, hrecord, happ⟩ := exec_hufPutsym_of_room hwf hv hcode (by rwa [codeBits_length])
    refine ⟨t, he, hrecord, by rw [happ.bitLen, codeBits_length], fun j hj => happ.new j _ ?_, happ.old, happ.frame, happ.mem⟩
    simp [codeBits, hj]

end Sys2Proof.Machine
end

section
/-! PROOFS. HUF_ENCODE: the histogram of IN, its tree, and the codes of the symbols of IN appended to the empty bit sequence,
all at once or one HUF_PUTSYM after the other (43_huffman_codec.md R133, R139). -/

namespace Sys2Proof.Machine

/-! ### The codes of a list of symbols -/

/-- The codes of the symbols `xs` one after the other, from the table of `s`. -/
def codesOf (s : State) (xs : List Byte) : List Bool := xs.flatMap fun b => codeBits (s.lutAt b)

section
variable {s t : State} {bits : List Bool}

theorem codesOf_cons (s : State) (x : Byte) (xs : List Byte) :
    codesOf s (x :: xs) = codeBits (s.lutAt x) ++ codesOf s xs := rfl

theorem BitsAppended.codesOf_eq (h : BitsAppended s bits t) : codesOf t = codesOf s := by
  unfold codesOf
  rw [h.lutAt_eq]

theorem codesOf_length (s : State) (xs : List Byte) :
    (codesOf s xs).length = (xs.map fun b => (s.lutAt b).len.toNat).sum := by
  simp only [codesOf, List.length_flatMap, codeBits_length]

/-- The element loop of HUF_ENCODE appends the codes of its symbols, where they fit (43_huffman_codec.md R133). -/
theorem encodeLoop_spec (hwf : Memory.wf s.mem) {is : List Nat} (his : ∀ i ∈ is, i < 4096)
    (hroom : s.csr.bitLen.toNat + (codesOf s (is.map s.inSym)).length ≤ 2 ^ 20) :
    ∃ t, forElems encodeElem is s = (t, none) ∧ BitsAppended s (codesOf s (is.map s.inSym)) t := by
  induction is generalizing s with
  | nil => exact ⟨s, rfl, .refl hwf⟩
  | cons i is ih =>
    rw [List.map_cons, codesOf_cons] at hroom ⊢
    rw [List.length_append] at hroom
    obtain ⟨t, he, happ⟩ := appendCode_of_room hwf i (e := s.lutAt (s.inSym i)) (by omega)
    have hcells : is.map t.inSym = is.map s.inSym :=
      List.map_congr_left fun j hj => happ.inSym_eq (his j (List.mem_cons_of_mem _ hj))
    have hlen := happ.bitLen
    have hrest := ih happ.wf fun j hj => his j (List.mem_cons_of_mem _ hj)
    rw [happ.codesOf_eq, hcells] at hrest
    obtain ⟨u, hloop, happ'⟩ := hrest (by omega)
    exact ⟨u, by rw [forElems_cons, encodeElem, he]; exact hloop, happ.trans happ'⟩

/-- HUF_PUTSYM of symbol after symbol appends their codes, where they have one and it fits (43_huffman_codec.md R134). -/
theorem runCommands_hufPutsym (hwf : Memory.wf s.mem) (hv : s.csr.treeValid = true) {xs : List Byte}
    (hcode : ∀ x ∈ xs, (s.lutAt x).len ≠ 0) (hroom : s.csr.bitLen.toNat + (codesOf s xs).length ≤ 2 ^ 20) :
    ∃ u, runCommands (xs.map .hufPutsym) s = .next u ∧ BitsAppended s (codesOf s xs) u := by
  induction xs generalizing s with
  | nil => exact ⟨s, rfl, .refl hwf⟩
  | cons x xs ih =>
    rw [codesOf_cons] at hroom ⊢
    rw [List.length_append] at hroom
    obtain ⟨t, he, -, happ⟩ := exec_hufPutsym_of_room hwf hv (hcode x (by simp)) (by omega)
    have hlen := happ.bitLen
    have hvalid : t.csr.treeValid = true := (congrArg (·.csr.treeValid) happ.frame).trans hv
    have hrest := ih happ.wf hvalid fun y hy => happ.lutAt_eq ▸ hcode y (List.mem_cons_of_mem _ hy)
    rw [happ.codesOf_eq] at hrest
    obtain ⟨u, hrun, happ'⟩ := hrest (by omega)
    exact ⟨u, by rw [List.map_cons, runCommands_cons he]; exact hrun, happ.trans happ'⟩

end

/-! ### The table of the input -/

/-- Where the element loop of HUF_ENCODE starts: FREQ counted, the tree built, BIT_LEN 0 (43_huffman_codec.md R133). -/
def encodeStart (s : State) : State := (buildTree (countedInput s).invalidateTree).setBitLen 0

section
variable {s t : State}

/-- The length of a code, as the builder leaves it: 0 for an absent symbol, 1 to 255 for a present one
(42_huffman_tree.md R127 (a)). -/
theorem lutAt_len (h : exec .hufBuild s = .next t) (v : Byte) :
    (t.lutAt v).len.toNat ≤ 255 ∧ (s.freq v.toNat ≠ 0 → (t.lutAt v).len ≠ 0) := by
  by_cases hv : s.freq v.toNat = 0
  · rw [lutAt_of_absent h hv]
    exact ⟨by decide, fun hne => absurd hv hne⟩
  · obtain ⟨p, hlut, h1, h255, -⟩ := exists_path_of_present h hv
    have hlen := (LutEntry.ofPath_bits h255).1
    rw [hlut]
    refine ⟨hlen ▸ h255, fun _ h0 => ?_⟩
    have hzero : (LutEntry.ofPath p).len.toNat = 0 := congrArg BitVec.toNat h0
    omega

theorem inSym_countedInput (s : State) (i : Nat) : (countedInput s).inSym i = s.inSym i :=
  (State.cells_of_get (fun a ha => (writesWithin_countedInput s).mem a (.inr ha)) i).1

theorem bitRead_countedInput (s : State) (i : Nat) : bitRead (countedInput s) i = bitRead s i := by
  unfold bitRead
  rw [(State.cells_of_get (fun a ha => (writesWithin_countedInput s).mem a (.inr ha)) (i / 32)).2.2.2]

theorem countedInput_wf (h : Memory.wf s.mem) : Memory.wf (countedInput s).mem := by
  have hwf := (sameCounts_histogram (n := s.csr.inLen.toNat) h h fun _ _ => rfl).wfLeft
  rwa [histogram_inLen] at hwf

theorem map_inSym_range (s : State) : (List.range s.csr.inLen.toNat).map s.inSym = input s := by
  rw [input, State.inSlice, slice, Nat.sub_zero, List.range_eq_range']

theorem input_length (s : State) : (input s).length = s.csr.inLen.toNat := by
  rw [input, State.inSlice_length, Nat.sub_zero]

theorem exec_hufBuild_countedInput (s : State) : ∃ t, exec .hufBuild (countedInput s) = .next t ∧
    t.lutAt = (encodeStart s).lutAt := ⟨_, exec_hufBuild _, rfl⟩

/-- No input fills BITBUF: 4096 codes of 255 bits fit (43_huffman_codec.md R133). -/
theorem codesOf_input_fits (hlen : s.csr.inLen.toNat ≤ 4096) : (codesOf (encodeStart s) (input s)).length ≤ 2 ^ 20 := by
  obtain ⟨t, ht, hlut⟩ := exec_hufBuild_countedInput s
  have hsum : (codesOf (encodeStart s) (input s)).length ≤ (input s).length * 255 := by
    rw [codesOf_length, ← hlut, ← List.length_map (fun b => (t.lutAt b).len.toNat), ← smul_eq_mul]
    refine List.sum_le_card_nsmul _ _ fun n hn => ?_
    obtain ⟨b, -, rfl⟩ := List.mem_map.1 hn
    exact (lutAt_len ht b).1
  rw [input_length] at hsum
  omega

/-- Every symbol of IN has a code. -/
theorem lutAt_len_ne_zero_of_mem_input (h : Memory.wf s.mem) (hlen : s.csr.inLen.toNat ≤ 4096) {b : Byte}
    (hb : b ∈ input s) : ((encodeStart s).lutAt b).len ≠ 0 := by
  obtain ⟨t, ht, hlut⟩ := exec_hufBuild_countedInput s
  have hmem := (mem_presentSyms_countedInput h hlen).2 (List.mem_map_of_mem hb)
  exact hlut ▸ (lutAt_len ht b).2 (mem_presentSyms.1 hmem).2

theorem exec_hufEncode (s : State) :
    exec .hufEncode s = finish (traceHufEncode (runHufEncode s)) (runHufEncode s) := rfl

/-- Where no code raises, HUF_ENCODE answers BIT_LEN (43_huffman_codec.md R133). -/
theorem runHufEncode_of_loop (hlen : s.csr.inLen.toNat ≤ 4096)
    (he : forElems encodeElem (List.range s.csr.inLen.toNat) (encodeStart s) = (t, none)) :
    runHufEncode s = ⟨t, .ok t.csr.bitLen.toNat⟩ := by
  have hstart : (buildTree (histogram s.csr.inLen.toNat s)).setBitLen 0 = encodeStart s := by
    rw [histogram_inLen, encodeStart]
  simp only [runHufEncode, hstart, he]
  exact if_neg (Nat.not_lt.2 hlen)

/-- HUF_ENCODE of an input that fits IN appends its codes to the empty bit sequence, in the state with the histogram and its
tree (43_huffman_codec.md R133). -/
theorem exec_hufEncode_of_le (h : Memory.wf s.mem) (hlen : s.csr.inLen.toNat ≤ 4096) :
    ∃ t, exec .hufEncode s = .next t ∧ succeeded s t t.csr.bitLen.toNat ∧
      BitsAppended (encodeStart s) (codesOf (encodeStart s) (input s)) t := by
  have hcells : (List.range s.csr.inLen.toNat).map (encodeStart s).inSym = input s :=
    (List.map_congr_left fun i _ => inSym_countedInput s i).trans (map_inSym_range s)
  have hloop := encodeLoop_spec (s := encodeStart s) (countedInput_wf h) (is := List.range s.csr.inLen.toNat)
    fun i hi => by rw [List.mem_range] at hi; omega
  rw [hcells] at hloop
  obtain ⟨t, he, happ⟩ := hloop (by rw [Nat.add_comm]; exact codesOf_input_fits hlen)
  have hsticky : (encodeStart s).csr.stickyErr = s.csr.stickyErr :=
    congrArg (·.csr.stickyErr) (writesWithin_countedInput s).frame
  have hfits := t.csr.bitLen.isLt
  have hexec := exec_hufEncode s
  rw [runHufEncode_of_loop hlen he] at hexec
  have hdone := happ.completed t.csr.bitLen.toNat (traceHufEncode ⟨t, .ok t.csr.bitLen.toNat⟩)
  refine ⟨_, hexec, ?_, hdone⟩
  rw [hdone.bitLen, ← happ.bitLen]
  exact succeeded_complete (happ.stickyErr.trans hsticky) (by omega) _

/-- A sum over a list taken value by value: each value's summand as often as the value occurs. -/
theorem sum_count_mul {n : Nat} (f : Nat → Nat) {xs : List Nat} (h : ∀ x ∈ xs, x < n) :
    ((List.range n).map fun v => xs.count v * f v).sum = (xs.map f).sum := by
  calc ((List.range n).map fun v => xs.count v * f v).sum
      = ∑ v ∈ Finset.range n, xs.count v * f v := rfl
    _ = ∑ v ∈ xs.toFinset, xs.count v * f v := by
        refine (Finset.sum_subset (fun v hv => Finset.mem_range.2 (h v (List.mem_toFinset.1 hv))) fun v _ hv => ?_).symm
        rw [List.count_eq_zero_of_not_mem (mt List.mem_toFinset.2 hv), Nat.zero_mul]
    _ = (xs.map f).sum := (Finset.sum_list_map_count xs f).symm

/-- The length of the encoded input: each code length as often as its symbol occurs (43_huffman_codec.md R133). -/
theorem codesOf_input_length (h : Memory.wf s.mem) (hlen : s.csr.inLen.toNat ≤ 4096) (u : State) :
    (codesOf u (input s)).length =
      ((List.range 256).map fun v => ((countedInput s).freq v).toNat * (u.lutAt (BitVec.ofNat 8 v)).len.toNat).sum := by
  have hcounts : ((List.range 256).map fun v => ((countedInput s).freq v).toNat * (u.lutAt (BitVec.ofNat 8 v)).len.toNat) =
      (List.range 256).map fun v => (inputSyms s).count v * (u.lutAt (BitVec.ofNat 8 v)).len.toNat :=
    List.map_congr_left fun v hv => by rw [toNat_freq_countedInput h hlen (List.mem_range.1 hv)]
  rw [hcounts, sum_count_mul (fun v => (u.lutAt (BitVec.ofNat 8 v)).len.toNat) fun _ => inputSyms_lt, codesOf_length,
    inputSyms, List.map_map]
  refine congrArg List.sum (List.map_congr_left fun b _ => ?_)
  simp

end

/-! ### The statements -/

/-- The tree after HUF_ENCODE is that of the histogram (43_huffman_codec.md R133). -/
theorem BitsAppended.encoded {s t : State} {bits : List Bool} (h : BitsAppended (encodeStart s) bits t) :
    (∀ v, v < 256 → t.freq v = (countedInput s).freq v) ∧ t.treeOk ∧ t.csr.treeValid = true ∧
      t.csr.decNode = t.csr.root ∧ t.csr.decLen = 0 := by
  have hinv : (encodeStart s).treeInv := treeInv_buildTree _
  refine ⟨fun v hv => freq_eq_of_get h.sameTree.mem hv, (h.sameTree.treeInv hinv).1, ?_, ?_, ?_⟩ <;> rw [h.frame] <;> rfl

/-- `s` with what HUF_ENCODE writes as `t` has it: FREQ and BITBUF, the tree, BIT_LEN, the completion record, the trace. -/
def encodedFrame (s t : State) : State :=
  { withTree (recorded s t) t with
    mem := t.mem, trace := t.trace, csr := { (withTree (recorded s t) t).csr with bitLen := t.csr.bitLen } }

/-- Counting, building and appending write nothing else. -/
theorem encodedFrame_of_append {s c t : State} (hcount : c.withMem s.mem = s)
    (happend : t = appendFrame ((buildTree c.invalidateTree).setBitLen 0) t) : t = encodedFrame s t :=
  calc t = encodedFrame t t := rfl
    _ = encodedFrame (appendFrame ((buildTree c.invalidateTree).setBitLen 0) t) t := congrArg (encodedFrame · t) happend
    _ = encodedFrame (c.withMem s.mem) t := rfl
    _ = encodedFrame s t := congrArg (encodedFrame · t) hcount

/-- Settles O35: HUF_ENCODE appends the codes of the input in the state that `countedInput` and `buildTree` make, and no
input is too long for BITBUF. -/
theorem hufEncodeWritesTheCodesOfTheInput : Obligations.HufEncodeWritesTheCodesOfTheInput := by
  unfold Obligations.HufEncodeWritesTheCodesOfTheInput
  refine fun s h => ⟨fun hlen => ?_, fun hlen =>
    failsAlone_of_finish (code := .capacityExceeded) (exec_hufEncode s) (if_pos hlen) rfl (by decide)⟩
  obtain ⟨t, he, hrecord, happ⟩ := exec_hufEncode_of_le h hlen
  obtain ⟨hfreq, htree, hvalid, hroot, hdec⟩ := happ.encoded
  obtain ⟨hbitLen, hbits⟩ := happ.bitsOf_eq rfl
  refine ⟨t, he, hrecord, fun v hv => ?_, hvalid, htree, hroot, hdec, ?_, ?_, fun i hi => ?_, ?_, fun a hoff hbit => ?_⟩
  · rw [hfreq v hv, toNat_freq_countedInput h hlen hv, count_inputSyms s hv]
  · rw [hbits, ← happ.codesOf_eq]
    rfl
  · rw [hbitLen, ← happ.codesOf_eq, codesOf_input_length h hlen]
    exact congrArg List.sum (List.map_congr_left fun v hv => by rw [hfreq v (List.mem_range.1 hv)])
  · exact (happ.old i (.inr hi)).trans (bitRead_countedInput s i)
  · exact encodedFrame_of_append (writesWithin_countedInput s).frame happ.frame
  · exact (happ.mem a hbit).trans ((writesWithin_countedInput s).mem a hoff)

/-- FRQ_COUNT and HUF_BUILD leave FREQ and the tree that HUF_ENCODE starts with (43_huffman_codec.md R139). -/
theorem runCommands_count_build {s : State} (hlen : s.csr.inLen.toNat ≤ 4096) :
    ∃ a, runCommands [.frqCount, .hufBuild] s = .next a ∧ a.mem = (encodeStart s).mem ∧ a.node = (encodeStart s).node ∧
      a.lut = (encodeStart s).lut ∧ a.csr.root = (encodeStart s).csr.root ∧ a.csr.treeValid = true := by
  have hcount := exec_frqCount s
  rw [runFrqCount_of_le hlen] at hcount
  rw [runCommands_cons hcount, runCommands_cons (exec_hufBuild _), encodeStart]
  generalize countedInput s = c
  exact ⟨_, rfl, rfl, rfl, rfl, rfl, rfl⟩

/-- Settles O42: FRQ_COUNT, HUF_BUILD and the HUF_PUTSYMs write what HUF_ENCODE writes, the codes of the input appended to
the empty bit sequence in a state with the histogram and its tree. -/
theorem stepwiseEncodingEqualsHufEncode : Obligations.StepwiseEncodingEqualsHufEncode := by
  unfold Obligations.StepwiseEncodingEqualsHufEncode
  intro s h hlen
  obtain ⟨t, he, -, happ⟩ := exec_hufEncode_of_le h hlen
  obtain ⟨a, ha, hmem, hnode, hlut, hroot, hvalid⟩ := runCommands_count_build hlen
  have hlutAt : a.lutAt = (encodeStart s).lutAt := by unfold State.lutAt; rw [hlut]
  have hcodes : codesOf a = codesOf (encodeStart s) := by unfold codesOf; rw [hlutAt]
  have hwf : Memory.wf a.mem := hmem ▸ countedInput_wf h
  obtain ⟨u, hu, happ'⟩ := runCommands_hufPutsym (s := { a with csr := { a.csr with bitLen := 0 } }) hwf hvalid
    (xs := input s) (fun x hx => hlutAt ▸ lutAt_len_ne_zero_of_mem_input h hlen hx)
    (by
      have hfits := codesOf_input_fits hlen
      rw [← hcodes] at hfits
      exact (Nat.zero_add _).trans_le hfits)
  change BitsAppended _ (codesOf a (input s)) u at happ'
  rw [hcodes] at happ'
  obtain ⟨hbitLen, hbits⟩ := happ.bitsOf_eq rfl
  obtain ⟨hbitLen', hbits'⟩ := happ'.bitsOf_eq rfl
  refine ⟨t, a, u, he, ha, hu, fun v hv => ?_, ?_, ?_, ?_, BitVec.eq_of_toNat_eq (hbitLen'.trans hbitLen.symm),
    hbits'.trans hbits.symm⟩
  · rw [freq_eq_of_get happ'.sameTree.mem hv, freq_eq_of_get happ.sameTree.mem hv]
    exact congrArg (Memory.readWord · (freqAddr v)) hmem
  · exact (congrArg (·.node) happ'.frame).trans (hnode.trans (congrArg (·.node) happ.frame).symm)
  · exact (congrArg (·.lut) happ'.frame).trans (hlut.trans (congrArg (·.lut) happ.frame).symm)
  · exact (congrArg (·.csr.root) happ'.frame).trans (hroot.trans (congrArg (·.csr.root) happ.frame).symm)

end Sys2Proof.Machine
end

section
/-! PROOFS. The walker bit by bit: HUF_DECBIT, HUF_DECEND, and that feeding HUF_DECODE's bits one by one is HUF_DECODE
(43_huffman_codec.md R131, R132, R135 to R137, R139). -/

namespace Sys2Proof.Machine

/-! ### What one bit does -/

section
variable {s t : State} {b : Bool} {pos : Nat} {sym : Byte}

/-- A bit on a dead path: no symbol at all, or the 1 bit of a single-symbol tree (43_huffman_codec.md R131). -/
theorem decStep_of_dead (h : s.csr.nsym = 0 ∨ (s.csr.nsym = 1 ∧ b = true)) :
    decStep b pos s = .error ⟨.corruptStream, pos⟩ := by
  rcases h with h0 | ⟨h1, rfl⟩
  · exact if_pos h0
  · simp [decStep, h1]

/-- A bit to an internal node (43_huffman_codec.md R131). -/
theorem decStep_of_node (h0 : s.csr.nsym ≠ 0) (h1 : s.csr.nsym ≠ 1)
    (hleaf : (s.nodeAt (childOf (s.nodeAt s.csr.decNode) b)).leaf = false) :
    decStep b pos s = .ok (s.setWalker (childOf (s.nodeAt s.csr.decNode) b) (s.csr.decLen.toNat + 1), 0) := by
  rw [decStep, if_neg h0, if_neg h1]
  exact if_neg (Bool.eq_false_iff.1 hleaf)

/-- A bit that completes a symbol (43_huffman_codec.md R131). -/
theorem decStep_of_symbol
    (h : (s.csr.nsym = 1 ∧ b = false ∧ (s.nodeAt s.csr.root).sym = sym) ∨
      (s.csr.nsym ≠ 0 ∧ s.csr.nsym ≠ 1 ∧ (s.nodeAt (childOf (s.nodeAt s.csr.decNode) b)).leaf = true ∧
        (s.nodeAt (childOf (s.nodeAt s.csr.decNode) b)).sym = sym)) : decStep b pos s = emitSym sym pos s := by
  rcases h with ⟨h1, rfl, rfl⟩ | ⟨h0, h1, hleaf, rfl⟩
  · simp [decStep, h1]
  · rw [decStep, if_neg h0, if_neg h1]
    exact if_pos hleaf

theorem emitSym_of_full (hfull : 4096 ≤ s.csr.outLen.toNat) : emitSym sym pos s = .error ⟨.capacityExceeded, pos⟩ :=
  if_pos hfull

theorem emitSym_of_room (hroom : s.csr.outLen.toNat < 4096) : emitSym sym pos s =
    .ok (((s.setOut s.csr.outLen.toNat sym).setOutLen (s.csr.outLen.toNat + 1)).walkerToRoot, 0x100 + sym.toNat) := by
  have hor : 0x100 ||| sym.toNat = 0x100 + sym.toNat := (Nat.two_pow_add_eq_or_of_lt (i := 8) sym.isLt 1).symm
  rw [← hor]
  exact if_neg (Nat.not_le.2 hroom)

/-! ### HUF_DECBIT -/

theorem exec_hufDecbit (b : Bool) (s : State) :
    exec (.hufDecbit b) s = finish (traceHufDecbit (runHufDecbit b s)) (runHufDecbit b s) := rfl

/-- A bit that raises leaves all but the record (43_huffman_codec.md R136). -/
theorem runHufDecbit_of_error (hv : s.csr.treeValid = true) {e : Err} (he : decStep b 0 s = .error e) :
    runHufDecbit b s = ⟨s, .error e⟩ := by
  simp [runHufDecbit, hv, he]

theorem runHufDecbit_of_ok (hv : s.csr.treeValid = true) {v : Nat} (he : decStep b 0 s = .ok (t, v)) :
    runHufDecbit b s = ⟨t, .ok v⟩ := by
  simp [runHufDecbit, hv, he]

theorem failsAlone_hufDecbit {code : ErrCode} (h : runHufDecbit b s = raise code 0 s) :
    failsAlone (.hufDecbit b) s code.num.toNat 0 :=
  failsAlone_of_finish (exec_hufDecbit b s) h rfl (by decide)

end

/-- Settles O39: the four ends of a walker step. -/
theorem hufDecbitStepsTheWalker : Obligations.HufDecbitStepsTheWalker := by
  unfold Obligations.HufDecbitStepsTheWalker
  refine fun s b hwf => ⟨fun hv => failsAlone_hufDecbit (code := .notReady) (if_pos hv),
    fun hv hdead => failsAlone_hufDecbit (code := .corruptStream) (runHufDecbit_of_error hv (decStep_of_dead hdead)),
    fun hv h0 h1 hleaf => ?_, fun sym hv hsym => ⟨fun hfull => ?_, fun hroom => ?_⟩⟩
  · have hexec := exec_hufDecbit b s
    rw [runHufDecbit_of_ok hv (decStep_of_node h0 h1 hleaf)] at hexec
    refine ⟨_, hexec, succeeded_complete rfl (by decide) _, ?_⟩
    rw [show traceHufDecbit ⟨_, .ok 0⟩ = [] from rfl, emit_nil]
    exact ⟨rfl, by simp [complete_ok, BitVec.ofNat_add], rfl, rfl⟩
  · refine failsAlone_hufDecbit (code := .capacityExceeded) (runHufDecbit_of_error hv ?_)
    rw [decStep_of_symbol hsym, emitSym_of_full hfull]
  · have hexec := exec_hufDecbit b s
    rw [runHufDecbit_of_ok hv ((decStep_of_symbol hsym).trans (emitSym_of_room hroom))] at hexec
    have hlt := sym.isLt
    refine ⟨_, hexec, succeeded_complete rfl (by omega) _, ?_⟩
    generalize traceHufDecbit _ = evs
    rw [emit_csr, State.outSym, sameOutside, emit_mem]
    refine ⟨?_, ?_, rfl, rfl, ?_, fun a ha => Memory.get_set_of_ne (by omega) _⟩
    · exact (State.outSym_setOut hwf _ _ _).trans (if_pos rfl)
    · exact (BitVec.toNat_ofNat _ _).trans (Nat.mod_eq_of_lt (by omega))
    · unfold emit
      split <;> rfl

/-! ### HUF_DECEND -/

/-- The end check at the root and mid-code (43_huffman_codec.md R132). -/
theorem endCheck_of_root {s : State} (h : s.csr.decLen = 0) (pos v : Nat) : endCheck pos v s = ⟨s.walkerToRoot, .ok v⟩ :=
  if_pos h

theorem endCheck_of_mid {s : State} (h : s.csr.decLen ≠ 0) (pos v : Nat) :
    endCheck pos v s = ⟨s.walkerToRoot, .error ⟨.corruptStream, pos⟩⟩ := if_neg h

theorem exec_hufDecend (s : State) : exec .hufDecend s = .next (complete (runHufDecend s)) := rfl

theorem runHufDecend_of_valid {s : State} (hv : s.csr.treeValid = true) :
    runHufDecend s = endCheck s.csr.decLen.toNat 0 s := by
  simp [runHufDecend, hv]

/-- Settles O40: the end check after the test for a tree. -/
theorem hufDecendChecksTheEnd : Obligations.HufDecendChecksTheEnd := by
  unfold Obligations.HufDecendChecksTheEnd
  refine fun s => ⟨fun hv => ?_, fun hv => ?_⟩
  · have hrun : runHufDecend s = raise .notReady 0 s := if_pos hv
    exact failsAlone_of_raise (hrun ▸ exec_hufDecend s) (by decide)
  · rw [exec_hufDecend, runHufDecend_of_valid hv]
    refine ⟨_, rfl, ?_⟩
    by_cases hdec : s.csr.decLen = 0
    · have hrecord := succeeded_complete (s := s) (t := s.walkerToRoot) (v := 0) rfl (by decide) []
      rw [emit_nil] at hrecord
      rw [endCheck_of_root hdec]
      exact ⟨rfl, rfl, rfl, rfl, fun _ => hrecord, fun hne => absurd hdec hne⟩
    · have hlt := s.csr.decLen.isLt
      have hrecord := failed_complete (t := s.walkerToRoot) (e := ⟨.corruptStream, s.csr.decLen.toNat⟩)
        (by simp only; omega) []
      rw [emit_nil] at hrecord
      rw [endCheck_of_mid hdec]
      exact ⟨rfl, rfl, rfl, rfl, fun h0 => absurd h0 hdec, fun _ => hrecord⟩

/-! ### Bit after bit -/

section
variable {s t u : State} {i : Instr} {is : List Instr}

theorem runUntilError_of_ok (h : exec i s = .next t) (h0 : t.csr.errcode = 0) :
    runUntilError (i :: is) s = runUntilError is t := by
  rw [runUntilError, h]
  exact if_pos h0

theorem runUntilError_of_error (h : exec i s = .next t) (h0 : t.csr.errcode ≠ 0) :
    runUntilError (i :: is) s = .next t := by
  rw [runUntilError, h]
  exact if_neg h0

theorem runUntilError_singleton (h : exec i s = .next t) : runUntilError [i] s = .next t := by
  by_cases h0 : t.csr.errcode = 0
  · exact runUntilError_of_ok h h0
  · exact runUntilError_of_error h h0

/-- The result of a walker step, in a state with the record and the trace log of `u`, and with an error at `pos`. -/
def resultAs (u : State) (pos : Nat) : Except Err (State × Nat) → Except Err (State × Nat)
  | .ok (t, v) => .ok (completedAs t u, v)
  | .error e => .error ⟨e.code, pos⟩

/-- A walker step does not look at the completion record or at the trace log, and the position it is given shows in its
error alone (43_huffman_codec.md R131). -/
theorem decStep_completedAs (b : Bool) (pos pos' : Nat) (t u : State) :
    decStep b pos' (completedAs t u) = resultAs u pos' (decStep b pos t) := by
  have hemit : ∀ sym, emitSym sym pos' (completedAs t u) = resultAs u pos' (emitSym sym pos t) := by
    intro sym
    rcases Nat.lt_or_ge t.csr.outLen.toNat 4096 with hroom | hfull
    · rw [emitSym_of_room hroom]
      exact emitSym_of_room (s := completedAs t u) hroom
    · rw [emitSym_of_full hfull]
      exact emitSym_of_full (s := completedAs t u) hfull
  rcases decStep_cases b pos t with ⟨h0, e⟩ | ⟨h1, hb, e⟩ | ⟨h1, hb, e⟩ | ⟨h0, h1, hleaf, e⟩ | ⟨h0, h1, hleaf, e⟩ <;>
    rw [e]
  · exact decStep_of_dead (s := completedAs t u) (.inl h0)
  · exact decStep_of_dead (s := completedAs t u) (.inr ⟨h1, hb⟩)
  · exact (decStep_of_symbol (s := completedAs t u) (.inl ⟨h1, hb, rfl⟩)).trans (hemit _)
  · exact (decStep_of_symbol (s := completedAs t u) (.inr ⟨h0, h1, hleaf, rfl⟩)).trans (hemit _)
  · exact decStep_of_node (s := completedAs t u) h0 h1 hleaf

/-- The walker leaves BITBUF (43_huffman_codec.md R131). -/
theorem bitRead_of_decStep {b : Bool} {pos v : Nat} (h : decStep b pos s = .ok (t, v)) (j : Nat) :
    bitRead t j = bitRead s j := by
  have hword : t.bitWord (j / 32) = s.bitWord (j / 32) :=
    Memory.readWord_congr fun k _ => (decStep_frame h).2 _ (.inr (by simp only [outBase, bitAddr, bitBase]; omega))
  rw [bitRead, hword, bitRead]

/-- The completion on a state that is `t` up to the record and the trace log is `t` up to these. -/
theorem completedAs_complete {r : ExecResult} (hr : r.st = completedAs t u) (evs : List TraceEvent) :
    emit evs (complete r) = completedAs t (emit evs (complete r)) := by
  have hview := congrArg (fun x => completedAs x (emit evs (complete r))) hr
  exact (emit_complete_eq evs r).trans hview

/-- One bit of HUF_DECODE, and HUF_DECBIT of the same bit in the same state up to the record and the trace log
(43_huffman_codec.md R135, R136). -/
theorem exec_hufDecbit_of_decodeElem (hu : u = completedAs t u) (hv : t.csr.treeValid = true) (i : Nat) :
    ∃ u', exec (.hufDecbit (bitRead t i)) u = .next u' ∧
      ((∃ t', decodeElem i t = .ok t' ∧ u' = completedAs t' u' ∧ u'.csr.errcode = 0 ∧ t'.csr.treeValid = true ∧
          ∀ j, bitRead t' j = bitRead t j) ∨
        ∃ e, decodeElem i t = .error e ∧ u' = completedAs t u' ∧ u'.csr.errcode = e.code.num) := by
  have hvalid : u.csr.treeValid = true := (congrArg (·.csr.treeValid) hu).trans hv
  have hstep := decStep_completedAs (bitRead t i) i 0 t u
  rw [← hu] at hstep
  have hexec := exec_hufDecbit (bitRead t i) u
  unfold decodeElem
  cases hdec : decStep (bitRead t i) i t with
  | ok p =>
    obtain ⟨t', v⟩ := p
    rw [hdec] at hstep
    rw [runHufDecbit_of_ok hvalid hstep] at hexec
    refine ⟨_, hexec, .inl ⟨t', rfl, completedAs_complete rfl _, by rw [emit_csr]; rfl, ?_, bitRead_of_decStep hdec⟩⟩
    exact (congrArg (·.csr.treeValid) (decStep_frame hdec).1).trans hv
  | error e =>
    rw [hdec] at hstep
    rw [runHufDecbit_of_error hvalid hstep] at hexec
    exact ⟨_, hexec, .inr ⟨e, rfl, completedAs_complete hu _, by rw [emit_csr]; rfl⟩⟩

/-- The bits of HUF_DECODE fed one by one: the same state up to the record and the trace log, to the end or to the first
error (43_huffman_codec.md R139). -/
theorem runUntilError_hufDecbit (hu : u = completedAs t u) (hv : t.csr.treeValid = true)
    (hbits : ∀ j, bitRead t j = bitRead s j) (js : List Nat) (rest : List Instr) :
    (∃ t' u', forElems decodeElem js t = (t', none) ∧ u' = completedAs t' u' ∧ t'.csr.treeValid = true ∧
        runUntilError ((js.map (bitRead s)).map .hufDecbit ++ rest) u = runUntilError rest u') ∨
      ∃ t' e u', forElems decodeElem js t = (t', some e) ∧ u' = completedAs t' u' ∧ u'.csr.errcode = e.code.num ∧
        runUntilError ((js.map (bitRead s)).map .hufDecbit ++ rest) u = .next u' := by
  induction js generalizing t u with
  | nil => exact .inl ⟨t, u, rfl, hu, hv, rfl⟩
  | cons j js ih =>
    obtain ⟨u', hexec, hend⟩ := exec_hufDecbit_of_decodeElem hu hv j
    rw [hbits] at hexec
    rw [forElems_cons, List.map_cons, List.map_cons, List.cons_append]
    rcases hend with ⟨t', he, hu', h0, hv', hbits'⟩ | ⟨e, he, hu', herr⟩
    · rw [he, runUntilError_of_ok hexec h0]
      exact ih hu' hv' fun j => (hbits' j).trans (hbits j)
    · rw [he]
      exact .inr ⟨t, e, u', rfl, hu', herr, runUntilError_of_error hexec (herr ▸ e.code.num_ne_zero)⟩

/-- States that are the same up to the record and the trace log have the same output, tree and walker. -/
theorem completedAs_same {x : State} (ht : t = completedAs x t) (hu : u = completedAs x u) :
    (∀ i, u.outSym i = t.outSym i) ∧ u.csr.outLen = t.csr.outLen ∧ u.csr.treeValid = t.csr.treeValid ∧ u.node = t.node ∧
      u.lut = t.lut ∧ u.csr.root = t.csr.root ∧ u.csr.decNode = t.csr.decNode ∧ u.csr.decLen = t.csr.decLen := by
  rw [ht, hu]
  exact ⟨fun _ => rfl, rfl, rfl, rfl, rfl, rfl, rfl, rfl⟩

/-- The end check of two such states ends alike (43_huffman_codec.md R132). -/
theorem endCheck_same (hu : u = completedAs t u) (pos pos' v v' : Nat) (evs evs' : List TraceEvent) :
    emit evs (complete (endCheck pos v t)) = completedAs t.walkerToRoot (emit evs (complete (endCheck pos v t))) ∧
      emit evs' (complete (endCheck pos' v' u)) = completedAs t.walkerToRoot (emit evs' (complete (endCheck pos' v' u))) ∧
      (emit evs' (complete (endCheck pos' v' u))).csr.errcode = (emit evs (complete (endCheck pos v t))).csr.errcode := by
  have hroot : u.walkerToRoot = completedAs t.walkerToRoot u.walkerToRoot := congrArg State.walkerToRoot hu
  have hlen : u.csr.decLen = t.csr.decLen := congrArg (·.csr.decLen) hu
  rw [emit_csr, emit_csr]
  by_cases h : t.csr.decLen = 0
  · rw [endCheck_of_root h, endCheck_of_root (hlen.trans h)]
    exact ⟨completedAs_complete rfl evs, completedAs_complete hroot evs', rfl⟩
  · rw [endCheck_of_mid h, endCheck_of_mid (hlen ▸ h)]
    exact ⟨completedAs_complete rfl evs, completedAs_complete hroot evs', rfl⟩

theorem exec_hufDecode (s : State) :
    exec .hufDecode s = finish (traceHufDecode s (runHufDecode s)) (runHufDecode s) := rfl

end

/-- Settles O43: from the tree of FREQ on, every bit takes both to the same state up to the record and the trace log, and so
does the end check. -/
theorem stepwiseDecodingEqualsHufDecode : Obligations.StepwiseDecodingEqualsHufDecode := by
  unfold Obligations.StepwiseDecodingEqualsHufDecode
  intro s _ hbits
  have hexec := exec_hufDecode s
  have hloop := runUntilError_hufDecbit (s := s) (t := (buildTree s).setOutLen 0)
    (u := { completeOk s.symCount (buildTree s) with csr := { (completeOk s.symCount (buildTree s)).csr with outLen := 0 } })
    rfl rfl (fun _ => rfl) (List.range s.csr.bitLen.toNat) [.hufDecend]
  suffices h : ∃ x t u, exec .hufDecode s = .next t ∧ runUntilError _ _ = .next u ∧ t = completedAs x t ∧
      u = completedAs x u ∧ u.csr.errcode = t.csr.errcode by
    obtain ⟨x, t, u, ht, hrun, htx, hux, herr⟩ := h
    obtain ⟨hout, hlen, hv, hnode, hlut, hroot, hdecNode, hdecLen⟩ := completedAs_same htx hux
    exact ⟨t, _, u, ht, exec_hufBuild s, hrun, fun i _ => hout i, hlen, hv, hnode, hlut, hroot, hdecNode, hdecLen, herr⟩
  rcases hloop with ⟨x, v, he, hv, hvalid, hrun⟩ | ⟨x, e, u, he, hu, herr, hrun⟩
  · rw [runHufDecode_of_loop hbits he] at hexec
    have hend := exec_hufDecend v
    rw [runHufDecend_of_valid ((congrArg (·.csr.treeValid) hv).trans hvalid), ← emit_nil (complete _)] at hend
    obtain ⟨htx, hux, herr⟩ := endCheck_same hv s.csr.bitLen.toNat v.csr.decLen.toNat x.csr.outLen.toNat 0
      (traceHufDecode s (endCheck s.csr.bitLen.toNat x.csr.outLen.toNat x)) []
    exact ⟨_, _, _, hexec, hrun.trans (runUntilError_singleton hend), htx, hux, herr⟩
  · rw [runHufDecode_of_error hbits he] at hexec
    exact ⟨x, _, u, hexec, hrun, completedAs_complete rfl _, hu, herr.trans (by rw [emit_csr]; rfl)⟩

end Sys2Proof.Machine
end

section
/-! PROOFS. HUF_DECODE of tables of no symbol and of one, and that HUF_DECODE gives back what HUF_ENCODE encoded
(43_huffman_codec.md R131, R135, R138). -/

namespace Sys2Proof.Machine

/-! ### The buffer algorithm on whole codes -/

/-- The buffer algorithm, from the buffer that the first bits of a code have left, emits the symbol of the code at its last
bit: it begins with no other code (42_huffman_tree.md R127 (b)). -/
theorem bufferDecode_code {code : Nat → List Bool} {v : Nat} (hv : v < 256)
    (hfree : ∀ w, w < 256 → code w ≠ [] → code w <+: code v → w = v) {buf q : List Bool} (hq : q ≠ [])
    (hcode : code v = buf ++ q) (rest : List Bool) : bufferDecode code buf (q ++ rest) =
      (BitVec.ofNat 8 v :: (bufferDecode code [] rest).1, (bufferDecode code [] rest).2) := by
  induction q generalizing buf with
  | nil => exact absurd rfl hq
  | cons b q ih =>
    have honly : ∀ w, w < 256 → code w = buf ++ [b] → w = v := fun w hw hwcode =>
      hfree w hw (by simp [hwcode]) ⟨q, by rw [hwcode, hcode, List.append_assoc, List.singleton_append]⟩
    rw [List.cons_append, bufferDecode]
    cases q with
    | nil =>
      have hfind : (List.range 256).find? (fun w => decide (code w = buf ++ [b])) = some v := by
        cases e : (List.range 256).find? (fun w => decide (code w = buf ++ [b])) with
        | none => exact absurd (decide_eq_true hcode) (List.find?_eq_none.1 e v (List.mem_range.2 hv))
        | some w =>
          have hwcode := List.find?_some e
          rw [honly w (List.mem_range.1 (List.mem_of_find?_eq_some e)) (of_decide_eq_true hwcode)]
      rw [hfind, List.nil_append]
    | cons c q =>
      have hfind : (List.range 256).find? (fun w => decide (code w = buf ++ [b])) = none := by
        refine List.find?_eq_none.2 fun w hw hwcode => ?_
        have hwcode := of_decide_eq_true hwcode
        have hwv := honly w (List.mem_range.1 hw) hwcode
        rw [hwv, hcode] at hwcode
        simp at hwcode
      rw [hfind]
      exact ih (by simp) (by rw [hcode, List.append_assoc, List.singleton_append])

/-- The buffer algorithm decodes a sequence of codes to its symbols and leaves nothing over. -/
theorem bufferDecode_codes {code : Nat → List Bool} {xs : List Byte} (hne : ∀ x ∈ xs, code x.toNat ≠ [])
    (hfree : ∀ x ∈ xs, ∀ w, w < 256 → code w ≠ [] → code w <+: code x.toNat → w = x.toNat) :
    bufferDecode code [] (xs.flatMap fun x => code x.toNat) = (xs, []) := by
  induction xs with
  | nil => rfl
  | cons x xs ih =>
    have hrest := ih (fun y hy => hne y (List.mem_cons_of_mem _ hy)) fun y hy => hfree y (List.mem_cons_of_mem _ hy)
    rw [List.flatMap_cons, bufferDecode_code x.isLt (hfree x (by simp)) (hne x (by simp)) rfl, hrest]
    simp

section
variable {s : State}

/-- The code that the statements derive from FREQ is the one that HUF_BUILD leaves in LUT. -/
theorem freqCode_eq_of_exec_hufBuild {t : State} (h : exec .hufBuild s = .next t) (v : Byte) :
    freqCode s v.toNat = codeBits (t.lutAt v) := by
  rw [freqCode, State.lutAt, lut_of_exec_hufBuild h]

/-- A symbol has a code exactly where its counter is not 0 (42_huffman_tree.md R126). -/
theorem freqCode_ne_nil_iff {v : Byte} : freqCode s v.toNat ≠ [] ↔ s.freq v.toNat ≠ 0 := by
  have ht := exec_hufBuild s
  rw [freqCode_eq_of_exec_hufBuild ht, ← List.length_pos_iff, codeBits_length]
  constructor
  · intro hpos hv
    rw [lutAt_of_absent ht hv] at hpos
    exact absurd hpos (by decide)
  · intro hv
    have hlen := (lutAt_len ht v).2 hv
    exact Nat.pos_of_ne_zero fun h0 => hlen (BitVec.eq_of_toNat_eq h0)

/-- No code begins with another (42_huffman_tree.md R127 (b)). -/
theorem eq_of_freqCode_isPrefix {v : Byte} (hv : s.freq v.toNat ≠ 0) {w : Nat} (hw : w < 256) (hne : freqCode s w ≠ [])
    (hpre : freqCode s w <+: freqCode s v.toNat) : w = v.toNat := by
  obtain ⟨x, rfl⟩ : ∃ x : Byte, x.toNat = w := ⟨BitVec.ofNat 8 w, by rw [BitVec.toNat_ofNat, Nat.mod_eq_of_lt hw]⟩
  have ht := exec_hufBuild s
  have hx := freqCode_ne_nil_iff.1 hne
  rw [freqCode_eq_of_exec_hufBuild ht, freqCode_eq_of_exec_hufBuild ht] at hpre
  by_contra hne
  exact (codesArePrefixFreePaths s _ ht).2.2 x v hx hv (fun e => hne (congrArg BitVec.toNat e)) hpre

/-- The code of the only symbol is "0" (42_huffman_tree.md R125). -/
theorem freqCode_of_single (h1 : s.symCount = 1) {v : Byte} (hv : s.freq v.toNat ≠ 0) : freqCode s v.toNat = [false] := by
  have ht := exec_hufBuild s
  rw [freqCode_eq_of_exec_hufBuild ht, lutAt_of_single ht h1 hv, if_pos rfl]
  exact (LutEntry.ofPath_bits (by decide)).2

end

/-! ### HUF_DECODE of no symbol, and of one -/

section
variable {s t : State} {sym : Byte} {i : Nat}

/-- HUF_DECODE starts with no output (43_huffman_codec.md R135). -/
theorem outputSoFar_start (hwf : Memory.wf s.mem) : OutputSoFar s 0 ((buildTree s).setOutLen 0) :=
  ⟨rfl, hwf, fun _ _ => rfl, Nat.zero_le _, rfl⟩

/-- What HUF_DECODE leaves in every outcome past its pre-check: a valid tree of FREQ, and nothing changed but OUT, OUT_LEN,
the tree and walker registers, the record and the trace log. -/
def OnlyDecoded (s t : State) : Prop :=
  t.csr.treeValid = true ∧ t.treeOk ∧ t = decodedFrame s t ∧ sameOutside (outAddr 0) (outAddr t.csr.outLen.toNat) s t

/-- What HUF_DECODE leaves where its loop ended in the state `t`: at an error, or at the root after all bits. -/
theorem exec_hufDecode_of_loop {o : Option Err} (hbits : s.csr.bitLen.toNat ≤ 2 ^ 20)
    (he : forElems decodeElem (List.range s.csr.bitLen.toNat) ((buildTree s).setOutLen 0) = (t, o))
    (hd : OutputSoFar s i t) (hroot : t.csr.decLen = 0) :
    ∃ u, exec .hufDecode s = .next u ∧
      OnlyDecoded s u ∧ u.outSlice 0 u.csr.outLen.toNat = (decoded s i).1 ∧
      (o = none → succeeded s u t.csr.outLen.toNat) ∧
      ∀ e, o = some e → e.pos < 2 ^ 21 → failed u e.code.num.toNat e.pos := by
  have hinv := treeInv_decodeLoop s (List.range s.csr.bitLen.toNat)
  have hfull := hd.full
  have hexec := exec_hufDecode s
  rw [he] at hinv
  cases o with
  | none =>
    rw [runHufDecode_of_loop hbits he, endCheck_of_root hroot] at hexec
    obtain ⟨hvalid, htree, hframe, hmem, hout⟩ :=
      hd.walkerToRoot.completed (treeInv_walkerToRoot hinv.2 hinv.1) hinv.2 rfl
    exact ⟨_, hexec, ⟨hvalid, htree, hframe, hmem⟩, hout,
      fun _ => succeeded_complete hd.walkerToRoot.stickyErr (Nat.lt_of_le_of_lt hfull (by decide)) _, nofun⟩
  | some e =>
    rw [runHufDecode_of_error hbits he] at hexec
    obtain ⟨hvalid, htree, hframe, hmem, hout⟩ := hd.completed hinv.1 hinv.2 rfl
    refine ⟨_, hexec, ⟨hvalid, htree, hframe, hmem⟩, hout, nofun, fun e' he' hpos => ?_⟩
    obtain rfl := Option.some.inj he'
    exact failed_complete hpos _

/-- Without symbols the first bit is CorruptStream (43_huffman_codec.md R131). -/
theorem decodeLoop_of_empty (h0 : s.symCount = 0) (n : Nat) :
    forElems decodeElem (List.range n) ((buildTree s).setOutLen 0) =
      ((buildTree s).setOutLen 0, if n = 0 then none else some ⟨.corruptStream, 0⟩) := by
  cases n with
  | zero => rfl
  | succ n =>
    have hdead : ((buildTree s).setOutLen 0).csr.nsym = 0 := by simp [h0]
    rw [List.range_succ_eq_map, forElems_cons, decodeElem, decStep_of_dead (.inl hdead), if_neg (Nat.succ_ne_zero n)]

/-- After `i` 0 bits of HUF_DECODE in the tree of the symbol `sym` alone: `i` times `sym` in OUT, the walker at the root. -/
structure RepeatedSoFar (s : State) (sym : Byte) (i : Nat) (t : State) : Prop extends OutputSoFar s i t where
  nsym : t.csr.nsym = 1
  leaf : (t.nodeAt t.csr.root).sym = sym
  atRoot : t.csr.decLen = 0
  zeros : ∀ j, j < i → bitRead s j = false
  repeated : decoded s i = (List.replicate i sym, [])

/-- The error of bit `i` in the tree of one symbol: a 1 bit, or one symbol too many (43_huffman_codec.md R131). -/
def SingleError (s : State) (i : Nat) (e : Err) : Prop :=
  (bitRead s i = true ∧ e = ⟨.corruptStream, i⟩) ∨ (bitRead s i = false ∧ i = 4096 ∧ e = ⟨.capacityExceeded, i⟩)

theorem RepeatedSoFar.outLen_eq (hd : RepeatedSoFar s sym i t) : t.csr.outLen.toNat = i := by
  rw [hd.outLen, hd.repeated, List.length_replicate]

theorem repeatedSoFar_start (hwf : Memory.wf s.mem) (h1 : s.symCount = 1) (hsym : s.freq sym.toNat ≠ 0) :
    RepeatedSoFar s sym 0 ((buildTree s).setOutLen 0) where
  toOutputSoFar := outputSoFar_start hwf
  nsym := by simp [h1]
  leaf := by
    have harena := buildArena_singleton (presentSyms_eq_singleton h1 hsym)
    simp [State.nodeAt, harena, rootOf, leafNode]
  atRoot := rfl
  zeros j hj := absurd hj (Nat.not_lt_zero j)
  repeated := rfl

/-- A 0 bit is the symbol once more. -/
theorem decoded_succ_of_zero (h1 : s.symCount = 1) (hsym : s.freq sym.toNat ≠ 0)
    (hd : decoded s i = (List.replicate i sym, [])) (hbit : bitRead s i = false) :
    decoded s (i + 1) = (List.replicate i sym ++ [sym], []) := by
  have hcode := bufferDecode_codes (code := freqCode s) (xs := [sym])
    (fun x hx => List.mem_singleton.1 hx ▸ freqCode_ne_nil_iff.2 hsym)
    fun x hx w hw => List.mem_singleton.1 hx ▸ eq_of_freqCode_isPrefix hsym hw
  rw [List.flatMap_singleton, freqCode_of_single h1 hsym] at hcode
  rw [decoded_succ, hd, hbit, hcode]

/-- One bit of HUF_DECODE in the tree of one symbol (43_huffman_codec.md R131). -/
theorem RepeatedSoFar.nextBit (h1 : s.symCount = 1) (hsym : s.freq sym.toNat ≠ 0) (hd : RepeatedSoFar s sym i t) :
    (∃ t', decodeElem i t = .ok t' ∧ RepeatedSoFar s sym (i + 1) t') ∨
      ∃ e, decodeElem i t = .error e ∧ SingleError s i e := by
  have hlen := hd.outLen_eq
  have hfull := hd.full
  rw [decodeElem, hd.bitRead_eq]
  cases hbit : bitRead s i with
  | true =>
    rw [decStep_of_dead (.inr ⟨hd.nsym, rfl⟩)]
    exact .inr ⟨_, rfl, .inl ⟨hbit, rfl⟩⟩
  | false =>
    rw [decStep_of_symbol (.inl ⟨hd.nsym, rfl, hd.leaf⟩)]
    rcases Nat.lt_or_ge t.csr.outLen.toNat 4096 with hroom | hover
    · have hbuf := decoded_succ_of_zero h1 hsym hd.repeated hbit
      rw [emitSym_of_room hroom]
      refine .inl ⟨_, rfl, hd.append ?_ hroom, hd.nsym, hd.leaf, rfl, fun j hj => ?_, ?_⟩
      · rw [hbuf, hd.repeated]
      · rcases Nat.lt_succ_iff_lt_or_eq.1 hj with hj | rfl
        · exact hd.zeros j hj
        · exact hbit
      · rw [hbuf, List.replicate_succ']
    · rw [emitSym_of_full hover]
      exact .inr ⟨_, rfl, .inr ⟨hbit, by omega, rfl⟩⟩

/-- The first `n` bits of HUF_DECODE in the tree of one symbol (43_huffman_codec.md R135). -/
theorem decodeLoop_of_single (hwf : Memory.wf s.mem) (h1 : s.symCount = 1) (hsym : s.freq sym.toNat ≠ 0) (n : Nat) :
    ∃ i t o, forElems decodeElem (List.range n) ((buildTree s).setOutLen 0) = (t, o) ∧ RepeatedSoFar s sym i t ∧
      ((o = none ∧ i = n) ∨ ∃ e, o = some e ∧ i < n ∧ SingleError s i e) := by
  induction n with
  | zero => exact ⟨0, _, none, rfl, repeatedSoFar_start hwf h1 hsym, .inl ⟨rfl, rfl⟩⟩
  | succ n ih =>
    rw [List.range_succ]
    obtain ⟨i, t, o, he, hd, ⟨rfl, rfl⟩ | ⟨e, rfl, hi, herr⟩⟩ := ih
    · rw [forElems_append he, forElems_cons]
      rcases hd.nextBit h1 hsym with ⟨t', he', hd'⟩ | ⟨e, he', herr⟩
      · exact ⟨i + 1, t', none, by rw [he']; rfl, hd', .inl ⟨rfl, rfl⟩⟩
      · exact ⟨i, t, some e, by rw [he'], hd, .inr ⟨e, rfl, Nat.lt_succ_self i, herr⟩⟩
    · exact ⟨i, t, some e, forElems_append_error he, hd, .inr ⟨e, rfl, Nat.lt_succ_of_lt hi, herr⟩⟩

end

/-- HUF_DECODE with BIT_LEN over the buffer raises in its pre-check (43_huffman_codec.md R135). -/
theorem failsAlone_hufDecode {s : State} (hover : 2 ^ 20 < s.csr.bitLen.toNat) : failsAlone .hufDecode s 4 0 :=
  failsAlone_of_finish (code := .capacityExceeded) (exec_hufDecode s) (if_pos hover) (if_pos hover) (by decide)

/-- HUF_DECODE of the empty table (43_huffman_codec.md R131, R135). -/
theorem exec_hufDecode_of_empty {s : State} (hwf : Memory.wf s.mem) (hbits : s.csr.bitLen.toNat ≤ 2 ^ 20)
    (h0 : s.symCount = 0) : ∃ t, exec .hufDecode s = .next t ∧
      OnlyDecoded s t ∧
      t.csr.outLen = 0 ∧ (s.csr.bitLen.toNat = 0 → succeeded s t 0) ∧ (s.csr.bitLen.toNat ≠ 0 → failed t 1 0) := by
  obtain ⟨t, he, honly, hout, hok, herr⟩ :=
    exec_hufDecode_of_loop hbits (decodeLoop_of_empty h0 _) (outputSoFar_start hwf) rfl
  have hlen := congrArg List.length hout
  rw [State.outSlice_length, Nat.sub_zero] at hlen
  exact ⟨t, he, honly, BitVec.eq_of_toNat_eq hlen, fun hz => hok (if_pos hz),
    fun hne => herr _ (if_neg hne) (by decide)⟩

/-- HUF_DECODE of a table of one symbol (43_huffman_codec.md R131, R135). -/
theorem exec_hufDecode_of_single {s : State} (hwf : Memory.wf s.mem) (hbits : s.csr.bitLen.toNat ≤ 2 ^ 20)
    (h1 : s.symCount = 1) {sym : Byte} (hsym : s.freq sym.toNat ≠ 0) : ∃ t, exec .hufDecode s = .next t ∧
      OnlyDecoded s t ∧
      ∃ i, i ≤ 4096 ∧ (∀ j, j < i → bitRead s j = false) ∧ t.outSlice 0 t.csr.outLen.toNat = List.replicate i sym ∧
        ((i = s.csr.bitLen.toNat ∧ succeeded s t i) ∨
          (i < s.csr.bitLen.toNat ∧ bitRead s i = true ∧ failed t 1 i) ∨
          (i < s.csr.bitLen.toNat ∧ bitRead s i = false ∧ i = 4096 ∧ failed t 4 i)) := by
  obtain ⟨i, u, o, he, hd, hend⟩ := decodeLoop_of_single hwf h1 hsym s.csr.bitLen.toNat
  obtain ⟨t, hexec, honly, hout, hok, herr⟩ :=
    exec_hufDecode_of_loop hbits he hd.toOutputSoFar hd.atRoot
  have hlen := hd.outLen_eq
  have hfull := hd.full
  rw [hd.repeated] at hout
  rw [hlen] at hok
  refine ⟨t, hexec, honly, i, by omega, hd.zeros, hout, ?_⟩
  rcases hend with ⟨ho, hi⟩ | ⟨e, ho, hi, ⟨hbit, rfl⟩ | ⟨hbit, h4096, rfl⟩⟩
  · exact .inl ⟨hi, hok ho⟩
  · exact .inr (.inl ⟨hi, hbit, herr _ ho (by simp only; omega)⟩)
  · exact .inr (.inr ⟨hi, hbit, h4096, herr _ ho (by simp only; omega)⟩)

/-- Settles O38: the loop of HUF_DECODE on the empty table stops at its first bit, that on a table of one symbol repeats the
symbol up to the first 1 bit or to a full OUT, and on any other table HUF_DECODE is the buffer algorithm. -/
theorem hufDecodeOfDegenerateTables : Obligations.HufDecodeOfDegenerateTables := by
  unfold Obligations.HufDecodeOfDegenerateTables
  refine fun s hwf => ⟨failsAlone_hufDecode, fun hbits => ?_⟩
  rw [distinctCount_eq_symCount]
  obtain h0 | h1 | hk : s.symCount = 0 ∨ s.symCount = 1 ∨ 2 ≤ s.symCount := by omega
  · obtain ⟨t, he, ⟨hvalid, htree, hframe, hmem⟩, hend⟩ := exec_hufDecode_of_empty hwf hbits h0
    exact ⟨t, he, hvalid, htree, hframe, hmem, fun _ => hend, fun _ h1 => by omega⟩
  · obtain ⟨v, hv⟩ := exists_present_of_single h1
    obtain ⟨t, he, ⟨hvalid, htree, hframe, hmem⟩, i, hi, hzeros, hout, hend⟩ :=
      exec_hufDecode_of_single hwf hbits h1 hv
    refine ⟨t, he, hvalid, htree, hframe, hmem, fun h0 => by omega, fun sym _ hsym => ?_⟩
    have hsingle := (presentSyms_eq_singleton h1 hsym).symm.trans (presentSyms_eq_singleton h1 hv)
    obtain rfl : sym = v := BitVec.eq_of_toNat_eq (List.singleton_inj.1 hsingle)
    refine ⟨fun hshort hall => ?_, fun n hn hn4096 hbit hall => ?_, fun hlong hall => ?_⟩
    · rcases hend with ⟨rfl, hok⟩ | ⟨hlt, hbit, -⟩ | ⟨hlt, -, h4096, -⟩
      · exact ⟨hok, hout⟩
      · exact absurd (hall i hlt) (by simp [hbit])
      · omega
    · rcases hend with ⟨rfl, -⟩ | ⟨-, hone, herr⟩ | ⟨-, hzero, rfl, -⟩
      · exact absurd (hzeros n hn) (by simp [hbit])
      · rcases Nat.lt_trichotomy i n with hlt | rfl | hlt
        · exact absurd (hall i hlt) (by simp [hone])
        · exact ⟨herr, hout⟩
        · exact absurd (hzeros n hlt) (by simp [hbit])
      · rcases Nat.lt_or_eq_of_le hn4096 with hlt | rfl
        · exact absurd (hzeros n hlt) (by simp [hbit])
        · exact absurd hzero (by simp [hbit])
    · rcases hend with ⟨rfl, -⟩ | ⟨-, hbit, -⟩ | ⟨-, -, rfl, herr⟩
      · omega
      · exact absurd (hall i hi) (by simp [hbit])
      · exact ⟨herr, hout⟩
  · obtain ⟨t, he, hvalid, htree, hframe, hmem, -⟩ :=
      hufDecodeIsTheBufferAlgorithm s hwf hbits (distinctCount_eq_symCount s ▸ hk)
    exact ⟨t, he, hvalid, htree, hframe, hmem, fun h0 => by omega, fun _ h1 => by omega⟩

/-! ### The round trip -/

/-- HUF_DECODE of the codes of the only symbol gives it back as often (43_huffman_codec.md R138). -/
theorem exec_hufDecode_of_zeros {s : State} (hwf : Memory.wf s.mem) (hbits : s.csr.bitLen.toNat ≤ 2 ^ 20)
    (h1 : s.symCount = 1) {xs : List Byte} (hlen : xs.length ≤ 4096) (hxs : ∀ x ∈ xs, s.freq x.toNat ≠ 0)
    (hcodes : bitsOf s s.csr.bitLen.toNat = xs.flatMap fun x => freqCode s x.toNat) :
    ∃ t, exec .hufDecode s = .next t ∧ succeeded s t xs.length ∧ t.outSlice 0 t.csr.outLen.toNat = xs := by
  obtain ⟨v, hv⟩ := exists_present_of_single h1
  have hall : ∀ x ∈ xs, x = v := fun x hx => BitVec.eq_of_toNat_eq <| List.singleton_inj.1 <|
    (presentSyms_eq_singleton h1 (hxs x hx)).symm.trans (presentSyms_eq_singleton h1 hv)
  have hzeros : bitsOf s s.csr.bitLen.toNat = List.replicate xs.length false := by
    rw [hcodes, List.flatMap_congr (g := fun _ => [false]) fun x hx => freqCode_of_single h1 (hxs x hx),
      ← List.map_eq_flatMap, List.map_const']
  have hbitLen := congrArg List.length hzeros
  simp only [bitsOf, List.length_map, List.length_range, List.length_replicate] at hbitLen
  have hbit : ∀ j, j < s.csr.bitLen.toNat → bitRead s j = false := fun j hj => by
    have hmem : bitRead s j ∈ bitsOf s s.csr.bitLen.toNat := List.mem_map_of_mem (List.mem_range.2 hj)
    exact List.eq_of_mem_replicate (hzeros ▸ hmem)
  obtain ⟨t, he, -, i, -, -, hout, ⟨rfl, hok⟩ | ⟨hi, hone, -⟩ | ⟨hi, -, rfl, -⟩⟩ :=
    exec_hufDecode_of_single hwf hbits h1 hv
  · rw [hbitLen] at hok hout
    exact ⟨t, he, hok, hout.trans (List.eq_replicate_of_mem hall).symm⟩
  · exact absurd (hbit i hi) (by simp [hone])
  · omega

/-- HUF_DECODE of the codes of present symbols gives the symbols back (43_huffman_codec.md R138). -/
theorem exec_hufDecode_of_codes {s : State} (hwf : Memory.wf s.mem) (hbits : s.csr.bitLen.toNat ≤ 2 ^ 20)
    {xs : List Byte} (hlen : xs.length ≤ 4096) (hxs : ∀ x ∈ xs, s.freq x.toNat ≠ 0)
    (hcodes : bitsOf s s.csr.bitLen.toNat = xs.flatMap fun x => freqCode s x.toNat) :
    ∃ t, exec .hufDecode s = .next t ∧ succeeded s t xs.length ∧ t.outSlice 0 t.csr.outLen.toNat = xs := by
  have hbitLen : s.csr.bitLen.toNat = (xs.flatMap fun x => freqCode s x.toNat).length := by
    rw [← hcodes, bitsOf, List.length_map, List.length_range]
  obtain h0 | h1 | hk : s.symCount = 0 ∨ s.symCount = 1 ∨ 2 ≤ s.symCount := by omega
  · obtain rfl : xs = [] := List.eq_nil_iff_forall_not_mem.2 fun x hx => by
      have hmem := mem_presentSyms.2 ⟨x.isLt, hxs x hx⟩
      rw [symCount_eq_zero.1 h0] at hmem
      cases hmem
    obtain ⟨t, he, -, hout, hok, -⟩ := exec_hufDecode_of_empty hwf hbits h0
    exact ⟨t, he, hok hbitLen, by rw [hout]; rfl⟩
  · exact exec_hufDecode_of_zeros hwf hbits h1 hlen hxs hcodes
  · have hdecoded : bufferDecode (freqCode s) [] (bitsOf s s.csr.bitLen.toNat) = (xs, []) := by
      rw [hcodes]
      exact bufferDecode_codes (fun x hx => freqCode_ne_nil_iff.2 (hxs x hx)) fun x hx w hw =>
        eq_of_freqCode_isPrefix (hxs x hx) hw
    obtain ⟨t, he, -, -, -, -, hshort, -⟩ :=
      hufDecodeIsTheBufferAlgorithm s hwf hbits (distinctCount_eq_symCount s ▸ hk)
    rw [hdecoded] at hshort
    obtain ⟨hout, -, -, hok, -⟩ := hshort hlen
    have hcount := congrArg List.length hout
    rw [State.outSlice_length, Nat.sub_zero] at hcount
    exact ⟨t, he, hcount ▸ hok rfl, hout⟩

/-- The code of a symbol in a valid tree is the one derived from FREQ (10_state.md R28). -/
theorem State.treeOk.codeBits_lutAt {s : State} (h : s.treeOk) (hv : s.csr.treeValid = true) (b : Byte) :
    codeBits (s.lutAt b) = freqCode s b.toNat := by
  obtain ⟨-, hlut, -⟩ := (State.treeOk_of_valid hv).1 h
  rw [State.lutAt, hlut, freqCode]

/-- Settles O41: HUF_ENCODE appends the codes of the input to the empty bit sequence, and HUF_DECODE gives back the symbols
of any sequence of codes. -/
theorem huffmanRoundTrip : Obligations.HuffmanRoundTrip := by
  unfold Obligations.HuffmanRoundTrip
  intro s h hlen
  obtain ⟨t, he, -, happ⟩ := exec_hufEncode_of_le h hlen
  obtain ⟨hfreq, htree, hvalid, -, -⟩ := happ.encoded
  obtain ⟨hbitLen, hbits⟩ := happ.bitsOf_eq rfl
  have hfits := codesOf_input_fits hlen
  have hpresent : ∀ b ∈ input s, t.freq b.toNat ≠ 0 := fun b hb => by
    rw [hfreq _ b.isLt]
    exact (mem_presentSyms.1 ((mem_presentSyms_countedInput h hlen).2 (List.mem_map_of_mem hb))).2
  have hcodes : bitsOf t t.csr.bitLen.toNat = (input s).flatMap fun b => freqCode t b.toNat := by
    rw [hbits, ← happ.codesOf_eq]
    exact List.flatMap_congr fun b _ => htree.codeBits_lutAt hvalid b
  obtain ⟨u, hu, hok, hout⟩ := exec_hufDecode_of_codes happ.wf (hbitLen ▸ hfits) (input_length s ▸ hlen) hpresent hcodes
  have houtLen := congrArg List.length hout
  rw [State.outSlice_length, Nat.sub_zero, input_length] at houtLen
  rw [input_length] at hok
  rw [houtLen] at hout
  refine ⟨t, u, he, hu, hok, houtLen, fun i hi => List.map_inj_left.1 hout i (mem_slice.2 ⟨Nat.zero_le i, hi⟩),
    fun h0 => ?_, fun hone b hb => ?_⟩
  · have hnil : input s = [] := List.eq_nil_of_length_eq_zero ((input_length s).trans (congrArg BitVec.toNat h0))
    rw [hnil] at hbitLen
    exact BitVec.eq_of_toNat_eq hbitLen
  · have h1 : t.symCount = 1 := by
      rw [State.symCount, presentSyms_congr hfreq, length_presentSyms_countedInput h hlen, hone]
    rw [htree.codeBits_lutAt hvalid, freqCode_of_single h1 (hpresent b hb)]

end Sys2Proof.Machine
end

section
/-! PROOFS. The window commands: each replaces the selected window by what its primitive makes of it, or reads it, and
changes nothing else but the record (44_window.md). -/

namespace Sys2Proof.Machine

/-! ### What the primitives do -/

section
variable {x : Window}

/-- A push with room appends and evicts nothing (44_window.md R141). -/
theorem Window.push_of_room (h : x.seq.length < x.cap) (b : Byte) : x.push b = (⟨x.cap, x.seq ++ [b]⟩, 0, 0) := by
  have hfits : ¬ x.cap < (x.seq ++ [b]).length := by
    rw [List.length_append, List.length_singleton]
    omega
  rw [Window.push, if_neg hfits]

/-- A push on a full window evicts the oldest symbol (44_window.md R141). -/
theorem Window.push_of_full {a : Byte} {rest : List Byte} (hseq : x.seq = a :: rest) (h : x.seq.length = x.cap) (b : Byte) :
    x.push b = (⟨x.cap, rest ++ [b]⟩, 1, a) := by
  have hover : x.cap < (x.seq ++ [b]).length := by
    rw [List.length_append, List.length_singleton]
    omega
  rw [Window.push, if_pos hover, hseq]
  rfl

/-- An eviction takes the oldest symbols from the front, however many are asked for (44_window.md R141). -/
theorem Window.evict_seq (c : Nat) : (x.evict c).1.seq = x.seq.drop c := by
  rcases Nat.le_total c x.seq.length with h | h
  · rw [Window.evict, Nat.min_eq_left h]
  · rw [Window.evict, Nat.min_eq_right h, List.drop_length, List.drop_eq_nil_of_le h]

/-- What pushing many leaves is a suffix of the old sequence and the new symbols (44_window.md R144). -/
theorem Window.pushMany_suffix (h : x.seq.length ≤ x.cap) (xs : List Byte) : (x.pushMany xs).1.seq <:+ x.seq ++ xs := by
  rw [Window.pushMany_seq h]
  exact List.drop_suffix _ _

/-- After pushing many the window holds as many symbols as fit (44_window.md R144). -/
theorem Window.pushMany_length (h : x.seq.length ≤ x.cap) (xs : List Byte) :
    (x.pushMany xs).1.seq.length = min x.cap (x.seq.length + xs.length) := by
  rw [Window.pushMany_seq h, List.length_drop, List.length_append]
  omega

end

/-! ### What the commands do -/

theorem exec_winInit (sel : WinSel) (c : Nat) (s : State) :
    exec (.winInit sel c) s = .next (complete (runWinInit sel c s)) := rfl

theorem exec_winPush (sel : WinSel) (sym : Byte) (s : State) :
    exec (.winPush sel sym) s = .next (complete (runWinPush sel sym s)) := rfl

theorem exec_winPushn (sel : WinSel) (s : State) :
    exec (.winPushn sel) s = .next (complete (runWinPushn sel s)) := rfl

theorem exec_winEvict (sel : WinSel) (cnt : Nat) (s : State) :
    exec (.winEvict sel cnt) s = .next (complete (runWinEvict sel cnt s)) := rfl

theorem exec_winRead (sel : WinSel) (idx : Nat) (s : State) :
    exec (.winRead sel idx) s = .next (complete (runWinRead sel idx s)) := rfl

section
variable {s : State} {sel : WinSel}

/-- A command whose `Exec` raises in a pre-check, with no event of its own, fails and changes its record alone
(40_control.md R105). -/
theorem failsAlone_of_complete {i : Instr} {r : ExecResult} {code : ErrCode} {pos : Nat}
    (hexec : exec i s = .next (complete r)) (hr : r = raise code pos s) (hpos : pos < 2 ^ 21) :
    failsAlone i s code.num.toNat pos :=
  failsAlone_of_raise (hr ▸ hexec) hpos

/-- A command whose `Exec` replaces the selected window succeeds, and changes that window and its record alone
(40_control.md R104). -/
theorem succeeds_of_setWin {i : Instr} {r : ExecResult} {x : Window} {v : Nat} (hexec : exec i s = .next (complete r))
    (hr : r = ⟨s.setWin sel x, .ok v⟩) (hv : v < 2 ^ 32) :
    ∃ t, exec i s = .next t ∧ succeeded s t v ∧ t.win sel = x ∧ t = (recorded s t).setWin sel (t.win sel) := by
  subst hr
  have hrecord := succeeded_complete (s := s) (congrArg (·.stickyErr) (s.setWin_csr sel x)) hv []
  rw [emit_nil] at hrecord
  refine ⟨_, hexec, hrecord, ?_, ?_⟩ <;> cases sel <;> rfl

theorem runWinInit_of_range {c : Nat} (hpos : c ≠ 0) (hmax : c ≤ capMax sel) :
    runWinInit sel c s = ⟨s.setWin sel (Window.construct c), .ok c⟩ :=
  if_neg (not_or.2 ⟨hpos, Nat.not_lt.2 hmax⟩)

theorem runWinPush_of_ready (h : (s.win sel).cap ≠ 0) {x : Window} {n : Nat} {sym b : Byte}
    (hpush : (s.win sel).push sym = (x, n, b)) :
    runWinPush sel sym s = ⟨s.setWin sel x, .ok (n <<< 8 ||| b.toNat)⟩ := by
  simp only [runWinPush, if_neg h, hpush]

theorem runWinPushn_of_gt (h : (s.win sel).cap ≠ 0) (hlen : 4096 < s.csr.inLen.toNat) :
    runWinPushn sel s = raise .capacityExceeded 0 s :=
  (if_neg h).trans (if_pos hlen)

theorem runWinPushn_of_le (h : (s.win sel).cap ≠ 0) (hlen : s.csr.inLen.toNat ≤ 4096) :
    runWinPushn sel s =
      ⟨s.setWin sel ((s.win sel).pushMany (input s)).1, .ok ((s.win sel).pushMany (input s)).2⟩ :=
  (if_neg h).trans (if_neg (Nat.not_lt.2 hlen))

theorem runWinEvict_of_ready (h : (s.win sel).cap ≠ 0) (cnt : Nat) :
    runWinEvict sel cnt s = ⟨s.setWin sel ((s.win sel).evict cnt).1, .ok ((s.win sel).evict cnt).2⟩ :=
  if_neg h

theorem runWinRead_of_none {idx : Nat} (h : (s.win sel).cap ≠ 0) (hread : (s.win sel).seq[idx]? = none) :
    runWinRead sel idx s = raise .badIndex idx s := by
  simp only [runWinRead, if_neg h, hread]

theorem runWinRead_of_some {idx : Nat} {b : Byte} (h : (s.win sel).cap ≠ 0) (hread : (s.win sel).seq[idx]? = some b) :
    runWinRead sel idx s = ⟨s, .ok b.toNat⟩ := by
  simp only [runWinRead, if_neg h, hread]

end

/-- WIN_INIT by the capacity of the selected store (44_window.md R142). -/
theorem winInit_by_capacity (s : State) (sel : WinSel) (c : Nat) :
    (1 ≤ c → c ≤ capMax sel → ∃ t, exec (.winInit sel c) s = .next t ∧ succeeded s t c ∧ t.win sel = ⟨c, []⟩ ∧
      t = (recorded s t).setWin sel (t.win sel)) ∧
    (c = 0 ∨ capMax sel < c → failsAlone (.winInit sel c) s 2 0) := by
  refine ⟨fun hpos hmax => ?_, fun hbad => ?_⟩
  · have hcap : capMax sel ≤ 4095 := by cases sel <;> decide
    exact succeeds_of_setWin (exec_winInit sel c s) (runWinInit_of_range (Nat.one_le_iff_ne_zero.1 hpos) hmax) (by omega)
  · exact failsAlone_of_complete (code := .invalidConfiguration) (exec_winInit sel c s) (if_pos hbad) (by decide)

/-! ### The statements -/

/-- Settles O46: with the window invariant, pushing many keeps the last symbols that fit and counts the others. -/
theorem winPushnKeepsTheLastSymbols : Obligations.WinPushnKeepsTheLastSymbols := by
  unfold Obligations.WinPushnKeepsTheLastSymbols
  refine fun s sel hinv => ⟨fun h0 => ?_, fun h hlen => ?_, fun h hlen => ?_⟩
  · exact failsAlone_of_complete (code := .notReady) (exec_winPushn sel s) (if_pos h0) (by decide)
  · exact failsAlone_of_complete (exec_winPushn sel s) (runWinPushn_of_gt h hlen) (by decide)
  · have hcount := Window.pushMany_count hinv (input s)
    have hlast := Window.pushMany_length hinv (input s)
    rw [input_length] at hcount hlast
    obtain ⟨t, he, hrecord, hwin, hframe⟩ :=
      succeeds_of_setWin (exec_winPushn sel s) (runWinPushn_of_le h hlen) (by omega)
    refine ⟨t, he, hcount ▸ hrecord, ?_, ?_, ?_, hframe⟩ <;> rw [hwin]
    · exact Window.pushMany_cap _
    · exact Window.pushMany_suffix hinv _
    · exact hlast

/-- Settles O44: the largest capacity of each store is the statement's bound. -/
theorem winInitConstructs : Obligations.WinInitConstructs := by
  unfold Obligations.WinInitConstructs
  intro s sel c
  cases sel with
  | hwin => exact winInit_by_capacity s .hwin c
  | lwin => exact winInit_by_capacity s .lwin c

/-- Settles O45: the result packs the eviction flag above the evicted symbol. -/
theorem winPushAppendsOrEvicts : Obligations.WinPushAppendsOrEvicts := by
  unfold Obligations.WinPushAppendsOrEvicts
  refine fun s sel sym => ⟨fun h0 => ?_, fun hroom => ?_, fun b rest hseq hfull => ?_⟩
  · exact failsAlone_of_complete (code := .notReady) (exec_winPush sel sym s) (if_pos h0) (by decide)
  · exact succeeds_of_setWin (exec_winPush sel sym s)
      (runWinPush_of_ready (Nat.ne_zero_of_lt hroom) (Window.push_of_room hroom sym)) (by decide)
  · have hcap : (s.win sel).cap ≠ 0 := by
      rw [← hfull, hseq]
      exact Nat.succ_ne_zero _
    have hresult : 1 <<< 8 ||| b.toNat = 0x100 + b.toNat := (Nat.shiftLeft_add_eq_or_of_lt b.isLt 1).symm
    have hrun := runWinPush_of_ready hcap (Window.push_of_full hseq hfull sym)
    rw [hresult] at hrun
    exact succeeds_of_setWin (exec_winPush sel sym s) hrun (by omega)

/-- Settles O47: the evicted symbols and those that stay are the old sequence. -/
theorem winEvictRemovesTheOldest : Obligations.WinEvictRemovesTheOldest := by
  unfold Obligations.WinEvictRemovesTheOldest
  refine fun s sel cnt hlen => ⟨fun h0 => ?_, fun h => ?_⟩
  · exact failsAlone_of_complete (code := .notReady) (exec_winEvict sel cnt s) (if_pos h0) (by decide)
  · obtain ⟨t, he, hrecord, hwin, hframe⟩ :=
      succeeds_of_setWin (exec_winEvict sel cnt s) (runWinEvict_of_ready h cnt) ((Nat.min_le_right _ _).trans_lt hlen)
    refine ⟨t, he, hrecord, ?_, ?_, hframe⟩ <;> rw [hwin]
    · exact Window.evict_cap cnt
    · rw [Window.evict_seq, List.take_append_drop]

/-- Settles O48: the state is left as it is, and the record answers the symbol or the error. -/
theorem winReadAnswersTheSymbol : Obligations.WinReadAnswersTheSymbol := by
  unfold Obligations.WinReadAnswersTheSymbol
  refine fun s sel idx hidx => ⟨fun h0 => ?_, fun h hover => ?_, fun b h hread => ?_⟩
  · exact failsAlone_of_complete (code := .notReady) (exec_winRead sel idx s) (if_pos h0) (by decide)
  · exact failsAlone_of_complete (exec_winRead sel idx s) (runWinRead_of_none h (List.getElem?_eq_none hover)) (by omega)
  · have hrecord := succeeded_complete (s := s) (t := s) (v := b.toNat) rfl (by omega) []
    rw [emit_nil] at hrecord
    exact ⟨_, by rw [exec_winRead, runWinRead_of_some h hread], hrecord, rfl⟩

end Sys2Proof.Machine
end

section
/-! PROOFS. The matcher: a scan for the first offset with the longest match, and what that says of the token it answers
(45_lzss.md R149). -/

namespace Sys2Proof.Machine

section
variable (f : Nat → Byte) (n w b p : Nat)

/-- The length of the match at offset `o`, within the cap (45_lzss.md R149). -/
def matchLength (o : Nat) : Nat := extendMatch f o p (min b (n - p - 1)) 0

theorem matchLength_le (o : Nat) : matchLength f n b p o ≤ min b (n - p - 1) := by
  obtain ⟨-, hle, -⟩ := extendMatch_spec f o p (min b (n - p - 1)) 0
  rwa [Nat.zero_add] at hle

theorem eq_of_lt_matchLength {o j : Nat} (hj : j < matchLength f n b p o) : f (o + j) = f (p + j) := by
  obtain ⟨-, -, heq, -⟩ := extendMatch_spec f o p (min b (n - p - 1)) 0
  exact heq j (Nat.zero_le j) hj

/-- The match at an offset goes on as long as the symbols agree, within the cap. -/
theorem le_matchLength {o l : Nat} (hl : l ≤ min b (n - p - 1)) (heq : ∀ j, j < l → f (o + j) = f (p + j)) :
    l ≤ matchLength f n b p o := by
  obtain ⟨-, -, -, hstop⟩ := extendMatch_spec f o p (min b (n - p - 1)) 0
  by_contra hlt
  exact hstop (by rw [matchLength] at hlt; omega) (heq _ (Nat.lt_of_not_le hlt))

/-- In a slice split at an element, the smaller offsets stand before it. -/
theorem mem_of_slice_eq_append {a c o x : Nat} {pre post : List Nat} (h : slice a c = pre ++ o :: post) (ha : a ≤ x)
    (hx : x < o) : x ∈ pre := by
  have hsorted : (pre ++ o :: post).Pairwise (· < ·) := h ▸ List.pairwise_lt_range'
  have ho : o < c := (mem_slice.1 (h ▸ List.mem_append_right pre List.mem_cons_self)).2
  have hmem : x ∈ pre ++ o :: post := h ▸ mem_slice.2 ⟨ha, hx.trans ho⟩
  rcases List.mem_append.1 hmem with hpre | hpost
  · exact hpre
  · obtain ⟨-, hsuffix, -⟩ := List.pairwise_append.1 hsorted
    rcases List.mem_cons.1 hpost with rfl | hpost
    · exact absurd hx (Nat.lt_irrefl x)
    · exact absurd ((List.pairwise_cons.1 hsuffix).1 x hpost) (Nat.lt_asymm hx)

/-- The matcher answers a literal where no offset of the history matches, and otherwise the first of the offsets with the
longest match (45_lzss.md R149). -/
theorem findMatch_cases :
    (findMatch f n w b p = ⟨0, 0, f p⟩ ∧ ∀ o, p - w ≤ o → o < p → matchLength f n b p o = 0) ∨
      ∃ o, p - w ≤ o ∧ o < p ∧ 0 < matchLength f n b p o ∧
        findMatch f n w b p = ⟨p - o, matchLength f n b p o, f (p + matchLength f n b p o)⟩ ∧
        (∀ x, p - w ≤ x → x < p → matchLength f n b p x ≤ matchLength f n b p o) ∧
        ∀ x, p - w ≤ x → x < o → matchLength f n b p x < matchLength f n b p o := by
  obtain ⟨-, hmax, hbest | ⟨pre, o, post, hsplit, hbest, hpos, hfirst⟩⟩ :=
    scanOffsets_spec f p (min b (n - p - 1)) (slice (p - w) p) (0, 0)
  · rw [hbest] at hmax
    refine .inl ⟨?_, fun o hlo hhi => Nat.le_zero.1 (hmax o (mem_slice.2 ⟨hlo, hhi⟩))⟩
    simp only [findMatch, hbest, Nat.lt_irrefl, if_false]
  · rw [hbest] at hmax
    obtain ⟨hlo, hhi⟩ := mem_slice.1 (hsplit ▸ List.mem_append_right pre List.mem_cons_self : o ∈ slice (p - w) p)
    refine .inr ⟨o, hlo, hhi, hpos, ?_, fun x hlo hhi => hmax x (mem_slice.2 ⟨hlo, hhi⟩), fun x hlo hx =>
      hfirst x (mem_of_slice_eq_append hsplit hlo hx)⟩
    simp only [findMatch, hbest, if_pos hpos, matchLength]

end

/-- Settles O49: of the offsets with the longest match the scan names the first. -/
theorem matchIsTheLongestAtTheSmallestOffset : Obligations.MatchIsTheLongestAtTheSmallestOffset := by
  unfold Obligations.MatchIsTheLongestAtTheSmallestOffset
  intro f n w b p _
  rcases findMatch_cases f n w b p with ⟨hlit, hnone⟩ | ⟨o, hlo, hhi, hpos, htok, hmax, hfirst⟩
  · rw [hlit]
    refine ⟨fun _ => ⟨rfl, or_iff_not_imp_left.2 fun hcap o hlo hhi heq => ?_⟩, fun h => absurd h (Nat.lt_irrefl 0)⟩
    have hone := le_matchLength f n b p (o := o) (l := 1) (by omega) fun j hj => by
      obtain rfl : j = 0 := by omega
      exact heq
    have hzero := hnone o hlo hhi
    omega
  · rw [htok]
    refine ⟨fun h => absurd h (Nat.ne_of_gt hpos), fun _ => ⟨?_, ?_, matchLength_le f n b p o, rfl, fun j hj => ?_,
      fun x l hlox hx hl heq => ?_⟩⟩
    · simp only; omega
    · simp only; omega
    · simp only
      rw [Nat.sub_sub_self (Nat.le_of_lt hhi), eq_of_lt_matchLength f n b p hj]
    · have hle := le_matchLength f n b p hl heq
      refine ⟨hle.trans (hmax x hlox hx), fun hlen => ?_⟩
      simp only at hlen ⊢
      by_contra hlt
      have hshorter := hfirst x hlox (by omega)
      omega

end Sys2Proof.Machine
end

section
/-! PROOFS. The encoder: a step appends the token of the match at the cursor to TOKBUF and leaves both windows as views of IN
at the new cursor, so that LZ_ENCSTEP writes one token and LZ_ENCODE those from cursor 0 to the end of IN (45_lzss.md R150 to
R152). -/

namespace Sys2Proof.Machine

/-! ### The windows as views of IN -/

theorem slice_drop (a b k : Nat) : (slice a b).drop k = slice (a + k) b := by
  rw [slice, List.drop_range', slice, Nat.mul_one, Nat.sub_sub]

/-- A slice continued, from where it ends, or from its beginning where it is empty. -/
theorem slice_append_slice {a b c : Nat} (h : b ≤ c) : slice a b ++ slice (max a b) c = slice a c := by
  rcases Nat.le_total a b with hab | hba
  · obtain ⟨n, rfl⟩ := Nat.exists_eq_add_of_le hab
    obtain ⟨k, rfl⟩ := Nat.exists_eq_add_of_le h
    rw [Nat.max_eq_right hab, slice, slice, slice, Nat.add_sub_cancel_left, Nat.add_sub_cancel_left, Nat.add_assoc,
      Nat.add_sub_cancel_left]
    exact List.range'_append_1
  · rw [Nat.max_eq_left hba, slice, Nat.sub_eq_zero_of_le hba, List.range'_zero, List.nil_append]

section
variable {s t u : State} {p len : Nat} {ts : List Token}

theorem State.inSlice_append {a b c : Nat} (h : b ≤ c) : s.inSlice a b ++ s.inSlice (max a b) c = s.inSlice a c := by
  rw [State.inSlice, State.inSlice, ← List.map_append, slice_append_slice h, State.inSlice]

theorem State.inSlice_drop (a b k : Nat) : (s.inSlice a b).drop k = s.inSlice (a + k) b := by
  rw [State.inSlice, ← List.map_drop, slice_drop, State.inSlice]

theorem State.inSlice_of_ge {a b : Nat} (h : b ≤ a) : s.inSlice a b = [] :=
  List.eq_nil_of_length_eq_zero ((State.inSlice_length s a b).trans (Nat.sub_eq_zero_of_le h))

theorem Window.construct_pushMany_of_le {c : Nat} {xs : List Byte} (h : xs.length ≤ c) :
    ((Window.construct c).pushMany xs).1 = ⟨c, xs⟩ := by
  rw [Window.construct_pushMany, Nat.sub_eq_zero_of_le h, List.drop_zero]

/-- A window on a slice of IN, pushed the symbols after it, is a window on the last of both (44_window.md R141). -/
theorem Window.pushMany_inSlice {a b c d : Nat} (hcap : b - a ≤ c) (h : b ≤ d) :
    (Window.pushMany ⟨c, s.inSlice a b⟩ (s.inSlice (max a b) d)).1 = ⟨c, s.inSlice (max a (d - c)) d⟩ := by
  have hseq := Window.pushMany_seq (x := ⟨c, s.inSlice a b⟩) (by rwa [State.inSlice_length]) (s.inSlice (max a b) d)
  have hkept := Window.pushMany_cap (x := ⟨c, s.inSlice a b⟩) (s.inSlice (max a b) d)
  simp only [State.inSlice_append h, State.inSlice_length, State.inSlice_drop] at hseq
  rw [show a + (d - a - c) = max a (d - c) by omega] at hseq
  generalize (Window.pushMany ⟨c, s.inSlice a b⟩ (s.inSlice (max a b) d)).1 = x at hseq hkept
  exact congrArg₂ Window.mk hkept hseq

/-- An eviction of no more than the window holds (44_window.md R141). -/
theorem Window.evict_min (x : Window) (c : Nat) : (x.evict (min c x.seq.length)).1 = ⟨x.cap, x.seq.drop c⟩ := by
  have hsame : x.evict (min c x.seq.length) = x.evict c := by
    simp only [Window.evict, Nat.min_assoc, Nat.min_self]
  rw [hsame, ← Window.evict_seq, ← Window.evict_cap c]

/-- Both windows of `t` are views of the IN of `s` at the cursor `p` (45_lzss.md R150). -/
structure ViewsAt (s : State) (p : Nat) (t : State) : Prop where
  hwin : t.hwin = ⟨s.csr.cfgW.toNat, s.inSlice (p - s.csr.cfgW.toNat) p⟩
  lwin : t.lwin = ⟨s.csr.cfgB.toNat, s.inSlice p (min s.csr.inLen.toNat (p + s.csr.cfgB.toNat))⟩

theorem viewsAt_loadWindows (p : Nat) (s : State) : ViewsAt s p (loadWindows p s) where
  hwin := Window.construct_pushMany_of_le (by rw [State.inSlice_length]; omega)
  lwin := Window.construct_pushMany_of_le (by rw [State.inSlice_length]; omega)

@[simp] theorem advanceCursor_csr (len p : Nat) (s : State) :
    (advanceCursor len p s).csr = { s.csr with lzPos := BitVec.ofNat 16 (p + len + 1) } := rfl

/-- The consumed symbols go from LWIN into HWIN, and LWIN is filled up: both are views at the new cursor
(45_lzss.md R150). -/
theorem ViewsAt.advanceCursor (h : ViewsAt s p t) (hin : ∀ i, i < s.csr.inLen.toNat → t.inSym i = s.inSym i)
    (hlen : t.csr.inLen = s.csr.inLen) (hb : t.csr.cfgB = s.csr.cfgB) (hp : p + len < s.csr.inLen.toNat) :
    ViewsAt s (p + len + 1) (advanceCursor len p t) := by
  have hslice : ∀ a b, b ≤ s.csr.inLen.toNat → t.inSlice a b = s.inSlice a b := fun a b hle =>
    inSlice_congr fun i hi => hin i (Nat.lt_of_lt_of_le hi hle)
  constructor <;> simp only [Machine.advanceCursor, State.setLzPos_hwin, State.setLzPos_lwin]
  · have hpush := Window.pushMany_inSlice (s := s) (a := p - s.csr.cfgW.toNat) (b := p) (c := s.csr.cfgW.toNat)
      (d := p + len + 1) (by omega) (by omega)
    rw [Nat.max_eq_right (Nat.sub_le p _), Nat.max_eq_right (by omega)] at hpush
    rw [h.hwin, hslice _ _ hp, hpush]
  · have hevict : (t.lwin.evict (min (len + 1) t.lwin.seq.length)).1 =
        ⟨s.csr.cfgB.toNat, s.inSlice (p + len + 1) (min s.csr.inLen.toNat (p + s.csr.cfgB.toNat))⟩ := by
      rw [Window.evict_min, h.lwin, State.inSlice_drop, Nat.add_assoc]
    have hpush := Window.pushMany_inSlice (s := s) (a := p + len + 1)
      (b := min s.csr.inLen.toNat (p + s.csr.cfgB.toNat)) (c := s.csr.cfgB.toNat)
      (d := min s.csr.inLen.toNat (p + len + 1 + s.csr.cfgB.toNat)) (by omega) (by omega)
    rw [Nat.max_eq_left (by omega : _ - s.csr.cfgB.toNat ≤ p + len + 1)] at hpush
    rw [hevict, hlen, hb, hslice _ _ (Nat.min_le_left _ _), hpush]

/-! ### The tokens written -/

/-- `s` with what the encoder writes as `t` has it: TOKBUF, TOK_LEN, LZ_POS, both windows, the completion record, the
trace. -/
def encoderFrame (s t : State) : State :=
  { recorded s t with mem := t.mem, hwin := t.hwin, lwin := t.lwin, trace := t.trace,
                      csr := { (recorded s t).csr with tokLen := t.csr.tokLen, lzPos := t.csr.lzPos } }

theorem encoderFrame_trans (h : t = encoderFrame s t) (h' : u = encoderFrame t u) : u = encoderFrame s u := by
  have hview := congrArg (fun x => encoderFrame x u) h
  exact h'.trans hview

/-- `t` is `s` with the tokens `ts` appended to TOKBUF at TOK_LEN, and the windows at the cursor. -/
structure TokensWritten (s : State) (ts : List Token) (t : State) : Prop where
  frame : t = encoderFrame s t
  wf : Memory.wf t.mem
  mem : sameOutside (tokAddr s.csr.tokLen.toNat) (tokAddr t.csr.tokLen.toNat) s t
  tokLen : t.csr.tokLen.toNat = s.csr.tokLen.toNat + ts.length
  tok : (List.range' s.csr.tokLen.toNat ts.length).map t.tok = ts.map Token.word
  views : ViewsAt s t.csr.lzPos.toNat t

/-- `Match` at cursor `p` of the input of `s` (45_lzss.md R149). -/
def State.matchAt (s : State) (p : Nat) : Token :=
  findMatch s.inSym s.csr.inLen.toNat s.csr.cfgW.toNat s.csr.cfgB.toNat p

theorem tokensWritten_loadWindows (hwf : Memory.wf s.mem) : TokensWritten s [] (loadWindows s.csr.lzPos.toNat s) :=
  ⟨rfl, hwf, fun _ _ => rfl, rfl, rfl, viewsAt_loadWindows _ s⟩

/-- TOKBUF lies beyond IN (20_memory.md R63). -/
theorem TokensWritten.inSym_eq (h : TokensWritten s ts t) {i : Nat} (hi : i < 4096) : t.inSym i = s.inSym i :=
  h.mem _ (.inl (by simp only [inAddr, inBase, tokAddr, tokBase]; omega))

/-- From an empty TOKBUF on, TOKBUF holds the tokens. -/
theorem TokensWritten.tok_from_zero (h : TokensWritten s ts t) (h0 : s.csr.tokLen.toNat = 0) :
    (List.range t.csr.tokLen.toNat).map t.tok = ts.map Token.word := by
  have htok := h.tok
  rwa [h0, ← List.range_eq_range', ← Nat.zero_add ts.length, ← h0, ← h.tokLen] at htok

/-- A token stored at TOK_LEN (45_lzss.md R150). -/
theorem TokensWritten.storeTok (h : TokensWritten s ts t) (hroom : t.csr.tokLen.toNat < 4096) (tk : Token) :
    TokensWritten s (ts ++ [tk]) ((t.setTok t.csr.tokLen.toNat tk.word).setTokLen (t.csr.tokLen.toNat + 1)) := by
  obtain ⟨hframe, hwf, hmem, htokLen, htok, hviews⟩ := h
  generalize t.csr.tokLen.toNat = m at hroom hmem htokLen ⊢
  have hlen : (BitVec.ofNat 16 (m + 1)).toNat = m + 1 := by rw [BitVec.toNat_ofNat]; omega
  refine ⟨encoderFrame_trans hframe rfl, State.setTok_wf hwf _ _, fun a ha => ?_, ?_, ?_, ⟨hviews.hwin, hviews.lwin⟩⟩
  · rw [State.setTokLen_csr, hlen] at ha
    refine (Memory.get_writeWord_of_ne ?_ _).trans (hmem a ?_) <;> simp only [tokAddr] at ha ⊢ <;> omega
  · rw [State.setTokLen_csr, hlen, htokLen, List.length_append, List.length_singleton, Nat.add_assoc]
  · have hread : ∀ i, ((t.setTok m tk.word).setTokLen (m + 1)).tok i = if m = i then tk.word else t.tok i := fun i =>
      State.tok_setTok hwf m i tk.word
    rw [List.length_append, List.length_singleton, List.range'_1_concat, List.map_append, List.map_append, ← htok,
      ← htokLen]
    refine congrArg₂ _ (List.map_congr_left fun i hi => ?_) (by simp [hread])
    rw [List.mem_range'_1] at hi
    rw [hread, if_neg (by omega)]

/-- The cursor moved on past a token that ends inside the input (45_lzss.md R150). -/
theorem TokensWritten.advanceCursor (h : TokensWritten s ts t) (hfits : s.csr.inLen.toNat ≤ 4096)
    (hinside : t.csr.lzPos.toNat + len < s.csr.inLen.toNat) :
    TokensWritten s ts (advanceCursor len t.csr.lzPos.toNat t) ∧
      (advanceCursor len t.csr.lzPos.toNat t).csr.lzPos.toNat = t.csr.lzPos.toNat + len + 1 := by
  have hin : ∀ i, i < s.csr.inLen.toNat → t.inSym i = s.inSym i := fun i hi => h.inSym_eq (hi.trans_le hfits)
  have hinLen : t.csr.inLen = s.csr.inLen := congrArg (·.csr.inLen) h.frame
  have hcfgB : t.csr.cfgB = s.csr.cfgB := congrArg (·.csr.cfgB) h.frame
  have hcursor : (Machine.advanceCursor len t.csr.lzPos.toNat t).csr.lzPos.toNat = t.csr.lzPos.toNat + len + 1 :=
    (BitVec.toNat_ofNat _ 16).trans (Nat.mod_eq_of_lt (by omega))
  refine ⟨⟨encoderFrame_trans h.frame rfl, h.wf, h.mem, h.tokLen, h.tok, ?_⟩, hcursor⟩
  rw [hcursor]
  exact h.views.advanceCursor hin hinLen hcfgB hinside

theorem TokensWritten.tokenAtCursor (h : TokensWritten s ts t) (hfits : s.csr.inLen.toNat ≤ 4096)
    (hpos : t.csr.lzPos.toNat < s.csr.inLen.toNat) : t.tokenAtCursor = s.matchAt t.csr.lzPos.toNat := by
  have hinLen : t.csr.inLen = s.csr.inLen := congrArg (·.csr.inLen) h.frame
  have hcfgW : t.csr.cfgW = s.csr.cfgW := congrArg (·.csr.cfgW) h.frame
  have hcfgB : t.csr.cfgB = s.csr.cfgB := congrArg (·.csr.cfgB) h.frame
  rw [State.tokenAtCursor, hinLen, hcfgW, hcfgB]
  exact findMatch_congr (fun i hi => h.inSym_eq (hi.trans_le hfits)) _ _ hpos

/-- One step of the encoder appends the token of the match at the cursor, and moves the cursor past it
(45_lzss.md R150). -/
theorem TokensWritten.step (h : TokensWritten s ts t) (hfits : s.csr.inLen.toNat ≤ 4096)
    (hroom : t.csr.tokLen.toNat < 4096) (hpos : t.csr.lzPos.toNat < s.csr.inLen.toNat) :
    TokensWritten s (ts ++ [s.matchAt t.csr.lzPos.toNat]) (lzStep t) ∧
      (lzStep t).csr.lzPos.toNat = t.csr.lzPos.toNat + (s.matchAt t.csr.lzPos.toNat).len + 1 := by
  rw [lzStep_eq, h.tokenAtCursor hfits hpos]
  exact (h.storeTok hroom _).advanceCursor hfits (findMatch_len_lt _ _ _ hpos)

/-- The completion adds the record and the trace. -/
theorem TokensWritten.recorded (h : TokensWritten s ts t) (hrecord : u = { recorded t u with trace := u.trace }) :
    TokensWritten s ts u := by
  have hmem : u.mem = t.mem := congrArg (·.mem) hrecord
  have htokLen : u.csr.tokLen = t.csr.tokLen := congrArg (·.csr.tokLen) hrecord
  have hlzPos : u.csr.lzPos = t.csr.lzPos := congrArg (·.csr.lzPos) hrecord
  have hhwin : u.hwin = t.hwin := congrArg (·.hwin) hrecord
  have hlwin : u.lwin = t.lwin := congrArg (·.lwin) hrecord
  have htok : u.tok = t.tok := funext fun i => by rw [State.tok, hmem, State.tok]
  refine ⟨encoderFrame_trans h.frame ?_, hmem ▸ h.wf, fun a ha => ?_, htokLen ▸ h.tokLen, htok ▸ h.tok,
    ⟨hhwin.trans (hlzPos ▸ h.views.hwin), hlwin.trans (hlzPos ▸ h.views.lwin)⟩⟩
  · have hview := congrArg (fun x => encoderFrame x u) hrecord
    exact hview
  · rw [hmem]
    exact h.mem a (htokLen ▸ ha)

/-- The loop of LZ_ENCODE writes the tokens from the cursor to the end of the input, and TOKBUF has room for them, because
each token consumes a symbol (45_lzss.md R151). -/
theorem TokensWritten.loop (hfits : s.csr.inLen.toNat ≤ 4096) {k : Nat} (h : TokensWritten s ts t)
    (htoks : t.csr.tokLen.toNat ≤ t.csr.lzPos.toNat) (hle : t.csr.lzPos.toNat ≤ s.csr.inLen.toNat)
    (hk : s.csr.inLen.toNat ≤ t.csr.lzPos.toNat + k) :
    ∃ u, lzLoop k t = (u, none) ∧ u.csr.lzPos = s.csr.inLen ∧ u.csr.tokLen.toNat ≤ s.csr.inLen.toNat ∧
      TokensWritten s (ts ++ tokensFrom s.inSym s.csr.inLen.toNat s.csr.cfgW.toNat s.csr.cfgB.toNat k
        t.csr.lzPos.toNat) u := by
  have hinLen : t.csr.inLen = s.csr.inLen := congrArg (·.csr.inLen) h.frame
  induction k generalizing t ts with
  | zero =>
    have hend : t.csr.lzPos = s.csr.inLen := BitVec.eq_of_toNat_eq (by omega)
    exact ⟨t, rfl, hend, by omega, by rwa [tokensFrom, List.append_nil]⟩
  | succ k ih =>
    rw [lzLoop, tokensFrom, hinLen]
    by_cases hpos : t.csr.lzPos.toNat < s.csr.inLen.toNat
    · have hroom : t.csr.tokLen.toNat < 4096 := by omega
      obtain ⟨hstep, hcursor⟩ := h.step hfits hroom hpos
      have hinside := findMatch_len_lt s.inSym s.csr.cfgW.toNat s.csr.cfgB.toNat hpos
      have htokLen := hstep.tokLen
      have htokLen' := h.tokLen
      rw [List.length_append, List.length_singleton] at htokLen
      rw [State.matchAt] at hcursor
      obtain ⟨u, hloop, hend, htoksEnd, hwritten⟩ := ih hstep (by omega) (by omega) (by omega) hinLen
      rw [hcursor, List.append_assoc] at hwritten
      rw [if_pos hpos, if_pos hpos, if_neg (show ¬ Config.nTokMax ≤ t.csr.tokLen.toNat from Nat.not_le.2 hroom)]
      exact ⟨u, hloop, hend, htoksEnd, hwritten⟩
    · have hend : t.csr.lzPos = s.csr.inLen := BitVec.eq_of_toNat_eq (by omega)
      rw [if_neg hpos, if_neg hpos, List.append_nil]
      exact ⟨t, rfl, hend, by omega, h⟩

/-! ### LZ_ENCSTEP and LZ_ENCODE -/

theorem exec_lzEncstep (s : State) : exec .lzEncstep s = finish (traceLzEncstep (runLzEncstep s)) (runLzEncstep s) := rfl

theorem exec_lzEncode (s : State) : exec .lzEncode s = finish (traceLzEncode (runLzEncode s)) (runLzEncode s) := rfl

/-- The encoder commands leave the sticky error bit to the completion. -/
theorem runLzEncode_stickyErr (s : State) : (runLzEncode s).st.csr.stickyErr = s.csr.stickyErr :=
  congrArg (·.csr.stickyErr) (keepsInputs_runLzEncode (s := s)).frame

theorem runLzEncstep_stickyErr (s : State) : (runLzEncstep s).st.csr.stickyErr = s.csr.stickyErr :=
  congrArg (·.csr.stickyErr) (keepsInputs_runLzEncstep (s := s)).frame

theorem failsAlone_lzEncstep {code : ErrCode} {pos : Nat} (h : runLzEncstep s = raise code pos s) (hpos : pos < 2 ^ 21) :
    failsAlone .lzEncstep s code.num.toNat pos := failsAlone_of_finish (exec_lzEncstep s) h rfl hpos

/-- LZ_ENCSTEP past its checks (45_lzss.md R152). -/
theorem runLzEncstep_of_room (hw : s.csr.cfgW ≠ 0) (hb : s.csr.cfgB ≠ 0) (hfits : s.csr.inLen.toNat ≤ 4096)
    (hroom : s.csr.tokLen.toNat < 4096) (hpos : s.csr.lzPos.toNat < s.csr.inLen.toNat) :
    runLzEncstep s =
      ⟨lzStep (loadWindows s.csr.lzPos.toNat s), .ok (s.matchAt s.csr.lzPos.toNat).word.toNat⟩ :=
  (if_neg (not_or.2 ⟨hw, hb⟩)).trans <| (if_neg (Nat.not_lt.2 hfits)).trans <| (if_neg (Nat.not_le.2 hroom)).trans <|
    if_neg (Nat.not_le.2 hpos)

/-- LZ_ENCSTEP past its checks appends the token of the match at the cursor (45_lzss.md R152). -/
theorem exec_lzEncstep_of_room (hwf : Memory.wf s.mem) (hw : s.csr.cfgW ≠ 0) (hb : s.csr.cfgB ≠ 0)
    (hfits : s.csr.inLen.toNat ≤ 4096) (hroom : s.csr.tokLen.toNat < 4096)
    (hpos : s.csr.lzPos.toNat < s.csr.inLen.toNat) :
    ∃ t, exec .lzEncstep s = .next t ∧ succeeded s t (s.matchAt s.csr.lzPos.toNat).word.toNat ∧
      TokensWritten s [s.matchAt s.csr.lzPos.toNat] t ∧
      t.csr.lzPos.toNat = s.csr.lzPos.toNat + (s.matchAt s.csr.lzPos.toNat).len + 1 := by
  obtain ⟨hstep, hcursor⟩ := (tokensWritten_loadWindows hwf).step hfits hroom hpos
  have hsticky := runLzEncstep_stickyErr s
  have hexec := exec_lzEncstep s
  rw [runLzEncstep_of_room hw hb hfits hroom hpos] at hexec hsticky
  exact ⟨_, hexec, succeeded_complete hsticky (BitVec.isLt _) _, hstep.recorded (emit_complete_eq _ _),
    by rw [emit_csr]; exact hcursor⟩

/-- LZ_ENCODE starts with no tokens and the windows at cursor 0 (45_lzss.md R151). -/
theorem tokensWritten_start (hwf : Memory.wf s.mem) :
    TokensWritten ((s.setTokLen 0).setLzPos 0) [] (loadWindows 0 ((s.setTokLen 0).setLzPos 0)) :=
  tokensWritten_loadWindows hwf

theorem runLzEncode_of_loop (hw : s.csr.cfgW ≠ 0) (hb : s.csr.cfgB ≠ 0) (hfits : s.csr.inLen.toNat ≤ 4096)
    (he : lzLoop s.csr.inLen.toNat (loadWindows 0 ((s.setTokLen 0).setLzPos 0)) = (t, none)) :
    runLzEncode s = ⟨t, .ok t.csr.tokLen.toNat⟩ := by
  rw [runLzEncode, if_neg (not_or.2 ⟨hw, hb⟩), if_neg (show ¬ Config.nMax < _ from Nat.not_lt.2 hfits), he]

/-- The tokens of the input of `s` (45_lzss.md R149 to R151). -/
def tokensOf (s : State) : List Token :=
  tokensFrom s.inSym s.csr.inLen.toNat s.csr.cfgW.toNat s.csr.cfgB.toNat s.csr.inLen.toNat 0

/-- LZ_ENCODE of an input that fits IN writes its tokens from index 0 on (45_lzss.md R151). -/
theorem exec_lzEncode_of_le (hwf : Memory.wf s.mem) (hw : s.csr.cfgW ≠ 0) (hb : s.csr.cfgB ≠ 0)
    (hfits : s.csr.inLen.toNat ≤ 4096) :
    ∃ t, exec .lzEncode s = .next t ∧ succeeded s t t.csr.tokLen.toNat ∧ t.csr.lzPos = s.csr.inLen ∧
      t.csr.tokLen.toNat ≤ s.csr.inLen.toNat ∧ TokensWritten ((s.setTokLen 0).setLzPos 0) (tokensOf s) t := by
  obtain ⟨u, hloop, hend, htoks, hwritten⟩ := TokensWritten.loop (s := (s.setTokLen 0).setLzPos 0) hfits
    (tokensWritten_start hwf) (Nat.zero_le _) (Nat.zero_le _) (Nat.le_add_left s.csr.inLen.toNat _)
  have hsticky := runLzEncode_stickyErr s
  have hexec := exec_lzEncode s
  have hlt := u.csr.tokLen.isLt
  rw [runLzEncode_of_loop hw hb hfits hloop] at hexec hsticky
  refine ⟨_, hexec, ?_, ?_, ?_, hwritten.recorded (emit_complete_eq _ _)⟩ <;> rw [emit_csr]
  · exact succeeded_complete hsticky (hlt.trans (by decide)) _
  · exact hend
  · exact htoks

end

/-- Settles O50: after its checks LZ_ENCSTEP is one step of the encoder from freshly loaded windows. -/
theorem lzEncstepEmitsOneToken : Obligations.LzEncstepEmitsOneToken := by
  unfold Obligations.LzEncstepEmitsOneToken
  refine fun s hwf => ⟨fun hcfg => failsAlone_lzEncstep (code := .invalidConfiguration) (if_pos hcfg) (by decide),
    fun hw hb hover => failsAlone_lzEncstep (code := .capacityExceeded) ?_ (by decide), fun hw hb hfits hroom hend =>
      failsAlone_lzEncstep (code := .badIndex) ?_ (s.csr.lzPos.isLt.trans (by decide)),
    fun tk hw hb hfits hroom hpos htk => ?_⟩
  · refine (if_neg (not_or.2 ⟨hw, hb⟩)).trans ?_
    by_cases hlong : 4096 < s.csr.inLen.toNat
    · exact if_pos hlong
    · exact (if_neg hlong).trans (if_pos (hover.resolve_left hlong))
  · exact (if_neg (not_or.2 ⟨hw, hb⟩)).trans <| (if_neg (Nat.not_lt.2 hfits)).trans <|
      (if_neg (Nat.not_le.2 hroom)).trans (if_pos hend)
  · obtain ⟨t, he, hrecord, hwritten, hcursor⟩ := exec_lzEncstep_of_room hwf hw hb hfits hroom hpos
    obtain rfl : tk = s.matchAt s.csr.lzPos.toNat := htk
    obtain ⟨hframe, -, hmem, htokLen, htok, hhwin, hlwin⟩ := hwritten
    refine ⟨t, he, hrecord, List.singleton_inj.1 htok, htokLen, hcursor, hhwin, hlwin, hframe, ?_⟩
    rw [htokLen] at hmem
    exact hmem

/-- Settles O51: the loop of LZ_ENCODE writes one token after the other and never fills TOKBUF. -/
theorem lzEncodeWritesTheTokens : Obligations.LzEncodeWritesTheTokens := by
  unfold Obligations.LzEncodeWritesTheTokens
  refine fun s hwf => ⟨fun hcfg =>
    failsAlone_of_finish (code := .invalidConfiguration) (exec_lzEncode s) (if_pos hcfg) rfl (by decide),
    fun hw hb hlong => failsAlone_of_finish (code := .capacityExceeded) (exec_lzEncode s)
      ((if_neg (not_or.2 ⟨hw, hb⟩)).trans (if_pos hlong)) rfl (by decide), fun hw hb hfits => ?_⟩
  obtain ⟨t, he, hrecord, hend, -, hwritten⟩ := exec_lzEncode_of_le hwf hw hb hfits
  obtain ⟨hhwin, hlwin⟩ := hwritten.views
  rw [hend] at hhwin hlwin
  exact ⟨t, he, hrecord, hwritten.tok_from_zero rfl, hend, hhwin,
    hlwin.trans (congrArg (Window.mk s.csr.cfgB.toNat) (State.inSlice_of_ge (Nat.min_le_left _ _))), hwritten.frame,
    hwritten.mem⟩

end Sys2Proof.Machine
end

section
/-! PROOFS. The decoder: a token that passes its checks appends the copied symbols and its next one to OUT, as a replay on a
growing list does, so that LZ_DECTOK replays one token and LZ_DECODE the tokens up to the first bad one (45_lzss.md R148, R153,
R154). -/

namespace Sys2Proof.Machine

/-! ### The checks of a token -/

/-- A token word that is malformed, or reaches back further than the window `w` or the output of length `m` goes
(45_lzss.md R148). -/
abbrev BadToken (w m : Nat) (wd : Word) : Prop :=
  tokReserved wd ≠ 0 ∨ (tokDist wd = 0 ∧ tokLength wd ≠ 0) ∨ w < tokDist wd ∨ m < tokDist wd

section
variable {s t u : State} {wd : Word} {pos : Nat} {out : List Byte}

theorem not_badToken_iff {w m : Nat} : ¬ BadToken w m wd ↔
    tokReserved wd = 0 ∧ (tokDist wd = 0 → tokLength wd = 0) ∧ tokDist wd ≤ w ∧ tokDist wd ≤ m := by
  simp only [BadToken, not_or, not_and, not_not, Nat.not_lt, ne_eq]

/-- The token decoder by its checks (45_lzss.md R148). -/
theorem decodeToken_eq (wd : Word) (pos : Nat) (s : State) : decodeToken wd pos s =
    if BadToken s.csr.cfgW.toNat s.csr.outLen.toNat wd then .error ⟨.corruptStream, pos⟩
    else if 4096 < s.csr.outLen.toNat + tokLength wd + 1 then .error ⟨.capacityExceeded, pos⟩
    else .ok (replayToken wd s) := by
  simp only [BadToken, ite_or]
  rfl

/-- The token decoder answers the token's error (45_lzss.md R148). -/
theorem decodeToken_of_tokenError (hlen : s.csr.outLen.toNat = out.length)
    (herr : tokenError s.csr.cfgW.toNat out wd ≠ 0) :
    ∃ code : ErrCode, decodeToken wd pos s = .error ⟨code, pos⟩ ∧ code.num.toNat = tokenError s.csr.cfgW.toNat out wd := by
  rw [decodeToken_eq, hlen]
  unfold tokenError at herr ⊢
  split_ifs at herr ⊢
  · exact ⟨.corruptStream, rfl, rfl⟩
  · exact ⟨.capacityExceeded, rfl, rfl⟩
  · exact absurd rfl herr

theorem tokenError_eq_zero_iff {w : Nat} :
    tokenError w out wd = 0 ↔ ¬ BadToken w out.length wd ∧ out.length + tokLength wd + 1 ≤ 4096 := by
  unfold tokenError
  split_ifs with hbad hfull
  · exact ⟨nofun, fun h => absurd hbad h.1⟩
  · exact ⟨nofun, fun h => absurd hfull (Nat.not_lt.2 h.2)⟩
  · exact ⟨fun _ => ⟨hbad, Nat.not_lt.1 hfull⟩, fun _ => rfl⟩

/-! ### The replay of one token -/

/-- `s` with what the decoder writes as `t` has it: OUT, OUT_LEN, HWIN, the completion record, the trace. -/
def replayFrame (s t : State) : State :=
  { recorded s t with mem := t.mem, hwin := t.hwin, trace := t.trace,
                      csr := { (recorded s t).csr with outLen := t.csr.outLen } }

theorem replayFrame_trans (h : t = replayFrame s t) (h' : u = replayFrame t u) : u = replayFrame s u := by
  have hview := congrArg (fun x => replayFrame x u) h
  exact h'.trans hview

/-- The completion adds the record and the trace. -/
theorem replayFrame_recorded (h : t = replayFrame s t) (hrecord : u = { recorded t u with trace := u.trace }) :
    u = replayFrame s u := by
  have hview := congrArg (fun x => replayFrame x u) hrecord
  exact replayFrame_trans h hview

/-- `t` is `s` with the token `wd` replayed at the end of the output: the copied symbols, then its next symbol. -/
structure TokenReplayed (wd : Word) (s t : State) : Prop where
  frame : t = replayFrame s t
  wf : Memory.wf t.mem
  mem : sameOutside (outAddr s.csr.outLen.toNat) (outAddr t.csr.outLen.toNat) s t
  outLen : t.csr.outLen.toNat = s.csr.outLen.toNat + tokLength wd + 1
  copied : ∀ j, j < tokLength wd →
    t.outSym (s.csr.outLen.toNat + j) = t.outSym (s.csr.outLen.toNat + j - tokDist wd)
  next : t.outSym (s.csr.outLen.toNat + tokLength wd) = tokNext wd
  hwin : t.hwin = ⟨s.csr.cfgW.toNat, t.outSlice (t.csr.outLen.toNat - s.csr.cfgW.toNat) t.csr.outLen.toNat⟩

/-- A token that passes its checks is replayed (45_lzss.md R148). -/
theorem tokenReplayed_replayToken (hwf : Memory.wf s.mem) (hzero : tokDist wd = 0 → tokLength wd = 0)
    (hback : tokDist wd ≤ s.csr.outLen.toNat) (hroom : s.csr.outLen.toNat + tokLength wd + 1 ≤ 4096) :
    TokenReplayed wd s (replayToken wd s) := by
  have hlen : (replayToken wd s).csr.outLen.toNat = s.csr.outLen.toNat + tokLength wd + 1 :=
    (BitVec.toNat_ofNat _ 16).trans (Nat.mod_eq_of_lt (by omega))
  obtain ⟨hframe, hmem⟩ := copySymbols_frame s.csr.outLen.toNat (tokDist wd) (tokLength wd) s
  have hcopywf := copySymbols_wf hwf s.csr.outLen.toNat (tokDist wd) (tokLength wd)
  have hread : ∀ i, (replayToken wd s).outSym i = if s.csr.outLen.toNat + tokLength wd = i then tokNext wd
      else (copySymbols s.csr.outLen.toNat (tokDist wd) (List.range (tokLength wd)) s).outSym i := fun i =>
    State.outSym_setOut hcopywf _ i _
  constructor
  case frame =>
    have hview := congrArg (fun x => replayFrame x (replayToken wd s)) hframe
    exact hview
  case wf => exact State.setOut_wf hcopywf _ _
  case mem =>
    intro a ha
    rw [hlen] at ha
    refine (Memory.get_set_of_ne ?_ _).trans (hmem a fun j hj => ?_) <;> simp only [outAddr] at ha ⊢ <;> omega
  case outLen => exact hlen
  case copied =>
    intro j hj
    have hd : 1 ≤ tokDist wd := Nat.one_le_iff_ne_zero.2 fun h0 => absurd (hzero h0) (by omega)
    rw [hread, hread, if_neg (by omega), if_neg (by omega)]
    exact (outSym_copySymbols hwf (tokLength wd) hd hback).2 j hj
  case next => rw [hread, if_pos rfl]
  case hwin =>
    rw [hlen]
    exact Window.construct_pushMany_of_le (by rw [State.outSlice_length]; omega)

theorem TokenReplayed.recorded (h : TokenReplayed wd s t) (hrecord : u = { recorded t u with trace := u.trace }) :
    TokenReplayed wd s u := by
  have hmem : u.mem = t.mem := congrArg (·.mem) hrecord
  have hlen : u.csr.outLen = t.csr.outLen := congrArg (·.csr.outLen) hrecord
  have hhwin : u.hwin = t.hwin := congrArg (·.hwin) hrecord
  have hout : u.outSym = t.outSym := funext fun i => by rw [State.outSym, hmem, State.outSym]
  have hslice : u.outSlice = t.outSlice := by unfold State.outSlice; rw [hout]
  refine ⟨replayFrame_recorded h.frame hrecord, hmem ▸ h.wf, fun a ha => ?_, hlen ▸ h.outLen, hout ▸ h.copied,
    hout ▸ h.next, ?_⟩
  · rw [hmem]
    exact h.mem a (hlen ▸ ha)
  · rw [hhwin, hlen, hslice, h.hwin]

/-! ### The output as a growing list -/

theorem State.outSlice_zero (s : State) (n : Nat) : s.outSlice 0 n = (List.range n).map s.outSym := by
  rw [State.outSlice, slice, Nat.sub_zero, List.range_eq_range']

theorem State.outSlice_drop (a b k : Nat) : (s.outSlice a b).drop k = s.outSlice (a + k) b := by
  rw [State.outSlice, ← List.map_drop, slice_drop, State.outSlice]

/-- The sequential copy on the first `m` values of a sequence that repeats itself `d` places on gives the first `m + l` values
(45_lzss.md R148, 70_reset_and_hazards.md R182). -/
theorem copyBack_map_range {f : Nat → Byte} {m d l : Nat} (hzero : d = 0 → l = 0) (hback : d ≤ m)
    (hcopy : ∀ j, j < l → f (m + j) = f (m + j - d)) :
    copyBack d l ((List.range m).map f) = (List.range (m + l)).map f := by
  induction l generalizing m with
  | zero => rfl
  | succ l ih =>
    have hd : d ≠ 0 := fun h0 => Nat.succ_ne_zero l (hzero h0)
    have hnext : ((List.range m).map f).getD (m - d) 0 = f m := by
      rw [List.getD_eq_getElem _ _ (by simp; omega), List.getElem_map, List.getElem_range]
      exact (hcopy 0 (Nat.succ_pos l)).symm
    rw [copyBack, List.length_map, List.length_range, hnext]
    have hgrown := ih (m := m + 1) (fun h0 => absurd h0 hd) (by omega) fun j hj => by
      rw [Nat.add_assoc, Nat.add_comm 1 j]
      exact hcopy (j + 1) (by omega)
    rw [List.range_succ, List.map_append, List.map_singleton] at hgrown
    rw [hgrown, Nat.add_assoc, Nat.add_comm 1 l]

/-- `t` is `s` with OUT replaced by `out`, as the decoder leaves it. -/
structure ReplayedSoFar (s : State) (out : List Byte) (t : State) : Prop where
  frame : t = replayFrame s t
  wf : Memory.wf t.mem
  mem : sameOutside (outAddr 0) (outAddr out.length) s t
  full : out.length ≤ 4096
  outLen : t.csr.outLen.toNat = out.length
  cells : (List.range out.length).map t.outSym = out
  hwin : t.hwin = ⟨s.csr.cfgW.toNat, out.drop (out.length - s.csr.cfgW.toNat)⟩

/-- LZ_DECODE starts with no output (45_lzss.md R153). -/
theorem replayedSoFar_start (hwf : Memory.wf s.mem) :
    ReplayedSoFar s [] ((s.setOutLen 0).setWin .hwin (Window.construct s.csr.cfgW.toNat)) :=
  ⟨rfl, hwf, fun _ _ => rfl, Nat.zero_le _, rfl, rfl, congrArg (Window.mk _) List.drop_nil.symm⟩

/-- TOKBUF lies beyond OUT (20_memory.md R63). -/
theorem ReplayedSoFar.tok_eq (h : ReplayedSoFar s out t) (i : Nat) : t.tok i = s.tok i := by
  have hfull := h.full
  exact Memory.readWord_congr fun k _ => h.mem _ (.inr (by simp only [outAddr, outBase, tokAddr, tokBase]; omega))

/-- A token that passes its checks lengthens the output as it lengthens the list (45_lzss.md R148). -/
theorem ReplayedSoFar.replayToken (h : ReplayedSoFar s out t) (herr : tokenError s.csr.cfgW.toNat out wd = 0) :
    decodeToken wd pos t = .ok (replayToken wd t) ∧
      ReplayedSoFar s (copyBack (tokDist wd) (tokLength wd) out ++ [tokNext wd]) (replayToken wd t) := by
  have hcfgW : t.csr.cfgW = s.csr.cfgW := congrArg (·.csr.cfgW) h.frame
  obtain ⟨hgood, hroom⟩ := tokenError_eq_zero_iff.1 herr
  obtain ⟨-, hzero, -, hback⟩ := not_badToken_iff.1 hgood
  obtain ⟨hframe, hwf, hmem, hfull, hlen, hout, -⟩ := h
  rw [decodeToken_eq, hlen, hcfgW, if_neg hgood, if_neg (Nat.not_lt.2 hroom)]
  obtain ⟨hframe', hwf', hmem', hlen', hcopied, hnext, hhwin⟩ :=
    tokenReplayed_replayToken hwf hzero (hlen ▸ hback) (hlen ▸ hroom)
  generalize Machine.replayToken wd t = u at *
  rw [hlen] at hmem' hlen' hcopied hnext
  rw [hlen'] at hmem' hhwin
  have hold : (List.range out.length).map u.outSym = out := by
    refine (List.map_congr_left fun i hi => ?_).trans hout
    rw [List.mem_range] at hi
    exact hmem' _ (.inl (by simp only [outAddr]; omega))
  have hgrown : copyBack (tokDist wd) (tokLength wd) out ++ [tokNext wd] =
      (List.range (out.length + tokLength wd + 1)).map u.outSym := by
    have hcopy := copyBack_map_range hzero hback hcopied
    rw [hold] at hcopy
    rw [hcopy, List.range_succ, List.map_append, List.map_singleton, hnext]
  have hcount := congrArg List.length hgrown
  rw [List.length_map, List.length_range] at hcount
  refine ⟨rfl, replayFrame_trans hframe hframe', hwf', fun a ha => ?_, ?_, ?_, ?_, ?_⟩
  · rw [hcount] at ha
    refine (hmem' a ?_).trans (hmem a ?_) <;> simp only [outAddr] at ha ⊢ <;> omega
  · rwa [hcount]
  · rw [hcount, hlen']
  · rw [hcount, hgrown]
  · rw [hcount, hgrown, hhwin, hcfgW, ← State.outSlice_zero, State.outSlice_drop, Nat.zero_add]

theorem ReplayedSoFar.recorded (h : ReplayedSoFar s out t) (hrecord : u = { recorded t u with trace := u.trace }) :
    ReplayedSoFar s out u := by
  have hmem : u.mem = t.mem := congrArg (·.mem) hrecord
  have hlen : u.csr.outLen = t.csr.outLen := congrArg (·.csr.outLen) hrecord
  have hhwin : u.hwin = t.hwin := congrArg (·.hwin) hrecord
  have hout : u.outSym = t.outSym := funext fun i => by rw [State.outSym, hmem, State.outSym]
  refine ⟨replayFrame_recorded h.frame hrecord, hmem ▸ h.wf, fun a ha => ?_, h.full, hlen ▸ h.outLen, hout ▸ h.cells,
    hhwin.trans h.hwin⟩
  rw [hmem]
  exact h.mem a ha

/-- The loop of LZ_DECODE replays the tokens `i` to `i + n - 1` as the growing list does, and ends at the same bad token or
at none (45_lzss.md R153). -/
theorem ReplayedSoFar.loop (h : ReplayedSoFar s out t) (i n : Nat) :
    ∃ u o, forElems (fun i t => decodeToken (t.tok i) i t) (List.range' i n) t = (u, o) ∧
      ReplayedSoFar s (replayWords s.csr.cfgW.toNat i out ((List.range' i n).map s.tok)).1 u ∧
      (replayWords s.csr.cfgW.toNat i out ((List.range' i n).map s.tok)).2 =
        o.map (fun e => (e.code.num.toNat, e.pos)) ∧
      ∀ e, o = some e → e.pos < i + n := by
  induction n generalizing i out t with
  | zero => exact ⟨t, none, rfl, h, rfl, nofun⟩
  | succ n ih =>
    have hcfgW : t.csr.cfgW = s.csr.cfgW := congrArg (·.csr.cfgW) h.frame
    rw [List.range'_succ, List.map_cons, replayWords, forElems_cons, h.tok_eq]
    by_cases herr : tokenError s.csr.cfgW.toNat out (s.tok i) = 0
    · obtain ⟨hok, hnext⟩ := h.replayToken herr
      obtain ⟨u, o, hloop, hdone, hend, hpos⟩ := ih hnext (i + 1)
      rw [hok, if_pos herr]
      exact ⟨u, o, hloop, hdone, hend, fun e he => (hpos e he).trans_le (by omega)⟩
    · obtain ⟨code, hraise, hcode⟩ := decodeToken_of_tokenError (pos := i) h.outLen (hcfgW ▸ herr)
      rw [hcfgW] at hcode
      rw [hraise, if_neg herr]
      refine ⟨t, some ⟨code, i⟩, rfl, h, by rw [← hcode]; rfl, fun e he => ?_⟩
      obtain rfl := Option.some.inj he
      exact Nat.lt_add_of_pos_right (Nat.succ_pos n)

/-! ### LZ_DECTOK and LZ_DECODE -/

theorem exec_lzDectok (s : State) : exec .lzDectok s = finish (traceLzDectok s (runLzDectok s)) (runLzDectok s) := rfl

theorem exec_lzDecode (s : State) : exec .lzDecode s = finish (traceLzDecode (runLzDecode s)) (runLzDecode s) := rfl

theorem failsAlone_lzDectok {code : ErrCode} (h : runLzDectok s = raise code 0 s) :
    failsAlone .lzDectok s code.num.toNat 0 := failsAlone_of_finish (exec_lzDectok s) h rfl (by decide)

theorem runLzDectok_of_error (hw : s.csr.cfgW ≠ 0) {e : Err} (he : decodeToken s.csr.arg0 0 s = .error e) :
    runLzDectok s = ⟨s, .error e⟩ := by
  rw [runLzDectok, if_neg hw, he]

theorem runLzDectok_of_ok (hw : s.csr.cfgW ≠ 0) (he : decodeToken s.csr.arg0 0 s = .ok t) :
    runLzDectok s = ⟨t, .ok (tokLength s.csr.arg0 + 1)⟩ := by
  rw [runLzDectok, if_neg hw, he]

/-- LZ_DECTOK of a token that passes its checks replays it (45_lzss.md R154). -/
theorem exec_lzDectok_of_room (hwf : Memory.wf s.mem) (hw : s.csr.cfgW ≠ 0)
    (hgood : ¬ BadToken s.csr.cfgW.toNat s.csr.outLen.toNat s.csr.arg0)
    (hroom : s.csr.outLen.toNat + tokLength s.csr.arg0 + 1 ≤ 4096) :
    ∃ t, exec .lzDectok s = .next t ∧ succeeded s t (tokLength s.csr.arg0 + 1) ∧ TokenReplayed s.csr.arg0 s t := by
  obtain ⟨-, hzero, -, hback⟩ := not_badToken_iff.1 hgood
  have he : decodeToken s.csr.arg0 0 s = .ok (replayToken s.csr.arg0 s) := by
    rw [decodeToken_eq, if_neg hgood, if_neg (Nat.not_lt.2 hroom)]
  have hsticky : (runLzDectok s).st.csr.stickyErr = s.csr.stickyErr :=
    congrArg (·.csr.stickyErr) (keepsInputs_runLzDectok (s := s)).frame
  have hexec := exec_lzDectok s
  rw [runLzDectok_of_ok hw he] at hexec hsticky
  exact ⟨_, hexec, succeeded_complete hsticky (by omega) _,
    (tokenReplayed_replayToken hwf hzero hback hroom).recorded (emit_complete_eq _ _)⟩

/-- How LZ_DECODE ends where its loop does (45_lzss.md R153). -/
theorem runLzDecode_of_loop {o : Option Err} (hw : s.csr.cfgW ≠ 0) (htoks : s.csr.tokLen.toNat ≤ 4096)
    (he : forElems (fun i t => decodeToken (t.tok i) i t) (List.range s.csr.tokLen.toNat)
      ((s.setOutLen 0).setWin .hwin (Window.construct s.csr.cfgW.toNat)) = (u, o)) :
    runLzDecode s = ⟨u, o.elim (.ok u.csr.outLen.toNat) .error⟩ := by
  rw [runLzDecode, if_neg hw, if_neg (show ¬ Config.nTokMax < _ from Nat.not_lt.2 htoks), he]
  cases o <;> rfl

/-- LZ_DECODE past its checks leaves the output of the replay on a growing list, and ends as it does (45_lzss.md R153). -/
theorem exec_lzDecode_of_le {out : List Byte} {err : Option (Nat × Nat)} (hwf : Memory.wf s.mem) (hw : s.csr.cfgW ≠ 0)
    (htoks : s.csr.tokLen.toNat ≤ 4096)
    (hreplay : replayWords s.csr.cfgW.toNat 0 [] ((List.range s.csr.tokLen.toNat).map s.tok) = (out, err)) :
    ∃ t, exec .lzDecode s = .next t ∧ ReplayedSoFar s out t ∧ (err = none → succeeded s t out.length) ∧
      ∀ e i, err = some (e, i) → failed t e i := by
  obtain ⟨u, o, hloop, hdone, hend, hpos⟩ := (replayedSoFar_start hwf).loop 0 s.csr.tokLen.toNat
  rw [← List.range_eq_range'] at hloop hdone hend
  rw [hreplay] at hdone hend
  have hlen := hdone.outLen
  have hfull := hdone.full
  have hsticky : (runLzDecode s).st.csr.stickyErr = s.csr.stickyErr :=
    congrArg (·.csr.stickyErr) (keepsInputs_runLzDecode (s := s)).frame
  have hexec := exec_lzDecode s
  rw [runLzDecode_of_loop hw htoks hloop] at hexec hsticky
  refine ⟨_, hexec, hdone.recorded (emit_complete_eq _ _), fun hnone => ?_, fun e i hsome => ?_⟩
  · obtain rfl : o = none := Option.map_eq_none_iff.1 (hend.symm.trans hnone)
    exact hlen ▸ succeeded_complete hsticky (by omega) _
  · obtain ⟨x, rfl, hx⟩ := Option.map_eq_some_iff.1 (hend.symm.trans hsome)
    obtain ⟨rfl, rfl⟩ := Prod.mk.inj hx
    exact failed_complete (by have := hpos x rfl; omega) _

end

/-- Settles O52: the checks of the token in their order, and otherwise its replay. -/
theorem lzDectokReplaysOneToken : Obligations.LzDectokReplaysOneToken := by
  unfold Obligations.LzDectokReplaysOneToken
  refine fun s hwf => ⟨fun h0 => failsAlone_lzDectok (code := .invalidConfiguration) (if_pos h0), fun hw hbad =>
    failsAlone_lzDectok (code := .corruptStream) (runLzDectok_of_error hw ?_), fun hw hres hzero hwin hback => ?_⟩
  · rw [decodeToken_eq, if_pos hbad]
  · have hgood : ¬ BadToken s.csr.cfgW.toNat s.csr.outLen.toNat s.csr.arg0 := not_badToken_iff.2 ⟨hres, hzero, hwin, hback⟩
    refine ⟨fun hfull => failsAlone_lzDectok (code := .capacityExceeded) (runLzDectok_of_error hw ?_), fun hroom => ?_⟩
    · rw [decodeToken_eq, if_neg hgood, if_pos hfull]
    · obtain ⟨t, he, hrecord, hframe, -, hmem, hlen, hcopied, hnext, hhwin⟩ := exec_lzDectok_of_room hwf hw hgood hroom
      exact ⟨t, he, hrecord, hlen, hcopied, hnext, hhwin, hframe, hmem⟩

/-- Settles O53: the loop of LZ_DECODE and the replay on a growing list go token by token. -/
theorem lzDecodeReplaysTheTokens : Obligations.LzDecodeReplaysTheTokens := by
  unfold Obligations.LzDecodeReplaysTheTokens
  refine fun s hwf => ⟨fun h0 =>
    failsAlone_of_finish (code := .invalidConfiguration) (exec_lzDecode s) (if_pos h0) rfl (by decide), fun hw hover =>
    failsAlone_of_finish (code := .capacityExceeded) (exec_lzDecode s) ((if_neg hw).trans (if_pos hover)) rfl (by decide),
    fun out err hw htoks hreplay => ?_⟩
  obtain ⟨t, he, ⟨hframe, -, hmem, -, hlen, hcells, hhwin⟩, hok, herr⟩ := exec_lzDecode_of_le hwf hw htoks hreplay.symm
  exact ⟨t, he, hlen, (t.outSlice_zero _).trans hcells, hok, herr, hhwin, hframe, hmem⟩

end Sys2Proof.Machine
end

section
/-! PROOFS. The round trip: a token of the matcher replays onto the input before the cursor the symbols from the cursor to the
next one, so that LZ_DECODE gives back what LZ_ENCODE encoded (45_lzss.md R155). -/

namespace Sys2Proof.Machine

section
variable {f : Nat → Byte} {n w b p : Nat}

/-- What the replay needs of a token of the matcher: it passes the checks of the decoder, it repeats earlier symbols, and its
next symbol follows (45_lzss.md R149, R155). -/
theorem findMatch_replays (hp : p < n) :
    ((findMatch f n w b p).dist = 0 → (findMatch f n w b p).len = 0) ∧ (findMatch f n w b p).dist ≤ min w p ∧
      (findMatch f n w b p).len ≤ b ∧ (findMatch f n w b p).next = f (p + (findMatch f n w b p).len) ∧
      ∀ j, j < (findMatch f n w b p).len → f (p + j) = f (p + j - (findMatch f n w b p).dist) := by
  obtain ⟨hliteral, hmatch⟩ := matchIsTheLongestAtTheSmallestOffset f n w b p hp
  rcases Nat.eq_zero_or_pos (findMatch f n w b p).len with h0 | hpos
  · rw [(hliteral h0).1]
    exact ⟨fun _ => rfl, Nat.zero_le _, Nat.zero_le _, rfl, fun j hj => absurd hj (Nat.not_lt_zero j)⟩
  · obtain ⟨hdist, hback, hlen, hnext, heq, -⟩ := hmatch hpos
    refine ⟨fun h0 => by omega, hback, by omega, hnext, fun j hj => ?_⟩
    rw [heq j hj, Nat.sub_add_comm (by omega)]

/-- A token of the matcher fits its word (45_lzss.md R147). -/
theorem findMatch_word (hp : p < n) (hw : w < 4096) (hb : b < 256) :
    tokDist (findMatch f n w b p).word = (findMatch f n w b p).dist ∧
      tokLength (findMatch f n w b p).word = (findMatch f n w b p).len ∧
      tokNext (findMatch f n w b p).word = (findMatch f n w b p).next ∧ tokReserved (findMatch f n w b p).word = 0 := by
  obtain ⟨-, hback, hlen, -, -⟩ := findMatch_replays (f := f) (w := w) (b := b) hp
  exact tokWord_fields _ (by omega) (by omega)

/-- The word of a token of the matcher has no error against the input before the cursor (45_lzss.md R155). -/
theorem tokenError_findMatch (hp : p < n) (hn : n ≤ 4096) (hw : w < 4096) (hb : b < 256) :
    tokenError w ((List.range p).map f) (findMatch f n w b p).word = 0 := by
  obtain ⟨hzero, hback, -, -, -⟩ := findMatch_replays (f := f) (w := w) (b := b) hp
  obtain ⟨hd, hl, -, hres⟩ := findMatch_word (f := f) hp hw hb
  have hinside := findMatch_len_lt f w b hp
  rw [tokenError_eq_zero_iff, not_badToken_iff, hd, hl, List.length_map, List.length_range]
  exact ⟨⟨hres, hzero, by omega, by omega⟩, by omega⟩

/-- The replay of the token at the cursor lengthens the input before the cursor to that before the next one
(45_lzss.md R155). -/
theorem replay_findMatch (hp : p < n) (hw : w < 4096) (hb : b < 256) :
    copyBack (tokDist (findMatch f n w b p).word) (tokLength (findMatch f n w b p).word) ((List.range p).map f) ++
        [tokNext (findMatch f n w b p).word] = (List.range (p + (findMatch f n w b p).len + 1)).map f := by
  obtain ⟨hzero, hback, -, hnext, hcopy⟩ := findMatch_replays (f := f) (w := w) (b := b) hp
  obtain ⟨hd, hl, hc, -⟩ := findMatch_word (f := f) hp hw hb
  rw [hd, hl, hc, hnext, copyBack_map_range hzero (by omega) hcopy, List.range_succ, List.map_append, List.map_singleton]

/-- The tokens from cursor `p` on, replayed on the input before it, give the input (45_lzss.md R155). -/
theorem replayWords_tokensFrom (hn : n ≤ 4096) (hw : w < 4096) (hb : b < 256) {k : Nat} (i : Nat) (hp : p ≤ n)
    (hk : n ≤ p + k) :
    replayWords w i ((List.range p).map f) ((tokensFrom f n w b k p).map Token.word) = ((List.range n).map f, none) := by
  induction k generalizing p i with
  | zero =>
    obtain rfl : p = n := by omega
    rfl
  | succ k ih =>
    rw [tokensFrom]
    by_cases hlt : p < n
    · have hinside := findMatch_len_lt f w b hlt
      rw [if_pos hlt, List.map_cons, replayWords, if_pos (tokenError_findMatch hlt hn hw hb), replay_findMatch hlt hw hb]
      exact ih (i + 1) (by omega) (by omega)
    · obtain rfl : p = n := by omega
      rw [if_neg hlt]
      rfl

end

/-- Settles O54: LZ_ENCODE writes the tokens of the input, and these replay to the input. -/
theorem lzssRoundTrip : Obligations.LzssRoundTrip := by
  unfold Obligations.LzssRoundTrip
  intro s hwf hfits hw hb
  obtain ⟨t, he, -, -, htoks, hwritten⟩ := exec_lzEncode_of_le hwf hw hb hfits
  have hcfgW : t.csr.cfgW = s.csr.cfgW := congrArg (·.csr.cfgW) hwritten.frame
  have hreplay : replayWords t.csr.cfgW.toNat 0 [] ((List.range t.csr.tokLen.toNat).map t.tok) =
      ((List.range s.csr.inLen.toNat).map s.inSym, none) := by
    rw [hwritten.tok_from_zero rfl, hcfgW]
    exact replayWords_tokensFrom hfits s.csr.cfgW.isLt s.csr.cfgB.isLt 0 (Nat.zero_le _) (Nat.le_add_left _ _)
  obtain ⟨u, hu, hdone, hok, -⟩ := exec_lzDecode_of_le hwritten.wf (hcfgW ▸ hw) (htoks.trans hfits) hreplay
  have hcells := hdone.cells
  rw [List.length_map, List.length_range] at hcells hok
  refine ⟨t, u, he, hu, hok rfl, ?_, fun i hi => List.map_inj_left.1 hcells i (List.mem_range.2 hi)⟩
  rw [hdone.outLen, List.length_map, List.length_range]

end Sys2Proof.Machine
end

section
/-! PROOFS. A host write and the completion of a NOP, in both orders (60_exceptions.md R160, 95_test_vectors.md P8). -/

namespace Sys2Proof.Machine

/-- The core's turn on a pending NOP is the completion record of a success with result 0 (40_control.md R104, R110). -/
theorem step_core_nop {s : State} (hp : s.pending = .cmd 0x00000000#32) :
    step { s with agenda := .core :: s.agenda } = .next (completeOk 0 s) :=
  coreTurn_of_decode (i := .nop) hp rfl

/-- Settles O21: the write that comes first finds the core busy and is dropped, and the NOP completes with OVERRUN set; the
write that comes second finds the core Idle and is stored. -/
theorem racingWriteHasTwoOutcomes : Obligations.RacingWriteHasTwoOutcomes := by
  unfold Obligations.RacingWriteHasTwoOutcomes
  intro s v hp
  have hcfgW : isSoftReset (.csr .cfgW) v = false := isSoftReset_of_ne (by decide) v
  refine ⟨?writeFirst, ?coreFirst⟩
  case writeFirst =>
    have hwrite := hostWriteAt_csr_busy (s := { s with agenda := .core :: s.agenda }) (by simp [hp]) hcfgW
    have hcore := step_core_nop (s := { s with csr := { s.csr with overrun := true }, resp := some .written }) hp
    exact ⟨_, _, hwrite, hcore, rfl, rfl, rfl⟩
  case coreFirst =>
    exact ⟨_, _, step_core_nop hp, hostWriteAt_csr_idle (r := .cfgW) rfl hcfgW, rfl, rfl, rfl⟩

end Sys2Proof.Machine
end

section
/-! PROOFS. Words written out from the formats of 30_encoding.md (95_test_vectors.md 2.1). -/

namespace Sys2Proof

/-- A word that is the encoding of a well-formed command decodes to it (30_encoding.md R97, R100). -/
theorem decode_of_eq_encode {w : Word} {i : Instr} (hw : w = encode i) (hi : i.wellFormed = true) : decode w = .ok i :=
  hw ▸ decode_encode i hi

/-- Settles O4: eleven of the words are the encodings of their commands, and no row selects the other two. -/
theorem specWordsDecode : Obligations.SpecWordsDecode := by
  unfold Obligations.SpecWordsDecode
  have hreserved : decode 0x00000100#32 = .error (.reservedBit 0x00#8) := by decide
  have hunassigned : decode 0x00000013#32 = .error (.unassignedOp 0x13#8) := by decide
  exact ⟨decode_of_eq_encode rfl rfl, decode_of_eq_encode rfl rfl, decode_of_eq_encode rfl rfl, decode_of_eq_encode rfl rfl,
    decode_of_eq_encode rfl rfl, decode_of_eq_encode rfl rfl, decode_of_eq_encode rfl rfl, decode_of_eq_encode rfl rfl,
    decode_of_eq_encode rfl rfl, decode_of_eq_encode rfl rfl, decode_of_eq_encode rfl rfl, hreserved,
    hunassigned⟩

end Sys2Proof
end

section
/-! PROOFS. The turn of the core that ends what is pending, the soft reset with the turn after it, and the invariants at
reset (70_reset_and_hazards.md sections 1 and 2). -/

namespace Sys2Proof.Machine

/-! ### One turn of the core -/

/-- No command plans events: the agenda is the environment's (60_exceptions.md R160). -/
theorem runOf_agenda (i : Instr) (s : State) : (runOf i s).st.agenda = s.agenda :=
  congrArg (·.agenda) (keepsInputs_runOf s i).frame

/-- Every turn of the core goes on, leaves nothing pending, and leaves the agenda (70_reset_and_hazards.md R175). -/
theorem coreTurn_ends (s : State) : ∃ t, coreTurn s = .next t ∧ t.pending = .idle ∧ t.agenda = s.agenda := by
  rcases coreTurn_next s with ⟨hp, e⟩ | ⟨-, e⟩ | ⟨w, evs, r, -, hr, e⟩
  · exact ⟨s, e, hp, rfl⟩
  · exact ⟨initStep s, e, rfl, rfl⟩
  · obtain ⟨-, -, -, -, -, hidle, -, hagenda, -⟩ := complete_frame r
    have hexec : r.st.agenda = s.agenda := by
      rcases hr with ⟨i, rfl⟩ | rfl
      · exact runOf_agenda i s
      · rfl
    exact ⟨_, e, (emit_pending evs _).trans hidle, (emit_agenda evs _).trans (hagenda.trans hexec)⟩

/-- Settles O7: with no event left the core has the turn, and its turn ends what is pending. -/
theorem coreTurnEndsWhatIsPending : Obligations.CoreTurnEndsWhatIsPending := by
  unfold Obligations.CoreTurnEndsWhatIsPending
  intro s hnil
  obtain ⟨t, he, hidle, hagenda⟩ := coreTurn_ends s
  exact ⟨t, by rw [step, hnil, he], hidle, hagenda.trans hnil⟩

/-! ### Soft reset -/

/-- With the initialisation pending, the core's turn is `InitStep` (70_reset_and_hazards.md R172). -/
theorem step_core_init {s : State} (hp : s.pending = .init) :
    step { s with agenda := .core :: s.agenda } = .next (initStep s) := by
  change coreTurn s = _
  rw [coreTurn, hp]

/-- Settles O12: the write is accepted whatever is pending and performs `ResetEntry`; `InitStep` is the core's next turn. -/
theorem softResetAtAnyTime : Obligations.SoftResetAtAnyTime := by
  unfold Obligations.SoftResetAtAnyTime
  intro s w hw
  exact ⟨_, _, hostWriteAt_srst hw, rfl, rfl, rfl, step_core_init rfl, rfl, rfl, Memory.get_nil, rfl, rfl, rfl, rfl, rfl⟩

/-! ### The invariants at reset -/

/-- `State.reset` is a state right after reset entry (70_reset_and_hazards.md R172). -/
theorem resetEntry_reset : resetEntry State.reset = State.reset := rfl

/-- Settles O55: the memories and windows are empty as `InitStep` leaves them, and the registers are those of
`ResetEntry`. -/
theorem invariantsHoldAfterReset : Obligations.InvariantsHoldAfterReset := by
  unfold Obligations.InvariantsHoldAfterReset
  have hstore : State.reset.StoreOk := (storeOk_initStep State.reset).of_eq rfl rfl rfl
  have hshape : State.reset.shapeOk := State.shapeOk_iff.2 ⟨hstore, Nat.zero_le 7⟩
  obtain ⟨htree, hwalker⟩ : State.reset.treeInv := resetEntry_reset ▸ treeInv_resetEntry State.reset
  exact ⟨hshape, rfl, htree, hwalker⟩

end Sys2Proof.Machine
end
